-- ==== Sys2Proof/Word.lean ====
section
/-! DEFINITION. The word types of the machine: bytes, the 32-bit control word and lane, the 64-bit register and tile
word, and the 256-bit token payload, bypass slot or flit (R95, R115, R231, R236, R304). -/

namespace Sys2Proof

/-- A byte of memory or of a scratchpad. -/
abbrev Byte := BitVec 8
/-- A control word, or one lane of a token. -/
abbrev Word32 := BitVec 32
/-- A control-thread register, or a tile word. -/
abbrev Word64 := BitVec 64
/-- 256 bits: a token payload, a bypass slot, a state vector, a flit. Lane `l` is bits [32l+31:32l] (R249). -/
abbrev Vec := BitVec 256
/-- A 10-bit cause code, 64 × class + detail (R188). -/
abbrev Cause := BitVec 10

end Sys2Proof
end

