-- ==== Sys2Proof/Syntax.lean ====
section
/-! DEFINITION. The instructions and steps of the Kavri 4: one constructor per row of spec/opcode_table.json.
Control words (R236-R240), tile words (R231-R235), and the rows that are events of the part and its surroundings and
have no encoding (spec/95_what_each_step_holds.md). -/

namespace Sys2Proof

/-- A control register g0-g31 (R304). -/
abbrev Reg := Fin 32

/-- The hint of a conditional branch (R236); code 3 is reserved and never decodes. -/
inductive Hint where
  | none | taken | fall
  deriving DecidableEq, Repr

/-- Fence scopes (R168, R321), coded 0-5. -/
inductive Scope where
  | tile | cluster | die | package | domain | system
  deriving DecidableEq, Repr

/-- The access size of an atomic (R239): the suffix .w or .d. -/
inductive AmoSize where
  | w | d
  deriving DecidableEq, Repr

/-- Tile source selectors (R232). -/
inductive Sel where
  | byp (n : Fin 6) | zero | imm | port (n : Fin 4) | ctr (n : Fin 4) | sv (n : Fin 8) | lane | weight
  deriving DecidableEq, Repr

/-- Lane types (R231). -/
inductive LaneType where
  | i32 | n32 | f32 | bf16x2 | i16x2 | n16x2 | fmt
  deriving DecidableEq, Repr

/-- Rounding modes (R36). -/
inductive Rnd where
  | rne | rtz | rup | rdn | rna | rsr
  deriving DecidableEq, Repr

/-- The fields of a lane instruction's word (R231). `xa` is the source type of cvt and zero elsewhere. -/
structure Lane where
  sa   : Sel := .byp 0
  sb   : Sel := .byp 0
  sc   : Sel := .byp 0
  omsk : BitVec 4 := 0
  lt   : LaneType := .i32
  rnd  : Rnd := .rne
  keep : Bool := false
  sat  : Bool := false
  fmtx : Fin 32 := 0
  xa   : BitVec 3 := 0
  imm  : BitVec 21 := 0
  deriving DecidableEq, Repr

/-- An access of the host to a management register (R202): its bytes, and the value it writes; one without a value reads. -/
structure RegAccess where
  bytes : Nat := 8
  value : Option Word64 := none
  deriving DecidableEq, Repr

/-- A link that goes down (R206), and after how many cycles it is up again, if it is. -/
structure LinkLoss where
  link : Nat := 0
  back : Option Nat := none
  deriving DecidableEq, Repr

/-- What a result-yielding instruction does with its result (R231): the ports it goes out on, and KEEP. -/
structure Push where
  omsk : BitVec 4 := 0
  keep : Bool := false
  deriving DecidableEq, Repr

/-- The operands of mma (R289). -/
structure MmaOp where
  acc : Fin 4
  x   : Fin 8
  y   : Fin 8
  kl  : BitVec 10
  kh  : BitVec 11
  deriving DecidableEq, Repr

/-- The operands of mma.c (R289): X / 2, kl / 256, kh - kl - 1 and the chunk index. -/
structure MmaCOp where
  acc  : Fin 4
  xh   : Fin 4
  klh  : BitVec 2
  len  : BitVec 8
  j    : BitVec 12
  deriving DecidableEq, Repr

/-- The operands of mwait (R289). -/
structure MwaitOp where
  slots : BitVec 8
  accs  : BitVec 4
  limit : BitVec 17
  out   : Push
  deriving DecidableEq, Repr

/-- The operands of tmove (R281): source, destination and length selectors, direction, notify bit, control input. -/
structure TmoveOp where
  src    : Sel
  dst    : Sel
  len    : Sel
  dir    : Fin 4
  notify : Bool
  cin    : Fin 4
  immHi  : BitVec 19 := 0
  deriving DecidableEq, Repr

/-- A tile-store operand (R278): lane mask and byte offset. -/
structure StoreOp where
  mask : BitVec 8
  off  : BitVec 17
  deriving DecidableEq, Repr

/-- A place a Huash breakpoint watches (R213, R351, R354, R356). -/
inductive BreakOn where
  | fire (site actor count : Nat)
  | round (n : Nat)
  | ember (grove : Option Nat)
  | ash (site port : Nat)
  | pruneRouter (router : Nat)
  | pruneFlow (flow : Nat)
  | pc (thread addr : Nat)
  | fault (cls : Nat)
  | cycle (n : Nat)
  deriving DecidableEq, Repr

/-- What a trace records (R349): an input port, an output port, or an actor. -/
inductive TraceOf where
  | inPort (site port : Nat)
  | outPort (site port : Nat)
  | actor (site actor : Nat)
  deriving DecidableEq, Repr

/-- What the trim command names (R354). -/
inductive TrimOf where
  | flow (id : Nat)
  | router (router dir : Nat)
  | hearth (die cx : Nat) (up : Bool)
  deriving DecidableEq, Repr

/-- One constructor per row of spec/opcode_table.json, in the table's order. -/
inductive Instr where
  /-- ADD (R306): Control ALU add: rd := ra + rb modulo 2^64. -/
  | add (d a b : Reg)
  /-- SUB (R306): Control ALU subtract modulo 2^64. -/
  | sub (d a b : Reg)
  /-- AND (R306): Control ALU bitwise AND. -/
  | and (d a b : Reg)
  /-- OR (R306): Control ALU bitwise OR. -/
  | or (d a b : Reg)
  /-- XOR (R306): Control ALU bitwise XOR. -/
  | xor (d a b : Reg)
  /-- SLL (R306): Control shift left by rb[5:0]. -/
  | sll (d a b : Reg)
  /-- SRL (R306): Control logical shift right by rb[5:0]. -/
  | srl (d a b : Reg)
  /-- SRA (R306): Control arithmetic shift right by rb[5:0]. -/
  | sra (d a b : Reg)
  /-- SLT (R306): Set 1 if ra is less than rb, signed. -/
  | slt (d a b : Reg)
  /-- SLTU (R306): Set 1 if ra is less than rb, unsigned. -/
  | sltu (d a b : Reg)
  /-- MUL (R306): Low 64 bits of the product, readable after 4 cycles. -/
  | mul (d a b : Reg)
  /-- MULH (R306): High 64 bits of the signed product. -/
  | mulh (d a b : Reg)
  /-- MULHU (R306): High 64 bits of the unsigned product. -/
  | mulhu (d a b : Reg)
  /-- DIV (R306): Signed division truncated toward zero with defined divide-by-zero and overflow results. -/
  | div (d a b : Reg)
  /-- DIVU (R306): Unsigned division; divide by zero gives all ones. -/
  | divu (d a b : Reg)
  /-- REM (R306): Signed remainder with the sign of the dividend. -/
  | rem (d a b : Reg)
  /-- REMU (R306): Unsigned remainder. -/
  | remu (d a b : Reg)
  /-- ADDC (R306): Carry out of the unsigned sum of ra and rb. -/
  | addc (d a b : Reg)
  /-- SUBC (R306): Borrow out of the unsigned difference. -/
  | subc (d a b : Reg)
  /-- MIN (R306): Signed minimum. -/
  | min (d a b : Reg)
  /-- MAX (R306): Signed maximum. -/
  | max (d a b : Reg)
  /-- MINU (R306): Unsigned minimum. -/
  | minu (d a b : Reg)
  /-- MAXU (R306): Unsigned maximum. -/
  | maxu (d a b : Reg)
  /-- SLLI (R307): Shift left by an immediate amount. -/
  | slli (d a : Reg) (sh : BitVec 6)
  /-- SRLI (R307): Logical shift right by an immediate amount. -/
  | srli (d a : Reg) (sh : BitVec 6)
  /-- SRAI (R307): Arithmetic shift right by an immediate amount. -/
  | srai (d a : Reg) (sh : BitVec 6)
  /-- ADDI (R307): Add a sign-extended immediate. -/
  | addi (d a : Reg) (imm : BitVec 15)
  /-- ANDI (R307): AND with a zero-extended immediate. -/
  | andi (d a : Reg) (imm : BitVec 15)
  /-- ORI (R307): OR with a zero-extended immediate. -/
  | ori (d a : Reg) (imm : BitVec 15)
  /-- XORI (R307): XOR with a zero-extended immediate. -/
  | xori (d a : Reg) (imm : BitVec 15)
  /-- SLTI (R307): Set if less than a sign-extended immediate, signed. -/
  | slti (d a : Reg) (imm : BitVec 15)
  /-- SLTIU (R307): Set if less than a sign-extended immediate, unsigned. -/
  | sltiu (d a : Reg) (imm : BitVec 15)
  /-- LI (R307): Load a sign-extended immediate into rd. -/
  | li (d : Reg) (imm : BitVec 15)
  /-- LD_B (R309): Load one byte, sign-extended, after translation. -/
  | ldB (d a : Reg) (imm : BitVec 15)
  /-- LD_BU (R309): Load one byte, zero-extended. -/
  | ldBu (d a : Reg) (imm : BitVec 15)
  /-- LD_H (R309): Load two bytes, sign-extended. -/
  | ldH (d a : Reg) (imm : BitVec 15)
  /-- LD_HU (R309): Load two bytes, zero-extended. -/
  | ldHu (d a : Reg) (imm : BitVec 15)
  /-- LD_W (R309): Load four bytes, sign-extended. -/
  | ldW (d a : Reg) (imm : BitVec 15)
  /-- LD_WU (R309): Load four bytes, zero-extended. -/
  | ldWu (d a : Reg) (imm : BitVec 15)
  /-- LD_D (R309): Load eight bytes. -/
  | ldD (d a : Reg) (imm : BitVec 15)
  /-- ST_B (R309): Store the low byte of rs. -/
  | stB (r a : Reg) (imm : BitVec 15)
  /-- ST_H (R309): Store the low two bytes of rs. -/
  | stH (r a : Reg) (imm : BitVec 15)
  /-- ST_W (R309): Store the low four bytes of rs. -/
  | stW (r a : Reg) (imm : BitVec 15)
  /-- ST_D (R309): Store eight bytes of rs. -/
  | stD (r a : Reg) (imm : BitVec 15)
  /-- LDF (R311): Full-empty peek: read the word, waiting while it is empty. -/
  | ldf (d a : Reg) (imm : BitVec 15)
  /-- LDT (R311): Full-empty take: wait until full, read and empty the word. -/
  | ldt (d a : Reg) (imm : BitVec 15)
  /-- STF (R311): Full-empty fill: write and fill an empty word, faulting on a full one, and release waiters. -/
  | stf (r a : Reg) (imm : BitVec 15)
  /-- STFO (R311): Full-empty fill that overwrites a full word. -/
  | stfo (r a : Reg) (imm : BitVec 15)
  /-- AMO_ADD (R312): Atomic add at the memory node, returning the old value. -/
  | amoAdd (d a b : Reg) (sz : AmoSize)
  /-- AMO_MIN (R312): Atomic signed minimum. -/
  | amoMin (d a b : Reg) (sz : AmoSize)
  /-- AMO_MAX (R312): Atomic signed maximum. -/
  | amoMax (d a b : Reg) (sz : AmoSize)
  /-- AMO_SWAP (R312): Atomic swap. -/
  | amoSwap (d a b : Reg) (sz : AmoSize)
  /-- AMO_CAS (R312): Atomic compare-and-swap against the old value in rd. -/
  | amoCas (d a b : Reg) (sz : AmoSize)
  /-- BEQ (R314): Branch if equal, optionally hinted. -/
  | beq (a b : Reg) (h : Hint) (off : BitVec 13)
  /-- BNE (R314): Branch if not equal. -/
  | bne (a b : Reg) (h : Hint) (off : BitVec 13)
  /-- BLT (R314): Branch if less, signed. -/
  | blt (a b : Reg) (h : Hint) (off : BitVec 13)
  /-- BGE (R314): Branch if greater or equal, signed. -/
  | bge (a b : Reg) (h : Hint) (off : BitVec 13)
  /-- BLTU (R314): Branch if less, unsigned. -/
  | bltu (a b : Reg) (h : Hint) (off : BitVec 13)
  /-- BGEU (R314): Branch if greater or equal, unsigned. -/
  | bgeu (a b : Reg) (h : Hint) (off : BitVec 13)
  /-- JAL (R315): Jump by a signed word offset, linking pc + 4 into rd. -/
  | jal (d : Reg) (off : BitVec 20)
  /-- JR (R315): Jump to the address in ra, linking pc + 4 into rd. -/
  | jr (d a : Reg)
  /-- SYSR (R317): Read a system register into rd. -/
  | sysr (d : Reg) (n : BitVec 10)
  /-- SYSW (R317): Write a system register from ra, with privilege and range checks. -/
  | sysw (a : Reg) (n : BitVec 10)
  /-- TRAP (R319): Control trap: traps with cause 0x0E1 and tval := code. -/
  | trap (code : BitVec 10)
  /-- ERET (R319): Return from a trap: pc := epc, trap_active := 0. -/
  | eret
  /-- HALT (R320): Halt the thread once its own accesses complete. -/
  | halt
  /-- IDLE (R320): Put the thread into Waiting until a stage swap or a handler dispatch. -/
  | idle
  /-- FENCE (R168): Hold later accesses until earlier accesses within the scope are performed. -/
  | fence (sc : Scope)
  /-- WAIT (R331): Wait until each outstanding counter is at or below its limit. -/
  | wait (l t c m : BitVec 5)
  /-- BAR_INIT (R156): Initialise a barrier object in slice store with n participants. -/
  | barInit (a b : Reg)
  /-- ARRIVE (R156): Arrive at a barrier, returning the phase and advancing it on the last arrival. -/
  | arrive (d a : Reg)
  /-- AWAIT (R332): Wait until the barrier's phase differs from the given phase. -/
  | await (a b : Reg)
  /-- GJOIN (R153): Add the issuing thread to a group. -/
  | gjoin (a : Reg)
  /-- GLEAVE (R153): Remove the issuing thread from a group. -/
  | gleave (a : Reg)
  /-- GSIZE (R153): Return a group's member count. -/
  | gsize (d a : Reg)
  /-- SBIND (R326): Bind a load stream to a circuit output after the bind checks. -/
  | sbind (d a b : Reg)
  /-- SFILL (R56): Bind a fill stream into an operand slot, with optional follow-on command. -/
  | sfill (d a b : Reg)
  /-- SSTORE (R142): Bind a store stream to a slice circuit input. -/
  | sstore (d a b : Reg)
  /-- SGATHER (R326): Bind a gather stream feeding offsets to a gather node. -/
  | sgather (d a b : Reg)
  /-- SSCATTER (R326): Bind a scatter stream on a read-modify-write node's input. -/
  | sscatter (d b : Reg)
  /-- SCUT (R138): Start a tile-cutter stream over a sparse panel and its dense partner. -/
  | scut (d a b : Reg)
  /-- SHALO (R86): Exchange boundary strips over a rectangle of tiles. -/
  | shalo (a : Reg)
  /-- SMOVE (R84): Copy a byte range between stores of the grove. -/
  | smove (a : Reg)
  /-- SWIN (R330): Set or remove a stream's window for a branch or all branches. -/
  | swin (a b : Reg)
  /-- SCLOSE (R330): Close a stream early. -/
  | sclose (a : Reg)
  /-- SRESUME (R330): Resume a paused stream from its withheld token. -/
  | sresume (a : Reg)
  /-- SRESUME_T (R330): Restart a stopped tile. -/
  | sresumeT (a : Reg)
  /-- SFLUSH (R330): Discard a stream's held contents and end it. -/
  | sflush (a : Reg)
  /-- GLOAD (R159): Place and load a grove image. -/
  | gload (d a b : Reg)
  /-- GSPLICE (R161): Splice a successor image onto a running grove. -/
  | gsplice (a b : Reg)
  /-- GSTAGE (R162): Give a grove a stage list and load stage 0. -/
  | gstage (d a b : Reg) (nm1 : BitVec 2)
  /-- GRELEASE (R90): Release a grove once its writes have landed. -/
  | grelease (a : Reg)
  /-- MODE (R335): Set a grove's live or exact mode. -/
  | setMode (a b : Reg)
  /-- ROUND (R330): Set a stream's round length from the next round. -/
  | setRound (a b : Reg)
  /-- EMBER (R195): Stop a grove at a consistent cut and save it. -/
  | ember (d a : Reg)
  /-- REKINDLE (R197): Place a saved grove and restore its state. -/
  | rekindle (d a b : Reg)
  /-- NSEND (R337): Send a route-class message inside the grove. -/
  | nsend (a b : Reg) (len : BitVec 4)
  /-- MASKC (R340): Mask a route class at the core. -/
  | maskc (a : Reg)
  /-- UNMASKC (R340): Unmask a route class, releasing held messages in order. -/
  | unmaskc (a : Reg)
  /-- NRED (R341): Contribute to a canonical remote reduction and wait for the result. -/
  | nred (d a b : Reg)
  /-- LEAVE_REQ (R164): Ask the damper for a heavy-slot grant. -/
  | leaveReq (d a : Reg)
  /-- LEAVE_RET (R164): Return heavy slots. -/
  | leaveRet (a : Reg)
  /-- MFSNAP (R344): Write a grove's 2,048-byte manifest to memory. -/
  | mfsnap (a b : Reg)
  /-- MFCMP (R345): Compare a fresh manifest with a stored one and report the first difference. -/
  | mfcmp (d a b : Reg)
  /-- TINV (R25): Invalidate a virtual range, repatching paused generators. -/
  | tinv (a b : Reg)
  /-- MARK_GIVE (R155): Give mark: the next instruction reserves a token FIFO entry pushed at its completion. -/
  | markGive (f : Fin 8)
  /-- MARK_TAKE (R155): Take mark: the next instruction first pops a token FIFO entry, waiting on empty. -/
  | markTake (f : Fin 8)
  /-- PREFIX (R237): Supply a 32-bit immediate replacing imm15 of the following instruction. -/
  | prefixWord
  /-- LOAD_DATA_RETURN (R154): A control load's data reaches its register, completing it on ld. -/
  | loadDataReturn (id : Nat)
  /-- STORE_ACKNOWLEDGEMENT (R154): A control store or atomic is acknowledged by its memory node, completing on st. -/
  | storeAcknowledgement (id : Nat)
  /-- OPERATION_COMPLETE (R324): An engine operation completes, lowering its counter and pushing any give mark. -/
  | operationComplete (id : Nat)
  /-- TINV_COMPLETE (R25): All paused generators resume and buffers are purged, completing the tinv. -/
  | tinvComplete (id : Nat)
  /-- TILE_ADD (R251): Lane integer add, wrapping or saturating. -/
  | tileAdd (o : Lane)
  /-- TILE_SUB (R251): Lane integer subtract. -/
  | tileSub (o : Lane)
  /-- TILE_MUL (R251): Lane integer multiply. -/
  | tileMul (o : Lane)
  /-- TILE_MULH (R251): Upper half of the lane product. -/
  | tileMulh (o : Lane)
  /-- TILE_MIN (R251): Lane integer minimum. -/
  | tileMin (o : Lane)
  /-- TILE_MAX (R251): Lane integer maximum. -/
  | tileMax (o : Lane)
  /-- ABS (R251): Lane integer absolute value. -/
  | abs (o : Lane)
  /-- NEG (R251): Lane integer negation. -/
  | neg (o : Lane)
  /-- TILE_AND (R253): Bitwise AND over 256 bits. -/
  | tileAnd (o : Lane)
  /-- TILE_OR (R253): Bitwise OR over 256 bits. -/
  | tileOr (o : Lane)
  /-- TILE_XOR (R253): Bitwise XOR over 256 bits. -/
  | tileXor (o : Lane)
  /-- NOT (R253): Bitwise NOT over 256 bits. -/
  | notLane (o : Lane)
  /-- SHL (R252): Lane shift left, optionally saturating. -/
  | shl (o : Lane)
  /-- SHR (R252): Lane logical shift right. -/
  | shr (o : Lane)
  /-- SAR (R252): Lane arithmetic shift right. -/
  | sar (o : Lane)
  /-- POPC (R253): Per-lane population count. -/
  | popc (o : Lane)
  /-- CLZ (R253): Per-lane leading-zero count. -/
  | clz (o : Lane)
  /-- CEQ (R254): Lane compare equal, giving a mask. -/
  | ceq (o : Lane)
  /-- CNE (R254): Lane compare not equal. -/
  | cne (o : Lane)
  /-- CLT (R254): Lane compare less than. -/
  | clt (o : Lane)
  /-- CLE (R254): Lane compare less or equal. -/
  | cle (o : Lane)
  /-- SEL (R254): Bitwise select of A or B under mask C. -/
  | sel (o : Lane)
  /-- FADD (R257): Floating add, correctly rounded. -/
  | fadd (o : Lane)
  /-- FSUB (R257): Floating subtract. -/
  | fsub (o : Lane)
  /-- FMUL (R257): Floating multiply. -/
  | fmul (o : Lane)
  /-- FMA (R257): Fused multiply-add with one rounding. -/
  | fma (o : Lane)
  /-- FMIN (R257): Floating minimum with -0 below +0. -/
  | fmin (o : Lane)
  /-- FMAX (R257): Floating maximum. -/
  | fmax (o : Lane)
  /-- FABS (R257): Clear the sign bit. -/
  | fabs (o : Lane)
  /-- FNEG (R257): Invert the sign bit. -/
  | fneg (o : Lane)
  /-- FRCP (R258): Correctly rounded reciprocal. -/
  | frcp (o : Lane)
  /-- FRSQ (R258): Correctly rounded reciprocal square root. -/
  | frsq (o : Lane)
  /-- FEXP2 (R258): Correctly rounded base-2 exponential. -/
  | fexp2 (o : Lane)
  /-- FLOG2 (R258): Correctly rounded base-2 logarithm. -/
  | flog2 (o : Lane)
  /-- CVT (R259): Convert elements between lane types and narrow formats. -/
  | cvt (o : Lane)
  /-- PKN (R260): Convert lanes to narrow codes and pack them into a field of B. -/
  | pkn (o : Lane)
  /-- UPN (R260): Unpack narrow codes from a field into lanes. -/
  | upn (o : Lane)
  /-- BCAST (R261): Broadcast one lane to all lanes. -/
  | bcast (o : Lane)
  /-- PERM (R261): Permute lanes by index. -/
  | perm (o : Lane)
  /-- LROT (R261): Rotate lanes. -/
  | lrot (o : Lane)
  /-- RADD (R262): Reduce lanes by sum in a fixed tree. -/
  | radd (o : Lane)
  /-- RMAX (R262): Reduce lanes by maximum. -/
  | rmax (o : Lane)
  /-- RMIN (R262): Reduce lanes by minimum. -/
  | rmin (o : Lane)
  /-- CONST (R263): Push a 32-bit immediate to all lanes. -/
  | constLane (omsk : BitVec 4) (v : Word32)
  /-- DRAW (R264): Counter-based random draws per lane, advancing the actor's draw counter. -/
  | draw (o : Lane)
  /-- EMIT (R269): Stage a data token on output ports, opening records with a weight. -/
  | emit (a b : Sel) (omsk : BitVec 4) (imm : BitVec 21)
  /-- EMIT_P (R269): Stage a partial (kind 6) token with tree coordinates. -/
  | emitP (a b : Sel) (omsk : BitVec 4) (imm : BitVec 21)
  /-- WGT (R274): Push the weight, sequence and position of the next token of a port. -/
  | wgt (p : Fin 4) (out : Push)
  /-- SETW (R271): Replace the weight of the record last opened on a port. -/
  | setw (p : Fin 4) (a : Sel) (imm : BitVec 21)
  /-- ASH (R272): Stage an ash token built from A's fields. -/
  | ash (a : Sel) (omsk : BitVec 4)
  /-- KIND (R273): Push the kind of the next token of a port. -/
  | kind (p : Fin 4) (out : Push)
  /-- WCR (R275): Push the actor's window counters. -/
  | wcr (out : Push)
  /-- WCC (R275): Push the window counters and mark them for clearing at END. -/
  | wcc (out : Push)
  /-- SVR (R276): Read an indexed state vector. -/
  | svr (a : Sel) (out : Push)
  /-- SVW (R277): Write lanes of a state vector into the firing's writes. -/
  | svw (a : Sel) (n : Fin 8) (mask : BitVec 8)
  /-- TLD (R279): Read one aligned 32-byte tile-store word. -/
  | tld (a : Sel) (st : StoreOp) (out : Push)
  /-- TST (R279): Write lanes into one tile-store word at issue. -/
  | tst (a b : Sel) (st : StoreOp)
  /-- TLDX (R280): Per-lane indexed 4-byte tile-store reads. -/
  | tldx (a : Sel) (st : StoreOp) (out : Push)
  /-- TMOVE (R281): Copy a tile-store range to a neighbour tile. -/
  | tmove (o : TmoveOp)
  /-- TMOVE_TOKEN_LAND (R281): A tmove token is written into the neighbour's store, with notification after the last. -/
  | tmoveTokenLand (site : Nat)
  /-- TREEADD (R282): Lane FP32 addition of two partials, checking siblings. -/
  | treeadd (o : Lane)
  /-- CTOK (R283): Stage a control token on a control output. -/
  | ctok (q : Fin 4) (a : Sel) (imm : BitVec 21)
  /-- BR (R284): Unconditional tile branch. -/
  | br (t : BitVec 9)
  /-- BC (R284): Branch on the next held control token. -/
  | bc (c : Fin 4) (v : Bool) (t : BitVec 9)
  /-- BANY (R284): Branch if any lane of a bypass slot is nonzero. -/
  | bany (n : Fin 6) (t : BitVec 9)
  /-- BALL (R284): Branch if every lane is nonzero. -/
  | ball (n : Fin 6) (t : BitVec 9)
  /-- LOOP (R285): Chained loop-counter decrement and branch. -/
  | loop (n m : Fin 4) (t : BitVec 9)
  /-- END (R286): Close the firing, checking for open records. -/
  | endFiring
  /-- TILE_TRAP (R287): Fault the firing with 0x0E0. -/
  | tileTrap (code : BitVec 16)
  /-- BRK (R287): Halt the grove when a Huash session is attached. -/
  | brk (code : BitVec 16)
  /-- NOP (R287): Do nothing for one issue cycle. -/
  | nop
  /-- CLAIM (R292): Stage a claim of an operand slot. -/
  | claim (n : Fin 8)
  /-- RELEASE (R292): Stage a release of an operand slot. -/
  | releaseSlot (n : Fin 8)
  /-- MMA (R293): Stage a dense multiply-accumulate over a K range. -/
  | mma (o : MmaOp)
  /-- MMA_C (R294): Stage a chunk multiply producing a tagged partial. -/
  | mmaC (o : MmaCOp)
  /-- MMAS (R295): Stage a sparse multiply on a cut slot pair. -/
  | mmas (acc : Fin 4) (x y : Fin 8)
  /-- AZERO (R296): Stage zeroing of an accumulator. -/
  | azero (acc : Fin 4)
  /-- ALOAD (R296): Stage loading an accumulator from tile store. -/
  | aload (acc : Fin 4) (off : BitVec 17)
  /-- DRAIN (R299): Stage a drain of an accumulator to a named port mask. -/
  | drain (acc : Fin 4) (omsk : BitVec 4)
  /-- DRAIN_STEER (R299): Stage a drain whose mask comes from the steer register. -/
  | drainSteer (acc : Fin 4)
  /-- STEER (R298): Read two control tokens and stage setting the steer register. -/
  | steer (f g : Fin 4)
  /-- CUTB (R300): Push a slot's bound triple. -/
  | cutb (n : Fin 8) (out : Push)
  /-- MSTAT (R301): Push the matrix status register and mark flags for clearing. -/
  | mstat (clr : BitVec 5) (out : Push)
  /-- MWAIT (R302): Wait until named slots and accumulators are idle, or a limit. -/
  | mwait (o : MwaitOp)
  /-- MATRIX_COMMAND_START (R291): The head matrix command starts on the unit once its slots are complete and heavy slots allow. -/
  | matrixCommandStart (site : Nat)
  /-- MATRIX_COMMAND_COMPLETE (R291): A matrix command completes, lowering use counts and completing follow-ons on mx. -/
  | matrixCommandComplete (site : Nat)
  /-- FIRING_START (R122): The tile picks a ready actor and begins a firing. -/
  | firingStart (site : Nat)
  /-- FIRING_END (R124): At the end cycle inputs leave, state joins pending sets, counters update and staged outputs and commands go out. -/
  | firingEnd (site : Nat)
  /-- ASH_STEP (R108): Port logic consumes ash on an ash-pass input and emits covering ash. -/
  | ashStep (site actor : Nat)
  /-- INPUT_PORT_ARRIVAL (R104): A token at an input port is judged under the port's policy. -/
  | inputPortArrival (site : Nat) (port : Fin 4)
  /-- SPILL_RETURN (R98): One spilled or deferred record returns to the queue when an entry frees. -/
  | spillReturn (site : Nat) (port : Fin 4)
  /-- ROUND_MARKER_LEAVE (R111): A round marker leaves the tile, committing pending state sets. -/
  | roundMarkerLeave (site : Nat)
  /-- END_OF_RUN_LEAVE (R111): End-of-run leaves when every connected input has it. -/
  | endOfRunLeave (site : Nat)
  /-- END_OF_KERNEL_LEAVE (R111): End-of-kernel leaves when every connected input has it. -/
  | endOfKernelLeave (site : Nat)
  /-- CONTROL_TOKEN_ARRIVAL (R69): A control token joins a control input's run queue. -/
  | controlTokenArrival (site : Nat) (c : Fin 4)
  /-- STREAM_COMMAND_DEQUEUE (R47): A waiting stream command takes a free generator, port or reservation. -/
  | streamCommandDequeue (cluster : Nat)
  /-- EXTENT_SET_BUILD (R23): The loader walks pages and patches the next extent set. -/
  | extentSetBuild (slice gen : Nat)
  /-- ENGINE_ISSUE_READ (R55): An engine issues a read request within its reorder window. -/
  | engineIssueRead (slice gen : Nat)
  /-- READ_RESPONSE_ARRIVAL (R55): A read response enters the engine's reorder window. -/
  | readResponseArrival (pkt : Nat)
  /-- ENGINE_EMIT_TOKEN (R54): An engine emits its next token in walk order if windows allow. -/
  | engineEmitToken (slice gen : Nat)
  /-- CONSUMED_COUNT_REPORT (R54): A consumed-count report updates a branch's reported count. -/
  | consumedCountReport (pkt : Nat)
  /-- FILL_TOKEN_LAND (R56): A fill token lands in a slot, lowering its counter and issuing the follow-on at zero. -/
  | fillTokenLand (site : Nat)
  /-- FILL_SINK_END_OF_RUN (R56): End-of-run at a fill sink issues an empty fill's follow-on. -/
  | fillSinkEndOfRun (site : Nat)
  /-- CUT_DECIDE (R139): The cutter decides a cut once its slot pair is free and sends entries and B rows. -/
  | cutDecide (slice gen : Nat)
  /-- SCATTER_TOKEN_ARRIVAL (R61): A scatter token's pairs are sent as scatter-write packets. -/
  | scatterTokenArrival (slice : Nat) (node : Fin 4)
  /-- SCATTER_WRITE_APPLY (R61): A read-modify-write node applies scatter pairs. -/
  | scatterWriteApply (pkt : Nat)
  /-- GATHER_OFFSET_ARRIVAL (R62): A gather node reads and returns words for offsets. -/
  | gatherOffsetArrival (slice : Nat) (node : Fin 4)
  /-- CORNER_TURN_TOKEN_ARRIVAL (R60): A corner-turn node collects and transposes an 8x8 block. -/
  | cornerTurnTokenArrival (slice : Nat) (node : Fin 4)
  /-- TREE_REDUCE_PARTIAL_ARRIVAL (R63): A tree-reduce node combines partials by coordinate. -/
  | treeReducePartialArrival (slice : Nat) (node : Fin 4)
  /-- TOKENIZER_TOKEN_ARRIVAL (R64): A tokenizer node matches text against its trie and emits ids. -/
  | tokenizerTokenArrival (slice : Nat) (node : Fin 4)
  /-- ROUTER_HEADER_ARRIVAL (R70): A packet header is routed at a router, hearth crossing or switch. -/
  | routerHeaderArrival (pkt : Nat)
  /-- PRUNED_HEADER_RECEIPT (R77): A receiver takes a pruned header, placing ash or scheduling a re-request. -/
  | prunedHeaderReceipt (pkt : Nat)
  /-- RE_REQUEST (R77): The back-off delay expires and a re-request is sent. -/
  | reRequest (id : Nat)
  /-- RE_REQUEST_RECEIPT (R77): The source resends the named packet or faults 0x282. -/
  | reRequestReceipt (pkt : Nat)
  /-- MEMORY_REQUEST_PERFORM (R166): A memory node performs a read, write or atomic in its total order. -/
  | memoryRequestPerform (id : Nat)
  /-- ROUTE_CLASS_MESSAGE_RECEIPT (R74): A class message reaches its receiver's class queue. -/
  | routeClassMessageReceipt (pkt : Nat)
  /-- HANDLER_DISPATCH (R338): A queued message is dispatched to an idle or halted handler thread. -/
  | handlerDispatch (thread : Nat)
  /-- ASYNC_TRAP_DISPATCH (R339): A fault record or slow-path message traps grove thread 0. -/
  | asyncTrapDispatch (grove : Nat)
  /-- REDUCTION_PARTIAL_ARRIVAL (R341): A reduction partial arrives and nodes are formed, returning the root. -/
  | reductionPartialArrival (pkt : Nat)
  /-- HALO_TOKEN_LAND (R86): A halo token lands, lowering hb and queuing a control token at zero. -/
  | haloTokenLand (id : Nat)
  /-- SMOVE_TOKEN (R84): An smove reads one token at its source and writes it at its destination. -/
  | smoveToken (id : Nat)
  /-- STORE_PORT_TOKEN_ARRIVAL (R143): A token at a store port is written, held, skipped or closes a round. -/
  | storePortTokenArrival (slice : Nat) (port : Fin 4)
  /-- STORE_STREAM_COMPLETE (R149): Acknowledgements arrive; the dirty range is deposited and the stream completes. -/
  | storeStreamComplete (slice gen : Nat)
  /-- ROUND_COMMIT (R146): A slice commits a round's held writes in fixed order. -/
  | roundCommit (slice : Nat)
  /-- TILE_SPLICE_SWITCH (R161): A tile switches to the successor configuration behind end-of-kernel. -/
  | tileSpliceSwitch (site : Nat)
  /-- SWITCH_BOX_SPLICE (R161): A switch box switches once end-of-kernel has passed its tracks. -/
  | switchBoxSplice (site : Nat)
  /-- STAGE_QUIESCENCE_CHECK (R163): At quiescence and every 4,096 cycles the sequencer checks other stages. -/
  | stageQuiescenceCheck (grove : Nat)
  /-- ENGINE_IDLE_GAP (R164): 64 idle cycles free an engine's heavy slot. -/
  | engineIdleGap (slice : Nat) (eng : Fin 2)
  /-- DRAIN_LIMIT_EXPIRY (R192): A pause beyond T_drain makes the hearth ember and release the grove. -/
  | drainLimitExpiry (grove : Nat)
  /-- TILE_EMBER_SAVE (R355): A tile saves at the first ember marker and forwards it. -/
  | tileEmberSave (site : Nat)
  /-- EMBER_CLOSE (R195): After 64 cycles the hearth closes records and releases the clusters. -/
  | emberClose (grove : Nat)
  /-- FREEZE_RESUME (R198): After rewriting from the reload copy the grove resumes. -/
  | freezeResume (grove : Nat)
  /-- CONFIGURATION_SCRUB (R198): Scrub visits every site's configuration within 10 ms. -/
  | configurationScrub (grove : Nat)
  /-- SRAM_PATROL_SCRUB (R93): Patrol scrub corrects single-bit errors in scratchpads. -/
  | sramPatrolScrub (site granule : Nat)
  /-- LPDDR_PATROL_SCRUB (R210): Every LPDDR line is scrubbed within 24 h. -/
  | lpddrPatrolScrub (line : Nat)
  /-- LPDDR_RECALIBRATION (R210): A 2 microsecond recalibration window per channel per second. -/
  | lpddrRecalibration (channel : Nat)
  /-- TELEMETRY (R210): Every 1 ms the telemetry block is written to TELE. -/
  | telemetry
  /-- HEARTH_INTERNAL_ERROR (R199): A hearth internal error freezes the device's groves. -/
  | hearthInternalError
  /-- MIGRATION_REQUEST (R28): A page is moved between device and host memory. -/
  | migrationRequest (grove va : Nat) (toHost : Bool)
  /-- MIGRATION_COMPLETE (R28): The copy ends and the new frame is written. -/
  | migrationComplete (id : Nat)
  /-- RESIDENCE_FLOOR_EXPIRY (R29): The 50 microsecond floor ends and a waiting request runs. -/
  | residenceFloorExpiry (id : Nat)
  /-- HOST_MEMORY_ACCESS (R201): A host CXL.mem access through a host window. -/
  | hostMemoryAccess (addr : Nat) (wr : Bool) (data : List Byte)
  /-- PLIMIT_WRITE (R209): A PLIMIT write changes the base and the leave available. -/
  | plimitWrite (v : Word64)
  /-- REGISTER_WRITE (R202): A write to a management register with no behaviour of its own. A read, which has no row, is
  an access without a value. -/
  | registerWrite (off : Nat) (v : RegAccess)
  /-- FRAME_CLEAR (R21): Host command 1: zero a frame and empty every presence bit. -/
  | frameClear
  /-- MIGRATE (R203): Host command 2: migration request. -/
  | migrate
  /-- REGISTER_SIGNING_KEY (R212): Host command 3: register a signing-key slot. -/
  | registerSigningKey
  /-- CLEAR_TRIM_COUNTERS (R203): Host command 4: clear a router's trim counters. -/
  | clearTrimCounters
  /-- QUOTE (R208): Host command 5: produce a signed quote. -/
  | quote
  /-- DEBUG_ATTACH (R211): Host command 6: verify a debug capability. -/
  | debugAttach
  /-- LOAD_IMAGE (R204): Host command 7: place and load a grove. -/
  | loadImage
  /-- RELEASE_GROVE (R204): Host command 8: release a grove. -/
  | releaseGrove
  /-- HOST_COMMAND_COMPLETE (R203): A command completes, clearing busy and firing vector 1. -/
  | hostCommandComplete
  /-- RESET (R207): Reset starts taproot bring-up through its four stages. -/
  | resetPart
  /-- LINK_REMOVAL (R206): A link down for 1 ms is removed and logged. -/
  | linkRemoval (link : Nat)
  /-- BREAKPOINT_HALT (R213): A Huash breakpoint halts its grove. -/
  | breakpointHalt (grove : Nat)
  /-- GO (R213): Huash resumes a halted grove. -/
  | go
  /-- BREAK (R213): Huash sets a breakpoint. -/
  | breakOn (on : BreakOn)
  /-- TRACE (R349): Huash arms recording on a port or actor. -/
  | traceArm (of : TraceOf)
  /-- TRACE_SHOW (R349): Huash prints a recorded trace. -/
  | traceShow (of : TraceOf)
  /-- Q (R349): Huash prints a port's items. -/
  | portShow (site port : Nat) (cyc : Option Nat)
  /-- TILE (R349): Huash prints actor counters and stop state. -/
  | tileShow (site : Nat)
  /-- REGS (R349): Huash prints thread registers. -/
  | regsShow (thread : Nat) (names : List Nat)
  /-- MEM (R349): Huash prints memory words. -/
  | memShow (va count : Nat) (lane : Option Nat)
  /-- WIN (R213): Huash prints an engine's window counts. -/
  | winShow (slice : Nat) (eng : Fin 2) (branch : Nat)
  /-- SLOT (R351): Huash prints operand slot state. -/
  | slotShow (slots : List (Nat × Nat))
  /-- BAR (R351): Huash prints a barrier object. -/
  | barShow (slice off : Nat)
  /-- BOUNDS (R354): Huash prints bound triples. -/
  | boundsShow (slots : List (Nat × Nat))
  /-- MS (R354): Huash prints matrix status. -/
  | msShow (site : Nat)
  /-- TRIM (R354): Huash prints a trim counter. -/
  | trimShow (of : TrimOf)
  /-- RW (R354): Huash prints reorder-window state. -/
  | rwShow (slice : Nat) (eng : Fin 2)
  /-- SAVES (R356): Huash prints ember save details. -/
  | savesShow
  /-- SV (R356): Huash prints a state vector with pending values. -/
  | svShow (site n : Nat)
  /-- TS (R356): Huash prints tile-store words. -/
  | tsShow (site off count : Nat)
  /-- GROVE (R358): Huash selects a grove for later commands. -/
  | groveSelect (id : Nat)
  /-- DSTATE (R358): Huash prints an actor's draw key and counter. -/
  | dstateShow (site actor : Nat)
  /-- MWAIT_LIMIT_EXPIRY (R302): An mwait with a nonzero limit L stops waiting after L cycles and pushes 0. -/
  | mwaitLimitExpiry (site : Nat)
  /-- LINK_DOWN (R206): A Worja link goes down, which starts the 1 ms period after which it is removed. -/
  | linkDown (link : LinkLoss)
  /-- UNASSIGNED_CONTROL_OPCODE (R240): A control thread issues a code-store word with an unassigned opcode, such as a zero word, and traps precisely with 0x060. -/
  | unassignedControlOpcode
  /-- UNASSIGNED_TILE_OPCODE (R235): A firing issues a tile word with an unassigned opcode and faults with 0x040, undoing the firing. -/
  | unassignedTileOpcode
  deriving DecidableEq, Repr

end Sys2Proof
end

