-- ==== Sys2Proof/Decode.lean ====
section
/-! DEFINITION. Decoding of control words (R236-R240) and tile words (R231-R235, R263, R267, R278, R281, R284, R285,
R289), total on any word and rejecting by cause, and after it the encoder from the same layouts. -/

namespace Sys2Proof

/-- Bits [lo+len-1 : lo] of a number. -/
def field (w lo len : Nat) : Nat := w / 2 ^ lo % 2 ^ len

/-- Bytes, least significant first, of a number. -/
def bytesOf : Nat → Nat → List Byte
  | 0, _ => []
  | n + 1, w => BitVec.ofNat 8 w :: bytesOf n (w / 256)

/-- The number that bytes hold, least significant first. -/
def ofBytes : List Byte → Nat
  | [] => 0
  | b :: bs => b.toNat + 256 * ofBytes bs

/-- A bit of a word as a flag. -/
def flag (w i : Nat) : Bool := w.testBit i

/-- A register number from a field. -/
def regOf (n : Nat) : Reg := Fin.ofNat 32 n

/-! ## Control words -/

def Hint.code : Hint → Nat
  | .none => 0 | .taken => 1 | .fall => 2

def Scope.code : Scope → Nat
  | .tile => 0 | .cluster => 1 | .die => 2 | .package => 3 | .domain => 4 | .system => 5

def AmoSize.code : AmoSize → Nat
  | .w => 2 | .d => 3

/-- A decoded word whose unused bits must be zero: 0x063 otherwise (R240). -/
def needZero (z : Nat) (i : Instr) : Except Cause Instr := if z = 0 then .ok i else .error 0x063

/-- The scope a fence names; 6 and 7 are reserved (R239). -/
def scopeOf : Nat → Option Scope
  | 0 => some .tile | 1 => some .cluster | 2 => some .die | 3 => some .package | 4 => some .domain | 5 => some .system
  | _ => none

/-- The hint of a branch; 3 is reserved (R236, R239). -/
def hintOf : Nat → Option Hint
  | 0 => some .none | 1 => some .taken | 2 => some .fall
  | _ => none

/-- The size of an atomic; 0 and 1 are reserved (R239). -/
def amoSizeOf : Nat → Option AmoSize
  | 2 => some .w | 3 => some .d
  | _ => none

/-- The ALU group by function code (R239, R306). -/
def decodeAlu (d a b : Reg) : Nat → Except Cause Instr
  | 0 => .ok (.add d a b)
  | 1 => .ok (.sub d a b)
  | 2 => .ok (.and d a b)
  | 3 => .ok (.or d a b)
  | 4 => .ok (.xor d a b)
  | 5 => .ok (.sll d a b)
  | 6 => .ok (.srl d a b)
  | 7 => .ok (.sra d a b)
  | 8 => .ok (.slt d a b)
  | 9 => .ok (.sltu d a b)
  | 10 => .ok (.mul d a b)
  | 11 => .ok (.mulh d a b)
  | 12 => .ok (.mulhu d a b)
  | 13 => .ok (.div d a b)
  | 14 => .ok (.divu d a b)
  | 15 => .ok (.rem d a b)
  | 16 => .ok (.remu d a b)
  | 17 => .ok (.addc d a b)
  | 18 => .ok (.subc d a b)
  | 19 => .ok (.min d a b)
  | 20 => .ok (.max d a b)
  | 21 => .ok (.minu d a b)
  | 22 => .ok (.maxu d a b)
  | _ => .error 0x061

/-- The shifts by immediate (R239, R307): `z` gathers rb and [7:6]. -/
def decodeShift (d a : Reg) (sh : BitVec 6) (z : Nat) : Nat → Except Cause Instr
  | 0 => needZero z (.slli d a sh)
  | 1 => needZero z (.srli d a sh)
  | 2 => needZero z (.srai d a sh)
  | _ => .error 0x061

/-- The atomics (R239, R312): `z` is [7:3]. -/
def decodeAmo (d a b : Reg) (size : Option AmoSize) (z : Nat) (op : Nat) : Except Cause Instr :=
  match size, op with
  | some sz, 0 => needZero z (.amoAdd d a b sz)
  | some sz, 1 => needZero z (.amoMin d a b sz)
  | some sz, 2 => needZero z (.amoMax d a b sz)
  | some sz, 3 => needZero z (.amoSwap d a b sz)
  | some sz, 4 => needZero z (.amoCas d a b sz)
  | _, _ => .error 0x061

/-- A conditional branch (R314); a reserved hint is 0x061 (R239). -/
def decodeBranch (i : Hint → Instr) (h : Option Hint) : Except Cause Instr :=
  match h with
  | some h => .ok (i h)
  | none => .error 0x061

/-- The instruction a control word holds, or the decode cause (R236-R240). Where a word breaks several rules, the cause is
the first in R240's table (log entry 5). -/
def decodeControl (w : Word32) : Except Cause Instr :=
  let n := w.toNat
  let d := regOf (field n 20 5)
  let a := regOf (field n 15 5)
  let b := regOf (field n 10 5)
  let f := field n 0 10
  let imm := BitVec.ofNat 15 (field n 0 15)
  let zd := field n 20 5
  let za := field n 15 5
  let zb := field n 10 5
  let off := BitVec.ofNat 13 (field n 0 13)
  let hint := hintOf (field n 13 2)
  match field n 25 7 with
  | 0x01 => decodeAlu d a b f
  | 0x06 => decodeShift d a (BitVec.ofNat 6 (field n 0 6)) (zb + field n 6 2) (field n 8 2)
  | 0x09 => needZero za (.li d imm)
  | 0x02 => .ok (.addi d a imm)
  | 0x03 => .ok (.andi d a imm)
  | 0x04 => .ok (.ori d a imm)
  | 0x05 => .ok (.xori d a imm)
  | 0x07 => .ok (.slti d a imm)
  | 0x08 => .ok (.sltiu d a imm)
  | 0x10 => .ok (.ldB d a imm)
  | 0x11 => .ok (.ldBu d a imm)
  | 0x12 => .ok (.ldH d a imm)
  | 0x13 => .ok (.ldHu d a imm)
  | 0x14 => .ok (.ldW d a imm)
  | 0x15 => .ok (.ldWu d a imm)
  | 0x16 => .ok (.ldD d a imm)
  | 0x18 => .ok (.stB d a imm)
  | 0x19 => .ok (.stH d a imm)
  | 0x1A => .ok (.stW d a imm)
  | 0x1B => .ok (.stD d a imm)
  | 0x1C => .ok (.ldf d a imm)
  | 0x1D => .ok (.ldt d a imm)
  | 0x1E => .ok (.stf d a imm)
  | 0x1F => .ok (.stfo d a imm)
  | 0x20 => decodeAmo d a b (amoSizeOf (field n 8 2)) (field n 3 5) (field n 0 3)
  | 0x28 => decodeBranch (fun h => .beq d a h off) hint
  | 0x29 => decodeBranch (fun h => .bne d a h off) hint
  | 0x2A => decodeBranch (fun h => .blt d a h off) hint
  | 0x2B => decodeBranch (fun h => .bge d a h off) hint
  | 0x2C => decodeBranch (fun h => .bltu d a h off) hint
  | 0x2D => decodeBranch (fun h => .bgeu d a h off) hint
  | 0x2E => .ok (.jal d (BitVec.ofNat 20 (field n 0 20)))
  | 0x2F => needZero (zb + f) (.jr d a)
  | 0x30 => needZero (za + zb) (.sysr d (BitVec.ofNat 10 f))
  | 0x31 => needZero (zd + zb) (.sysw a (BitVec.ofNat 10 f))
  | 0x32 => needZero (zd + za + zb) (.trap (BitVec.ofNat 10 f))
  | 0x33 => needZero (zd + za + zb + f) .eret
  | 0x34 => needZero (zd + za + zb + f) .halt
  | 0x35 => needZero (zd + za + zb + f) .idle
  | 0x36 =>
    match scopeOf (field n 0 3) with
    | some sc => needZero (zd + za + zb + field n 3 7) (.fence sc)
    | none => .error 0x061
  | 0x37 => needZero (field n 0 5) (.wait (BitVec.ofNat 5 zd) (BitVec.ofNat 5 za) (BitVec.ofNat 5 zb) (BitVec.ofNat 5 (field n 5 5)))
  | 0x38 => needZero (zd + f) (.barInit a b)
  | 0x39 => needZero (zb + f) (.arrive d a)
  | 0x3A => needZero (zd + f) (.await a b)
  | 0x3B => needZero (zd + zb + f) (.gjoin a)
  | 0x3C => needZero (zd + zb + f) (.gleave a)
  | 0x3D => needZero (zb + f) (.gsize d a)
  | 0x40 => needZero (f) (.sbind d a b)
  | 0x41 => needZero (f) (.sfill d a b)
  | 0x42 => needZero (f) (.sstore d a b)
  | 0x43 => needZero (f) (.sgather d a b)
  | 0x44 => needZero (za + f) (.sscatter d b)
  | 0x45 => needZero (f) (.scut d a b)
  | 0x46 => needZero (zd + zb + f) (.shalo a)
  | 0x47 => needZero (zd + zb + f) (.smove a)
  | 0x48 => needZero (zd + f) (.swin a b)
  | 0x49 => needZero (zd + zb + f) (.sclose a)
  | 0x4A => needZero (zd + zb + field n 1 9) (if flag n 0 then .sresumeT a else .sresume a)
  | 0x4B => needZero (zd + zb + f) (.sflush a)
  | 0x50 => needZero (f) (.gload d a b)
  | 0x51 => needZero (zd + f) (.gsplice a b)
  | 0x52 => needZero (field n 2 8) (.gstage d a b (BitVec.ofNat 2 (field n 0 2)))
  | 0x53 => needZero (zd + zb + f) (.grelease a)
  | 0x54 => needZero (zd + f) (.setMode a b)
  | 0x55 => needZero (zd + f) (.setRound a b)
  | 0x56 => needZero (zb + f) (.ember d a)
  | 0x57 => needZero (f) (.rekindle d a b)
  | 0x58 => needZero (zd + field n 4 6) (.nsend a b (BitVec.ofNat 4 (field n 0 4)))
  | 0x59 => needZero (zd + zb + f) (.maskc a)
  | 0x5A => needZero (zd + zb + f) (.unmaskc a)
  | 0x5B => needZero (f) (.nred d a b)
  | 0x5C => needZero (zb + f) (.leaveReq d a)
  | 0x5D => needZero (zd + zb + f) (.leaveRet a)
  | 0x5E => needZero (zd + f) (.mfsnap a b)
  | 0x5F => needZero (f) (.mfcmp d a b)
  | 0x60 => needZero (zd + f) (.tinv a b)
  | 0x7E => needZero (field n 0 21) (if flag n 24 then .markTake (Fin.ofNat 8 (field n 21 3)) else .markGive (Fin.ofNat 8 (field n 21 3)))
  | 0x7F => needZero (field n 0 25) .prefixWord
  | _ => .ok .unassignedControlOpcode

/-- A word in the R format (R236). -/
def encR (op d a b f : Nat) : Nat := op * 2 ^ 25 + d * 2 ^ 20 + a * 2 ^ 15 + b * 2 ^ 10 + f

/-- A word in the I format (R236). -/
def encI (op d a : Nat) (imm : BitVec 15) : Nat := op * 2 ^ 25 + d * 2 ^ 20 + a * 2 ^ 15 + imm.toNat

/-- A word in the B format (R236). -/
def encB (op a b : Nat) (h : Hint) (off : BitVec 13) : Nat :=
  op * 2 ^ 25 + a * 2 ^ 20 + b * 2 ^ 15 + h.code * 2 ^ 13 + off.toNat

/-- The word of a control instruction (R236-R239, R323); none for an instruction that has no control word. -/
def encodeControl : Instr → Option Nat
  | .add d a b => some (encR 0x01 d a b 0)
  | .sub d a b => some (encR 0x01 d a b 1)
  | .and d a b => some (encR 0x01 d a b 2)
  | .or d a b => some (encR 0x01 d a b 3)
  | .xor d a b => some (encR 0x01 d a b 4)
  | .sll d a b => some (encR 0x01 d a b 5)
  | .srl d a b => some (encR 0x01 d a b 6)
  | .sra d a b => some (encR 0x01 d a b 7)
  | .slt d a b => some (encR 0x01 d a b 8)
  | .sltu d a b => some (encR 0x01 d a b 9)
  | .mul d a b => some (encR 0x01 d a b 10)
  | .mulh d a b => some (encR 0x01 d a b 11)
  | .mulhu d a b => some (encR 0x01 d a b 12)
  | .div d a b => some (encR 0x01 d a b 13)
  | .divu d a b => some (encR 0x01 d a b 14)
  | .rem d a b => some (encR 0x01 d a b 15)
  | .remu d a b => some (encR 0x01 d a b 16)
  | .addc d a b => some (encR 0x01 d a b 17)
  | .subc d a b => some (encR 0x01 d a b 18)
  | .min d a b => some (encR 0x01 d a b 19)
  | .max d a b => some (encR 0x01 d a b 20)
  | .minu d a b => some (encR 0x01 d a b 21)
  | .maxu d a b => some (encR 0x01 d a b 22)
  | .slli d a sh => some (encR 0x06 d a 0 (0 * 256 + sh.toNat))
  | .srli d a sh => some (encR 0x06 d a 0 (1 * 256 + sh.toNat))
  | .srai d a sh => some (encR 0x06 d a 0 (2 * 256 + sh.toNat))
  | .addi d a imm => some (encI 0x02 d a imm)
  | .andi d a imm => some (encI 0x03 d a imm)
  | .ori d a imm => some (encI 0x04 d a imm)
  | .xori d a imm => some (encI 0x05 d a imm)
  | .slti d a imm => some (encI 0x07 d a imm)
  | .sltiu d a imm => some (encI 0x08 d a imm)
  | .ldB d a imm => some (encI 0x10 d a imm)
  | .ldBu d a imm => some (encI 0x11 d a imm)
  | .ldH d a imm => some (encI 0x12 d a imm)
  | .ldHu d a imm => some (encI 0x13 d a imm)
  | .ldW d a imm => some (encI 0x14 d a imm)
  | .ldWu d a imm => some (encI 0x15 d a imm)
  | .ldD d a imm => some (encI 0x16 d a imm)
  | .stB d a imm => some (encI 0x18 d a imm)
  | .stH d a imm => some (encI 0x19 d a imm)
  | .stW d a imm => some (encI 0x1A d a imm)
  | .stD d a imm => some (encI 0x1B d a imm)
  | .ldf d a imm => some (encI 0x1C d a imm)
  | .ldt d a imm => some (encI 0x1D d a imm)
  | .stf d a imm => some (encI 0x1E d a imm)
  | .stfo d a imm => some (encI 0x1F d a imm)
  | .li d imm => some (encI 0x09 d 0 imm)
  | .amoAdd d a b sz => some (encR 0x20 d a b (sz.code * 256 + 0))
  | .amoMin d a b sz => some (encR 0x20 d a b (sz.code * 256 + 1))
  | .amoMax d a b sz => some (encR 0x20 d a b (sz.code * 256 + 2))
  | .amoSwap d a b sz => some (encR 0x20 d a b (sz.code * 256 + 3))
  | .amoCas d a b sz => some (encR 0x20 d a b (sz.code * 256 + 4))
  | .beq a b h off => some (encB 0x28 a b h off)
  | .bne a b h off => some (encB 0x29 a b h off)
  | .blt a b h off => some (encB 0x2A a b h off)
  | .bge a b h off => some (encB 0x2B a b h off)
  | .bltu a b h off => some (encB 0x2C a b h off)
  | .bgeu a b h off => some (encB 0x2D a b h off)
  | .jal d off => some (0x2E * 2 ^ 25 + d * 2 ^ 20 + off.toNat)
  | .jr d a => some (encR 0x2F d a 0 0)
  | .sysr d n => some (encR 0x30 d 0 0 n.toNat)
  | .sysw a n => some (encR 0x31 0 a 0 n.toNat)
  | .trap code => some (encR 0x32 0 0 0 code.toNat)
  | .eret => some (encR 0x33 0 0 0 0)
  | .halt => some (encR 0x34 0 0 0 0)
  | .idle => some (encR 0x35 0 0 0 0)
  | .fence sc => some (encR 0x36 0 0 0 sc.code)
  | .wait l s c m => some (encR 0x37 l.toNat s.toNat c.toNat (m.toNat * 32))
  | .barInit a b => some (encR 0x38 0 a b 0)
  | .arrive d a => some (encR 0x39 d a 0 0)
  | .await a b => some (encR 0x3A 0 a b 0)
  | .gjoin a => some (encR 0x3B 0 a 0 0)
  | .gleave a => some (encR 0x3C 0 a 0 0)
  | .gsize d a => some (encR 0x3D d a 0 0)
  | .sbind d a b => some (encR 0x40 d a b 0)
  | .sfill d a b => some (encR 0x41 d a b 0)
  | .sstore d a b => some (encR 0x42 d a b 0)
  | .sgather d a b => some (encR 0x43 d a b 0)
  | .sscatter d b => some (encR 0x44 d 0 b 0)
  | .scut d a b => some (encR 0x45 d a b 0)
  | .shalo a => some (encR 0x46 0 a 0 0)
  | .smove a => some (encR 0x47 0 a 0 0)
  | .swin a b => some (encR 0x48 0 a b 0)
  | .sclose a => some (encR 0x49 0 a 0 0)
  | .sflush a => some (encR 0x4B 0 a 0 0)
  | .gload d a b => some (encR 0x50 d a b 0)
  | .gsplice a b => some (encR 0x51 0 a b 0)
  | .grelease a => some (encR 0x53 0 a 0 0)
  | .setMode a b => some (encR 0x54 0 a b 0)
  | .setRound a b => some (encR 0x55 0 a b 0)
  | .ember d a => some (encR 0x56 d a 0 0)
  | .rekindle d a b => some (encR 0x57 d a b 0)
  | .maskc a => some (encR 0x59 0 a 0 0)
  | .unmaskc a => some (encR 0x5A 0 a 0 0)
  | .nred d a b => some (encR 0x5B d a b 0)
  | .leaveReq d a => some (encR 0x5C d a 0 0)
  | .leaveRet a => some (encR 0x5D 0 a 0 0)
  | .mfsnap a b => some (encR 0x5E 0 a b 0)
  | .mfcmp d a b => some (encR 0x5F d a b 0)
  | .tinv a b => some (encR 0x60 0 a b 0)
  | .sresume a => some (encR 0x4A 0 a 0 0)
  | .sresumeT a => some (encR 0x4A 0 a 0 1)
  | .gstage d a b nm1 => some (encR 0x52 d a b nm1.toNat)
  | .nsend a b len => some (encR 0x58 0 a b len.toNat)
  | .markGive f => some (0x7E * 2 ^ 25 + f * 2 ^ 21)
  | .markTake f => some (0x7E * 2 ^ 25 + 2 ^ 24 + f * 2 ^ 21)
  | .prefixWord => some (0x7F * 2 ^ 25)
  | _ => none

/-! ## Tile words -/

def Sel.code : Sel → Nat
  | .byp n => n | .zero => 6 | .imm => 7 | .port n => 8 + n | .ctr n => 12 + n | .sv n => 16 + n
  | .lane => 24 | .weight => 25

/-- The selector of a field; 26-31 are reserved (R232). -/
def selOf (c : Nat) : Option Sel :=
  if c < 6 then some (.byp (Fin.ofNat 6 c))
  else if c = 6 then some .zero
  else if c = 7 then some .imm
  else if c < 12 then some (.port (Fin.ofNat 4 (c - 8)))
  else if c < 16 then some (.ctr (Fin.ofNat 4 (c - 12)))
  else if c < 24 then some (.sv (Fin.ofNat 8 (c - 16)))
  else if c = 24 then some .lane
  else if c = 25 then some .weight
  else none

def LaneType.code : LaneType → Nat
  | .i32 => 0 | .n32 => 1 | .f32 => 2 | .bf16x2 => 3 | .i16x2 => 4 | .n16x2 => 5 | .fmt => 6

/-- The lane type of a code; 7 is reserved (R231). -/
def laneTypeOf : Nat → Option LaneType
  | 0 => some .i32 | 1 => some .n32 | 2 => some .f32 | 3 => some .bf16x2 | 4 => some .i16x2 | 5 => some .n16x2
  | 6 => some .fmt
  | _ => none

def Rnd.code : Rnd → Nat
  | .rne => 0 | .rtz => 1 | .rup => 2 | .rdn => 3 | .rna => 4 | .rsr => 5

/-- The rounding of a code; 6 and 7 are illegal (R36). -/
def rndOf : Nat → Option Rnd
  | 0 => some .rne | 1 => some .rtz | 2 => some .rup | 3 => some .rdn | 4 => some .rna | 5 => some .rsr
  | _ => none

/-- Whether a lane type is one of 16-bit elements (R250). -/
def LaneType.half : LaneType → Bool
  | .bf16x2 | .i16x2 | .n16x2 => true
  | .i32 | .n32 | .f32 | .fmt => false

/-- What a lane instruction accepts (R233): its sources, lane types, whether RND 1-5, whether SAT, and what else of the word
it uses: 0 nothing, 1 cvt's fields, 2 pkn's, 3 upn's, 4 no immediate at all. -/
structure LaneShape where
  arity : Nat
  lts   : List LaneType
  rnd   : Bool := false
  sat   : Bool := false
  use   : Nat := 0

def intTypes : List LaneType := [.i32, .n32, .i16x2, .n16x2]
def fpTypes : List LaneType := [.f32, .bf16x2]
def sumTypes : List LaneType := [.i32, .n32, .f32]
def allTypes : List LaneType := [.i32, .n32, .f32, .bf16x2, .i16x2, .n16x2, .fmt]

/-- The lane instruction of an opcode, with what its word may hold (R233, R234, R251-R264, R282). -/
def laneRow : Nat → Option (LaneShape × (Lane → Instr))
  | 0x01 => some (⟨2, intTypes, false, true, 0⟩, .tileAdd)
  | 0x02 => some (⟨2, intTypes, false, true, 0⟩, .tileSub)
  | 0x03 => some (⟨2, intTypes, false, true, 0⟩, .tileMul)
  | 0x04 => some (⟨2, intTypes, false, false, 0⟩, .tileMulh)
  | 0x05 => some (⟨2, intTypes, false, false, 0⟩, .tileMin)
  | 0x06 => some (⟨2, intTypes, false, false, 0⟩, .tileMax)
  | 0x07 => some (⟨1, intTypes, false, true, 0⟩, .abs)
  | 0x08 => some (⟨1, intTypes, false, true, 0⟩, .neg)
  | 0x09 => some (⟨2, [.i32], false, false, 0⟩, .tileAnd)
  | 0x0A => some (⟨2, [.i32], false, false, 0⟩, .tileOr)
  | 0x0B => some (⟨2, [.i32], false, false, 0⟩, .tileXor)
  | 0x0C => some (⟨1, [.i32], false, false, 0⟩, .notLane)
  | 0x0D => some (⟨2, intTypes, false, true, 0⟩, .shl)
  | 0x0E => some (⟨2, intTypes, false, false, 0⟩, .shr)
  | 0x0F => some (⟨2, intTypes, false, false, 0⟩, .sar)
  | 0x10 => some (⟨1, [.i32], false, false, 0⟩, .popc)
  | 0x11 => some (⟨1, [.i32], false, false, 0⟩, .clz)
  | 0x12 => some (⟨2, intTypes, false, false, 0⟩, .ceq)
  | 0x13 => some (⟨2, intTypes, false, false, 0⟩, .cne)
  | 0x14 => some (⟨2, intTypes, false, false, 0⟩, .clt)
  | 0x15 => some (⟨2, intTypes, false, false, 0⟩, .cle)
  | 0x16 => some (⟨3, [.i32], false, false, 0⟩, .sel)
  | 0x20 => some (⟨2, fpTypes, true, false, 0⟩, .fadd)
  | 0x21 => some (⟨2, fpTypes, true, false, 0⟩, .fsub)
  | 0x22 => some (⟨2, fpTypes, true, false, 0⟩, .fmul)
  | 0x23 => some (⟨3, fpTypes, true, false, 0⟩, .fma)
  | 0x24 => some (⟨2, fpTypes, false, false, 0⟩, .fmin)
  | 0x25 => some (⟨2, fpTypes, false, false, 0⟩, .fmax)
  | 0x26 => some (⟨1, fpTypes, false, false, 0⟩, .fabs)
  | 0x27 => some (⟨1, fpTypes, false, false, 0⟩, .fneg)
  | 0x28 => some (⟨1, fpTypes, true, false, 0⟩, .frcp)
  | 0x29 => some (⟨1, fpTypes, true, false, 0⟩, .frsq)
  | 0x2A => some (⟨1, fpTypes, true, false, 0⟩, .fexp2)
  | 0x2B => some (⟨1, fpTypes, true, false, 0⟩, .flog2)
  | 0x30 => some (⟨1, allTypes, true, true, 1⟩, .cvt)
  | 0x31 => some (⟨2, allTypes, true, false, 2⟩, .pkn)
  | 0x32 => some (⟨1, allTypes, false, false, 3⟩, .upn)
  | 0x33 => some (⟨2, [.i32], false, false, 0⟩, .bcast)
  | 0x34 => some (⟨2, [.i32], false, false, 0⟩, .perm)
  | 0x35 => some (⟨2, [.i32], false, false, 0⟩, .lrot)
  | 0x36 => some (⟨1, sumTypes, true, false, 0⟩, .radd)
  | 0x37 => some (⟨1, sumTypes, false, false, 0⟩, .rmax)
  | 0x38 => some (⟨1, sumTypes, false, false, 0⟩, .rmin)
  | 0x3A => some (⟨1, [.i32], false, false, 0⟩, .draw)
  | 0x4D => some (⟨2, [.f32], false, false, 4⟩, .treeadd)
  | _ => none

/-- The sources a cvt reads (R259): two when it narrows from a 32-bit to a 16-bit type. fmt counts as a 32-bit type. -/
def cvtArity (res src : LaneType) : Nat := if res.half && !src.half then 2 else 1

/-- The pairs of types cvt accepts (R259): an fmt side requires f32 on the other side, or fmt on both. -/
def cvtPair (res src : LaneType) : Bool :=
  if res = .fmt then src = .f32 || src = .fmt else if src = .fmt then res = .f32 else true

/-- The sources that the word's fields make a lane instruction read. -/
def laneArity (sh : LaneShape) (lt : LaneType) (xa : Nat) : Nat :=
  if sh.use = 1 then cvtArity lt ((laneTypeOf xa).getD .i32)
  else if sh.use = 3 then (if lt.half then 2 else 1)
  else sh.arity

/-- Whether a format descriptor is named (R231, R259, R260). -/
def namesFmt (sh : LaneShape) (lt : LaneType) (xa : Nat) : Bool :=
  sh.use = 2 || sh.use = 3 || lt = .fmt || (sh.use = 1 && xa = 6)

/-- The bits of IMM that a lane instruction uses without an immediate selector (R259, R260). -/
def ownImm (sh : LaneShape) (lt : LaneType) (xa : Nat) : Nat :=
  if sh.use = 1 then (if !lt.half && ((laneTypeOf xa).getD .i32).half then 2 else 1)
  else if sh.use = 2 || sh.use = 3 then 64
  else 1

/-- The checks of a lane word in the order of R235's table, given its raw fields; the Lane they make. -/
def laneChecks (sh : LaneShape) (sa sb sc omsk lt rnd fmtx xa imm : Nat) (keep sat : Bool) : Except Cause Lane :=
  let ty := (laneTypeOf lt).getD .i32
  let ar := laneArity sh ty xa
  match selOf sa, selOf sb, selOf sc with
  | some a, some b, some c =>
    if (laneTypeOf lt).isNone || !sh.lts.contains ty then .error 0x043
    else if sh.use = 1 && ((laneTypeOf xa).isNone || !cvtPair ty ((laneTypeOf xa).getD .i32)) then .error 0x043
    else
      match rndOf rnd with
      | none => .error 0x044
      | some r =>
        if !sh.rnd && rnd ≠ 0 then .error 0x044
        else if (ar < 2 && sb ≠ 0) || (ar < 3 && sc ≠ 0) then .error 0x045
        else if sat && (!sh.sat || (sh.use = 1 && !intTypes.contains ty)) then .error 0x045
        else if sh.use ≠ 1 && xa ≠ 0 then .error 0x045
        else if !namesFmt sh ty xa && fmtx ≠ 0 then .error 0x045
        else if (sh.use = 4 || !(a = .imm || b = .imm || c = .imm)) && imm ≥ ownImm sh ty xa then .error 0x045
        else if namesFmt sh ty xa && (fmtx = 0 || fmtx > 29) then .error 0x046
        else .ok { sa := a, sb := b, sc := c, omsk := BitVec.ofNat 4 omsk, lt := ty, rnd := r, keep := keep, sat := sat,
                   fmtx := Fin.ofNat 32 fmtx, xa := BitVec.ofNat 3 xa, imm := BitVec.ofNat 21 imm }
  | _, _, _ => .error 0x042

/-- The raw fields of a tile word (R231). -/
structure TileFields where
  sa : Nat
  sb : Nat
  sc : Nat
  omsk : Nat
  lt : Nat
  rnd : Nat
  keep : Bool
  sat : Bool
  low : Nat
  deriving DecidableEq, Repr

def tileFields (n : Nat) : TileFields :=
  { sa := field n 51 5, sb := field n 46 5, sc := field n 41 5, omsk := field n 37 4, lt := field n 34 3,
    rnd := field n 31 3, keep := flag n 30, sat := flag n 29, low := field n 0 29 }

/-- The checks common to the record, state, control and matrix words (R267, R289): their sources, then LT, RND and the
fields that must be zero. `ok` says that the bits [28:0], OMSK and the unused sources are as the form asks. -/
def plainChecks (t : TileFields) (srcs : List Nat) (pushes : Bool) (ok : Bool) (i : Instr) : Except Cause Instr :=
  if srcs.any (fun c => (selOf c).isNone) then .error 0x042
  else if t.lt ≠ 0 then .error 0x043
  else if t.rnd ≠ 0 then .error 0x044
  else if t.sat || (t.keep && !pushes) || !ok then .error 0x045
  else .ok i

/-- The sources after the first `k` are zero (R232). -/
def TileFields.rest (t : TileFields) (k : Nat) : Bool :=
  (k ≥ 1 || t.sa = 0) && (k ≥ 2 || t.sb = 0) && (k ≥ 3 || t.sc = 0)

/-- Whether one of the first two sources is the immediate. -/
def TileFields.usesImm (t : TileFields) (k : Nat) : Bool :=
  (k ≥ 1 && t.sa = 7) || (k ≥ 2 && t.sb = 7) || (k ≥ 3 && t.sc = 7)

def selD (c : Nat) : Sel := (selOf c).getD .zero

def TileFields.push (t : TileFields) : Push := ⟨BitVec.ofNat 4 t.omsk, t.keep⟩

/-- Bits [20:0] are zero unless a source is the immediate. -/
def immOk (t : TileFields) (k : Nat) : Bool := t.usesImm k || field t.low 0 21 = 0

/-- The record, state, tile-store, tmove and control words (R267-R287). -/
def decodeRecord (t : TileFields) (opc : Nat) : Option (Except Cause Instr) :=
  let lo := t.low
  let xa := field lo 21 3
  let imm := BitVec.ofNat 21 (field lo 0 21)
  let fm := field lo 24 5
  let st : StoreOp := ⟨BitVec.ofNat 8 (field lo 21 8), BitVec.ofNat 17 (field lo 0 17)⟩
  let stOk := field lo 17 4 = 0
  let om := BitVec.ofNat 4 t.omsk
  let tgt := BitVec.ofNat 9 (field lo 0 9)
  match opc with
  | 0x40 => some (plainChecks t [t.sa, t.sb] false (t.rest 2 && t.omsk ≠ 0 && fm = 0 && xa < 2 && immOk t 2)
      (if xa = 1 then .emitP (selD t.sa) (selD t.sb) om imm else .emit (selD t.sa) (selD t.sb) om imm))
  | 0x41 => some (plainChecks t [] true (t.rest 0 && fm = 0 && xa < 4 && field lo 0 21 = 0)
      (.wgt (Fin.ofNat 4 (field xa 0 2)) t.push))
  | 0x42 => some (plainChecks t [t.sa] false (t.rest 1 && t.omsk = 0 && fm = 0 && xa < 4 && immOk t 1)
      (.setw (Fin.ofNat 4 (field xa 0 2)) (selD t.sa) imm))
  | 0x43 => some (plainChecks t [t.sa] false (t.rest 1 && t.omsk ≠ 0 && lo = 0) (.ash (selD t.sa) om))
  | 0x44 => some (plainChecks t [] true (t.rest 0 && fm = 0 && xa < 4 && field lo 0 21 = 0)
      (.kind (Fin.ofNat 4 (field xa 0 2)) t.push))
  | 0x45 => some (plainChecks t [] true (t.rest 0 && lo = 0) (.wcr t.push))
  | 0x46 => some (plainChecks t [] true (t.rest 0 && lo = 0) (.wcc t.push))
  | 0x47 => some (plainChecks t [t.sa] true (t.rest 1 && lo = 0) (.svr (selD t.sa) t.push))
  | 0x48 => some (plainChecks t [t.sa] false (t.rest 1 && t.omsk = 0 && fm = 0 && field lo 8 13 = 0)
      (.svw (selD t.sa) (Fin.ofNat 8 xa) (BitVec.ofNat 8 (field lo 0 8))))
  | 0x49 => some (plainChecks t [t.sa] true (t.rest 1 && stOk) (.tld (selD t.sa) st t.push))
  | 0x4A => some (plainChecks t [t.sa, t.sb] false (t.rest 2 && t.omsk = 0 && stOk) (.tst (selD t.sa) (selD t.sb) st))
  | 0x4B => some (plainChecks t [t.sa] true (t.rest 1 && stOk) (.tldx (selD t.sa) st t.push))
  | 0x4C => some (plainChecks t [t.sa, t.sb, t.sc] false
      (t.omsk = 0 && fm = 0 && (t.usesImm 3 || (field lo 2 19 = 0 && (field xa 2 1 = 1 || field lo 0 2 = 0))))
      (.tmove ⟨selD t.sa, selD t.sb, selD t.sc, Fin.ofNat 4 (field xa 0 2), decide (field xa 2 1 = 1), Fin.ofNat 4 (field lo 0 2),
               BitVec.ofNat 19 (field lo 2 19)⟩))
  | 0x50 => some (plainChecks t [t.sa] false (t.rest 1 && t.omsk = 0 && fm = 0 && xa < 4 && immOk t 1)
      (.ctok (Fin.ofNat 4 (field xa 0 2)) (selD t.sa) imm))
  | 0x51 => some (plainChecks t [] false (t.rest 0 && t.omsk = 0 && field lo 9 20 = 0) (.br tgt))
  | 0x52 => some (plainChecks t [] false (t.rest 0 && t.omsk = 0 && field lo 12 17 = 0)
      (.bc (Fin.ofNat 4 (field lo 9 2)) (flag lo 11) tgt))
  | 0x53 => some (plainChecks t [] false (t.rest 0 && t.omsk = 0 && field lo 12 17 = 0 && field lo 9 3 < 6)
      (.bany (Fin.ofNat 6 (field lo 9 3)) tgt))
  | 0x54 => some (plainChecks t [] false (t.rest 0 && t.omsk = 0 && field lo 12 17 = 0 && field lo 9 3 < 6)
      (.ball (Fin.ofNat 6 (field lo 9 3)) tgt))
  | 0x55 => some (plainChecks t [] false (t.rest 0 && t.omsk = 0 && field lo 13 16 = 0 && field lo 9 2 ≤ field lo 11 2)
      (.loop (Fin.ofNat 4 (field lo 9 2)) (Fin.ofNat 4 (field lo 11 2)) tgt))
  | 0x56 => some (plainChecks t [] false (t.rest 0 && t.omsk = 0 && lo = 0) .endFiring)
  | 0x57 => some (plainChecks t [] false (t.rest 0 && t.omsk = 0 && field lo 16 13 = 0) (.tileTrap (BitVec.ofNat 16 lo)))
  | 0x58 => some (plainChecks t [] false (t.rest 0 && t.omsk = 0 && field lo 16 13 = 0) (.brk (BitVec.ofNat 16 lo)))
  | 0x59 => some (plainChecks t [] false (t.rest 0 && t.omsk = 0 && lo = 0) .nop)
  | _ => none

/-- The matrix words (R289). -/
def decodeMatrix (t : TileFields) (opc : Nat) : Option (Except Cause Instr) :=
  let lo := t.low
  let acc := Fin.ofNat 4 (field lo 27 2)
  let sx := Fin.ofNat 8 (field lo 24 3)
  let sy := Fin.ofNat 8 (field lo 21 3)
  let q := t.rest 0 && t.omsk = 0
  match opc with
  | 0x60 => some (plainChecks t [] false (q && field lo 27 2 = 0 && field lo 0 24 = 0) (.claim sx))
  | 0x61 => some (plainChecks t [] false (q && field lo 27 2 = 0 && field lo 0 24 = 0) (.releaseSlot sx))
  | 0x62 => some (plainChecks t [] false q
      (.mma ⟨acc, sx, sy, BitVec.ofNat 10 (field lo 11 10), BitVec.ofNat 11 (field lo 0 11)⟩))
  | 0x63 => some (plainChecks t [] false (q && field lo 0 3 = 0)
      (.mmaC ⟨acc, Fin.ofNat 4 (field lo 25 2), BitVec.ofNat 2 (field lo 23 2), BitVec.ofNat 8 (field lo 15 8),
              BitVec.ofNat 12 (field lo 3 12)⟩))
  | 0x64 => some (plainChecks t [] false (q && field lo 0 21 = 0) (.mmas acc sx sy))
  | 0x65 => some (plainChecks t [] false (q && field lo 0 27 = 0) (.azero acc))
  | 0x66 => some (plainChecks t [] false (q && field lo 17 10 = 0) (.aload acc (BitVec.ofNat 17 (field lo 0 17))))
  | 0x67 => some (plainChecks t [] false (t.rest 0 && field lo 0 26 = 0 && (!flag lo 26 || t.omsk = 0))
      (if flag lo 26 then .drainSteer acc else .drain acc (BitVec.ofNat 4 t.omsk)))
  | 0x68 => some (plainChecks t [] false (q && field lo 0 25 = 0) (.steer acc (Fin.ofNat 4 (field lo 25 2))))
  | 0x69 => some (plainChecks t [] true (t.rest 0 && field lo 27 2 = 0 && field lo 0 24 = 0) (.cutb sx t.push))
  | 0x6A => some (plainChecks t [] true (t.rest 0 && field lo 5 24 = 0) (.mstat (BitVec.ofNat 5 (field lo 0 5)) t.push))
  | 0x6B => some (plainChecks t [] true (t.rest 0)
      (.mwait ⟨BitVec.ofNat 8 (field lo 21 8), BitVec.ofNat 4 (field lo 17 4), BitVec.ofNat 17 (field lo 0 17), t.push⟩))
  | _ => none

/-- The instruction a tile word holds, or the decode cause (R231-R235). -/
def decodeTile (w : Word64) : Except Cause Instr :=
  let n := w.toNat
  let opc := field n 56 8
  let t := tileFields n
  if opc = 0x39 then
    if t.lt ≠ 0 then .error 0x043
    else if field n 41 15 ≠ 0 || field n 32 2 ≠ 0 then .error 0x045
    else .ok (.constLane (BitVec.ofNat 4 t.omsk) (BitVec.ofNat 32 n))
  else
    match laneRow opc with
    | some (sh, mk) =>
      match laneChecks sh t.sa t.sb t.sc t.omsk t.lt t.rnd (field t.low 24 5) (field t.low 21 3) (field t.low 0 21) t.keep t.sat with
      | .ok l => .ok (mk l)
      | .error c => .error c
    | none =>
      match decodeRecord t opc with
      | some r => r
      | none =>
        match decodeMatrix t opc with
        | some r => r
        | none => .ok .unassignedTileOpcode

/-- A tile word from its fields (R231). -/
def encTile (opc sa sb sc omsk lt rnd : Nat) (keep sat : Bool) (low : Nat) : Nat :=
  opc * 2 ^ 56 + sa * 2 ^ 51 + sb * 2 ^ 46 + sc * 2 ^ 41 + omsk * 2 ^ 37 + lt * 2 ^ 34 + rnd * 2 ^ 31
    + keep.toNat * 2 ^ 30 + sat.toNat * 2 ^ 29 + low

/-- The word of a lane instruction (R231). -/
def encLane (opc : Nat) (l : Lane) : Nat :=
  encTile opc l.sa.code l.sb.code l.sc.code l.omsk.toNat l.lt.code l.rnd.code l.keep l.sat
    (l.fmtx * 2 ^ 24 + l.xa.toNat * 2 ^ 21 + l.imm.toNat)

/-- A word that pushes, without sources. -/
def encPush (opc sa : Nat) (p : Push) (low : Nat) : Nat := encTile opc sa 0 0 p.omsk.toNat 0 0 p.keep false low

/-- A word without sources, ports or a result. -/
def encPlain (opc low : Nat) : Nat := encTile opc 0 0 0 0 0 0 false false low

def StoreOp.low (st : StoreOp) : Nat := st.mask.toNat * 2 ^ 21 + st.off.toNat

/-- The opcode and the fields of a lane instruction. -/
def laneOf : Instr → Option (Nat × Lane)
  | .tileAdd l => some (0x01, l)
  | .tileSub l => some (0x02, l)
  | .tileMul l => some (0x03, l)
  | .tileMulh l => some (0x04, l)
  | .tileMin l => some (0x05, l)
  | .tileMax l => some (0x06, l)
  | .abs l => some (0x07, l)
  | .neg l => some (0x08, l)
  | .tileAnd l => some (0x09, l)
  | .tileOr l => some (0x0A, l)
  | .tileXor l => some (0x0B, l)
  | .notLane l => some (0x0C, l)
  | .shl l => some (0x0D, l)
  | .shr l => some (0x0E, l)
  | .sar l => some (0x0F, l)
  | .popc l => some (0x10, l)
  | .clz l => some (0x11, l)
  | .ceq l => some (0x12, l)
  | .cne l => some (0x13, l)
  | .clt l => some (0x14, l)
  | .cle l => some (0x15, l)
  | .sel l => some (0x16, l)
  | .fadd l => some (0x20, l)
  | .fsub l => some (0x21, l)
  | .fmul l => some (0x22, l)
  | .fma l => some (0x23, l)
  | .fmin l => some (0x24, l)
  | .fmax l => some (0x25, l)
  | .fabs l => some (0x26, l)
  | .fneg l => some (0x27, l)
  | .frcp l => some (0x28, l)
  | .frsq l => some (0x29, l)
  | .fexp2 l => some (0x2A, l)
  | .flog2 l => some (0x2B, l)
  | .cvt l => some (0x30, l)
  | .pkn l => some (0x31, l)
  | .upn l => some (0x32, l)
  | .bcast l => some (0x33, l)
  | .perm l => some (0x34, l)
  | .lrot l => some (0x35, l)
  | .radd l => some (0x36, l)
  | .rmax l => some (0x37, l)
  | .rmin l => some (0x38, l)
  | .draw l => some (0x3A, l)
  | .treeadd l => some (0x4D, l)
  | _ => none

/-- The word of a tile instruction that is no lane instruction (R263, R267-R289). -/
def encodeOther : Instr → Option Nat
  | .constLane om v => some (0x39 * 2 ^ 56 + om.toNat * 2 ^ 37 + v.toNat)
  | .emit a b om imm => some (encTile 0x40 a.code b.code 0 om.toNat 0 0 false false imm.toNat)
  | .emitP a b om imm => some (encTile 0x40 a.code b.code 0 om.toNat 0 0 false false (2 ^ 21 + imm.toNat))
  | .wgt p out => some (encPush 0x41 0 out (p * 2 ^ 21))
  | .setw p a imm => some (encTile 0x42 a.code 0 0 0 0 0 false false (p * 2 ^ 21 + imm.toNat))
  | .ash a om => some (encTile 0x43 a.code 0 0 om.toNat 0 0 false false 0)
  | .kind p out => some (encPush 0x44 0 out (p * 2 ^ 21))
  | .wcr out => some (encPush 0x45 0 out 0)
  | .wcc out => some (encPush 0x46 0 out 0)
  | .svr a out => some (encPush 0x47 a.code out 0)
  | .svw a n mask => some (encTile 0x48 a.code 0 0 0 0 0 false false (n * 2 ^ 21 + mask.toNat))
  | .tld a st out => some (encPush 0x49 a.code out st.low)
  | .tst a b st => some (encTile 0x4A a.code b.code 0 0 0 0 false false st.low)
  | .tldx a st out => some (encPush 0x4B a.code out st.low)
  | .tmove o => some (encTile 0x4C o.src.code o.dst.code o.len.code 0 0 0 false false
      ((o.notify.toNat * 4 + o.dir) * 2 ^ 21 + o.immHi.toNat * 4 + o.cin))
  | .ctok q a imm => some (encTile 0x50 a.code 0 0 0 0 0 false false (q * 2 ^ 21 + imm.toNat))
  | .br t => some (encPlain 0x51 t.toNat)
  | .bc c v t => some (encPlain 0x52 (v.toNat * 2 ^ 11 + c * 2 ^ 9 + t.toNat))
  | .bany n t => some (encPlain 0x53 (n * 2 ^ 9 + t.toNat))
  | .ball n t => some (encPlain 0x54 (n * 2 ^ 9 + t.toNat))
  | .loop n m t => some (encPlain 0x55 (m * 2 ^ 11 + n * 2 ^ 9 + t.toNat))
  | .endFiring => some (encPlain 0x56 0)
  | .tileTrap code => some (encPlain 0x57 code.toNat)
  | .brk code => some (encPlain 0x58 code.toNat)
  | .nop => some (encPlain 0x59 0)
  | .claim n => some (encPlain 0x60 (n * 2 ^ 24))
  | .releaseSlot n => some (encPlain 0x61 (n * 2 ^ 24))
  | .mma o => some (encPlain 0x62 (o.acc * 2 ^ 27 + o.x * 2 ^ 24 + o.y * 2 ^ 21 + o.kl.toNat * 2 ^ 11 + o.kh.toNat))
  | .mmaC o => some (encPlain 0x63
      (o.acc * 2 ^ 27 + o.xh * 2 ^ 25 + o.klh.toNat * 2 ^ 23 + o.len.toNat * 2 ^ 15 + o.j.toNat * 2 ^ 3))
  | .mmas a x y => some (encPlain 0x64 (a * 2 ^ 27 + x * 2 ^ 24 + y * 2 ^ 21))
  | .azero a => some (encPlain 0x65 (a * 2 ^ 27))
  | .aload a off => some (encPlain 0x66 (a * 2 ^ 27 + off.toNat))
  | .drain a om => some (encTile 0x67 0 0 0 om.toNat 0 0 false false (a * 2 ^ 27))
  | .drainSteer a => some (encPlain 0x67 (a * 2 ^ 27 + 2 ^ 26))
  | .steer f s => some (encPlain 0x68 (f * 2 ^ 27 + s * 2 ^ 25))
  | .cutb n out => some (encPush 0x69 0 out (n * 2 ^ 24))
  | .mstat clr out => some (encPush 0x6A 0 out clr.toNat)
  | .mwait o => some (encPush 0x6B 0 o.out (o.slots.toNat * 2 ^ 21 + o.accs.toNat * 2 ^ 17 + o.limit.toNat))
  | _ => none

/-- The 64-bit word of a tile instruction. -/
def encodeTile (i : Instr) : Option Nat :=
  match laneOf i with
  | some (opc, l) => some (encLane opc l)
  | none => encodeOther i

/-- The bytes of an instruction as its store holds them: a control word in 4 bytes, a tile word in 8, little-endian. -/
def encode (i : Instr) : List Byte :=
  match encodeControl i with
  | some n => bytesOf 4 n
  | none =>
    match encodeTile i with
    | some n => bytesOf 8 n
    | none => []

/-- The decoder's answer on the bytes of an instruction word, control (4 bytes) or tile (8 bytes). -/
def decodeBytes (bs : List Byte) : Option (Except Cause Instr) :=
  if bs.length = 4 then some (decodeControl (BitVec.ofNat 32 (ofBytes bs)))
  else if bs.length = 8 then some (decodeTile (BitVec.ofNat 64 (ofBytes bs)))
  else none

/-- The instruction the decoder reads from a table word (bit 0 the least significant): a control word, or a tile word when
the table gives it more than 32 bits. -/
def decodeTableWord (nbits w : Nat) : Option Instr :=
  match decodeBytes (bytesOf (if nbits ≤ 32 then 4 else 8) w) with
  | some (.ok i) => some i
  | _ => none

end Sys2Proof
end

