-- ==== Sys2Proof/Config.lean ====
section
/-! DEFINITION. What an implementation fixes and the spec does not say: free values. Every constant here is opaque, so
no proof can see a value of it; a statement is true whatever they are (log entry 4). -/

namespace Sys2Proof.Config

/-- The part number and the stepping of the ID register (R202). -/
opaque part : BitVec 16
opaque stepping : BitVec 8
/-- A 16-byte block last written under key `old`, the block at 16 × `block`, decrypted under key `new` (R14, R15): pseudorandom. -/
opaque foreignBlock : (old new block : Nat) → BitVec 128 → BitVec 128
/-- The firmware hashes: 0 taproot, 1 hearth, 2 fabric (R208, R344). -/
opaque firmwareHash : Nat → BitVec 512
/-- The identity key's signature over bytes 0-191 of a quote (R208). -/
opaque quoteSignature : List Byte → BitVec 512
/-- The telemetry block, apart from the cycle count in its first 8 bytes (R210), from the cycle, the errors corrected, those that cannot be, and the integrity
events. -/
opaque telemetry : (now corrected uncorrected integrity : Nat) → List Byte
/-- What a scrub or a check meets, for the n-th free value (R93, R197, R198, R207): 0 nothing, 1 what can be corrected, 2 and more what cannot (of a
granule or a line: 2 and 3 in a word of it, more in a stamp; of a grove's code stores: a word of one). -/
opaque errorMet : Nat → Nat
/-- The bits that have flipped in the frames of a grove when they are looked at, for the n-th free value (R198): of which frame, and which bit. -/
opaque frameErrors : Nat → List (Nat × Nat)
/-- What link training brings, for the n-th free value (R206): the domain device id, and the links that lead to each device. -/
opaque trained : Nat → BitVec 8 × List (Nat × List Nat)
/-- The frame a page moves to, for the n-th free value (R28). -/
opaque newFrame : Nat → Nat
/-- The part of a save handle that the spec leaves open (R336): its upper 32 bits, for the n-th save. -/
opaque saveHandleHigh : Nat → BitVec 32
/-- The payload of a poisoned token and the data of an uncorrectable word (R93, R96), for the n-th free value. -/
opaque freeVec : Nat → Vec
/-- An entry of the translation buffer that a refill evicts (R24), for the n-th free value. -/
opaque freeIndex : Nat → Nat

/-- The dictionary trie of a tokenizer (R64), whose layout in slice store the spec does not give: the child of a trie node for a byte, and the
id of an accepting node, given the words of the store. -/
opaque trieStep : (store : List (Nat × BitVec 512)) → (node : Nat) → Byte → Option Nat
/-- The granules of the store that a step reads. -/
opaque trieTouches : (store : List (Nat × BitVec 512)) → (node : Nat) → Byte → List Nat
opaque trieId : (store : List (Nat × BitVec 512)) → (node : Nat) → Option Word32

/-- The heavy slots that PLIMIT leaves beyond every cluster's base (R164, R209): the damper's estimate of a slot's worst case is not stated. -/
opaque leaveBudget : Nat → Nat

end Sys2Proof.Config
end

