-- ==== Sys2Proof/Machine/State.lean ====
section
/-! DEFINITION. The state of the part as plain data: every piece of state INVENTORY.md lists, the reasons a step can
stop, and the state right after reset. Tables are association lists; a key that a table does not list reads as the
empty record of its kind (the operations are in Machine/Ops.lean). -/

namespace Sys2Proof.Machine

/-- A sparse table by number. -/
abbrev Tab (α : Type) := List (Nat × α)

/-- Why a step stops with a fault. No state a run reaches raises one: every fault of the part is a cause that the
part delivers (R189), which is a next state. -/
inductive Fault where
  /-- Raised by a step whose schedule hands the turn to the core of a cluster that the package does not have
  (R8: clusters 0-479). Safe: the hardware has no such agent. -/
  | noSuchAgent
  deriving DecidableEq, Repr

/-- Why an instruction has no meaning. -/
inductive Refusal where
  /-- Raised by exec's arm of an instruction not modelled yet, by its mnemonic. Safe: nothing is claimed of it. -/
  | notModelled (mnemonic : String)
  deriving DecidableEq, Repr

/-! ## Tokens, records, ash (R95-R99) -/

/-- A token: payload, kind, weight field, FIRST and LAST (R95). -/
structure Tok where
  pay    : Vec := 0
  kind   : Nat := 0
  weight : Nat := 1
  first  : Bool := true
  last   : Bool := true
  deriving DecidableEq, Repr

/-- An ash record (R99). `lost` says that it holds a record lost, so FSEQ is set; `arr` is the cycle a port's slot opened. -/
structure Ash where
  fseq : Nat := 0
  lseq : Nat := 0
  cnt  : Nat := 0
  dw   : Nat := 0
  uw   : Nat := 0
  org  : BitVec 8 := 0
  sat  : Bool := false
  lost : Bool := false
  arr  : Option Nat := none
  deriving DecidableEq, Repr

/-- A record at a port: kind, weight, channel sequence, its tokens (R97), and the cycle its
last token arrived (R348). `id`: its number among all records of the port; `slot`: where it lies in the spill or deferral area; `wait`: it is
held at the port until the round marker (R106); `carried`: the weight of others that a SAMPLE survivor carries (R100). -/
structure Rec where
  kind   : Nat := 0
  weight : Nat := 1
  seq    : Nat := 0
  toks   : List Tok := []
  arr    : Nat := 0
  id     : Nat := 0
  slot   : Nat := 0
  wait   : Bool := false
  carried : Nat := 0
  deriving DecidableEq, Repr

/-- Where a record of a port stands (R98, R106): in the queue, joined to the entry of the record numbered `host` (NARROW), in
the spill area, in the deferral area, or recorded by an ember (R196). -/
inductive Place where
  | queue | joined (host : Nat) | spill | defer | recorded
  deriving DecidableEq, Repr

/-- One item of a port, in delivery order: a record, an ash record (`isOpen`: the ash slot itself), or a marker. `held`:
a running or ending firing holds it (R121). -/
inductive Item where
  | record (r : Rec) (at_ : Place) (held : Bool) (narrowed : Bool)
  | ash (a : Ash) (isOpen : Bool) (held : Bool)
  | marker (kind : Nat)
  deriving DecidableEq, Repr

/-! ## Frames as configuration (R215-R228) -/

/-- An input-port frame (R221). -/
structure InCfg where
  cap    : Nat := 1
  pol    : Nat := 0
  parm   : Nat := 0
  rl     : Nat := 1
  fire   : Bool := false
  budget : Nat := 0
  spo    : Nat := 0
  spn    : Nat := 0
  dsl    : Nat := 0
  dof    : Nat := 0
  dsz    : Nat := 0
  rpi    : Nat := 0
  rsl    : Nat := 0
  reng   : Nat := 0
  rbr    : Nat := 0
  rv     : Bool := false
  deriving DecidableEq, Repr

/-- An actor frame (R219) with its draw frames (R220). -/
structure ActorCfg where
  entry : Nat := 0
  role  : Nat := 0
  ci    : Vector Nat 4 := Vector.replicate 4 0
  cc    : Vector Nat 4 := Vector.replicate 4 0
  po    : Vector Nat 4 := Vector.replicate 4 0
  mint  : Nat := 1
  ownI  : BitVec 4 := 0
  ownC  : BitVec 4 := 0
  ownO  : BitVec 4 := 0
  ownQ  : BitVec 4 := 0
  k     : Vector Nat 4 := Vector.replicate 4 0
  clm   : BitVec 8 := 0
  kh    : Word64 := 0
  kl    : Word64 := 0
  ctr   : BitVec 128 := 0
  deriving DecidableEq, Repr

/-- A slice-node frame (R226). -/
structure NodeCfg where
  kind  : Nat := 0
  inp   : Option Nat := none
  out   : Option Nat := none
  side  : Option Nat := none
  op    : Nat := 0
  chunks : Nat := 1
  trie  : Nat := 0
  fallback : Nat := 0
  deriving DecidableEq, Repr

/-- A pattern record or template (R48). Strides are signed. -/
structure Pattern where
  base : Nat := 0
  e    : List Nat := [0, 0, 0, 0, 0]
  s    : List Int := [0, 0, 0, 0, 0]
  form : Nat := 0
  rlen : Nat := 0
  rlm1 : Nat := 0
  win  : Nat := 0
  rsv  : Nat := 0
  deriving DecidableEq, Repr

/-- The configuration of one site: tile or slice frames and switch bindings (R217-R228). -/
structure SiteCfg where
  ageM   : Nat := 4096
  pm     : Vector (BitVec 4) 4 := Vector.replicate 4 0
  actors : Vector (Option ActorCfg) 8 := Vector.replicate 8 none
  ins    : Vector (Option InCfg) 4 := Vector.replicate 4 none
  outs   : Vector (Option Nat) 4 := Vector.replicate 4 none
  code   : Tab Word64 := []
  binds  : List (Nat × Nat) := []
  border : BitVec 4 := 0
  nodes  : Vector NodeCfg 4 := Vector.replicate 4 {}
  branch : Vector (BitVec 8) 4 := Vector.replicate 4 0
  temps  : Tab Pattern := []
  deriving DecidableEq, Repr

/-- A route-class handler (R230): a control thread with its entry, or a tile port. -/
inductive Handler where
  | thread (cluster thr entry : Nat)
  | port (col row port : Nat)
  deriving DecidableEq, Repr

/-- A data entry of the manifest (R230). -/
structure DataEntry where
  store : Nat := 0
  col   : Nat := 0
  row   : Nat := 0
  off   : Nat := 0
  bytes : List Byte := []
  deriving DecidableEq, Repr

/-- A decoded image (R157, R229, R230): what the reload copy holds. Sites are keyed by 64 × row + col, code by cluster. -/
structure Image where
  gw      : Nat := 1
  gh      : Nat := 1
  exact   : Bool := false
  strict  : Bool := false
  dsr     : Nat := 0
  skey    : Nat := 0
  fmts    : List Word32 := []
  sites   : Tab SiteCfg := []
  threads : List (Nat × Nat × Nat) := []
  code    : Tab (Tab Word32) := []
  routes  : Tab Nat := []
  handlers : Tab Handler := []
  data    : List DataEntry := []
  tvec    : Option Nat := none
  tdrain  : Nat := 200
  ages    : Tab Nat := []
  raw     : List Byte := []
  frames  : List Nat := []
  size    : Nat := 0
  deriving DecidableEq, Repr

/-! ## Control threads and cores (R151-R155, R304, R317) -/

/-- What a waiting thread waits for (R151): its instruction issues again when its turn comes (`again`), a full-empty
request (its id), a wake after idle, or a reduction. -/
inductive Wait where
  | again | word (req : Nat) | idle | nred
  deriving DecidableEq, Repr

/-- The states of a control thread (R151). -/
inductive TState where
  | free | halted | ready | waiting (w : Wait)
  deriving DecidableEq, Repr

/-- A general register: value, generation stamp (R87), the outstanding operation that will write it (R304), and the VA of
a load whose data came back uncorrectable (R310), the first cycle in which the value is readable. -/
structure GReg where
  val  : Word64 := 0
  gen  : Nat := 0
  pend : Option Nat := none
  poison : Option Nat := none
  readyAt : Nat := 0
  deriving DecidableEq, Repr

/-- A token FIFO (R155): the stamps of its entries, oldest first, and the entries reserved by gives. -/
structure Fifo where
  entries  : List Nat := []
  reserved : Nat := 0
  deriving DecidableEq, Repr

/-- An open speculation generation (R58, R316): its number, the load it waits for, the branch's address and the path not
hinted, how to re-evaluate it, and the registers at the branch. `sure`: its branch is confirmed and it waits for an older one; `held`: its path is a target outside the code store, a fault that is held; `mark`, `group`: the
branch's own mark and the first word of its group (R237). -/
structure SpecGen where
  num   : Nat := 0
  req   : Nat := 0
  pcAt  : Nat := 0
  other : Nat := 0
  hinted : Bool := false
  op    : Nat := 0
  ra    : Reg := 0
  rb    : Reg := 0
  regs  : Vector GReg 32 := Vector.replicate 32 {}
  sure   : Bool := false
  held   : Bool := false
  mark   : Option (Bool × Fin 8) := none
  group  : Option Nat := none
  deriving DecidableEq, Repr

/-- A control thread (R304, R317). `fences`: the requests, and the messages, that hold its later accesses:
those that reach into a fence's scope (R168), or all of them (R171); `since`: the cycle since which it was ready and not picked, which gives its age (R152); `gives`: the gives whose
instruction retires at a later cycle (R155); `trapAt`: 1 + the cycle of its last precise trap, for the debugger (R213). -/
structure Thread where
  status : TState := .free
  pc     : Nat := 0
  regs   : Vector GReg 32 := Vector.replicate 32 {}
  gen    : Nat := 0
  strict : Bool := false
  cause  : Cause := 0
  epc    : Nat := 0
  tval   : Word64 := 0
  trapActive : Bool := false
  role   : Nat := 0
  ld     : Nat := 0
  st     : Nat := 0
  cp     : Nat := 0
  mx     : Nat := 0
  fifos  : Vector Fifo 8 := Vector.replicate 8 {}
  fifoGen : Nat := 0
  specs  : List SpecGen := []
  imm    : Option Word32 := none
  mark   : Option (Bool × Fin 8) := none
  group  : Option Nat := none
  since  : Nat := 0
  entry  : Nat := 0
  hasRun : Bool := false
  frsrc  : Word64 := 0
  frec   : Vector Word64 4 := Vector.replicate 4 0
  fences : List (Nat × Option Scope) := []
  gives  : List (Nat × Fin 8) := []
  trapAt : Nat := 0
  deriving DecidableEq, Repr

/-- An entry of the translation buffer (R24): first VA, size, first PA, the leaf entry. -/
structure TlbEntry where
  va   : Nat := 0
  size : Nat := 0
  pa   : Nat := 0
  leaf : Word64 := 0
  deriving DecidableEq, Repr

/-- A contribution or a node of a reduction at a cluster (R341). -/
structure RedNode where
  tag   : Nat := 0
  n     : Nat := 0
  level : Nat := 0
  index : Nat := 0
  val   : Word32 := 0
  deriving DecidableEq, Repr

/-- A thread waiting in nred (R341): `away`, a trap has withdrawn its wait; `over`, the reduction has its result, which is on its way;
`result`, `bad`: the answer or the fault that has come. -/
structure RedWait where
  thread : Nat := 0
  tag  : Nat := 0
  n    : Nat := 0
  rank : Nat := 0
  rd   : Reg := 0
  acc  : Word32 := 0
  away : Bool := false
  done : Bool := false
  result : Option Word32 := none
  bad  : Option Cause := none
  deriving DecidableEq, Repr

/-! ## Serialisation points (R166) -/

/-- Where an address lies (R12). -/
inductive Region where
  | lpddr | host | remote (dev : Nat) | reserved
  deriving DecidableEq, Repr

/-- The serialisation point of an access (R166): an LPDDR channel, the CXL port, a channel of another device or its CXL port, a slice, a
die's store controller, a tile, or a grove's record at the hearth (R153). -/
inductive Point where
  | channel (n : Nat) | cxl | device (d : Nat) (channel : Option Nat) | slice (site : Nat) | dieStore (die : Nat) | tile (site : Nat)
  | record (grove : Nat)
  deriving DecidableEq, Repr

/-! ## Memory requests, operations, packets, tokens in flight -/

/-- What an access does at its memory node (R21, R156, R309-R312, R153). Sizes in bytes. -/
inductive MemKind where
  | load (size : Nat) (signed : Bool)
  | store (size : Nat) (data : Nat)
  | amo (op size : Nat) (b old : Nat)
  | ldf | ldt
  | fill (data : Nat)
  | fillAck
  | engineRead (slice gen : Nat)
  | portWrite (slice gen : Nat) (exact poison : Bool) (data draw : Nat)
  | barInit (slice off n : Nat)
  | barArrive (slice off : Nat)
  | gjoin (grove group : Nat)
  | gleave (grove group : Nat)
  | gsize (grove group : Nat)
  | nsend (pkt : Nat)
  | gatherRead (home node slice off lane : Nat)
  | manifest (data : Nat)
  deriving DecidableEq, Repr

/-- A memory request (R166-R171). `src` is the requesting thread; `pieces` are the events still to be performed, as
(offset, bytes, PA), ascending; `res` collects what was read; `points` are the serialisation points it goes to; `parked`: an ldf or ldt waits at an empty word. Of an engine's read: `edge`, the
command that bound its stream (R169); `tok0` and `flits`, the first token it reads for and their number; `reads`, all its pieces; of a store port's write, `tok0`, its walk position; `fault`, what the word that a gather node asked for met (R89); `sent`: its permit is spent (R75); `due`:
the first cycle in which it is performed; `joint`, the flits read as one event (R52); `badAt`, those
that met an uncorrectable word (R93). -/
structure MemReq where
  id     : Nat := 0
  src    : Nat := 0
  kind   : MemKind := .fillAck
  va     : Nat := 0
  key    : Nat := 0
  pieces : List (Nat × Nat × Nat) := []
  res    : Nat := 0
  points : List Point := []
  dst    : Option Reg := none
  parked : Bool := false
  bad    : Bool := false
  give   : Option (Fin 8) := none
  edge   : Nat := 0
  joint  : List Nat := []
  badAt  : List Nat := []
  tok0   : Nat := 0
  flits  : Nat := 0
  reads  : List (Nat × Nat × Nat) := []
  sent   : Bool := true
  due    : Nat := 0
  arr    : Option Nat := some 0
  ans    : Nat := 2
  fault  : Option Cause := none
  deriving DecidableEq, Repr

/-- The counter an operation counts on (R154). -/
inductive Ctr where
  | ld | st | cp | mx
  deriving DecidableEq, Repr

/-- An operation that runs on after its command issued (R324). `done`: its stated end is reached; `todo`: an mfcmp that waits for its thread's earlier
accesses to where the stored manifest and the report lie (R169, R345). -/
structure Op where
  id     : Nat := 0
  thread : Nat := 0
  ctr    : Option Ctr := none
  dst    : Option Reg := none
  res    : Word64 := 0
  give   : Option (Fin 8) := none
  done   : Bool := false
  todo   : Option (Nat × Nat) := none
  deriving DecidableEq, Repr

/-- An smove in progress (R84, R329): its stores (0 tile, 1 slice, 2 die, 3 memory), the sites of its sides, where its bytes lie, the
bytes copied, the physical chunks of its memory sides as (side, first byte, bytes, PA), the token that has been read, with its poison, and is
still to be written, and the first cycle in which its next token is read. -/
structure Smove where
  op    : Nat := 0
  thread : Nat := 0
  grove : Nat := 0
  ssp   : Nat := 0
  dsp   : Nat := 0
  ssite : Nat := 0
  dsite : Nat := 0
  sadr  : Nat := 0
  dadr  : Nat := 0
  len   : Nat := 0
  done  : Nat := 0
  segs  : List (Nat × Nat × Nat × Nat) := []
  fly   : Option (Nat × Bool) := none
  due   : Nat := 0
  deriving DecidableEq, Repr

/-- One strip token of a shalo (R86, R328): the operation, the sender and the byte it reads, the receiver, the byte it is written to and the
control input; once sent, its value with its poison and the cycle it lands. -/
structure HaloTok where
  id   : Nat := 0
  op   : Nat := 0
  from_ : Nat := 0
  src  : Nat := 0
  site : Nat := 0
  off  : Nat := 0
  cin  : Nat := 0
  sent : Bool := false
  fly  : Option (Nat × Bool) := none
  due  : Nat := 0
  deriving DecidableEq, Repr

/-- A page migration (R28, R29): the translation root and the VA that name the page, the direction, whether the host asks, and the cycle it
arrived; `active`: its copy runs. -/
structure Migration where
  id     : Nat := 0
  root   : Nat := 0
  va     : Nat := 0
  toHost : Bool := false
  byHost : Bool := false
  since  : Nat := 0
  active : Bool := false
  deriving DecidableEq, Repr

/-- Where a packet is (R70): in the output queue of a router (by die × 120 + cy × 8 + cx, and direction 0 N, 1 E, 2 S, 3 W,
4 local, 5 hearth, 6 at its source, not yet at the router), in the input buffer of a router by the side it came in by (0 N, 1 E, 2 S, 3 W, 4 local,
5 hearth), at the hearth going up into a die's column, at the hearth going to a link, at the hearth before it is sent on, delivered, a pruned header
whose receiver asks again at a cycle, or a hole that its source can no longer fill (R77). -/
inductive PktAt where
  | router (r dir : Nat) | input (r side : Nat) | hearth (die cx : Nat) | link (n : Nat) | hub | delivered | backoff (due : Nat) | hole
  deriving DecidableEq, Repr

/-- A scatter pair held or on its way (R61): offset, value, source stream, the sequence of its record, its token's place in the record, round. -/
structure Pair where
  off : Nat := 0
  val : Word32 := 0
  src : Nat := 0
  seq : Nat := 0
  place : Nat := 0
  round : Nat := 0
  deriving DecidableEq, Repr

/-- A packet (R71). Beside the header: whether it is for the hearth's memory agent, the grove it belongs to, the request and the first token that a read response answers, what
was read for it, and the pairs of a scatter write; `due`: the first cycle in
which its header leaves the place where it stands (R70); `req`: the memory request that it carries or answers; `down`: it has been through the
hearth. -/
structure Packet where
  id    : Nat := 0
  ddev  : Nat := 0
  sdev  : Nat := 0
  vl    : Nat := 0
  cls   : Nat := 0
  type  : Nat := 0
  pr    : Bool := false
  pruned : Bool := false
  ex    : Bool := true
  len   : Nat := 0
  olen  : Nat := 0
  dclu  : Nat := 0
  dep   : Nat := 0
  sclu  : Nat := 0
  sep   : Nat := 0
  flow  : Nat := 0
  seq   : Nat := 0
  addr  : Nat := 0
  wsum  : Nat := 0
  recs  : Nat := 0
  hchk  : Nat := 0
  rsv   : Nat := 0
  hub   : Bool := false
  pay   : List Vec := []
  at_   : PktAt := .delivered
  due   : Nat := 0
  grove : Nat := 0
  val   : Nat := 0
  op    : Nat := 0
  tok0  : Nat := 0
  gen   : Nat := 0
  reads : List (Nat × Nat × Nat) := []
  joint : List Nat := []
  badAt : List Nat := []
  pairs : List Pair := []
  req   : Option Nat := none
  down  : Bool := false
  deriving DecidableEq, Repr

/-- A cut (R138): lo, hi, n. -/
structure Cut where
  lo : Nat := 0
  hi : Nat := 0
  n  : Nat := 0
  deriving DecidableEq, Repr

/-- A token on a data track (R68): its sink (site × 256 + id of R224), and the cycle it is present there. For a fill sink: the
stream, the slot, the element bytes it carries and its valid bytes, the row of a cutter's B row; `cut`, its triple and serial number, on the first entry token of a cut; `skips`: a
panel row skips the B row (R140); `fin`: it is the stream's last token. -/
structure Flight where
  sink : Nat := 0
  tok  : Tok := {}
  due  : Nat := 0
  sid  : Nat := 0
  op   : Nat := 0
  slot : Nat := 0
  bytes : Nat := 32
  valid : Nat := 32
  pos  : Option Nat := none
  cut  : Option (Cut × Nat × Nat) := none
  skips : Bool := false
  fin  : Bool := false
  deriving DecidableEq, Repr

/-- A control bit on a control track (R69). -/
structure CtlFlight where
  sink : Nat := 0
  bit  : Bool := false
  due  : Nat := 0
  deriving DecidableEq, Repr

/-! ## Scratchpads (R80, R87) -/

/-- A 64-byte granule: stamp, contents, which of its two 32-byte words are uncorrectable, and, once its stamp is, which words are still to be
rewritten before it is repaired (R93). -/
structure Gran where
  gen : Nat := 0
  val : BitVec 512 := 0
  bad : BitVec 2 := 0
  lost : BitVec 2 := 0
  deriving DecidableEq, Repr

/-- What the writes of one cycle found in a store (R83): the cycle, the granules as they stood before, and by 4-byte lane the rank of the path
that wrote it last. -/
structure WriteLog where
  cycle : Nat := 0
  old   : Tab Gran := []
  ranks : Tab Nat := []
  deriving DecidableEq, Repr

/-! ## The tile (R114-R126, R128-R140) -/

/-- The element format of an operand slot (R56, R129): none of its own, BF16, or a descriptor. -/
inductive SlotFmt where
  | none | bf16 | desc (d : Word32)
  deriving DecidableEq, Repr

/-- A matrix command (R289), as it stands in the queue. -/
inductive MatOp where
  | claim (n : Fin 8) | release (n : Fin 8)
  | mma (a : Fin 4) (x y : Fin 8) (kl kh : Nat)
  | mmac (a : Fin 4) (x y : Fin 8) (kl kh j : Nat)
  | mmas (a : Fin 4) (x y : Fin 8)
  | azero (a : Fin 4) | aload (a : Fin 4) (off : Nat)
  | drain (a : Fin 4) (st : Bool) (mask : BitVec 4)
  | steer (v : BitVec 2)
  deriving DecidableEq, Repr

/-- An operand slot (R128, R130, R360). `bits` is the slot's bit string, `sid` its fill's stream, `follow` the fill's
follow-on command and the thread whose mx it counts on (R56, R154). -/
structure Slot where
  gen     : Nat := 0
  bits    : Nat := 0
  fmt     : SlotFmt := .none
  scaled  : Bool := false
  scales  : Tab Nat := []
  blocks  : Nat := 0
  claim   : Option Nat := none
  pending : Nat := 0
  use     : Nat := 0
  landed  : Nat := 0
  carry   : List Byte := []
  sid     : Nat := 0
  follow  : Option (MatOp × Nat) := none
  deriving DecidableEq, Repr

/-- A slot's bound triple (R139): bl, bh, bn, its stamp, and the cut that wrote it since the last claim. -/
structure Bounds where
  lo  : Nat := 0
  hi  : Nat := 0
  n   : Nat := 0
  gen : Nat := 0
  cut : Option Nat := none
  deriving DecidableEq, Repr

/-- The tag of an accumulator (R132). -/
inductive AccTag where
  | plain | part (level index : Nat)
  deriving DecidableEq, Repr

/-- An accumulator: 16 × 16 FP32 values, row-major, tag and stamp (R132). -/
structure Acc where
  v   : Vector Word32 256 := Vector.replicate 256 0
  tag : AccTag := .plain
  gen : Nat := 0
  deriving DecidableEq, Repr

/-- The matrix status register MS (R140). -/
structure MatStat where
  cl   : Nat := 0
  snan : Bool := false
  inf  : Bool := false
  nan  : Bool := false
  psp  : Bool := false
  deriving DecidableEq, Repr

/-- A queued command: who staged it, the cycle it entered, and for a follow-on the thread whose mx it counts on, its fill's
stream and its slot. -/
structure MatCmd where
  op     : MatOp := .steer 0
  actor  : Nat := 0
  follow : Option (Nat × Nat) := none
  slot   : Nat := 0
  since  : Nat := 0
  deriving DecidableEq, Repr

/-- A command that occupies the unit (R291): its first cycle, its last array cycle, its completion cycle, the accumulator it
will write, or the one a drain sends, the flags it sets, for aload the words read so far and the cause one of them met, and for a drain its port
mask and the tokens written so far. -/
structure MatRun where
  cmd     : MatCmd := {}
  startAt : Nat := 0
  flagsAt : Nat := 0
  doneAt  : Nat := 0
  res     : Option Acc := none
  flags   : MatStat := {}
  words   : List Nat := []
  bad     : Option Cause := none
  mask    : BitVec 4 := 0
  sent    : Nat := 0
  deriving DecidableEq, Repr

/-- An actor's changing state (R109, R118, R120, R122). `pend` is the pending set: 8 × vector + lane to value; `stepAt`: the cycle of its last
ash step (R108). -/
structure ActorSt where
  age    : Nat := 0
  last   : Option Nat := none
  count  : Nat := 0
  ctr    : BitVec 128 := 0
  wc     : Nat := 0
  wl     : Nat := 0
  pend   : Tab Word32 := []
  stepAt : Option Nat := none
  deriving DecidableEq, Repr

/-- One output port's part of a firing (R268): tokens staged, position in the open record, records counted, where the
record most recently opened starts, its kind, requested weight, sequence, and whether one was opened. -/
structure Stage where
  toks   : List Tok := []
  pos    : Nat := 0
  recs   : Nat := 0
  openAt : Nat := 0
  kind   : Nat := 0
  req    : Nat := 0
  seq    : Nat := 0
  next   : Nat := 0
  opened : Bool := false
  excess : Bool := false
  deriving DecidableEq, Repr

/-- A firing (R121-R126). `gen`: the stamp of the bypass slots and loop counters, all current from its start (R87, R115); `held` are the items it holds at each input; `ri`, `ti` count the records and tokens taken, `ci` the control tokens read;
`ctr` is the draw counter once the firing has used it; sequences in `stage` count from the firing's first. -/
structure Firing where
  actor : Nat := 0
  gen   : Nat := 0
  start : Nat := 0
  pc    : Nat := 0
  held  : Vector (List Item) 4 := Vector.replicate 4 []
  ri    : Vector Nat 4 := Vector.replicate 4 0
  ti    : Vector Nat 4 := Vector.replicate 4 0
  ctl   : Vector (List Bool) 4 := Vector.replicate 4 []
  ci    : Vector Nat 4 := Vector.replicate 4 0
  lastW : Nat := 0
  byp   : Vector Vec 6 := Vector.replicate 6 0
  k     : Vector Nat 4 := Vector.replicate 4 0
  writes : Tab Word32 := []
  stage : Vector Stage 4 := Vector.replicate 4 {}
  qout  : Vector (List Bool) 4 := Vector.replicate 4 []
  cmds  : List MatCmd := []
  ctr   : Option (BitVec 128) := none
  wcc   : Bool := false
  msClr : BitVec 5 := 0
  clMax : Nat := 0
  wait  : Option Nat := none
  busyTo : Nat := 0
  endAt : Option Nat := none
  deriving DecidableEq, Repr

/-- What a record was lost by (R103, R113): dropped, sampled out, no room in the deferral area, or escalation. -/
inductive LostBy where
  | dropped | sampled | areaFull | escalated
  deriving DecidableEq, Repr

/-- What became of a record whose tokens still arrive (R97, R104): lost, placed as the record of a number, merged into the
record of a number, or faulted. -/
inductive Verdict where
  | lost (why : LostBy) | kept (id : Nat) | merged (id : Nat) | faulted
  deriving DecidableEq, Repr

/-- A record whose tokens still arrive: the next token's place, the sequence, the verdict. -/
structure Asm where
  pos : Nat := 0
  seq : Nat := 0
  verdict : Verdict := .lost .dropped
  deriving DecidableEq, Repr

/-- An input port's changing state (R98-R106). `ids`: the records counted so far; `blkPos`, `blkW`, `blkN`: a SAMPLE block's position, weight,
and weight sampled out; `blkEnd`: a block ended in this cycle (R102); `pair`: the first record of the last exact NARROW pair (R106);
`backAt`: the cycle of the last return from an area, `actedAt`: that of the last token judged or ash step (R104); `last`: the verdict on the last data
token, for Huash (R349); `emberCyc`: the cycle its own ember marker came (R356). -/
structure InPort where
  items  : List Item := []
  seq    : Nat := 0
  idx    : Nat := 0
  engaged : Bool := false
  blkPos : Nat := 0
  blkW   : Nat := 0
  blkN   : Nat := 0
  failed : Bool := false
  asm    : Option Asm := none
  ids    : Nat := 0
  blkEnd : Bool := false
  pair   : Option Nat := none
  backAt : Option Nat := none
  actedAt : Option Nat := none
  last   : Verdict := .lost .dropped
  consumed : Nat := 0
  unreported : Nat := 0
  emberSeen : Bool := false
  emberCyc : Nat := 0
  deriving DecidableEq, Repr

/-- An output port's changing state: the channel sequence, the first cycle in which its track is free again (R124), the tokens that a
freeze or a halt holds in staging (R198, R213), and those that are leaving, each with the cycle in which it is on the track and its sequence (R349). -/
structure OutPort where
  seq    : Nat := 0
  busyTo : Nat := 0
  waiting : List Tok := []
  leaving : List (Nat × Nat × Tok) := []
  deriving DecidableEq, Repr

/-- A tmove in progress (R281): bytes landed, the token on its way with its poison, and the cycle it lands. `idle`: the tokens of shalos issued
before it, numbered below `since`, leave its tile first (R328). -/
structure Mover where
  src    : Nat := 0
  dst    : Nat := 0
  len    : Nat := 0
  done   : Nat := 0
  dir    : Nat := 0
  notify : Option Nat := none
  fly    : Nat := 0
  bad    : Bool := false
  due    : Nat := 0
  actor  : Nat := 0
  pc     : Nat := 0
  since  : Nat := 0
  idle   : Bool := false
  deriving DecidableEq, Repr

/-- The ember state of a tile (R355): not embered, the cycle of the first marker, or saved. -/
inductive EmberAt where
  | no | marked (t : Nat) | saved
  deriving DecidableEq, Repr

/-- A fault record (R191). -/
structure FaultRec where
  cause : Cause := 0
  src   : Nat := 0
  clu   : Nat := 0
  ep    : Nat := 0
  act   : Nat := 0
  pc    : Nat := 0
  sid   : Nat := 0
  fcnt  : Nat := 0
  addr  : Nat := 0
  seq   : Nat := 0
  sband : Nat := 0
  dbl   : Bool := false
  deriving DecidableEq, Repr

/-- A compute tile. `nextAt`: the first cycle in which a firing may begin (R122); `readFrom`: the first cycle in which the state a
firing left may be read (R126); `qwait`: the control tokens that a freeze or a halt holds in staging (R198, R213); `mqFrom`: the first cycle in which the next matrix
command may start (R291); `cinNew`: of each control input a cycle and the tokens that came in it (R348); `roundAt`: the first cycle after the last round marker left (R355); `eok`: end-of-kernel has left, so
the tile switches next (R161); `next`: the successor's frames; `box`: the successor's switch bindings and border; `emberLog`: the cycles of the
first ember marker, of the end of a firing that ran then, and of the save (R356). -/
structure Tile where
  cfg     : SiteCfg := {}
  gen     : Nat := 0
  strict  : Bool := false
  store   : Tab Gran := []
  log     : WriteLog := {}
  actors  : Vector ActorSt 8 := Vector.replicate 8 {}
  firing  : Option Firing := none
  ending  : List Firing := []
  nextAt  : Nat := 0
  ins     : Vector InPort 4 := Vector.replicate 4 {}
  outs    : Vector OutPort 4 := Vector.replicate 4 {}
  cin     : Vector (List (Bool × Nat)) 4 := Vector.replicate 4 []
  cinHeld : Vector Nat 4 := Vector.replicate 4 0
  cinNew  : Vector (Nat × Nat) 4 := Vector.replicate 4 (0, 0)
  qbusy   : Vector Nat 4 := Vector.replicate 4 0
  qwait   : Vector (List Bool) 4 := Vector.replicate 4 []
  msgq    : List (Nat × Nat × Nat) := []
  slots   : Vector Slot 8 := Vector.replicate 8 {}
  bounds  : Vector Bounds 8 := Vector.replicate 8 {}
  accs    : Vector Acc 4 := Vector.replicate 4 {}
  steer   : BitVec 2 := 0
  ms      : MatStat := {}
  mq      : List MatCmd := []
  run     : Option MatRun := none
  mover   : Option Mover := none
  hb      : Nat := 0
  hbGen   : Nat := 0
  stopped : Bool := false
  mqStop  : Bool := false
  mqFrom  : Nat := 0
  readFrom : Nat := 0
  roundAt : Nat := 0
  ember   : EmberAt := .no
  emberLog : Nat × Nat × Nat := (0, 0, 0)
  eok     : Bool := false
  next    : Option SiteCfg := none
  box     : Option (List (Nat × Nat) × BitVec 4) := none
  deriving DecidableEq, Repr

/-! ## The slice (R47-R65, R142-R149) -/

/-- The kind of a bound stream (R326). -/
inductive StreamKind where
  | load | fill | store | gather | scatter | cut
  deriving DecidableEq, Repr

/-- A token of the reorder window (R55, R77): asked for, arrived, a hole awaiting its refill since the prune, with the cycle of its re-request, lost in the pruned response `grp`, or
withheld for a fault. -/
inductive RoState where
  | asked | data (bad : Bool) | hole (pruned : Nat) (again : Option Nat) | gone (grp : Nat) | fault (c : Cause) (va : Nat)
  deriving DecidableEq, Repr

/-- A place of the reorder window: token index in walk order, its state, the bytes that have arrived, and the responses still to come. `zero`: it is
of a lossy fill, and a response that was pruned carried part of it (R77). -/
structure RoTok where
  idx  : Nat := 0
  st   : RoState := .asked
  got  : Nat := 0
  left : Nat := 0
  bad  : Bool := false
  zero : Bool := false
  deriving DecidableEq, Repr

/-- An extent (R22): pages contiguous in VA and PA with one leaf, or a faulting page. -/
structure Extent where
  va    : Nat := 0
  len   : Nat := 0
  pa    : Nat := 0
  leaf  : Word64 := 0
  fault : Option Cause := none
  deriving DecidableEq, Repr

/-- A write held by a store port (R145): its token position, its number among the stream's data tokens (R359), the token, round, sequence. -/
structure Held where
  pos   : Nat := 0
  draw  : Nat := 0
  tok   : Tok := {}
  round : Nat := 0
  seq   : Nat := 0
  deriving DecidableEq, Repr

/-- A token a cutter is to send (R353): an entry token of its cut, with its payload, or the B row `row`; the slot it goes to, and what
its flight carries. -/
structure CutTok where
  entry : Bool := false
  pay   : Vec := 0
  row   : Nat := 0
  slot  : Nat := 0
  bytes : Nat := 32
  cut   : Option (Cut × Nat × Nat) := none
  skips : Bool := false
  fin   : Bool := false
  deriving DecidableEq, Repr

/-- The cutter of a stream (R137-R139, R327, R352, R353). `need`: the tokens still to be read, as (0 row pointers, 1 position bytes, 2
values, 3 B row; address; bytes); `tabs`: what was read, by kind × 2^60 + address / 32; `elems`: the decoded elements (row, k, code) once `loaded`;
`bfmt`, `bguess`: the format of the B pages, known from the first address read there, and the one that cuts decided before that count with; `planned`: the ranges have been planned; `next`: where the next cut starts; `queue`: what is to be sent. -/
structure Cutter where
  vals   : Nat := 0
  rptr   : Nat := 0
  pos    : Nat := 0
  bbase  : Nat := 0
  bpitch : Nat := 0
  row0   : Nat := 0
  k      : Nat := 0
  bud    : Nat := 0
  pairs  : List (Fin 8 × Fin 8) := []
  fe     : Bool := false
  fa     : Fin 4 := 0
  vfmt   : Nat := 0
  bfmt   : Option Nat := none
  bguess : Nat := 30
  need   : List (Nat × Nat × Nat) := []
  asked  : List (Nat × Nat × Nat) := []
  tabs   : Tab Nat := []
  planned : Bool := false
  elems  : List (Nat × Nat × Nat) := []
  loaded : Bool := false
  next   : Nat := 0
  any    : Bool := false
  ended  : Bool := false
  queue  : List CutTok := []
  deriving DecidableEq, Repr

/-- A bound stream in a generator (R47-R59, R142-R149). Load streams: `issue`, the next token to ask for, with `part` requests of it
already sent; `emit`, the next to emit; `win`, the reorder window; `round`, `pendR`, `inRound`: R, the R from the next round on, records since the last
marker; `branches`: the window of each branch. Store streams: `wpos`, the next position of the walk; `seqIn`: the sequence count of its input, `seq0` what it was at the bind; `held`, `behind`, `withheld`: tokens held for their round or to be written again, behind a withheld token, and that token; `headHeld`: the first of its held tokens is withheld; `draws`: data tokens taken (R359); `lostNow`: the record
that is arriving has been lost behind a withheld token, `gone`: the records of its walk so lost (R361); `rounds`, `rdone`: rounds closed and
committed; `lo`, `hi`: bytes written. -/
structure Stream where
  sid     : Nat := 0
  kind    : StreamKind := .load
  thread  : Nat := 0
  grove   : Nat := 0
  op      : Nat := 0
  pat     : Pattern := {}
  fmt     : Nat := 0
  geo     : Nat := 0
  w       : Nat := 1
  toks    : Nat := 0
  empty   : Bool := false
  lossy   : Bool := false
  cp      : Nat := 0
  node    : Nat := 0
  slot    : Nat := 0
  follow  : Option MatOp := none
  issue   : Nat := 0
  part    : Nat := 0
  emit    : Nat := 0
  ended   : Bool := false
  closing : Bool := false
  round   : Nat := 1
  pendR   : Option Nat := none
  inRound : Nat := 0
  marked  : Bool := false
  branches : List (Nat × Nat) := []
  win     : List RoTok := []
  prunes  : Nat := 0
  specTrim : Nat := 0
  gen     : Option Nat := none
  paused  : Option (Cause × Nat) := none
  pausedAt : Nat := 0
  ext     : List Extent := []
  nextExt : List Extent := []
  skipTo  : Option (Nat × Nat) := none
  resv    : Nat := 0
  wpos    : Nat := 0
  seqIn   : Nat := 0
  held    : List Held := []
  behind  : List Tok := []
  draws   : Nat := 0
  seq0    : Nat := 0
  lostNow : Bool := false
  gone    : List Nat := []
  headHeld : Bool := false
  withheld : Option Tok := none
  rounds  : Nat := 0
  rdone   : Nat := 0
  commitBase : Nat := 0
  ash     : Ash := {}
  lo      : Option Nat := none
  hi      : Nat := 0
  cut     : Option Cutter := none
  deriving DecidableEq, Repr

/-- A stream command that passed its checks and waits for a generator, a port or a reservation (R47, R142, R145). -/
structure Queued where
  slice  : Nat := 0
  eng    : Nat := 0
  stream : Stream := {}
  deriving DecidableEq, Repr

/-- A stream engine (R47): four generators, its bind count, the generator that emitted last (DESIGN CHOICE, log entry 102: of an engine none of whose
generators has emitted, of which R47 says nothing, it stands at 0, so that generator 1 is served first), its last emission cycle; per window
branch the tokens sent and the count reported (R53); tokens issued since its last gap and its last issue (R164). -/
structure Engine where
  gens  : Vector (Option Stream) 4 := Vector.replicate 4 none
  binds : Nat := 0
  rr    : Nat := 0
  lastEmit : Option Nat := none
  sent  : Vector Nat 8 := Vector.replicate 8 0
  reported : Vector Nat 8 := Vector.replicate 8 0
  fresh : List (Nat × Nat × Nat) := []
  heavy : Bool := false
  run   : Nat := 0
  lastIssue : Nat := 0
  deriving DecidableEq, Repr

/-- A slice node's changing state (R60-R65): held pairs, tokens waiting to be handled, partials with their coordinates, coordinates
seen, ash, output sequence, scatter packets kept, running mean, sample number, text of the sample not yet
matched with its place, steps used, ids not yet sent, where a run of invalid bytes began, and the cycle its output is free again. `formed`: it has
formed a root in this run (R63); `badIds`: which of the ids not yet sent come from a poisoned word (R93); `stale`: a walk met a stale granule under
STRICT (R89); `withheld`: the token it withholds for a fault, and since when (R189, R192); `stuck`: pairs withheld at a word they
may not read, and those behind them (R89); `asked`: a gather node has asked for the words of its first offset token (R62). -/
structure Node where
  pairs  : List Pair := []
  rows   : List Tok := []
  parts  : List (Nat × Nat × Vec) := []
  seen   : List (Nat × Nat) := []
  ash    : Ash := {}
  sent   : List Packet := []
  mean   : Nat := 64
  sample : Nat := 0
  text   : List Byte := []
  used   : Nat := 0
  pos    : Nat := 0
  outIds : List Word32 := []
  cutOff : Bool := false
  badAt  : Option Nat := none
  outTo  : Nat := 0
  formed : Bool := false
  badIds : List Nat := []
  stale  : Bool := false
  withheld : Option (Flight × Nat) := none
  stuck  : List Pair := []
  asked  : Bool := false
  deriving DecidableEq, Repr

/-- A memory slice. `inSeq`, `outSeq`: the sequence counts of its circuit inputs and outputs (R97); `commit`: the round that commits, of one generator's stream or of all exact ports (R146); `emberIn`: of each circuit input the cycle in which it saved (R355); `eok`, `next`, `box` as of a tile:
end-of-kernel has left its outputs; the successor's frames and bindings (R161). -/
structure Slice where
  cfg     : SiteCfg := {}
  gen     : Nat := 0
  strict  : Bool := false
  store   : Tab Gran := []
  log     : WriteLog := {}
  engines : Vector Engine 2 := Vector.replicate 2 {}
  nodes   : Vector Node 4 := Vector.replicate 4 {}
  inSeq   : Vector Nat 4 := Vector.replicate 4 0
  outSeq  : Vector Nat 4 := Vector.replicate 4 0
  committed : Nat := 0
  commit  : Option (Option Nat × Nat) := none
  emberIn : Vector (Option Nat) 4 := Vector.replicate 4 none
  eok     : Bool := false
  next    : Option SiteCfg := none
  box     : Option (List (Nat × Nat) × BitVec 4) := none
  deriving DecidableEq, Repr

/-- A control core and its cluster's units (R8, R24, R72, R152). `divTo`: the cycle its divider is free again (R304);
`next`: its predecessor's threads have not all halted in a splice (R161); `issuedAt`: the cycle of its last issue (R152); `badCode`: the code-store words that are uncorrectable (R194); `openAt`: the first cycle in which an unmasked class dispatches (R340). -/
structure Core where
  grove   : Option Nat := none
  code    : Tab Word32 := []
  badCode : List Nat := []
  ageM    : Nat := 4096
  tlb     : List TlbEntry := []
  cmdq    : List Queued := []
  inbox   : List Packet := []
  masked  : List Nat := []
  openAt  : Tab Nat := []
  reds    : List RedNode := []
  redWait : List RedWait := []
  divTo   : Nat := 0
  next    : Bool := false
  issuedAt : Option Nat := none
  deriving DecidableEq, Repr

/-- The die store (R80, R160): granules, the holder of each region (0 nobody, else 1 + grove for a window, 1000 + grove for a
reload copy, 2000 + save number for a save area), and region generations with their STRICT bits (R88). -/
structure Die where
  store   : Tab Gran := []
  log     : WriteLog := {}
  holder  : Tab Nat := []
  gens    : Tab (Nat × Bool) := []
  deriving DecidableEq, Repr

/-! ## Groves, saves, host, debugger -/

/-- A stage of a stage list (R162). `loaded`: it has been loaded before, so that its save area holds it (R163). -/
structure StageEnt where
  image : Image := {}
  qva   : Nat := 0
  thr   : Nat := 0
  loaded : Bool := false
  deriving DecidableEq, Repr

/-- Whether a grove runs (R112 stopped, R195, R161). -/
inductive RunState where
  | running | frozen | halted | embering | splicing
  deriving DecidableEq, Repr

/-- A grove's record at the hearth (R9, R153, R157-R164, R317). `succ`: the successor of a splice and its operation; `copies`, `newCopies`:
the regions of its reload copies; `roundSet`: the R that round has set, by stream; `quietAt`: the last check at quiescence (R163); `emberOp`,
`emberSelf`: the ember's operation, and whether its issuer is of the grove; `emberAt`: the cycle it began; `emberWait`: an ember that waits until the grove runs, with its regions, operation and issuer (R346); `emberLast`: the cycle since which all is saved; `saveRegs`: the
regions for the save; `domain`: it has sent domain traffic (R344); `unfixed`: it stays frozen until released (R199); `was`: what a freeze or a halt
ends in; `haltedAt`: since when it is halted (R213); `digest`: the image digest (R344); `crc`: the region
signature (R198). -/
structure Grove where
  live   : Bool := false
  die    : Nat := 0
  cx     : Nat := 0
  cy     : Nat := 0
  image  : Image := {}
  succ   : Option (Image × Nat) := none
  key    : Nat := 0
  exact  : Bool := false
  priv   : Bool := false
  troot  : Nat := 0
  ctroot : Nat := 0
  tvec   : Option Nat := none
  tdrain : Nat := 200
  dlbase : Nat := 0
  dlsize : Nat := 0
  h      : Nat := 0
  groups : Vector (List Nat) 64 := Vector.replicate 64 []
  window : List Nat := []
  copies : List Nat := []
  newCopies : List Nat := []
  run    : RunState := .running
  integrity : Nat := 0
  roundSet : Tab Nat := []
  stages : List StageEnt := []
  stage  : Nat := 0
  quietAt : Option Nat := none
  emberOp : Option Nat := none
  emberSelf : Bool := false
  emberAt : Nat := 0
  emberWait : Option (List Nat × Nat × Bool) := none
  emberLast : Option Nat := none
  saveRegs : List Nat := []
  domain : Bool := false
  unfixed : Bool := false
  was    : RunState := .running
  haltedAt : Option Nat := none
  digest : List Byte := []
  crc    : Nat := 0
  deriving DecidableEq, Repr

/-- A save (R195-R197): its handle, the grove and what is saved of its sites, threads and cores, `packets` the messages and records on their way,
`ops` the operations outstanding, `regions` those beyond window and reload copy, and the breakpoints and traces that go with it (R356). -/
structure Save where
  handle  : Word64 := 0
  grove   : Grove := {}
  tiles   : Tab Tile := []
  slices  : Tab Slice := []
  threads : Tab Thread := []
  cores   : Tab Core := []
  packets : List Packet := []
  ops     : List Op := []
  regions : List Nat := []
  breaks  : List (BreakOn × Nat) := []
  traces  : List (Nat × TraceOf) := []
  deriving DecidableEq, Repr

/-- A signing-key slot (R212). -/
structure KeySlot where
  owner : Nat := 0
  key   : BitVec 256 := 0
  deriving DecidableEq, Repr

/-- A line Huash prints (R349, R351, R354, R356, R358): the command and the values it prints, in its order. -/
structure Line where
  cmd  : String := ""
  vals : List Nat := []
  deriving DecidableEq, Repr

/-- A trace record (R349). -/
structure TraceRec where
  of   : TraceOf := .actor 0 0
  vals : List Nat := []
  deriving DecidableEq, Repr

/-- What a traced input port held at the end of a cycle (R349). -/
structure Snap where
  cycle : Nat := 0
  site  : Nat := 0
  port  : Nat := 0
  items : List Item := []
  deriving DecidableEq, Repr

/-- The debugger's side (R211, R213, R349): the grove selected, breakpoints by grove, each with the count its counter stood at, what is traced from
which cycle, the records, what traced input ports held at the end of each cycle, the lines printed, the capabilities accepted, by owner with their expiry, and the breakpoints that have fired and still hold. -/
structure Huash where
  attached : Bool := false
  sel      : Nat := 0
  breaks   : List (Nat × BreakOn × Nat) := []
  traces   : List (Nat × TraceOf) := []
  recs     : List TraceRec := []
  snaps    : List Snap := []
  lines    : List Line := []
  caps     : List (Nat × Nat) := []
  hot      : List (Nat × BreakOn) := []
  deriving DecidableEq, Repr

/-- The management window (R201-R203) and what the host observes. `next`, `next5`: the cause and the CARG5 that the running command will leave;
`job`: the grove that the running release command waits for; `corrected`, `uncorrected`: errors corrected so far, and errors found that cannot be (R194, R210); `vec0`, `vec1`: how often each vector has fired; `hostRead`: what the last host read brought. -/
structure Mgmt where
  devId  : Nat := 0
  stage  : Nat := 0
  fail   : Nat := 0
  ready  : Bool := false
  plimit : Nat := 3600
  carg   : Vector Word64 6 := Vector.replicate 6 0
  cmd    : Word64 := 0
  busy   : Bool := false
  result : Cause := 0
  next   : Cause := 0
  next5  : Option Word64 := none
  job    : Option Nat := none
  evBase : Word64 := 0
  evSize : Word64 := 0
  evHead : Nat := 0
  evTail : Nat := 0
  evLost : Nat := 0
  hwin   : Vector (Word64 × Word64) 16 := Vector.replicate 16 (0, 0)
  tele   : List Byte := []
  vec0   : Nat := 0
  vec1   : Nat := 0
  keys   : Vector (Option KeySlot) 32 := Vector.replicate 32 none
  quotes : Nat := 0
  corrected : Nat := 0
  uncorrected : Nat := 0
  hostRead : List Byte := []
  deriving DecidableEq, Repr

/-- The agent that has a turn: a control core issues for the thread R152 picks, the firing of a tile issues, or a step
that is an event. -/
inductive Agent where
  | core (c : Nat) | tile (site : Nat) | event (i : Instr)
  deriving DecidableEq, Repr

/-- A turn of the schedule: the cycles that pass before it, and whose turn it is. -/
structure Turn where
  dt  : Nat := 1
  who : Agent := .core 0
  deriving DecidableEq, Repr

/-- The whole part. `focus`, `site`: the thread, and the tile, whose word is executed; `fresh`: the counter free values are drawn from; `blockKey`: the
owner key under which a block of 16 bytes was last written (R14, R15); `full`: the words whose presence bit is full (R21); `badLine`: poisoned spans of 32 bytes (R93);
`floors`: until when a migrated page stays (R29); `migDone`: what device handlers were told of
their migration requests (R28); `linkDown`: since when a link is down and, if it comes back, until when (R206). -/
structure State where
  now     : Nat := 0
  agenda  : List Turn := []
  focus   : Nat := 0
  site    : Nat := 0
  fresh   : Nat := 0
  nextId  : Nat := 1
  mem     : List Host.Cell := []
  blockKey : Tab Nat := []
  full    : List Nat := []
  badLine : List Nat := []
  reqs    : List MemReq := []
  ops     : List Op := []
  smoves  : List Smove := []
  halos   : List HaloTok := []
  tinvs   : List (Nat × Nat × Nat × Nat) := []
  migs    : List Migration := []
  floors  : Tab Nat := []
  migDone : Tab Cause := []
  packets : List Packet := []
  trims   : Tab Nat := []
  permits : Tab Nat := []
  links   : Tab (Nat × Nat × Nat) := []
  flights : List Flight := []
  ctls    : List CtlFlight := []
  groves  : Tab Grove := []
  saves   : List Save := []
  saveCount : Nat := 0
  cores   : Tab Core := []
  threads : Tab Thread := []
  tiles   : Tab Tile := []
  slices  : Tab Slice := []
  dies    : Tab Die := []
  mgmt    : Mgmt := {}
  devTable : Tab (List Nat) := []
  linkDown : Tab (Nat × Option Nat) := []
  huash   : Huash := {}
  deriving DecidableEq, Repr

/-- The part right after reset (R207, R202): no grove, every table empty, the management registers at their reset values,
memory with nothing listed. Values the spec does not state are in log entries 2 and 3. -/
def State.reset : State := {}

end Sys2Proof.Machine
end

