-- ==== Sys2Proof/Machine/Memory.lean ====
section
/-! DEFINITION. Main memory as a list of (address, byte) pairs in one canonical form: addresses strictly rising, and no
entry equal to zero, which an unlisted address reads as (R12, R15; log entry 2). Addresses are 57-bit physical addresses:
local LPDDR, host memory, and with bit 56 another device's memory. -/

namespace Sys2Proof.Machine

/-- What an unlisted address reads as (log entry 2). -/
def unlistedByte : Byte := 0

/-- The byte an address holds in the list. -/
def cellRead : List Host.Cell → Nat → Byte
  | [], _ => unlistedByte
  | (b, v) :: rest, a => if a < b then unlistedByte else if a = b then v else cellRead rest a

/-- A byte put in place, keeping the canonical form: zero removes the entry. -/
def cellWrite : List Host.Cell → Nat → Byte → List Host.Cell
  | [], a, v => if v = unlistedByte then [] else [(a, v)]
  | (b, w) :: rest, a, v =>
    if a < b then (if v = unlistedByte then (b, w) :: rest else (a, v) :: (b, w) :: rest)
    else if a = b then (if v = unlistedByte then rest else (a, v) :: rest)
    else (b, w) :: cellWrite rest a v

/-- Every entry lies above `lo` and the entries rise strictly; none is zero. -/
def cellsAbove : Option Nat → List Host.Cell → Bool
  | _, [] => true
  | lo, (a, v) :: rest =>
    (match lo with
     | none => true
     | some l => decide (l < a)) && decide (v ≠ unlistedByte) && cellsAbove (some a) rest

/-- The canonical form of memory. -/
def Memory.wf (m : List Host.Cell) : Bool := cellsAbove none m

/-- Bytes put at consecutive addresses. -/
def cellsWrite (m : List Host.Cell) (a : Nat) : List Byte → List Host.Cell
  | [] => m
  | v :: rest => cellsWrite (cellWrite m a v) (a + 1) rest

/-- The part of the map an address lies in, on the device whose domain id is `dev` (R12). -/
def regionOf (dev pa : Nat) : Region :=
  if pa / 2 ^ 56 = 1 then
    (if pa / 2 ^ 48 % 256 = dev then
      (if pa % 2 ^ 48 < 0x018000000000 then .lpddr else if pa % 2 ^ 48 < 0x800000000000 then .reserved else .host)
     else .remote (pa / 2 ^ 48 % 256))
  else if pa < 0x018000000000 then .lpddr
  else if pa < 0x800000000000 then .reserved
  else if pa < 2 ^ 48 then .host
  else .reserved

/-- A remote address that names this device is the local address (R12). -/
def localPa (dev pa : Nat) : Nat :=
  if pa / 2 ^ 56 = 1 ∧ pa / 2 ^ 48 % 256 = dev then pa % 2 ^ 48 else pa

/-- The address on the device that has it (R12): bits [47:0] of one with the remote flag. -/
def ownPa (pa : Nat) : Nat := if 2 ^ 56 ≤ pa then pa % 2 ^ 48 else pa

/-- An address in the LPDDR of its device, which is encrypted (R12, R14). -/
def inLpddr (pa : Nat) : Bool := decide (ownPa pa < 0x018000000000)

/-- The channel of a line of LPDDR (R13). -/
def channelOf (pa : Nat) : Nat := pa / 256 % 384

/-- The point that performs an access to an address: another device's node is divided by the same table (R166). -/
def pointOf (dev pa : Nat) : Point :=
  match regionOf dev pa with
  | .remote d => .device d (if inLpddr pa then some (channelOf (ownPa pa)) else none)
  | .host => .cxl
  | _ => .channel (channelOf (ownPa pa))

end Sys2Proof.Machine
end

