-- ==== Sys2Proof/Machine/Ops.lean ====
section
/-! DEFINITION. Named operations that every family shares: tables, places, main memory under keys, registers with stamps,
the issue of a control instruction, fault and event records, taking an exception and returning from one. -/

namespace Sys2Proof.Machine

/-- The answer of a step or a meaning. -/
abbrev Res := Host.Outcome State Fault Refusal

/-! ## Tables -/

/-- The entry of a key. -/
def tabFind {α : Type} : Tab α → Nat → Option α
  | [], _ => none
  | (k, v) :: rest, q => if k = q then some v else tabFind rest q

/-- The entry of a key, or the default. -/
def tabGet {α : Type} (t : Tab α) (k : Nat) (d : α) : α := (tabFind t k).getD d

/-- An entry put in its place, keys rising. -/
def tabPut {α : Type} : Tab α → Nat → α → Tab α
  | [], k, v => [(k, v)]
  | (q, w) :: rest, k, v =>
    if k < q then (k, v) :: (q, w) :: rest else if k = q then (k, v) :: rest else (q, w) :: tabPut rest k v

/-- A table without an entry. -/
def tabDel {α : Type} (t : Tab α) (k : Nat) : Tab α := t.filter (fun p => p.1 ≠ k)

/-- Every entry changed. -/
def tabMap {α : Type} (t : Tab α) (f : Nat → α → α) : Tab α := t.map (fun p => (p.1, f p.1 p.2))

/-- One place of a vector changed; a place it does not have changes nothing. -/
def at_ {α : Type} {n : Nat} (v : Vector α n) (i : Nat) (f : α → α) : Vector α n :=
  Vector.ofFn (fun j => if j.val = i then f v[j] else v[j])

/-! ## Places (R4, R6-R8) -/

def dieOf (c : Nat) : Nat := c / 120
def cxOf (c : Nat) : Nat := c % 8
def cyOf (c : Nat) : Nat := c % 120 / 8
def clusterAt (die cx cy : Nat) : Nat := die * 120 + cy * 8 + cx
def siteAt (die col row : Nat) : Nat := die * 3840 + row * 64 + col
def siteDie (x : Nat) : Nat := x / 3840
def siteCol (x : Nat) : Nat := x % 64
def siteRow (x : Nat) : Nat := x % 3840 / 64
def siteCluster (x : Nat) : Nat := clusterAt (siteDie x) (siteCol x / 8) (siteRow x / 4)

/-- A site is a memory slice (R7). -/
def siteIsSlice (x : Nat) : Bool := siteCol x % 8 = 7

/-- The nine bits that name a cluster in packets and records (R71). -/
def cluCode (c : Nat) : Nat := dieOf c * 128 + cxOf c * 16 + cyOf c

/-- The cluster that nine bits name. -/
def cluDecode (n : Nat) : Nat := clusterAt (n / 128 % 4) (n / 16 % 8) (n % 16)

/-- The endpoint of a unit of a site (R73). -/
def epOf (site unit : Nat) : Nat := siteCol site % 8 * 32 + siteRow site % 4 * 8 + unit

/-- The endpoint of a cluster's control core (R73). -/
def coreEp : Nat := 7 * 32 + 7

/-- The endpoint of a cluster's loader (R73). -/
def loaderEp : Nat := 7 * 32 + 8 + 7

/-- The site of an endpoint of a cluster. -/
def siteOfEp (c ep : Nat) : Nat := siteAt (dieOf c) (cxOf c * 8 + ep / 32 % 8) (cyOf c * 4 + ep / 8 % 4)

/-! ## The parts of the state -/

def State.thr (s : State) (t : Nat) : Thread := tabGet s.threads t {}
def State.setThr (s : State) (t : Nat) (x : Thread) : State := { s with threads := tabPut s.threads t x }
def State.coreOf (s : State) (c : Nat) : Core := tabGet s.cores c {}
def State.setCore (s : State) (c : Nat) (x : Core) : State := { s with cores := tabPut s.cores c x }
def State.tile (s : State) (x : Nat) : Tile := tabGet s.tiles x {}
def State.setTile (s : State) (x : Nat) (v : Tile) : State := { s with tiles := tabPut s.tiles x v }
def State.slice (s : State) (x : Nat) : Slice := tabGet s.slices x {}
def State.setSlice (s : State) (x : Nat) (v : Slice) : State := { s with slices := tabPut s.slices x v }
def State.grove (s : State) (g : Nat) : Grove := tabGet s.groves g {}
def State.setGrove (s : State) (g : Nat) (v : Grove) : State := { s with groves := tabPut s.groves g v }
def State.die (s : State) (d : Nat) : Die := tabGet s.dies d {}
def State.setDie (s : State) (d : Nat) (v : Die) : State := { s with dies := tabPut s.dies d v }

/-- The domain id of this device (R202, R206). -/
def State.dev (s : State) : Nat := s.mgmt.devId

/-- The grove that holds a cluster, a thread, a site (R9, R151). -/
def State.groveOfCluster (s : State) (c : Nat) : Option Nat := (s.coreOf c).grove
def State.groveOfThread (s : State) (t : Nat) : Option Nat := s.groveOfCluster (t / 8)
def State.groveOfSite (s : State) (x : Nat) : Option Nat := s.groveOfCluster (siteCluster x)

/-- A grove's clusters, row-major (R151). -/
def Grove.clusters (g : Grove) : List Nat :=
  (List.range (g.image.gw * g.image.gh)).map (fun q =>
    clusterAt g.die (g.cx + q % g.image.gw) (g.cy + q / g.image.gw))

/-- A grove's slices, row-major over its rows (R61). -/
def Grove.slices (g : Grove) : List Nat :=
  (List.range (4 * g.image.gh * g.image.gw)).map (fun i =>
    siteAt g.die (8 * (g.cx + i % g.image.gw) + 7) (4 * g.cy + i / g.image.gw))

/-- A grove's sites, row-major. -/
def Grove.sites (g : Grove) : List Nat :=
  (List.range (32 * g.image.gh * g.image.gw)).map (fun i =>
    siteAt g.die (8 * g.cx + i % (8 * g.image.gw)) (4 * g.cy + i / (8 * g.image.gw)))

def Grove.tiles (g : Grove) : List Nat := g.sites.filter (fun x => !siteIsSlice x)

/-- The threads of a grove, by index (R151). -/
def Grove.threads (g : Grove) : List Nat := g.clusters.flatMap (fun c => (List.range 8).map (fun n => 8 * c + n))

/-- The row-major index of a cluster in its grove. -/
def Grove.indexOf (g : Grove) (c : Nat) : Nat := (cyOf c - g.cy) * g.image.gw + (cxOf c - g.cx)

/-- The grove thread index of a thread (R151). -/
def Grove.threadIndex (g : Grove) (t : Nat) : Nat := 8 * g.indexOf (t / 8) + t % 8

/-- The site at a grove-relative column and row, if the grove has it. -/
def Grove.siteRel (g : Grove) (col row : Nat) : Option Nat :=
  if col < 8 * g.image.gw ∧ row < 4 * g.image.gh then some (siteAt g.die (8 * g.cx + col) (4 * g.cy + row)) else none

/-- The grove-relative column and row of a site. -/
def Grove.relCol (g : Grove) (x : Nat) : Nat := siteCol x - 8 * g.cx
def Grove.relRow (g : Grove) (x : Nat) : Nat := siteRow x - 4 * g.cy

/-- The slice of a row-major index. -/
def Grove.sliceAt (g : Grove) (i : Nat) : Option Nat := g.slices[i]?

/-- A grove's row-major index of a slice (R61). -/
def Grove.sliceIndex (g : Grove) (x : Nat) : Nat := (g.relRow x) * g.image.gw + g.relCol x / 8

/-- The cluster of thread 0, the grove's fault vector (R338). -/
def Grove.cluster0 (g : Grove) : Nat := clusterAt g.die g.cx g.cy

/-! ## Links (R206) -/

/-- A link is down now. -/
def linkIsDown (s : State) (l : Nat) : Bool :=
  match tabFind s.linkDown l with
  | none => false
  | some (_, none) => true
  | some (_, some back) => decide (s.now < back)

/-- The link to a device: the first of its links in the device table, of the 18 the part has, that is up (R6, R206; log entry 57). -/
def linkTo (s : State) (dev : Nat) : Option Nat := (tabGet s.devTable dev []).find? (fun l => decide (l < 18) && !linkIsDown s l)

/-- No live link leads to the device that owns an address (R206). -/
def linkFault (s : State) (pa : Nat) : Bool :=
  match regionOf s.dev pa with
  | .remote d => (linkTo s d).isNone
  | _ => false

/-! ## Free values and ids -/

/-- The next free value of 256 bits, and the state that has used it (log entry 4). -/
def State.drawFree (s : State) : Vec × State := (Config.freeVec s.fresh, { s with fresh := s.fresh + 1 })

/-! ## Main memory under owner keys (R12-R15, R21) -/

/-- The 16 bytes of a block of the list, as a number. -/
def blockBits (m : List Host.Cell) (block : Nat) : BitVec 128 :=
  BitVec.ofNat 128 (ofBytes ((List.range 16).map (fun i => cellRead m (block * 16 + i))))

/-- The byte of an address as an access under a key reads it. XTS works on the 16-byte blocks of a line, so a block last written under
another key reads as that key decrypts it (R14, R15); another device encrypts its own LPDDR under the same key ids (R206). Host memory is
not encrypted by the part. -/
def State.byteAt (s : State) (key pa : Nat) : Byte :=
  if inLpddr pa then
    match tabFind s.blockKey (pa / 16) with
    | none => cellRead s.mem pa
    | some k =>
      if k = key then cellRead s.mem pa
      else BitVec.ofNat 8 ((Config.foreignBlock k key (pa / 16) (blockBits s.mem (pa / 16))).toNat / 2 ^ (8 * (pa % 16)))
  else cellRead s.mem pa

/-- `n` bytes from an address. -/
def State.bytesAt (s : State) (key pa : Nat) : Nat → List Byte
  | 0 => []
  | n + 1 => s.byteAt key pa :: s.bytesAt key (pa + 1) n

/-- A little-endian number of `n` bytes. -/
def State.numAt (s : State) (key pa n : Nat) : Nat := ofBytes (s.bytesAt key pa n)

/-- The block of an address taken over by a key: a block last written under another key keeps its bytes as the new key decrypts them. The
line's other blocks, decrypted and encrypted again under one key, are as they were (R14, R15). -/
def State.takeBlock (s : State) (key pa : Nat) : State :=
  if inLpddr pa then
    match tabFind s.blockKey (pa / 16) with
    | some k =>
      if k = key then s
      else { s with mem := cellsWrite s.mem (pa / 16 * 16) (s.bytesAt key (pa / 16 * 16) 16),
                    blockKey := tabPut s.blockKey (pa / 16) key }
    | none => { s with blockKey := tabPut s.blockKey (pa / 16) key }
  else s

/-- Bytes written at an address under a key, one after another. -/
def State.writeBytes (s : State) (key pa : Nat) : List Byte → State
  | [] => s
  | b :: rest =>
    let s1 := s.takeBlock key pa
    ({ s1 with mem := cellWrite s1.mem pa b } : State).writeBytes key (pa + 1) rest

/-- A little-endian number of `n` bytes written. -/
def State.writeNum (s : State) (key pa n v : Nat) : State := s.writeBytes key pa (bytesOf n v)

/-- A write of `n` bytes that covers whole 32-byte spans clears their poison (R93, R143; log entry 6). -/
def State.clearBad (s : State) (pa n : Nat) : State :=
  { s with badLine := s.badLine.filter (fun q => !(pa ≤ q * 32 && q * 32 + 32 ≤ pa + n)) }

/-- Whether an access meets a poisoned span. -/
def State.badAt (s : State) (pa n : Nat) : Bool := s.badLine.any (fun q => q * 32 < pa + n && pa < q * 32 + 32)

/-- The presence bit of a word (R21). -/
def State.isFull (s : State) (pa : Nat) : Bool := s.full.contains (pa / 8)

def State.setFull (s : State) (pa : Nat) (v : Bool) : State :=
  { s with full := if v then (if s.isFull pa then s.full else pa / 8 :: s.full) else s.full.filter (fun w => w ≠ pa / 8) }

/-- A grove's access to memory of another device: it has sent domain traffic (R344). -/
def State.noteDomain (s : State) (gid : Option Nat) (pa : Nat) : State :=
  match gid, regionOf s.dev pa with
  | some g, .remote _ => s.setGrove g { s.grove g with domain := true }
  | _, _ => s

/-! ## Event records and fault records (R191, R205) -/

/-- Whether the host has set up the event ring (R202: EVSIZE 6-16). -/
def Mgmt.ringReady (m : Mgmt) : Bool := 6 ≤ m.evSize.toNat && m.evSize.toNat ≤ 16

/-- An event record to the ring; when the ring is full or not set up, the record is counted as lost (R205; log entry 7). -/
def State.logEvent (s : State) (c : Cause) (grove : Nat) (handle arg : Nat) : State :=
  let m := s.mgmt
  if m.ringReady && decide (m.evHead - m.evTail < 2 ^ m.evSize.toNat) then
    let lost := Nat.min m.evLost 0xFFFF
    let v := c.toNat * 2 ^ 246 + grove % 256 * 2 ^ 238 + lost * 2 ^ 222 + handle % 2 ^ 64 * 2 ^ 128 + arg % 2 ^ 64 * 2 ^ 64
      + s.now % 2 ^ 64
    let s1 := s.writeNum 0 (m.evBase.toNat + m.evHead % 2 ^ m.evSize.toNat * 32) 32 v
    { s1 with mgmt := { m with evHead := m.evHead + 1, evLost := 0, vec0 := m.vec0 + 1 } }
  else { s with mgmt := { m with evLost := m.evLost + 1 } }

/-- The payload flit of a fault record (R191). -/
def FaultRec.bits (r : FaultRec) : Vec :=
  BitVec.ofNat 256 (r.cause.toNat * 2 ^ 246 + r.src % 4 * 2 ^ 244 + r.clu % 512 * 2 ^ 235 + r.ep % 256 * 2 ^ 227
    + r.act % 8 * 2 ^ 224 + r.pc % 512 * 2 ^ 215 + r.sid % 65536 * 2 ^ 199 + r.fcnt % 2 ^ 32 * 2 ^ 167
    + r.addr % 2 ^ 48 * 2 ^ 119 + r.seq % 2 ^ 32 * 2 ^ 87 + r.sband % 2 ^ 24 * 2 ^ 63 + r.dbl.toNat * 2 ^ 62)

/-- CRC-16 (polynomial 0x1021) over the bits of a number below `n`, most significant first, from an initial value (R71, R198). -/
def crc16 (v : Nat) : Nat → Nat → Nat
  | 0, c => c
  | n + 1, c =>
    let top := (c / 0x8000 + v / 2 ^ n) % 2
    crc16 v n ((c * 2 % 0x10000) ^^^ (if top = 1 then 0x1021 else 0))

/-- Bits [255:16] of a packet's header flit (R71). -/
def Packet.header (p : Packet) : Nat :=
  p.ddev % 256 * 2 ^ 232 + p.sdev % 256 * 2 ^ 224 + p.vl % 4 * 2 ^ 222 + p.cls % 16 * 2 ^ 218 + p.type % 16 * 2 ^ 214 + p.pr.toNat * 2 ^ 213
    + p.pruned.toNat * 2 ^ 212 + p.ex.toNat * 2 ^ 211 + p.len % 16 * 2 ^ 207 + p.olen % 16 * 2 ^ 203 + p.dclu % 512 * 2 ^ 194 + p.dep % 256 * 2 ^ 186
    + p.sclu % 512 * 2 ^ 177 + p.sep % 256 * 2 ^ 169 + p.flow % 65536 * 2 ^ 153 + p.seq % 2 ^ 32 * 2 ^ 121 + p.addr % 2 ^ 48 * 2 ^ 73
    + p.wsum % 2 ^ 20 * 2 ^ 53 + p.recs % 16 * 2 ^ 49 + p.rsv % 2 ^ 49

/-- The check of a header (R71): HCHK as its bits give it. -/
def Packet.check (p : Packet) : Nat := crc16 p.header 240 0xFFFF

/-- A packet with its HCHK computed. -/
def Packet.sealed (p : Packet) : Packet := { p with hchk := p.check }

/-- A packet sent by a unit of a cluster: it stands at its source's local port until its header arrives (R70). -/
def State.send (s : State) (p : Packet) : State :=
  { s with packets := s.packets ++ [{ p.sealed with id := s.nextId, at_ := .router (cluDecode p.sclu) 6, due := s.now }], nextId := s.nextId + 1 }

/-- A fault record of a grove, sent to its fault vector on route class 15, TYPE 6, lane 3 (R74, R191). -/
def State.sendRecord (s : State) (g : Nat) (r : FaultRec) : State :=
  s.send { ddev := s.dev, sdev := s.dev, vl := 3, cls := 15, type := 6, len := 1, olen := 1,
           dclu := cluCode (s.grove g).cluster0, dep := coreEp, sclu := r.clu, sep := r.ep, pay := [r.bits], grove := g }

/-! ## Registers (R304, R87-R89) -/

/-- A general register of a thread: g0 reads zero, a stale register reads zero. -/
def Thread.reg (th : Thread) (r : Reg) : Word64 :=
  if r = 0 then 0 else if (th.regs[r]).gen = th.gen then (th.regs[r]).val else 0

/-- A register written: g0 ignores it; the stamp becomes current and the poison mark is cleared (R89, R304, R310). -/
def Thread.setReg (th : Thread) (r : Reg) (v : Word64) (at_ : Nat) : Thread :=
  if r = 0 then th else { th with regs := th.regs.set r { val := v, gen := th.gen, readyAt := at_ } }

/-- A register that an operation will write. -/
def Thread.pendReg (th : Thread) (r : Reg) (id : Nat) : Thread :=
  if r = 0 then th else { th with regs := th.regs.set r { th.regs[r] with pend := some id } }

/-- A register that an operation or an earlier instruction still has to write (R304). -/
def Thread.busyReg (th : Thread) (now : Nat) (r : Reg) : Bool :=
  r ≠ 0 && ((th.regs[r]).pend.isSome || decide (now < (th.regs[r]).readyAt))

/-- A register read as a source is stale under STRICT (R304). -/
def Thread.staleReg (th : Thread) (r : Reg) : Bool := r ≠ 0 && th.strict && (th.regs[r]).gen ≠ th.gen

/-- The VA of the load that poisoned a register (R310). -/
def Thread.poisonReg (th : Thread) (r : Reg) : Option Nat := if r = 0 then none else (th.regs[r]).poison

/-! ## Token FIFOs and outstanding counters (R154, R155) -/

/-- The entries of a FIFO that count: those of the thread's own allocation. -/
def Thread.fifoLive (th : Thread) (f : Fin 8) : Nat := ((th.fifos[f]).entries.filter (fun g => g = th.gen)).length

/-- A FIFO is full: its live entries and its reservations are 64. -/
def Thread.fifoFull (th : Thread) (f : Fin 8) : Bool := 64 ≤ th.fifoLive f + (th.fifos[f]).reserved

/-- One entry popped; stale entries ahead of it go with it. -/
def Thread.fifoPop (th : Thread) (f : Fin 8) : Thread :=
  let e := ((th.fifos[f]).entries.filter (fun g => g = th.gen)).drop 1
  { th with fifos := th.fifos.set f { th.fifos[f] with entries := e } }

def Thread.fifoReserve (th : Thread) (f : Fin 8) : Thread :=
  { th with fifos := th.fifos.set f { th.fifos[f] with reserved := (th.fifos[f]).reserved + 1 } }

/-- The entry of a give pushed at its completion. -/
def Thread.fifoPush (th : Thread) (f : Fin 8) : Thread :=
  let e := (th.fifos[f]).entries.filter (fun g => g = th.gen) ++ [th.gen]
  { th with fifos := th.fifos.set f { entries := e, reserved := (th.fifos[f]).reserved - 1 } }

/-- The gives whose instruction has retired by a cycle, pushed (R155). -/
def Thread.ripen (th : Thread) (now : Nat) : Thread :=
  (th.gives.filter (fun g => decide (g.1 ≤ now))).foldl (fun (h : Thread) g => h.fifoPush g.2)
    { th with gives := th.gives.filter (fun g => decide (now < g.1)) }

def Thread.ctr (th : Thread) : Ctr → Nat
  | .ld => th.ld | .st => th.st | .cp => th.cp | .mx => th.mx

def Thread.addCtr (th : Thread) (c : Ctr) (n : Nat) : Thread :=
  match c with
  | .ld => { th with ld := th.ld + n } | .st => { th with st := th.st + n }
  | .cp => { th with cp := th.cp + n } | .mx => { th with mx := th.mx + n }

def Thread.subCtr (th : Thread) (c : Ctr) (n : Nat) : Thread :=
  match c with
  | .ld => { th with ld := th.ld - n } | .st => { th with st := th.st - n }
  | .cp => { th with cp := th.cp - n } | .mx => { th with mx := th.mx - n }

/-! ## Taking an exception and returning from one (R190, R319, R338, R339) -/

/-- The position inside a group is left: mark and prefix are used or forgotten (R237). -/
def Thread.endGroup (th : Thread) : Thread := { th with mark := none, imm := none, group := none }

/-- The address of the instruction that issues: the first word of its group (R237). -/
def Thread.issuePc (th : Thread) : Nat := th.group.getD th.pc

/-- A thread jumps to the trap vector with its pc saved (R190). -/
def Thread.enterTrap (th : Thread) (vec : Nat) (c : Cause) (epc : Nat) (tval : Word64) : Thread :=
  { th.endGroup with status := .ready, cause := c, epc := epc, tval := tval, trapActive := true, pc := vec }

/-- A thread is halted by a fault it cannot take (R190). -/
def Thread.haltAt (th : Thread) : Thread := { th.endGroup with status := .halted, hasRun := true }

/-- Taking an exception (R190): a fault inside a handler halts the thread and sends a record with DBL; in a grove without
a trap vector the thread halts and the hearth writes an event record; otherwise cause, epc and tval are saved and the
thread continues at the grove's trap vector. -/
def takeTrap (s : State) (t : Nat) (c : Cause) (tval : Word64) : State :=
  let th := { s.thr t with trapAt := s.now + 1 }
  match s.groveOfThread t with
  | none => s.setThr t { th.haltAt with cause := c, epc := th.issuePc, tval := tval, pc := th.issuePc }
  | some g =>
    if th.trapActive then
      (s.setThr t { (s.thr t).haltAt with pc := th.issuePc }).sendRecord g
        { cause := c, src := 2, clu := cluCode (t / 8), ep := coreEp, addr := if c = 0x0E1 then 0 else tval.toNat % 2 ^ 48, dbl := true }
    else
      match (s.grove g).tvec with
      | none =>
        (s.setThr t { th.haltAt with cause := c, epc := th.issuePc, tval := tval, pc := th.issuePc }).logEvent c g 0
          ((s.grove g).threadIndex t * 2 ^ 48 + tval.toNat % 2 ^ 48)
      | some vec => s.setThr t (th.enterTrap vec c th.issuePc tval)

/-- The return from an exception (R190, R319): pc := epc, trap_active := 0. -/
def Thread.returnTrap (th : Thread) : Thread := { th.endGroup with pc := th.epc, trapActive := false, status := .ready }

/-! ## The issue of a control instruction (R304, R310, R316, R237) -/

/-- The instruction does not issue in this turn; the thread tries again (R151, R304). -/
def stall (s : State) : State := s.setThr s.focus { s.thr s.focus with status := .waiting .again }

/-- The thread that issues. -/
def State.me (s : State) : Thread := s.thr s.focus
def State.setMe (s : State) (th : Thread) : State := s.setThr s.focus th

/-- A fault of the issuing instruction: under an open speculation generation it is held, so the instruction waits at issue
and faults once no generation is open (R316); otherwise the thread traps. -/
def trapMe (s : State) (c : Cause) (tval : Word64) : State :=
  if s.me.specs.isEmpty then takeTrap s s.focus c tval else stall s

/-- What an instruction needs to issue: its sources, its destination, whether it accesses memory (and so waits for the
data of an ldf or ldt, R171), and whether it may issue under an open speculation generation (R316). -/
structure Needs where
  srcs : List Reg := []
  dst  : Option Reg := none
  mem  : Bool := false
  spec : Bool := false

/-- An access that holds others is still to be performed: a request not answered, or a message not received (R168, R171). -/
def State.unperformed (s : State) (id : Nat) : Bool := s.reqs.any (fun r => r.id = id) || s.packets.any (fun p => p.id = id)

/-- A source or the destination is still to be written, an access waits for the data of an ldf or ldt, a generation is open, the taken FIFO is
empty or the given one full (R155, R171, R304, R316, R324). -/
def mustWait (s : State) (n : Needs) : Bool :=
  let th := s.me
  n.srcs.any (th.busyReg s.now) || (n.dst.map (th.busyReg s.now)).getD false
    || (n.mem && th.fences.any (fun f => f.2.isNone && s.unperformed f.1))
    || (!n.spec && !th.specs.isEmpty)
    || (match th.mark with
        | none => false
        | some (true, f) => th.fifoLive f = 0
        | some (false, f) => th.fifoFull f)

/-- The first stale source under STRICT, or else the first poisoned source (R304, R310). -/
def sourceFault (th : Thread) (srcs : List Reg) : Option (Cause × Nat) :=
  if srcs.any th.staleReg then some (0x1C0, 0)
  else (srcs.findSome? th.poisonReg).map (fun va => (0x1C3, va))

/-- An instruction issues: it waits, or its sources fault, or its body runs. -/
def issue (n : Needs) (body : State → State) (s : State) : State :=
  if mustWait s n then stall s
  else
    match sourceFault s.me n.srcs with
    | some (c, va) => trapMe s c (BitVec.ofNat 64 va)
    | none => body s

/-- The cycle from which a thread that is made ready ages: the cycle it becomes ready (R152). -/
def Thread.readySince (th : Thread) (now : Nat) : Nat := if th.status = .ready then th.since else now

/-- The thread has issued an instruction and goes on at `pc`. -/
def Thread.ranTo (th : Thread) (pc : Nat) : Thread := { th.endGroup with pc := pc, status := .ready, hasRun := true }

/-- The group's take is popped and a give reserved; the thread goes on at `pc`; the answer's second part is the give that
the instruction's completion will push. -/
def Thread.retire (th : Thread) (pc : Nat) : Thread × Option (Fin 8) :=
  match th.mark with
  | none => (th.ranTo pc, none)
  | some (true, f) => ((th.fifoPop f).ranTo pc, none)
  | some (false, f) => ((th.fifoReserve f).ranTo pc, some f)

/-- An instruction that completes as it retires: its give is pushed at once (R155, R324). -/
def Thread.retireNow (th : Thread) (pc : Nat) : Thread :=
  match th.retire pc with
  | (th, none) => th
  | (th, some f) => th.fifoPush f

/-- An instruction that retires at a later cycle: its give is pushed then (R155). -/
def Thread.retireAt (th : Thread) (pc cycle : Nat) : Thread :=
  match th.retire pc with
  | (th, none) => th
  | (th, some f) => { th with gives := th.gives ++ [(cycle, f)] }

/-- The next instruction's address; the code store holds 64 KiB (R236). -/
def Thread.next (th : Thread) : Nat := th.pc + 4

/-- A result written and the instruction retired. `lat` is the number of cycles after which it is readable, and in which the
instruction retires (R155, R304). -/
def finish (s : State) (d : Reg) (v : Word64) (lat : Nat) : State :=
  s.setMe ((s.me.setReg d v (s.now + lat)).retireAt s.me.next (s.now + lat))

end Sys2Proof.Machine
end

