-- ==== Sys2Proof/Machine/Alu.lean ====
section
/-! DEFINITION. Control instructions that compute in registers (R306, R307), the group words before an instruction (R237),
and the unassigned opcode (R240). -/

namespace Sys2Proof.Machine

/-! ## Results (R306) -/

def boolWord (b : Bool) : Word64 := if b then 1 else 0

/-- The signed quotient, truncated toward zero (R306). -/
def divS (a b : Word64) : Word64 := if b = 0 then -1 else BitVec.ofInt 64 (a.toInt.tdiv b.toInt)

/-- The unsigned quotient (R306). -/
def divU (a b : Word64) : Word64 := if b = 0 then -1 else a / b

/-- The signed remainder a − b × div(a, b) (R306). -/
def remS (a b : Word64) : Word64 := if b = 0 then a else a - b * divS a b

/-- The unsigned remainder (R306). -/
def remU (a b : Word64) : Word64 := if b = 0 then a else a % b

def mulHighS (a b : Word64) : Word64 := BitVec.ofInt 64 (a.toInt * b.toInt / 2 ^ 64)
def mulHighU (a b : Word64) : Word64 := BitVec.ofNat 64 (a.toNat * b.toNat / 2 ^ 64)
def carryOut (a b : Word64) : Word64 := boolWord (decide (2 ^ 64 ≤ a.toNat + b.toNat))
def borrowOut (a b : Word64) : Word64 := boolWord (decide (a.toNat < b.toNat))
def shiftLeft64 (a b : Word64) : Word64 := a <<< (b.toNat % 64)
def shiftRight64 (a b : Word64) : Word64 := a >>> (b.toNat % 64)
def shiftArith64 (a b : Word64) : Word64 := a.sshiftRight (b.toNat % 64)
def lessS (a b : Word64) : Bool := decide (a.toInt < b.toInt)
def lessU (a b : Word64) : Bool := decide (a.toNat < b.toNat)

/-! ## The forms -/

/-- A register form: sources a and b, result in d, readable after `lat` cycles (R304, R306). -/
def aluR (d a b : Reg) (f : Word64 → Word64 → Word64) (lat : Nat) (s : State) : State :=
  issue { srcs := [a, b], dst := some d, spec := true } (fun s => finish s d (f (s.me.reg a) (s.me.reg b)) lat) s

/-- A divide: a second divide of the core waits for the first (R304). -/
def aluDiv (d a b : Reg) (f : Word64 → Word64 → Word64) (s : State) : State :=
  let c := s.focus / 8
  if s.now < (s.coreOf c).divTo then stall s
  else
    issue { srcs := [a, b], dst := some d, spec := true }
      (fun s => (finish s d (f (s.me.reg a) (s.me.reg b)) 34).setCore c { s.coreOf c with divTo := s.now + 34 }) s

/-- The immediate of the instruction: imm15, or the prefix immediate, sign-extended (R237, R307). -/
def immSigned (th : Thread) (imm : BitVec 15) : Word64 :=
  match th.imm with
  | some p => p.signExtend 64
  | none => imm.signExtend 64

/-- The same, zero-extended. -/
def immZero (th : Thread) (imm : BitVec 15) : Word64 :=
  match th.imm with
  | some p => p.setWidth 64
  | none => imm.setWidth 64

/-- An immediate form (R307). -/
def aluI (d a : Reg) (ext : Thread → BitVec 15 → Word64) (imm : BitVec 15) (f : Word64 → Word64 → Word64) (s : State) :
    State :=
  issue { srcs := [a], dst := some d, spec := true } (fun s => finish s d (f (s.me.reg a) (ext s.me imm)) 1) s

/-- A shift by an immediate (R307). -/
def aluSh (d a : Reg) (sh : BitVec 6) (f : Word64 → Word64 → Word64) (s : State) : State :=
  issue { srcs := [a], dst := some d, spec := true } (fun s => finish s d (f (s.me.reg a) (sh.setWidth 64)) 1) s

/-! ## The meanings (R306, R307) -/

def execAdd (d a b : Reg) (s : State) : Res := .next (aluR d a b (· + ·) 1 s)
def execSub (d a b : Reg) (s : State) : Res := .next (aluR d a b (· - ·) 1 s)
def execAnd (d a b : Reg) (s : State) : Res := .next (aluR d a b (· &&& ·) 1 s)
def execOr (d a b : Reg) (s : State) : Res := .next (aluR d a b (· ||| ·) 1 s)
def execXor (d a b : Reg) (s : State) : Res := .next (aluR d a b (· ^^^ ·) 1 s)
def execSll (d a b : Reg) (s : State) : Res := .next (aluR d a b shiftLeft64 1 s)
def execSrl (d a b : Reg) (s : State) : Res := .next (aluR d a b shiftRight64 1 s)
def execSra (d a b : Reg) (s : State) : Res := .next (aluR d a b shiftArith64 1 s)
def execSlt (d a b : Reg) (s : State) : Res := .next (aluR d a b (fun x y => boolWord (lessS x y)) 1 s)
def execSltu (d a b : Reg) (s : State) : Res := .next (aluR d a b (fun x y => boolWord (lessU x y)) 1 s)
def execMul (d a b : Reg) (s : State) : Res := .next (aluR d a b (· * ·) 4 s)
def execMulh (d a b : Reg) (s : State) : Res := .next (aluR d a b mulHighS 4 s)
def execMulhu (d a b : Reg) (s : State) : Res := .next (aluR d a b mulHighU 4 s)
def execDiv (d a b : Reg) (s : State) : Res := .next (aluDiv d a b divS s)
def execDivu (d a b : Reg) (s : State) : Res := .next (aluDiv d a b divU s)
def execRem (d a b : Reg) (s : State) : Res := .next (aluDiv d a b remS s)
def execRemu (d a b : Reg) (s : State) : Res := .next (aluDiv d a b remU s)
def execAddc (d a b : Reg) (s : State) : Res := .next (aluR d a b carryOut 1 s)
def execSubc (d a b : Reg) (s : State) : Res := .next (aluR d a b borrowOut 1 s)
def execMin (d a b : Reg) (s : State) : Res := .next (aluR d a b (fun x y => if lessS x y then x else y) 1 s)
def execMax (d a b : Reg) (s : State) : Res := .next (aluR d a b (fun x y => if lessS x y then y else x) 1 s)
def execMinu (d a b : Reg) (s : State) : Res := .next (aluR d a b (fun x y => if lessU x y then x else y) 1 s)
def execMaxu (d a b : Reg) (s : State) : Res := .next (aluR d a b (fun x y => if lessU x y then y else x) 1 s)
def execSlli (d a : Reg) (sh : BitVec 6) (s : State) : Res := .next (aluSh d a sh shiftLeft64 s)
def execSrli (d a : Reg) (sh : BitVec 6) (s : State) : Res := .next (aluSh d a sh shiftRight64 s)
def execSrai (d a : Reg) (sh : BitVec 6) (s : State) : Res := .next (aluSh d a sh shiftArith64 s)
def execAddi (d a : Reg) (imm : BitVec 15) (s : State) : Res := .next (aluI d a immSigned imm (· + ·) s)
def execAndi (d a : Reg) (imm : BitVec 15) (s : State) : Res := .next (aluI d a immZero imm (· &&& ·) s)
def execOri (d a : Reg) (imm : BitVec 15) (s : State) : Res := .next (aluI d a immZero imm (· ||| ·) s)
def execXori (d a : Reg) (imm : BitVec 15) (s : State) : Res := .next (aluI d a immZero imm (· ^^^ ·) s)
def execSlti (d a : Reg) (imm : BitVec 15) (s : State) : Res :=
  .next (aluI d a immSigned imm (fun x y => boolWord (lessS x y)) s)
def execSltiu (d a : Reg) (imm : BitVec 15) (s : State) : Res :=
  .next (aluI d a immSigned imm (fun x y => boolWord (lessU x y)) s)

/-- li: the sign-extended immediate (R307). -/
def execLi (d : Reg) (imm : BitVec 15) (s : State) : Res :=
  .next (issue { dst := some d, spec := true } (fun s => finish s d (immSigned s.me imm) 1) s)

/-! ## Group words (R237) -/

/-- The code word at a byte address of the issuing thread's code store. -/
def nextWord (s : State) (pc : Nat) : Nat := (tabGet (s.coreOf (s.focus / 8)).code (pc / 4) 0).toNat

/-- A mark: it is kept for the next instruction. After a mark or a prefix, or as the last word of the code store, it is
misplaced (0x062). Under an open generation it waits (log entry 10). -/
def markWord (s : State) (take : Bool) (f : Fin 8) : State :=
  let th := s.me
  if !th.specs.isEmpty then stall s
  else if th.mark.isSome || th.imm.isSome || 0xFFFC ≤ th.pc then trapMe s 0x062 0
  else s.setMe { th with mark := some (take, f), group := some th.issuePc, pc := th.pc + 4, status := .ready }

def execMarkGive (f : Fin 8) (s : State) : Res := .next (markWord s false f)
def execMarkTake (f : Fin 8) (s : State) : Res := .next (markWord s true f)

/-- The opcodes a prefix may precede (R237). -/
def prefixable (op : Nat) : Bool :=
  (0x02 ≤ op && op ≤ 0x05) || (0x07 ≤ op && op ≤ 0x09) || (0x10 ≤ op && op ≤ 0x1F)

/-- A prefix: its second word is the immediate of the instruction in the third word (R237). It reads both, so an uncorrectable one traps
with 0x3C1 (R194). -/
def execPrefixWord (s : State) : Res :=
  let th := s.me
  let w := nextWord s (th.pc + 8)
  let bad := (s.coreOf (s.focus / 8)).badCode
  .next
    (if bad.contains (th.pc / 4 + 1) || bad.contains (th.pc / 4 + 2) then trapMe s 0x3C1 0
     else if th.imm.isSome || 0xFFF8 ≤ th.pc || !prefixable (field w 25 7) || field w 0 15 ≠ 0 then trapMe s 0x062 0
     else s.setMe { th with imm := some (BitVec.ofNat 32 (nextWord s (th.pc + 4))), group := some th.issuePc, pc := th.pc + 8,
                            status := .ready })

/-- An opcode that no row names: 0x060 (R240). -/
def execUnassignedControlOpcode (s : State) : Res := .next (trapMe s 0x060 0)

end Sys2Proof.Machine
end

