-- ==== Sys2Proof/Machine/Formats.lean ====
section
/-! DEFINITION. Number formats, rounding and conversion (R31-R40), exact values and their sums (R41, R42). -/

namespace Sys2Proof.Machine

/-! ## Exact values -/

/-- What a code stands for: NaN, an infinity, or ±n × 2^e (a zero keeps its sign). -/
inductive Fp where
  | nan | inf (neg : Bool) | fin (neg : Bool) (n : Nat) (e : Int)
  deriving DecidableEq, Repr

/-- A float layout: exponent and mantissa widths, bias, SPEC, sign width (R32, R40). -/
structure FloatFmt where
  ew   : Nat
  mw   : Nat
  bias : Int
  spec : Nat := 0
  sign : Bool := true
  deriving DecidableEq, Repr

def fp32 : FloatFmt := { ew := 8, mw := 23, bias := 127 }
def bf16 : FloatFmt := { ew := 8, mw := 7, bias := 127 }

/-- The value of a float code (R34). -/
def fpDecode (f : FloatFmt) (c : Nat) : Fp :=
  let m := c % 2 ^ f.mw
  let e := c / 2 ^ f.mw % 2 ^ f.ew
  let s := f.sign && (c / 2 ^ (f.mw + f.ew)) % 2 = 1
  let ones := 2 ^ f.ew - 1
  if f.spec = 0 ∧ e = ones then (if m = 0 then .inf s else .nan)
  else if f.spec = 1 ∧ e = ones ∧ m = 2 ^ f.mw - 1 then .nan
  else if e = 0 then .fin s m (1 - f.bias - f.mw)
  else .fin s (2 ^ f.mw + m) (e - f.bias - f.mw)

def fpOf32 (w : Word32) : Fp := fpDecode fp32 w.toNat

def isNan32 (w : Word32) : Bool := fpOf32 w = .nan

/-- floor(log2 n) of a positive n. -/
def ilog (n : Nat) : Nat := Nat.log2 n

/-- A power of two with an integer exponent as a multiplier, for exponents that are not negative. -/
def pow2 (e : Int) : Nat := 2 ^ e.toNat

/-- Whether a remainder makes the magnitude step up under a mode (R36, R39): `a` is the kept part, `rem` what lies below it
out of 2^sh, `d` the 32-bit draw of rsr. -/
def roundsUp (mode : Rnd) (neg : Bool) (a rem sh d : Nat) : Bool :=
  match mode with
  | .rne => 2 ^ sh < 2 * rem || (2 * rem = 2 ^ sh && a % 2 = 1)
  | .rtz => false
  | .rup => !neg && rem ≠ 0
  | .rdn => neg && rem ≠ 0
  | .rna => 2 ^ sh ≤ 2 * rem
  | .rsr => 2 ^ 32 ≤ rem * 2 ^ 32 / 2 ^ sh + d

/-- n × 2^e rounded to a multiple of 2^l: the multiple. -/
def roundAt (mode : Rnd) (neg : Bool) (d n : Nat) (e l : Int) : Nat :=
  if l ≤ e then n * pow2 (e - l)
  else
    let sh := (l - e).toNat
    let a := n / 2 ^ sh
    if roundsUp mode neg a (n % 2 ^ sh) sh d then a + 1 else a

/-- The largest finite magnitude of a format as (multiple, exponent) (R34, R37). -/
def fpMax (f : FloatFmt) : Nat × Int :=
  let ones := 2 ^ f.ew - 1
  if f.spec = 0 then (2 ^ (f.mw + 1) - 1, ((ones - 1 : Nat) : Int) - f.bias - f.mw)
  else if f.spec = 1 then
    (if f.mw = 0 then (1, ((ones - 1 : Nat) : Int) - f.bias) else (2 ^ (f.mw + 1) - 2, (ones : Int) - f.bias - f.mw))
  else (2 ^ (f.mw + 1) - 1, (ones : Int) - f.bias - f.mw)

/-- a × 2^x > b × 2^y. -/
def dyadicGt (a : Nat) (x : Int) (b : Nat) (y : Int) : Bool :=
  if y ≤ x then b < a * pow2 (x - y) else b * pow2 (y - x) < a

/-- The code of a magnitude m × 2^l that the format holds exactly. -/
def fpPack (f : FloatFmt) (neg : Bool) (m : Nat) (l : Int) : Nat :=
  let s := if f.sign && neg then 2 ^ (f.ew + f.mw) else 0
  if m < 2 ^ f.mw then s + m
  else if m < 2 ^ (f.mw + 1) then s + (l + f.bias + f.mw).toNat * 2 ^ f.mw + (m - 2 ^ f.mw)
  else s + (l + 1 + f.bias + f.mw).toNat * 2 ^ f.mw + (m / 2 - 2 ^ f.mw)

/-- The code of the largest finite value, and of infinity, with a sign. -/
def fpMaxCode (f : FloatFmt) (neg : Bool) : Nat := fpPack f neg (fpMax f).1 (fpMax f).2
def fpInfCode (f : FloatFmt) (neg : Bool) : Nat :=
  (if f.sign && neg then 2 ^ (f.ew + f.mw) else 0) + (2 ^ f.ew - 1) * 2 ^ f.mw

/-- The canonical NaN of a format (R34); under SPEC 2 a NaN is +0. -/
def fpNanCode (f : FloatFmt) : Nat :=
  if f.spec = 0 then (2 ^ f.ew - 1) * 2 ^ f.mw + 2 ^ (f.mw - 1)
  else if f.spec = 1 then 2 ^ (f.ew + f.mw) - 1
  else 0

/-- Rounding of ±n × 2^e to a format (R37 steps 2-6). -/
def fpRound (f : FloatFmt) (mode : Rnd) (d : Nat) (neg : Bool) (n : Nat) (e : Int) : Nat :=
  if neg && !f.sign then 0
  else if n = 0 then fpPack f neg 0 0
  else
    let top := (ilog n : Int) + e
    let l := (if top < 1 - f.bias then 1 - f.bias else top) - f.mw
    let m := roundAt mode neg d n e l
    if dyadicGt m l (fpMax f).1 (fpMax f).2 then
      (if f.spec = 0 then
        (match mode with
         | .rne | .rna | .rsr => fpInfCode f neg
         | .rtz => fpMaxCode f neg
         | .rup => if neg then fpMaxCode f neg else fpInfCode f neg
         | .rdn => if neg then fpInfCode f neg else fpMaxCode f neg)
       else fpMaxCode f neg)
    else fpPack f neg m l

/-- The code of a value in a format: NaN becomes the canonical NaN (R37). -/
def fpEncode (f : FloatFmt) (mode : Rnd) (d : Nat) : Fp → Nat
  | .nan => fpNanCode f
  | .inf neg => if neg && !f.sign then 0 else if f.spec = 0 then fpInfCode f neg else fpMaxCode f neg
  | .fin neg n e => fpRound f mode d neg n e

/-- FP32 of a value; NaN is 0x7FC0_0000. -/
def to32 (mode : Rnd) (d : Nat) (x : Fp) : Word32 := BitVec.ofNat 32 (fpEncode fp32 mode d x)

/-! ## Arithmetic on exact values -/

def Fp.neg : Fp → Fp
  | .nan => .nan
  | .inf s => .inf (!s)
  | .fin s n e => .fin (!s) n e

/-- ±n × 2^e as an integer in units of 2^u, for u ≤ e. -/
def scaled (s : Bool) (n : Nat) (e u : Int) : Int := (if s then -1 else 1) * (n * pow2 (e - u) : Nat)

/-- The exact sum; an exact zero from nonzero or opposite zeros is −0 under rdn and +0 otherwise. -/
def Fp.add (mode : Rnd) : Fp → Fp → Fp
  | .nan, _ => .nan
  | _, .nan => .nan
  | .inf s, .inf t => if s = t then .inf s else .nan
  | .inf s, _ => .inf s
  | _, .inf t => .inf t
  | .fin s n e, .fin t m g =>
    let u := if e ≤ g then e else g
    let v := scaled s n e u + scaled t m g u
    if v = 0 then .fin (if s = t ∧ n = 0 ∧ m = 0 then s else mode = .rdn) 0 0
    else .fin (v < 0) v.natAbs u

def Fp.mul : Fp → Fp → Fp
  | .nan, _ => .nan
  | _, .nan => .nan
  | .inf s, .inf t => .inf (s != t)
  | .inf s, .fin t m _ => if m = 0 then .nan else .inf (s != t)
  | .fin s n _, .inf t => if n = 0 then .nan else .inf (s != t)
  | .fin s n e, .fin t m g => .fin (s != t) (n * m) (e + g)

/-- IEEE 754 addition by RNE with NaN results 0x7FC0_0000 (R42). -/
def add32 (a b : Word32) : Word32 := to32 .rne 0 (Fp.add .rne (fpOf32 a) (fpOf32 b))

/-- a < b on FP32 codes as values, −0 below +0; no operand NaN. -/
def fpKey (w : Word32) : Int := if w.msb then -1 - (w.toNat % 2 ^ 31 : Nat) else (w.toNat : Int)

/-- fmax and fmin: −0 below +0, and a NaN operand gives 0x7FC0_0000 (R101, R257). -/
def fmax32 (a b : Word32) : Word32 :=
  if isNan32 a || isNan32 b then 0x7FC00000 else if fpKey a < fpKey b then b else a
def fmin32 (a b : Word32) : Word32 :=
  if isNan32 a || isNan32 b then 0x7FC00000 else if fpKey b < fpKey a then b else a

/-! ## BF16 (R40) -/

/-- BF16 to FP32: 16 zero bits appended. -/
def bf16To32 (h : Nat) : Word32 := BitVec.ofNat 32 (h % 65536 * 65536)

/-- FP32 to BF16 under a mode: a NaN keeps its upper 16 bits, with bit 6 set if the mantissa would be zero. -/
def toBf16 (mode : Rnd) (d : Nat) (w : Word32) : Nat :=
  if isNan32 w then
    let h := w.toNat / 65536
    if h % 128 = 0 then h + 64 else h
  else fpEncode bf16 mode d (fpOf32 w)

/-! ## Descriptors (R32, R33) -/

def descS (d : Word32) : Nat := field d.toNat 29 3
def descE (d : Word32) : Nat := field d.toNat 26 3
def descM (d : Word32) : Nat := field d.toNat 23 3
def descBias (d : Word32) : Int := (BitVec.ofNat 8 (field d.toNat 15 8)).toInt
def descSpec (d : Word32) : Nat := field d.toNat 13 2
def descScale (d : Word32) : Nat := field d.toNat 10 3
def descBlkCode (d : Word32) : Nat := field d.toNat 7 3
def descAxis (d : Word32) : Nat := field d.toNat 5 2
def descDrnd (d : Word32) : Rnd := (rndOf (field d.toNat 1 4)).getD .rne
def descInt (d : Word32) : Bool := flag d.toNat 0

/-- The code width n = S + E + M. -/
def descWidth (d : Word32) : Nat := descS d + descE d + descM d

/-- The block size (R32). -/
def descBlock (d : Word32) : Nat := if descBlkCode d = 1 then 16 else if descBlkCode d = 2 then 64 else 32

/-- A descriptor that a format table may hold (R33). -/
def descOk (d : Word32) : Bool :=
  let top : Int := if descSpec d = 0 then 2 ^ descE d - 2 else 2 ^ descE d - 1
  descS d ≤ 1 && 1 ≤ descWidth d && descWidth d ≤ 8 && descSpec d ≤ 2 && descScale d ≤ 1 && descBlkCode d ≤ 2
    && descAxis d ≤ 1 && field d.toNat 1 4 ≤ 5
    && (descScale d = 1 || (descBlkCode d = 0 && descAxis d = 0))
    && (if 1 ≤ descE d then
          !descInt d && (descSpec d ≠ 0 || (2 ≤ descE d && 1 ≤ descM d))
            && decide (top - descBias d ≤ 127) && decide (-149 ≤ 1 - descBias d - descM d)
        else descInt d && descBias d = 0 && descSpec d = 2)

/-- The float layout of a descriptor with E ≥ 1. -/
def descFloat (d : Word32) : FloatFmt :=
  { ew := descE d, mw := descM d, bias := descBias d, spec := descSpec d, sign := descS d = 1 }

/-- The value of an integer code of n bits (R34). -/
def intCode (d : Word32) (c : Nat) : Int :=
  if descS d = 1 ∧ 2 ^ (descWidth d - 1) ≤ c then (c : Int) - 2 ^ descWidth d else c

/-- The value of a code of a descriptor (R34). -/
def descValue (d : Word32) (c : Nat) : Fp :=
  let c := c % 2 ^ descWidth d
  if descE d = 0 then (let v := intCode d c; .fin (v < 0) v.natAbs 0) else fpDecode (descFloat d) c

/-- A code converted to FP32, exact (R33, R38). -/
def descTo32 (d : Word32) (c : Nat) : Word32 :=
  let c := c % 2 ^ descWidth d
  match descValue d c with
  | .nan =>
    let s := descS d = 1 ∧ 2 ^ (descWidth d - 1) ≤ c
    BitVec.ofNat 32 ((if s then 2 ^ 31 else 0) + 1023 * 2 ^ 21 + c)
  | x => to32 .rne 0 x

/-- ±n × 2^e rounded to an integer and saturated to lo..hi. -/
def roundInt (mode : Rnd) (d : Nat) (lo hi : Int) : Fp → Int
  | .nan => 0
  | .inf neg => if neg then lo else hi
  | .fin neg n e =>
    let m := roundAt mode neg d n e 0
    let v : Int := if neg then -(m : Int) else m
    if v < lo then lo else if hi < v then hi else v

/-- An FP32 NaN carries a NaN code of the target (R38). -/
def carriedNan (d : Word32) (w : Word32) : Option Nat :=
  let n := descWidth d
  let c := w.toNat % 2 ^ n
  if field w.toNat 8 14 = 0x2000 ∧ field w.toNat n (8 - n) = 0 ∧ descValue d c = .nan then some c else none

/-- FP32 converted to a code of a descriptor (R37-R39). -/
def descFrom32 (d : Word32) (mode : Rnd) (draw : Nat) (w : Word32) : Nat :=
  if descE d = 0 then
    let lo : Int := if descS d = 1 then -(2 ^ (descWidth d - 1)) else 0
    let hi : Int := if descS d = 1 then 2 ^ (descWidth d - 1) - 1 else 2 ^ descWidth d - 1
    ((roundInt mode draw lo hi (fpOf32 w)) % 2 ^ descWidth d).toNat
  else
    match fpOf32 w with
    | .nan => (carriedNan d w).getD (fpNanCode (descFloat d))
    | x => fpEncode (descFloat d) mode draw x

/-! ## Sums (R41, R42) -/

def Fp.isNegZero : Fp → Bool
  | .fin s n _ => s && n = 0
  | _ => false

/-- A term truncated toward zero to a multiple of 2^q, as that multiple. -/
def truncAt (q : Int) : Fp → Int
  | .fin s n e =>
    let m := if q ≤ e then n * pow2 (e - q) else n / pow2 (q - e)
    if s then -(m : Int) else m
  | _ => 0

/-- The exponent of a term's leading bit. -/
def leadExp : Fp → Option Int
  | .fin _ n e => if n = 0 then none else some ((ilog n : Int) + e)
  | _ => none

/-- group_sum (R41). -/
def groupSum (ts : List Fp) : Word32 :=
  if ts.contains .nan then 0x7FC00000
  else if ts.contains (.inf false) && ts.contains (.inf true) then 0x7FC00000
  else if ts.contains (.inf false) then 0x7F800000
  else if ts.contains (.inf true) then 0xFF800000
  else
    match (ts.filterMap leadExp) with
    | [] => if ts.all Fp.isNegZero then 0x80000000 else 0
    | x :: xs =>
      let q := xs.foldl (fun a b => if a < b then b else a) x - 40
      let v := ts.foldl (fun a t => a + truncAt q t) 0
      if v = 0 then 0 else to32 .rne 0 (.fin (v < 0) v.natAbs q)

/-- An exact product with a power of two (the two block scales, R41). -/
def Fp.shift (k : Int) : Fp → Fp
  | .fin s n e => .fin s n (e + k)
  | x => x

/-! ## Bit strings of codes (R49, R128) -/

/-- Code i of a packed run of n-bit codes. -/
def codeAt (bits n i : Nat) : Nat := bits / 2 ^ (n * i) % 2 ^ n

/-- The lanes of a vector. -/
def laneAt (v : Vec) (l : Nat) : Word32 := BitVec.ofNat 32 (v.toNat / 2 ^ (32 * l))

/-- A vector from a lane function. -/
def ofLanes (f : Nat → Word32) : Vec :=
  BitVec.ofNat 256 ((List.range 8).foldl (fun a l => a + (f l).toNat * 2 ^ (32 * l)) 0)

/-- Lane by lane. -/
def laneMap2 (f : Word32 → Word32 → Word32) (a b : Vec) : Vec := ofLanes (fun l => f (laneAt a l) (laneAt b l))

/-- All lanes the same. -/
def splat (w : Word32) : Vec := ofLanes (fun _ => w)

/-! ## Draws (R264) -/

/-- The rounds of draw_lane from round j, `left` to go. -/
def drawRounds (kh kl : Nat) : Nat → Nat → Nat → Nat → Nat × Nat
  | 0, _, x, y => (x, y)
  | left + 1, j, x, y =>
    let p := x * 0xC5A92F617D3B0E4D
    let key := if j % 2 = 0 then kl else kh
    drawRounds kh kl left (j + 1) ((p / 2 ^ 64 ^^^ y) ^^^ ((key + j * 0x9E3779B97F4A7C15) % 2 ^ 64)) (p % 2 ^ 64)

/-- draw_lane (R264): 32 bits from a key and a 128-bit counter value. -/
def drawLane (kh kl : Word64) (v : Nat) : Word32 :=
  let r := drawRounds kh.toNat kl.toNat 6 0 (v % 2 ^ 64) (v / 2 ^ 64 % 2 ^ 64)
  BitVec.ofNat 32 (r.1 ^^^ r.2)

end Sys2Proof.Machine
end

