-- ==== Sys2Proof/Machine/Scratch.lean ====
section
/-! DEFINITION. The three scratchpads and their generations (R80-R93): reading and writing stamped granules, and the stamped
parts of a tile. -/

namespace Sys2Proof.Machine

/-- Bytes [o, o + k) of a granule reach one of its words that a mask names. -/
def touches (mask : BitVec 2) (o k : Nat) : Bool := (mask.getLsbD 0 && decide (o < 32)) || (mask.getLsbD 1 && decide (32 < o + k))

/-- What bytes [o, o + k) of a granule hold for a reader of generation `gen` (R89): the granule's value, zero if stale, or 0x1C0 under STRICT;
0x1C3 where a word they reach, or the stamp, is uncorrectable (R93). -/
def granRead (tab : Tab Gran) (gen : Nat) (strict : Bool) (g o k : Nat) : Except Cause Nat :=
  let x := tabGet tab g {}
  if x.lost ≠ 0 then .error 0x1C3
  else if x.gen = gen then (if touches x.bad o k then .error 0x1C3 else .ok x.val.toNat)
  else if strict then .error 0x1C0
  else .ok 0

/-- `n` bytes from an offset as a little-endian number, granule by granule. -/
def storeRead (tab : Tab Gran) (gen : Nat) (strict : Bool) : Nat → Nat → Nat → Except Cause Nat
  | 0, _, _ => .ok 0
  | fuel + 1, off, n =>
    if n = 0 then .ok 0
    else
      let o := off % 64
      let k := Nat.min n (64 - o)
      match granRead tab gen strict (off / 64) o k with
      | .error c => .error c
      | .ok v =>
        match storeRead tab gen strict fuel (off + k) (n - k) with
        | .error c => .error c
        | .ok rest => .ok (v / 2 ^ (8 * o) % 2 ^ (8 * k) + rest * 2 ^ (8 * k))

/-- The words of a granule that bytes [o, o + k) cover whole. -/
def coveredWords (o k : Nat) : BitVec 2 := BitVec.ofNat 2 ((decide (o = 0 ∧ 32 ≤ k)).toNat + 2 * (decide (o ≤ 32 ∧ 64 ≤ o + k)).toNat)

/-- `k` bytes put at byte `o` of a granule: a stale granule is zeroed first, and takes the current stamp (R89). A whole word written is
correctable again, and a granule whose stamp was lost is repaired once both its words have been (R93). -/
def granPut (x : Gran) (gen o k v : Nat) : Gran :=
  let old := if x.gen = gen then x.val.toNat else 0
  let cleared := old - (old / 2 ^ (8 * o) % 2 ^ (8 * k)) * 2 ^ (8 * o)
  { gen := gen, val := BitVec.ofNat 512 (cleared + v % 2 ^ (8 * k) * 2 ^ (8 * o)),
    bad := if x.gen = gen then x.bad &&& ~~~(coveredWords o k) else 0, lost := x.lost &&& ~~~(coveredWords o k) }

/-- `n` bytes of a number written from an offset. -/
def storeWrite (gen : Nat) : Nat → Tab Gran → Nat → Nat → Nat → Tab Gran
  | 0, tab, _, _, _ => tab
  | fuel + 1, tab, off, n, v =>
    if n = 0 then tab
    else
      let o := off % 64
      let k := Nat.min n (64 - o)
      storeWrite gen fuel (tabPut tab (off / 64) (granPut (tabGet tab (off / 64) {}) gen o k v)) (off + k) (n - k) (v / 2 ^ (8 * k))

/-- A granule written poisoned (R93): each word reads as uncorrectable until it is written whole. -/
def storePoison (tab : Tab Gran) (gen off : Nat) : Tab Gran :=
  tabPut tab (off / 64) { tabGet tab (off / 64) {} with gen := gen, bad := 3 }

/-- An uncorrectable error in a granule (R93): `n` 2 in its first word, 3 in its second, more in its stamp. -/
def storeStrike (tab : Tab Gran) (q n : Nat) : Tab Gran :=
  let x := tabGet tab q {}
  tabPut tab q (if n = 2 then { x with bad := x.bad ||| 1 } else if n = 3 then { x with bad := x.bad ||| 2 } else { x with lost := 3 })

/-! ## The writes of one cycle (R83) -/

/-- The store as reads of a cycle find it: as it stood before the writes of that cycle. -/
def WriteLog.before (l : WriteLog) (now : Nat) (tab : Tab Gran) : Tab Gran :=
  if l.cycle = now then l.old.foldl (fun t k => tabPut t k.1 k.2) tab else tab

/-- The granules that a range touches, kept as they stood before the cycle's first write of each. -/
def WriteLog.note (l : WriteLog) (now : Nat) (tab : Tab Gran) (off n : Nat) : WriteLog :=
  let l0 : WriteLog := if l.cycle = now then l else { cycle := now }
  { l0 with old := ((List.range ((off + n + 63) / 64 - off / 64)).map (· + off / 64)).foldl (fun t q =>
      if (tabFind t q).isSome then t else tabPut t q (tabGet tab q {})) l0.old }

/-- The ranks of the paths that write one tile store in the same cycle: a later one leaves its value (R83). An arrival's rank is by its side. -/
def rankTst : Nat := 0
def rankSide (dir : Nat) : Nat := 1 + dir
def rankSmove : Nat := 5
def rankSpill : Nat := 6

/-- A lane that no path of a higher rank has written in this cycle. -/
def WriteLog.open (l : WriteLog) (rank q : Nat) : Bool := decide (tabGet l.ranks q 0 ≤ rank)

/-- `n` bytes, whole lanes, written at an offset by the path of a rank: the lanes that a path of higher rank has written in this cycle keep its value. -/
def rankedWrite (tab : Tab Gran) (l : WriteLog) (gen now rank off n v : Nat) (bad : Bool) : Tab Gran × WriteLog :=
  let l1 := l.note now tab off n
  let lanes := (List.range (n / 4)).map (· + off / 4)
  let mine := lanes.filter (l1.open rank)
  let tab1 :=
    if mine.length = lanes.length then (if bad then storePoison tab gen off else storeWrite gen (n + 1) tab off n v)
    else mine.foldl (fun t q => storeWrite gen 5 t (4 * q) 4 (v / 2 ^ (8 * (4 * q - off)))) tab
  (tab1, { l1 with ranks := mine.foldl (fun r q => tabPut r q rank) l1.ranks })

/-- A value stamped `g` as a unit of generation `gen` reads it, zero if stale (R89). -/
def stamped (g gen v : Nat) : Nat := if g = gen then v else 0

/-! ## Tile store (R80-R81, R278) -/

/-- 32 bytes of a tile's store as an aligned word of 256 bits. -/
def Tile.word (t : Tile) (off : Nat) : Except Cause Vec :=
  match storeRead t.store t.gen t.strict 2 off 32 with
  | .error c => .error c
  | .ok v => .ok (BitVec.ofNat 256 v)

def Tile.read (t : Tile) (off n : Nat) : Except Cause Nat := storeRead t.store t.gen t.strict (n + 1) off n
def Tile.write (t : Tile) (off n v : Nat) : Tile := { t with store := storeWrite t.gen (n + 1) t.store off n v }

/-- A tile as the reads of a cycle find its store (R83). -/
def Tile.before (t : Tile) (now : Nat) : Tile := { t with store := t.log.before now t.store }

/-- A write of a cycle by the path of a rank, or one that leaves its granule poisoned (R83, R93). -/
def Tile.put (t : Tile) (now rank off n v : Nat) (bad : Bool) : Tile :=
  let r := rankedWrite t.store t.log t.gen now rank off n v bad
  { t with store := r.1, log := r.2 }

/-- The first byte of the state area, and of state vector n (R81). -/
def stateBase : Nat := 0x1FF00
def svOffset (n : Nat) : Nat := stateBase + 32 * n

/-- The fault of a tile-store range (R81): past the end 0x1C1, into the state area 0x1C2. -/
def tileRangeFault (off n : Nat) : Option Cause :=
  if n = 0 then none
  else if 0x20000 < off + n then some 0x1C1
  else if stateBase < off + n then some 0x1C2
  else none

/-! ## Slice and die store (R80, R82) -/

def Slice.read (x : Slice) (off n : Nat) : Except Cause Nat := storeRead x.store x.gen x.strict (n + 1) off n
def Slice.write (x : Slice) (off n v : Nat) : Slice := { x with store := storeWrite x.gen (n + 1) x.store off n v }

def Slice.before (x : Slice) (now : Nat) : Slice := { x with store := x.log.before now x.store }

/-- The writes of a slice's own events: barriers and scatter pairs. -/
def rankNode : Nat := 0

def Slice.put (x : Slice) (now rank off n v : Nat) (bad : Bool) : Slice :=
  let r := rankedWrite x.store x.log x.gen now rank off n v bad
  { x with store := r.1, log := r.2 }

/-- An offset's granule has been written in this cycle: a read that follows that write, and would not find it, waits a cycle (R83, R169). -/
def Slice.fresh (x : Slice) (now off : Nat) : Bool := x.log.cycle = now && (tabFind x.log.old (off / 64)).isSome

/-- A copy or a port has written the word of 32 bytes at an offset in this cycle: an event that reads the word and writes it waits a cycle, since it
reads what was there before that write (R83). -/
def Slice.taken (x : Slice) (now off : Nat) : Bool :=
  x.log.cycle = now && (List.range 8).any (fun i => decide (rankNode < tabGet x.log.ranks (off / 32 * 8 + i) 0))

/-- The generation of a die-store region. -/
def Die.gen (d : Die) (region : Nat) : Nat × Bool := tabGet d.gens region (0, false)

/-- 32 bytes of die store at an absolute offset. -/
def Die.word (d : Die) (off : Nat) : Except Cause Nat :=
  let g := d.gen (off / 2 ^ 20)
  storeRead d.store g.1 g.2 2 off 32

def Die.write (d : Die) (off n v : Nat) : Die := { d with store := storeWrite (d.gen (off / 2 ^ 20)).1 (n + 1) d.store off n v }

def Die.before (d : Die) (now : Nat) : Die := { d with store := d.log.before now d.store }
def Die.put (d : Die) (now off n v : Nat) (bad : Bool) : Die :=
  let r := rankedWrite d.store d.log (d.gen (off / 2 ^ 20)).1 now 0 off n v bad
  { d with store := r.1, log := r.2 }

/-- The absolute offset of a die-store offset of a grove: its window is a list of regions (R82, R160). -/
def Grove.windowAt (g : Grove) (off : Nat) : Option Nat := (g.window[off / 2 ^ 20]?).map (fun r => r * 2 ^ 20 + off % 2 ^ 20)

/-! ## Allocation (R88, R91) -/

/-- The generation after an allocation: past 4,095 the unit is swept and starts at 1 (R91). -/
def nextGen (g : Nat) : Nat × Bool := if 4095 ≤ g then (1, true) else (g + 1, false)

/-! ## Barrier objects (R156) -/

/-- A barrier object: PART, PEND, PHASE. -/
structure Barrier where
  part  : Nat
  pend  : Nat
  phase : Nat
  deriving DecidableEq, Repr

def barrierOf (v : Nat) : Barrier := ⟨field v 96 32, field v 64 32, field v 32 32⟩
def Barrier.bits (b : Barrier) : Nat := b.part * 2 ^ 96 + b.pend * 2 ^ 64 + b.phase * 2 ^ 32

/-- The site and offset that a barrier address names in a grove (R156, R332): 0x305 with bits [63:30], a slice outside the
grove, or an offset not aligned to 16. -/
def barrierAt (g : Grove) (a : Nat) : Except Cause (Nat × Nat) :=
  if 2 ^ 30 ≤ a || a % 16 ≠ 0 then .error 0x305
  else
    match g.sliceAt (a / 2 ^ 20) with
    | none => .error 0x305
    | some x => .ok (x, a % 2 ^ 20)

end Sys2Proof.Machine
end

