-- ==== Sys2Proof/Machine/Ports.lean ====
section
/-! DEFINITION. Channels (R95-R113): ash, records at an input port, the overload policies in live and exact mode, faults and
fault records of a tile, and the counts an input port reports. -/

namespace Sys2Proof.Machine

/-! ## Ash (R99, R100) -/

/-- The bits of ORG (R99). -/
def orgDrop : BitVec 8 := 0x01
def orgSample : BitVec 8 := 0x02
def orgMerge : BitVec 8 := 0x04
def orgDefer : BitVec 8 := 0x08
def orgEscalate : BitVec 8 := 0x10
def orgPrune : BitVec 8 := 0x20
def orgArrived : BitVec 8 := 0x40
def orgSlice : BitVec 8 := 0x80

def sat32 (n : Nat) : Nat := Nat.min n 0xFFFFFFFF
def sat48 (n : Nat) : Nat := Nat.min n 0xFFFFFFFFFFFF
def sat16 (n : Nat) : Nat := Nat.min n 0xFFFF

def Ash.bits (a : Ash) : Vec :=
  BitVec.ofNat 256 (a.fseq % 2 ^ 32 * 2 ^ 224 + a.lseq % 2 ^ 32 * 2 ^ 192 + a.cnt * 2 ^ 160 + a.dw * 2 ^ 112 + a.uw * 2 ^ 64
    + a.org.toNat * 2 ^ 56 + a.sat.toNat * 2 ^ 55)

def ashOf (v : Vec) : Ash :=
  let n := v.toNat
  { fseq := field n 224 32, lseq := field n 192 32, cnt := field n 160 32, dw := field n 112 48, uw := field n 64 48,
    org := BitVec.ofNat 8 (field n 56 8), sat := flag n 55, lost := field n 160 32 ≠ 0 }

/-- Counts and weights added, saturating; SAT says that one saturated (R99). -/
def Ash.add (a : Ash) (cnt dw uw : Nat) (org : BitVec 8) : Ash :=
  { a with cnt := sat32 (a.cnt + cnt), dw := sat48 (a.dw + dw), uw := sat48 (a.uw + uw), org := a.org ||| org,
           sat := a.sat || decide (0xFFFFFFFF < a.cnt + cnt) || decide (0xFFFFFFFFFFFF < a.dw + dw)
             || decide (0xFFFFFFFFFFFF < a.uw + uw) }

/-- A record lost (R99): the first sets FSEQ, each later one LSEQ. -/
def Ash.lose (a : Ash) (seq dw uw : Nat) (org : BitVec 8) : Ash :=
  let b := a.add 1 dw uw org
  if a.lost then { b with lseq := seq } else { b with fseq := seq, lseq := seq, lost := true }

/-- An ash token that arrives on the channel (R99). -/
def Ash.join (a b : Ash) : Ash :=
  let c := a.add b.cnt b.dw b.uw (b.org ||| orgArrived)
  let c := { c with sat := c.sat || b.sat }
  if b.cnt = 0 then c
  else if a.lost then { c with lseq := b.lseq }
  else { c with fseq := b.fseq, lseq := b.lseq, lost := true }

/-! ## The items of a port (R98) -/

def Item.place : Item → Option Place
  | .record _ p _ _ => some p
  | _ => none

def Item.isHeld : Item → Bool
  | .record _ _ h _ => h
  | .ash _ _ h => h
  | .marker _ => false

/-- The record of a number. -/
def Item.hasId (q : Nat) : Item → Bool
  | .record r _ _ _ => r.id = q
  | _ => false

/-- Entries in use: records in the queue; a joined record shares its host's (R98). -/
def InPort.occ (p : InPort) : Nat := (p.items.filter (fun i => i.place = some .queue)).length
def InPort.spilled (p : InPort) : Nat := (p.items.filter (fun i => i.place = some .spill)).length
def InPort.deferred (p : InPort) : Nat := (p.items.filter (fun i => i.place = some .defer)).length
def InPort.recorded (p : InPort) : Nat := (p.items.filter (fun i => i.place = some .recorded)).length
def InPort.markers (p : InPort) : Nat :=
  (p.items.filter (fun i => match i with
    | .marker _ => true
    | _ => false)).length

/-- A record waits to come back into the queue: it stands in the spill or deferral area, or an ember recorded it (R98, R197). -/
def parked : Place → Bool
  | .spill | .defer | .recorded => true
  | .queue | .joined _ => false

def Item.isParked (i : Item) : Bool := (i.place.map parked).getD false

/-- Earlier records wait (R98). -/
def InPort.waiting (p : InPort) : Bool := p.items.any Item.isParked

/-- The open ash slot changed, or opened at the end with `f` of an empty record (R99). -/
def ashInto (f : Ash → Ash) : List Item → List Item
  | [] => [.ash (f {}) true false]
  | .ash a true h :: rest => .ash (f a) true h :: rest
  | i :: rest => i :: ashInto f rest

/-- The open slot, if any, is sealed where it stands (R99). -/
def sealAsh : List Item → List Item
  | [] => []
  | .ash a true h :: rest => .ash a false h :: rest
  | i :: rest => i :: sealAsh rest

def InPort.loseRec (p : InPort) (seq dw uw : Nat) (org : BitVec 8) : InPort :=
  { p with items := ashInto (fun a => a.lose seq dw uw org) p.items }

/-- Weight that no delivered record carries joins UW. An empty slot opens for it at CNT 0 with FSEQ and LSEQ 0, since no record was lost; R99 gives
such a slot no sequences (DESIGN CHOICE, log entry 107). -/
def InPort.addUw (p : InPort) (uw : Nat) : InPort :=
  if uw = 0 then p else { p with items := ashInto (fun a => a.add 0 0 uw 0) p.items }

/-- An item taken out of its place `at_`: a record that was joined to it stands in the entry from now on (R98). -/
def unjoin (host : Nat) (at_ : Place) (l : List Item) : List Item :=
  l.map (fun i =>
    match i with
    | .record r (.joined h) held n => if h = host then .record r at_ held n else i
    | _ => i)

/-- Two items are the same one: a record by its number, an ash by what it holds. -/
def Item.same : Item → Item → Bool
  | .record r _ _ _, .record q _ _ _ => r.id = q.id
  | .ash a _ _, .ash b _ _ => { a with arr := none } = { b with arr := none }
  | _, _ => false

/-- The first item of a list that meets a condition taken out. -/
def takeFirst (f : Item → Bool) : List Item → Option Item × List Item
  | [] => (none, [])
  | i :: rest =>
    if f i then (some i, rest)
    else
      let x := takeFirst f rest
      (x.1, i :: x.2)

/-- The last item that meets a condition changed. -/
def mapLast (f : Item → Bool) (g : Item → Item) (l : List Item) : List Item :=
  let x := l.reverse
  match x.findIdx? f with
  | none => l
  | some k => (x.modify k g).reverse

/-! ## Where a record goes -/

/-- What a port needs to know of its tile for a verdict: its frame, the grove's mode, the cycle, and whether the tile has saved, so that what
the policy admits is recorded (R196). -/
structure PortEnv where
  cfg   : InCfg
  exact : Bool
  now   : Nat
  saved : Bool := false

/-- A port's answer to an arrival: the port, the verdict, the cause raised. -/
abbrev Judged := InPort × Verdict × Option Cause

/-- A record put at the end of the items. -/
def InPort.put (p : InPort) (r : Rec) (at_ : Place) (narrowed : Bool) : InPort :=
  { p with items := p.items ++ [.record r at_ false narrowed] }

/-- The occupancy that live policies judge by, and the capacity: after the save they are the recorded list's (R98, R196). -/
def PortEnv.inUse (e : PortEnv) (p : InPort) : Nat := if e.saved then p.recorded else p.occ
def PortEnv.cap (e : PortEnv) : Nat := if e.saved then e.cfg.cap + e.cfg.spn else e.cfg.cap

/-- A record has slot `k` of an area; one that an ember recorded in place of the deferral area holds that area's slot as `k + 1` (R196). -/
def hasSlot (at_ : Place) (k : Nat) : Item → Bool
  | .record r p _ _ => p = at_ && r.slot = k || at_ = .defer && p = .recorded && r.slot = k + 1
  | _ => false

/-- The lowest slot of an area of `n` records that none of its records has (log entry 88). -/
def freeSlot (n : Nat) (at_ : Place) (l : List Item) : Option Nat := (List.range n).find? (fun k => !l.any (hasSlot at_ k))

/-- There is room for a record in the queue, or in the recorded list once the tile has saved (R98, R196). -/
def queueRoom (e : PortEnv) (p : InPort) : Bool :=
  if e.saved then e.exact || decide (p.recorded < e.cap) else decide (p.occ < e.cfg.cap) && !p.waiting

/-- A record queued if there is room, otherwise spilled; none if neither has room (R98, R103). -/
def takeIn (e : PortEnv) (p : InPort) (r : Rec) (narrowed : Bool) : Option InPort :=
  if queueRoom e p then some (p.put r (if e.saved then .recorded else .queue) narrowed)
  else if e.saved then none
  else (freeSlot e.cfg.spn .spill p.items).map (fun k => p.put { r with slot := k } .spill narrowed)

/-- A record admitted, or the other answer. -/
def takeInOr (e : PortEnv) (p : InPort) (r : Rec) (narrowed : Bool) (other : Judged) : Judged :=
  match takeIn e p r narrowed with
  | some p1 => (p1, .kept r.id, none)
  | none => other

/-- The weight that a record's loss takes from what arrived: a partial's WEIGHT field holds its place in the tree (R63), and R100 counts data records
alone, so a lost partial adds its count and no weight (DEDUCED, log entry 107). -/
def Rec.lostWeight (r : Rec) : Nat := if r.kind = 6 then 0 else r.weight

/-- No room for a record that must be kept (R113): it joins the ash with ORG bit 4; the port fails once, with a cause. -/
def escalate (p : InPort) (r : Rec) (c : Cause) : Judged :=
  ({ p.loseRec r.seq r.lostWeight r.lostWeight orgEscalate with failed := true }, .lost .escalated, if p.failed then none else some c)

/-- Dropped by DROPNEW's own entry (R103). -/
def dropNew (p : InPort) (r : Rec) : Judged := (p.loseRec r.seq r.weight r.weight orgDrop, .lost .dropped, none)

/-- SPILL, and every policy for a partial record (R101, R103, R106). -/
def judgeSpill (e : PortEnv) (p : InPort) (r : Rec) : Judged :=
  takeInOr e p r false (escalate p r (if e.exact then 0x101 else 0x100))

/-- Kept (R103, R105): admitted; else dropped in live mode and a fault in exact mode. A port
that has failed drops with ORG bit 4 (R113). -/
def judgeKeep (e : PortEnv) (p : InPort) (r : Rec) (narrowed : Bool) : Judged :=
  takeInOr e p r narrowed (if e.exact ∨ p.failed then escalate p r 0x101 else dropNew p r)

/-- The deferral area (R103, R106). Once the tile has saved, every record admitted is recorded (R196; log entry 88): in exact mode one that would go to
the area is recorded while the area has a slot for it; in live mode the list's capacity alone bounds it, and a record beyond that is dropped. -/
def judgeDefer (e : PortEnv) (p : InPort) (r : Rec) : Judged :=
  match (if e.saved && !e.exact then none else freeSlot e.cfg.dsz .defer p.items) with
  | some k => (if e.saved then p.put { r with slot := k + 1 } .recorded false else p.put { r with slot := k } .defer false, .kept r.id, none)
  | none => if e.exact then escalate p r 0x101 else (p.loseRec r.seq r.weight r.weight orgDefer, .lost .areaFull, none)

/-- A record that no firing holds, of those a policy may drop (R103): partials are never dropped, and what is saved is as good as held. -/
def isFree (saved : Bool) : Item → Bool
  | .record r at_ held _ =>
    !held && r.kind ≠ 6 && (match at_ with
      | .queue | .spill => !saved
      | .recorded => true
      | _ => false)
  | _ => false

/-- A record of a port's own loss, as DROPNEW's (R103). -/
def InPort.dropItem (p : InPort) : Option Item → InPort
  | some (.record r _ _ _) =>
    let q := p.loseRec r.seq r.weight r.weight orgDrop
    { q with consumed := q.consumed + r.toks.length, unreported := q.unreported + r.toks.length }
  | _ => p

/-- The oldest record that waits moves into the queue (R98, R103). -/
def unparkFirst (l : List Item) : List Item :=
  match l.findIdx? Item.isParked with
  | none => l
  | some k =>
    l.modify k (fun i =>
      match i with
      | .record r _ h n => .record r .queue h n
      | _ => i)

/-- A record dropped from where it stands: if that was the queue, the oldest record that waits moves into the freed entry at once (R103). -/
def dropOldest (e : PortEnv) (f : Item → Bool) (p : InPort) : Option InPort :=
  match takeFirst f p.items with
  | (none, _) => none
  | (some old, rest) =>
    some (({ p with items := if old.place = some .queue && !e.saved then unparkFirst rest else rest } : InPort).dropItem (some old))

/-- DROPOLD in live mode with no room. -/
def judgeDropOld (e : PortEnv) (p : InPort) (r : Rec) : Judged :=
  match dropOldest e (isFree e.saved) p with
  | none => dropNew p r
  | some p1 => takeInOr e p1 r false (dropNew p1 r)

/-- A record's weight replaced. -/
def setWeight (q w : Nat) (l : List Item) : List Item :=
  l.map (fun i =>
    match i with
    | .record r a h n => if r.id = q then .record { r with weight := w } a h n else i
    | _ => i)

/-- MERGE into the newest record that meets a condition (R103, R106): its weight is the sum, and what saturation loses goes to UW. -/
def judgeMerge (p : InPort) (r : Rec) (f : Item → Bool) : Judged :=
  match p.items.reverse.find? f with
  | some (.record old _ _ _) =>
    let w := sat16 (old.weight + r.weight)
    let p1 := p.loseRec r.seq r.weight (old.weight + r.weight - w) orgMerge
    ({ p1 with items := setWeight old.id w p1.items }, .merged old.id, none)
  | _ => dropNew p r

/-- An entry that holds a single narrowed record and is not held (R103): of the queue, or of the recorded list once the tile has saved (R196). -/
def isSingle (saved : Bool) (l : List Item) : Item → Bool
  | .record r at_ false true => at_ = (if saved then .recorded else .queue) && l.all (fun j => j.place ≠ some (.joined r.id))
  | _ => false

/-- A narrowed record that joins an entry stands next behind the entry's first record, but behind every ash and marker that came before it
(R98, R99, R111; log entry 88). -/
def joinItem (host : Nat) (i : Item) (l : List Item) : List Item :=
  let stays : Item → Bool := fun j =>
    match j with
    | .record r _ _ _ => r.id = host
    | .ash _ _ _ | .marker _ => true
  let k := (l.reverse.findIdx? stays).getD 0
  (l.take (l.length - k)) ++ i :: l.drop (l.length - k)

/-- A narrowed record joins the entry of the record `h`, if that entry still takes it; else it is kept as an entry of its own. -/
def joinOr (e : PortEnv) (p : InPort) (r : Rec) (h : Option Item) : Judged :=
  match h with
  | some (.record q _ _ _) => ({ p with items := joinItem q.id (.record r (.joined q.id) false true) p.items }, .kept r.id, none)
  | _ => judgeKeep e p r true

/-- NARROW in live mode: the newest entry that holds a single narrowed record is joined (R103), of the recorded list after the save (R196). -/
def judgeNarrow (e : PortEnv) (p : InPort) (r : Rec) : Judged := joinOr e p r (p.items.reverse.find? (isSingle e.saved p.items))

/-- The first record of the last pair, while its entry is in the queue, single and not held (R106). -/
def pairHost (e : PortEnv) (p : InPort) : Option Item :=
  if e.saved then none else p.items.find? (fun x => isSingle false p.items x && (p.pair.map (fun h => x.hasId h)).getD false)

/-- SAMPLE at block position j of k (R103, R106): sampled out, or the block's survivor. -/
def judgeSample (e : PortEnv) (p : InPort) (r : Rec) : Judged :=
  let k := e.cfg.parm + 1
  let j := p.blkPos
  let w := p.blkW + r.weight
  if j + 1 < k then
    ({ p.loseRec r.seq r.weight 0 orgSample with blkPos := j + 1, blkW := w, blkN := p.blkN + r.weight }, .lost .sampled, none)
  else
    let p1 : InPort := { p with blkPos := 0, blkW := 0, blkN := 0, blkEnd := true }
    match takeIn e (p1.addUw (w - sat16 w)) { r with weight := sat16 w, carried := sat16 w - r.weight } false with
    | some p2 => (p2, .kept r.id, none)
    | none =>
      match judgeKeep e p1 r false with
      | (p2, v, c) => (p2.addUw p.blkN, v, c)

/-- The policy in force (R101, R113). -/
def policyOf (e : PortEnv) (p : InPort) (r : Rec) : Nat := if r.kind = 6 then 0 else if p.failed then 1 else e.cfg.pol

/-- Live mode (R102, R103). -/
def judgeLive (e : PortEnv) (p : InPort) (r : Rec) : Judged :=
  let full := e.inUse p = e.cap
  match policyOf e p r with
  | 0 => judgeSpill e p r
  | 1 =>
    let p1 : InPort := { p with engaged := p.engaged || full }
    if p1.engaged then dropNew p1 r else judgeKeep e p1 r false
  | 2 => if full then judgeDropOld e p r else judgeKeep e p r false
  | 3 =>
    let p1 : InPort := if full && !p.engaged then { p with engaged := true, blkPos := 0, blkW := 0, blkN := 0 } else p
    if p1.engaged then judgeSample e p1 r else judgeKeep e p1 r false
  | 4 => if full then judgeMerge p r (isFree e.saved) else judgeKeep e p r false
  | 5 =>
    let p1 : InPort := { p with engaged := p.engaged || full }
    if p1.engaged then judgeNarrow e p1 r else judgeKeep e p1 r false
  | _ =>
    if queueRoom e p then (p.put r (if e.saved then .recorded else .queue) false, .kept r.id, none) else judgeDefer e p r

/-- A record held at the port until the round marker (R106). -/
def isPortHeld : Item → Bool
  | .record r _ _ _ => r.wait
  | _ => false

/-- Exact mode (R105, R106), at in-round index i. A record held at the port has its place in the queue or the spill area from its arrival, as
one that is kept (log entry 88). -/
def judgeExact (e : PortEnv) (p : InPort) (r : Rec) (i : Nat) : Judged :=
  let b := e.cfg.budget
  match policyOf e p r with
  | 0 => judgeSpill e p r
  | 1 => if i < b then judgeKeep e p r false else dropNew p r
  | 2 =>
    let p1 := if b ≤ (p.items.filter isPortHeld).length then (dropOldest e isPortHeld p).getD p else p
    judgeKeep e p1 { r with wait := true } false
  | 3 => if i < b then judgeKeep e p r false else judgeSample e p r
  | 4 =>
    if i < b then judgeKeep e p { r with wait := decide (i + 1 = b) } false
    else judgeMerge p r isPortHeld
  | 5 =>
    if i < b then judgeKeep e p r false
    else if (i - b) % 2 = 0 then judgeKeep e { p with pair := some r.id } r true
    else joinOr e p r (pairHost e p)
  | _ => if i < b then judgeKeep e p r false else judgeDefer e p r

/-- The verdict on an arriving record (R102-R106). Partial records do not count in the round. -/
def judge (e : PortEnv) (p : InPort) (r : Rec) : Judged :=
  if e.exact then
    match judgeExact e p r p.idx with
    | (p1, v, c) => ({ p1 with idx := if r.kind = 6 then p.idx else p.idx + 1 }, v, c)
  else judgeLive e p r

/-- Engagement is checked at the end of every cycle (R102, R104): in live mode a port disengages when its occupancy is at most half its
capacity, a SAMPLE port only in a cycle in which a block ended. -/
def checkEngaged (e : PortEnv) (p : InPort) : InPort :=
  let low := decide (e.inUse p ≤ e.cap / 2)
  let may := if p.failed then true else e.cfg.pol = 1 || e.cfg.pol = 5 || e.cfg.pol = 3 && p.blkEnd
  { p with engaged := p.engaged && !(!e.exact && may && low), blkEnd := false }

/-! ## Tokens of a record (R97, R101, R104) -/

/-- MERGE's operation on a lane (R101). -/
def mergeLane (op : Nat) (a b : Word32) : Word32 :=
  match op with
  | 0 => add32 a b
  | 1 => a + b
  | 2 => fmax32 a b
  | 3 => fmin32 a b
  | 4 => if a.toInt < b.toInt then b else a
  | 5 => if b.toInt < a.toInt then b else a
  | _ => a ||| b

/-- NARROW's conversion of a payload and back (R101, R359): BF16 by rne, else the descriptor's DRND. -/
def narrowVec (fmt : Nat) (d : Word32) (draw : Nat → Word32) (v : Vec) : Vec :=
  ofLanes (fun l =>
    if fmt = 30 then bf16To32 (toBf16 .rne 0 (laneAt v l))
    else descTo32 d (descFrom32 d (descDrnd d) (draw l).toNat (laneAt v l)))

/-- A token appended to the record of a number. -/
def appendTok (now q : Nat) (t : Tok) (l : List Item) : List Item :=
  l.map (fun i =>
    match i with
    | .record r a h n =>
      if r.id = q then .record { r with toks := r.toks ++ [t], kind := if t.kind = 7 then 7 else r.kind, arr := now } a h n else i
    | _ => i)

/-- A token merged into token `pos` of the record of a number; poison spreads (log entry 13). R103 does not say what happens when a firing takes the
target between the tokens of the record that merges into it: the later tokens find no record and are lost without effect (DESIGN CHOICE, log
entry 107). -/
def mergeTok (op q pos : Nat) (t : Tok) (l : List Item) : List Item :=
  l.map (fun i =>
    match i with
    | .record r a h n =>
      if r.id = q then
        .record { r with
          kind := if t.kind = 7 then 7 else r.kind,
          toks := r.toks.modify pos (fun o =>
            { o with pay := laneMap2 (mergeLane op) o.pay t.pay, kind := if t.kind = 7 then 7 else o.kind }) } a h n
      else i
    | _ => i)

/-- The record of a number, with its place and whether it is narrowed. -/
def InPort.recOf (p : InPort) (q : Nat) : Option (Rec × Place × Bool) :=
  p.items.findSome? (fun i =>
    match i with
    | .record r a _ n => if r.id = q then some (r, a, n) else none
    | _ => none)

/-- Tokens that leave the port for good (R53). -/
def InPort.gone (p : InPort) (n : Nat) : InPort := { p with consumed := p.consumed + n, unreported := p.unreported + n }

/-- A record whose tokens turned out misplaced, or of weight 0, leaves the port and joins the ash as one record of weight 1,
unless it was lost already (R97). What it carried of others no delivered record carries any more (R100). -/
def spoil (p : InPort) (seq : Nat) : Verdict → InPort
  | .kept q =>
    let k := (p.recOf q).getD ({}, .queue, false)
    (({ p with items := unjoin q k.2.1 (p.items.filter (fun i => !i.hasId q)) } : InPort).gone k.1.toks.length).loseRec seq 1 1 0 |>.addUw k.1.carried
  | _ => p

/-- A payload as the record of a number keeps it: narrowed if the record is. -/
def keptTok (p : InPort) (nrw : Vec → Vec) (q : Nat) (t : Tok) : Tok :=
  if ((p.recOf q).map (·.2.2)).getD false then { t with pay := nrw t.pay } else t

/-- A token follows the verdict on its record. -/
def followVerdict (e : PortEnv) (nrw : Vec → Vec) (p : InPort) (pos : Nat) (t : Tok) : Verdict → InPort
  | .kept q => { p with items := appendTok e.now q (keptTok p nrw q t) p.items }
  | .merged q => ({ p with items := mergeTok e.cfg.parm q pos t p.items } : InPort).gone 1
  | .lost _ | .faulted => p.gone 1

/-- One data, partial or poisoned token at a port (R97, R104). `nrw` narrows a payload, given the record's sequence and the
token's place. The port, and the cause raised. -/
def dataToken (e : PortEnv) (nrw : Nat → Nat → Vec → Vec) (p : InPort) (t : Tok) : InPort × Option Cause :=
  let rl := e.cfg.rl
  let pos := (p.asm.map (·.pos)).getD 0
  let seq := (p.asm.map (·.seq)).getD p.seq
  let odd := (t.first ≠ decide (pos = 0)) || (t.last ≠ decide (pos + 1 = rl))
  let zero := t.kind ≠ 6 && t.weight = 0
  let p0 : InPort := if pos = 0 then { p with seq := (p.seq + 1) % 2 ^ 32, ids := p.ids + 1 } else p
  let close (q : InPort) (v : Verdict) : InPort :=
    { q with last := v, asm := if pos + 1 < rl then some { pos := pos + 1, seq := seq, verdict := v } else none }
  let before : Verdict := (p.asm.map (·.verdict)).getD (.lost .dropped)
  if pos ≠ 0 ∧ before = .faulted then (close (p0.gone 1) .faulted, none)
  else if odd || zero then
    let p1 := if pos = 0 then p0.loseRec seq 1 1 0 else spoil p0 seq before
    (close (p1.gone 1) .faulted, some (if odd then 0x0C0 else 0x0C3))
  else if pos = 0 then
    match judge e p0 { kind := t.kind, weight := t.weight, seq := seq, id := p.ids } with
    | (p1, v, c) => (close (followVerdict e (nrw seq pos) p1 pos t v) v, c)
  else (close (followVerdict e (nrw seq pos) p0 pos t before) before, none)

/-! ## Markers (R99, R105, R106, R111) -/

/-- The records held at the port are released at a marker (R106). -/
def releaseHeld (l : List Item) : List Item :=
  l.map (fun i =>
    match i with
    | .record r a h n => .record { r with wait := false } a h n
    | _ => i)

/-- A marker arrives (R99, R103, R105, R106, R111): a block cut short adds its weight to UW, held records are released, the
open slot is sealed ahead of the marker, a round marker resets the in-round index; a ninth marker is discarded. -/
def markerArrives (p : InPort) (kind : Nat) : InPort × Option Cause :=
  let p1 := p.addUw p.blkN
  let p2 : InPort := { p1 with blkPos := 0, blkW := 0, blkN := 0, idx := if kind = 2 then 0 else p.idx, items := sealAsh (releaseHeld p1.items) }
  if 8 ≤ p2.markers then (p2, some 0x0C1)
  else ({ p2 with items := p2.items ++ [.marker kind] }, none)

/-! ## The head of a port (R98, R107, R111, R121) -/

/-- The items that no firing holds. -/
def InPort.free (p : InPort) : List Item := p.items.filter (fun i => !i.isHeld)

/-- The complete records that stand in the queue or are joined there, ahead of the first marker and of the first record that is not
complete, waits in an area or at the port, or came in cycle `now` (R98, R121, R348). -/
def readyFrom (rl now : Nat) : List Item → List Item
  | [] => []
  | .record r a h n :: rest =>
    if h then readyFrom rl now rest
    else if !parked a && !r.wait && r.toks.length = rl && decide (r.arr < now) then .record r a h n :: readyFrom rl now rest
    else []
  | .ash _ _ _ :: rest => readyFrom rl now rest
  | .marker _ :: _ => []

/-- The records a firing could hold (R121): an ash at the head goes first, one behind a record does not keep a firing from the records behind
it (log entry 88). -/
def readyRecs (rl now : Nat) (l : List Item) : List Item :=
  match l.filter (fun i => !i.isHeld) with
  | .ash _ _ _ :: _ => []
  | _ => readyFrom rl now l

/-- The ash at the head of a port: nothing that no firing holds stands ahead of it, and it came before cycle `now`. In exact mode a slot still
open is not delivered, so that its fields follow the data alone (R110; log entry 14). -/
def headAsh (p : InPort) (exact : Bool) (now : Nat) : Option Ash :=
  match p.free with
  | .ash a isOpen _ :: _ => if (isOpen && exact) || now ≤ a.arr.getD 0 then none else some a
  | _ => none

/-- The cycle a slot opened, noted when it has just opened (R348). -/
def stampAsh (now : Nat) (l : List Item) : List Item :=
  l.map (fun i =>
    match i with
    | .ash a o h => if a.arr.isNone then .ash { a with arr := some now } o h else i
    | _ => i)

/-- The marker at the head. -/
def headMarker (p : InPort) : Option Nat :=
  match p.items with
  | .marker k :: _ => some k
  | _ => none

end Sys2Proof.Machine
end

