-- ==== Sys2Proof/Machine/Circuits.lean ====
section
/-! DEFINITION. The circuit fabric (R11, R67-R69, R224): tracing a source through the switch bindings to its sinks, tokens
and control bits put on tracks. -/

namespace Sys2Proof.Machine

/-- The configuration of a site, tile or slice. -/
def cfgOf (s : State) (x : Nat) : SiteCfg := if siteIsSlice x then (s.slice x).cfg else (s.tile x).cfg

/-- What a track id of R224 leaves by: side, sites spanned, cycles, and the id it arrives as. None for an id of a port. -/
def trackOut (id : Nat) : Option (Nat × Nat × Nat × Nat) :=
  if id < 0x40 then
    let side := id / 16
    let t := id % 16
    let arrive := (side + 2) % 4 * 16 + t
    if t < 8 then some (side, 1, 1, arrive)
    else if t < 12 then some (side, 4, 2, arrive)
    else if t < 14 then some (side, 16, 4, arrive)
    else none
  else if 0x80 ≤ id ∧ id < 0xC0 then
    some ((id - 0x80) / 16, 1, 1, 0x80 + ((id - 0x80) / 16 + 2) % 4 * 16 + id % 16)
  else none

/-- The site `n` sites away by a side, on the same die: sides N = 0, E = 1, S = 2, W = 3. -/
def neighbour (x side n : Nat) : Option Nat :=
  match side with
  | 0 => if n ≤ siteRow x then some (x - 64 * n) else none
  | 1 => if siteCol x + n < 64 then some (x + n) else none
  | 2 => if siteRow x + n < 60 then some (x + 64 * n) else none
  | _ => if n ≤ siteCol x then some (x - n) else none

/-- The sinks a source of a site reaches, with the latency of each branch (R11). A path that crosses no segment takes one
cycle. -/
def traceFrom (s : State) : Nat → Nat → Nat → Nat → List (Nat × Nat × Nat)
  | 0, _, _, _ => []
  | fuel + 1, x, src, lat =>
    ((cfgOf s x).binds.filter (fun b => b.2 = src)).flatMap (fun b =>
      match trackOut b.1 with
      | none => [(x, b.1, Nat.max lat 1)]
      | some (side, n, cost, arrive) =>
        match neighbour x side n with
        | none => []
        | some y => traceFrom s fuel y arrive (lat + cost))

/-- The outputs that the sites of a die have: no path crosses more segments, since an output has one source. -/
def allOutputs : Nat := 60 * 64 * 256

/-- The sinks of a source: (site, sink id, latency). -/
def sinksOf (s : State) (x src : Nat) : List (Nat × Nat × Nat) := traceFrom s allOutputs x src 0

/-- A sink's number. -/
def sinkNo (x id : Nat) : Nat := x * 256 + id

/-- One token put on a source's track in a cycle: it is present at each sink after that branch's latency (R11, R68). -/
def sendTok (s : State) (x src : Nat) (t : Tok) (at_ sid bytes pos : Nat) : State :=
  { s with flights := s.flights ++ (sinksOf s x src).map (fun k =>
      { sink := sinkNo k.1 k.2.1, tok := t, due := at_ + k.2.2, sid := sid, bytes := bytes, pos := pos }) }

/-- Tokens put on a source's track, one per cycle (R124). -/
def sendToks (s : State) (x src : Nat) (at_ : Nat) : List Tok → State
  | [] => s
  | t :: rest => sendToks (sendTok s x src t at_ 0 32 0) x src (at_ + 1) rest

/-- Control bits put on a control track, one per cycle (R69, R124). -/
def sendBits (s : State) (x src : Nat) (at_ : Nat) : List Bool → State
  | [] => s
  | b :: rest =>
    sendBits { s with ctls := s.ctls ++ (sinksOf s x src).map (fun k =>
        { sink := sinkNo k.1 k.2.1, bit := b, due := at_ + k.2.2 }) } x src (at_ + 1) rest

/-- The first token due at a sink, and the tokens without it. -/
def takeFlight (s : State) (sink : Nat) : Option (Flight × State) :=
  match s.flights.findIdx? (fun f => f.sink = sink && decide (f.due ≤ s.now)) with
  | none => none
  | some k => (s.flights[k]?).map (fun f => (f, { s with flights := s.flights.eraseIdx k }))

def takeBit (s : State) (sink : Nat) : Option (CtlFlight × State) :=
  match s.ctls.findIdx? (fun f => f.sink = sink && decide (f.due ≤ s.now)) with
  | none => none
  | some k => (s.ctls[k]?).map (fun f => (f, { s with ctls := s.ctls.eraseIdx k }))

/-- A data token of a marker kind. -/
def markTok (kind : Nat) : Tok := { kind := kind }

/-- The mode and state of the grove of a site. -/
def siteGrove (s : State) (x : Nat) : Grove := s.grove ((s.groveOfSite x).getD 0)
def siteExact (s : State) (x : Nat) : Bool := (siteGrove s x).exact

/-- The grove's units run: neither frozen nor halted (R112, R198, R213). -/
def unitsRun (s : State) (x : Nat) : Bool :=
  match s.groveOfSite x with
  | none => true
  | some g => (s.grove g).run ≠ .frozen && (s.grove g).run ≠ .halted

/-! ## The channels of a slice's outputs (R97) -/

/-- A channel's sequence count after a token. -/
def chanAfter (n : Nat) (t : Tok) : Nat :=
  match t.kind with
  | 0 | 6 | 7 => if t.first then (n + 1) % 2 ^ 32 else n
  | 1 => (n + (ashOf t.pay).cnt) % 2 ^ 32
  | _ => n

/-- An ash token names the sequences of the channel it leaves by: from the channel's count on, CNT of them. -/
def chanAsh (n : Nat) (t : Tok) : Tok :=
  let a := ashOf t.pay
  if t.kind ≠ 1 || a.cnt = 0 then t else { t with pay := ({ a with fseq := n, lseq := (n + a.cnt - 1) % 2 ^ 32 } : Ash).bits }

/-- Tokens as they leave by an output of a slice, one after another, and the slice's counts after them. -/
def chanToks (s : State) (x p : Nat) (toks : List Tok) : List Tok × State :=
  let y := toks.foldl (fun (a : List Tok × Nat) t => (a.1 ++ [chanAsh a.2 t], chanAfter a.2 t)) ([], ((s.slice x).outSeq.toList[p]?).getD 0)
  (y.1, s.setSlice x { s.slice x with outSeq := at_ (s.slice x).outSeq p (fun _ => y.2) })

/-- The first token due at a circuit input of a slice, which counts it (R97). At an ember marker what stands behind the input saves (R195, R355). -/
def takeInput (s : State) (x p : Nat) : Option (Flight × State) :=
  (takeFlight s (sinkNo x (0x40 + p))).map (fun y =>
    let sl := y.2.slice x
    (y.1, y.2.setSlice x { sl with inSeq := at_ sl.inSeq p (fun n => chanAfter n y.1.tok),
                                   emberIn := if y.1.tok.kind = 3 then at_ sl.emberIn p (fun _ => some s.now) else sl.emberIn }))

/-! ## Control inputs (R69) -/

/-- A control token joins a run queue; none when it would need a ninth entry. -/
def runPush (q : List (Bool × Nat)) (b : Bool) : Option (List (Bool × Nat)) :=
  match q.getLast? with
  | some (v, n) =>
    if v = b ∧ n < 65535 then some (q.dropLast ++ [(v, n + 1)])
    else if q.length < 8 then some (q ++ [(b, 1)])
    else none
  | none => some [(b, 1)]

/-- The first `n` tokens of a run queue, and what is left. -/
def runTake : Nat → List (Bool × Nat) → List Bool × List (Bool × Nat)
  | 0, q => ([], q)
  | _, [] => ([], [])
  | n + 1, (v, k) :: rest =>
    let q := if k ≤ 1 then rest else (v, k - 1) :: rest
    let x := runTake n q
    (v :: x.1, x.2)

def runLen (q : List (Bool × Nat)) : Nat := q.foldl (fun a e => a + e.2) 0

end Sys2Proof.Machine
end

