-- ==== Sys2Proof/Machine/Operands.lean ====
section
/-! DEFINITION. The operand forms of a tile word (R232): selectors, the tokens of held records, ownership of ports (R219, R235),
and what becomes of a result: staging on ports and the bypass file (R115, R231, R249, R268). -/

namespace Sys2Proof.Machine

/-! ## How a tile instruction ends -/

/-- Why a tile instruction does not complete in this turn: it waits at issue, or it faults, with the sequence and sideband that
its fault record carries (R191). -/
inductive TStop where
  | wait | fault (c : Cause) (seq sband : Nat)
  deriving DecidableEq, Repr

/-- A fault without a record or token concerned. -/
def tfault {α : Type} (c : Cause) : Except TStop α := .error (.fault c 0 0)

/-- The configuration of a firing's actor. -/
def actorCfg (t : Tile) (f : Firing) : ActorCfg := ((t.cfg.actors[f.actor]?).getD none).getD {}

/-- The changing state of a firing's actor. -/
def actorSt (t : Tile) (i : Nat) : ActorSt := (t.actors[i]?).getD {}

/-- The record length of an output port (R222). -/
def outRl (t : Tile) (p : Fin 4) : Nat := (t.cfg.outs[p]).getD 1

/-! ## The tokens of held records (R123, R273, R274) -/

/-- The next token of a port that a firing would take: the token, the WEIGHT field of its record, the record's sequence, its
place in the record, and the held records not yet wholly taken. -/
structure NextTok where
  tok  : Tok
  wf   : Nat
  seq  : Nat
  pos  : Nat
  left : Nat

def nextTok (f : Firing) (p : Fin 4) : Option NextTok :=
  let h := f.held[p]
  let left := h.length - f.ri[p]
  match h[f.ri[p]]? with
  | some (.record r _ _ _) =>
    (r.toks[f.ti[p]]?).map (fun k => { tok := k, wf := r.weight, seq := r.seq, pos := f.ti[p], left := left })
  | some (.ash a _ _) => some { tok := { pay := a.bits, kind := 1 }, wf := 1, seq := a.fseq, pos := 0, left := left }
  | _ => none

/-- The sideband of a token (R95), its record's WEIGHT field in place. -/
def NextTok.sband (n : NextTok) : Nat :=
  n.tok.kind * 2 ^ 20 + n.wf % 65536 * 2 ^ 4 + n.tok.first.toNat * 2 ^ 3 + n.tok.last.toNat * 2 ^ 2

/-- Whether the next token of a port is the last of its item. -/
def endsItem (n : NextTok) : Option Item → Bool
  | some (.record r _ _ _) => decide (r.toks.length ≤ n.pos + 1)
  | _ => true

/-- The firing once it has taken the next token of a port. -/
def tookTok (f : Firing) (p : Fin 4) (n : NextTok) : Firing :=
  let lastOne := endsItem n (f.held[p])[f.ri[p]]?
  let ri := if lastOne = true then f.ri[p] + 1 else f.ri[p]
  let ti := if lastOne = true then 0 else n.pos + 1
  { f with ri := f.ri.set p ri, ti := f.ti.set p ti, lastW := n.wf }

/-- A port selector takes the next token: beyond the holding 0x0C4, a poisoned token 0x1C3 (R123, R96). -/
def takeTok (f : Firing) (p : Fin 4) : Except TStop (Firing × NextTok) :=
  match nextTok f p with
  | none => tfault 0x0C4
  | some n => if n.tok.kind = 7 then .error (.fault 0x1C3 n.seq n.sband) else .ok (tookTok f p n, n)

/-! ## State vectors (R118, R126) -/

/-- The committed lanes of the state area, when one is needed. -/
def committedLane (t : Tile) (n l : Nat) : Except TStop Word32 :=
  match t.read (svOffset n + 4 * l) 4 with
  | .ok v => .ok (BitVec.ofNat 32 v)
  | .error c => tfault c

/-- A lane of a state vector as the firing reads it: its own writes, its actor's pending set, the committed state (R118). -/
def stateLane (t : Tile) (f : Firing) (n l : Nat) : Except TStop Word32 :=
  match tabFind f.writes (8 * n + l) with
  | some v => .ok v
  | none =>
    match tabFind (actorSt t f.actor).pend (8 * n + l) with
    | some v => .ok v
    | none => committedLane t n l

/-- Lanes read one after another from lane `l`. -/
def stateLanes (t : Tile) (f : Firing) (n : Nat) : Nat → Nat → Except TStop Nat
  | 0, _ => .ok 0
  | left + 1, l =>
    match stateLane t f n l with
    | .error e => .error e
    | .ok v =>
      match stateLanes t f n left (l + 1) with
      | .error e => .error e
      | .ok rest => .ok (v.toNat + 2 ^ 32 * rest)

/-- What an ending firing left may not be read yet (R126). -/
def mustSettle (now : Nat) (t : Tile) : Bool := !t.ending.isEmpty || decide (now < t.readFrom)

/-- A state vector read (R118, R126, R276). -/
def readState (now : Nat) (t : Tile) (f : Firing) (n : Nat) : Except TStop Vec :=
  if mustSettle now t then .error .wait
  else
    match stateLanes t f n 8 0 with
    | .ok v => .ok (BitVec.ofNat 256 v)
    | .error e => .error e

/-! ## Selectors (R232) -/

/-- A bypass slot or a loop counter as the firing reads it (R89, R115): a stale one reads zero, or faults with 0x1C0 under STRICT. -/
def Firing.current (f : Firing) (t : Tile) (v : Vec) : Except TStop (Firing × Vec) :=
  if f.gen = t.gen then .ok (f, v) else if t.strict then tfault 0x1C0 else .ok (f, 0)

/-- A source, and the firing once it is read. -/
def readSel (now : Nat) (t : Tile) (f : Firing) (imm : BitVec 21) : Sel → Except TStop (Firing × Vec)
  | .byp n => f.current t f.byp[n]
  | .zero => .ok (f, 0)
  | .imm => .ok (f, splat (imm.signExtend 32))
  | .port p => (takeTok f p).map (fun x => (x.1, x.2.tok.pay))
  | .ctr n => f.current t (splat (BitVec.ofNat 32 f.k[n]))
  | .sv n => (readState now t f n).map (fun v => (f, v))
  | .lane => .ok (f, ofLanes (fun l => BitVec.ofNat 32 l))
  | .weight => .ok (f, splat (BitVec.ofNat 32 f.lastW))

/-- Sources read in the order A, B, C (R232). -/
def readSels (now : Nat) (t : Tile) (imm : BitVec 21) : Firing → List Sel → Except TStop (Firing × List Vec)
  | f, [] => .ok (f, [])
  | f, x :: rest =>
    match readSel now t f imm x with
    | .error e => .error e
    | .ok (f1, v) =>
      match readSels now t imm f1 rest with
      | .error e => .error e
      | .ok (f2, vs) => .ok (f2, v :: vs)

/-- A source that waits for an ending firing: a state vector (R126). -/
def selWaits : Sel → Bool
  | .sv _ => true
  | _ => false

/-- A broadcast selector (R250, R264). -/
def selBroadcast : Sel → Bool
  | .imm | .ctr _ | .weight => true
  | _ => false

/-- A selector names a port that the actor does not own. -/
def selForeign (own : BitVec 4) : Sel → Bool
  | .port p => !own.getLsbD p
  | _ => false

/-- The decode check of ports (R219, R235): 0x047 for a port of a selector or of OMSK that the actor does not own. -/
def ownsAll (a : ActorCfg) (sels : List Sel) (omsk : BitVec 4) : Bool :=
  !(sels.any (selForeign a.ownI)) && omsk &&& ~~~a.ownO = 0

/-! ## Staging (R124, R268-R270) -/

/-- The WEIGHT field of a record's tokens. -/
def weightField (kind req : Nat) : Nat := if kind = 6 then req % 65536 else Nat.min req 65535

/-- The excess ash of a record (R270). Its sequence counts from the firing's first on the port. -/
def excessTok (seq w : Nat) : Tok :=
  { pay := Ash.bits { fseq := seq, lseq := seq, cnt := 0, dw := w - 65535, uw := w - 65535, org := 0x40 }, kind := 1 }

/-- One token staged on a port; it opens a record of `kind` and requested weight or coordinates `req` when none is open
(R268). Beyond the production `po` it faults with 0x0C5. -/
def stageTok (rl po kind req : Nat) (v : Vec) (g : Stage) : Except TStop Stage :=
  let opens := g.pos = 0
  if opens && decide (po < g.recs + 1) then tfault 0x0C5
  else
    let g1 : Stage :=
      if opens then
        { g with recs := g.recs + 1, openAt := g.toks.length, kind := kind, req := req, seq := g.next, next := g.next + 1,
                 opened := true, excess := false }
      else g
    let tok : Tok := { pay := v, kind := g1.kind, weight := weightField g1.kind g1.req, first := decide (g1.pos = 0),
                       last := decide (g1.pos + 1 = rl) }
    let g2 : Stage := { g1 with toks := g1.toks ++ [tok], pos := (g1.pos + 1) % rl }
    if g2.pos = 0 ∧ g2.kind = 0 ∧ 65535 < g2.req then
      (if po < g2.recs + 1 then tfault 0x0C5
       else .ok { g2 with recs := g2.recs + 1, toks := g2.toks ++ [excessTok g2.seq g2.req], excess := true })
    else .ok g2

/-- A change of the staging of each port of a mask, o0 first. -/
def eachPort (t : Tile) (omsk : BitVec 4) (step : (rl po : Nat) → Stage → Except TStop Stage) :
    Firing → List (Fin 4) → Except TStop Firing
  | f, [] => .ok f
  | f, p :: rest =>
    if omsk.getLsbD p then
      match step (outRl t p) ((actorCfg t f).po[p]) (f.stage[p]) with
      | .error e => .error e
      | .ok g => eachPort t omsk step { f with stage := f.stage.set p g } rest
    else eachPort t omsk step f rest

def allPorts : List (Fin 4) := [0, 1, 2, 3]

/-- The bypass file with a new result (R115). -/
def pushByp (b : Vector Vec 6) (v : Vec) : Vector Vec 6 := #v[v, b[0], b[1], b[2], b[3], b[4]]

/-- A result: one token of weight 1 on each port of OMSK, then the bypass file unless KEEP (R231, R249). -/
def yield (t : Tile) (f : Firing) (out : Push) (v : Vec) : Except TStop Firing :=
  match eachPort t out.omsk (fun rl po g => stageTok rl po 0 1 v g) f allPorts with
  | .error e => .error e
  | .ok f1 => .ok (if out.keep then f1 else { f1 with byp := pushByp f1.byp v })

/-! ## Draws (R39, R256, R264) -/

/-- The draw counter as the firing sees it. -/
def drawCtr (t : Tile) (f : Firing) : BitVec 128 := f.ctr.getD (actorSt t f.actor).ctr

/-- The draw for a counter value under the actor's key. -/
def drawAt (t : Tile) (f : Firing) (v : BitVec 128) : Word32 := drawLane (actorCfg t f).kh (actorCfg t f).kl v.toNat

/-! ## Faults of a tile (R125, R191) -/

/-- An item that no firing holds any more. -/
def Item.freed : Item → Item
  | .record r a _ w => .record r a false w
  | .ash a o _ => .ash a o false
  | m => m

/-- The items a firing held at a port are free again, each in its place. -/
def unhold (held l : List Item) : List Item := held.foldl (fun l k => mapLast (fun i => i.isHeld && i.same k) Item.freed l) l

/-- A firing is undone (R125): its records and control tokens stand in their queues again, and nothing it staged remains. -/
def Tile.undo (t : Tile) (f : Firing) : Tile :=
  { t with
    ins := Vector.ofFn (fun p => { t.ins[p] with items := unhold f.held[p] (t.ins[p]).items }),
    cinHeld := Vector.ofFn (fun c => t.cinHeld[c] - (f.ctl[c]).length),
    actors := at_ t.actors f.actor (fun a => { a with count := a.count - 1 }) }

/-- The running firing undone. -/
def Tile.undoRunning (t : Tile) : Tile :=
  match t.firing with
  | none => t
  | some f => { t.undo f with firing := none }

/-- A fault record of a tile (R191). -/
def tileRecord (s : State) (x : Nat) (r : FaultRec) : State :=
  match s.groveOfSite x with
  | none => s
  | some g => s.sendRecord g { r with src := 0, clu := cluCode (siteCluster x) }

/-- A fault of the running firing (R125, R191, R235): the firing is undone, the tile stops and sends one record. -/
def firingFault (s : State) (x : Nat) (t : Tile) (f : Firing) (c : Cause) (seq sband : Nat) : State :=
  tileRecord (s.setTile x { t.undoRunning with stopped := true }) x
    { cause := c, ep := epOf x 0, act := f.actor, pc := f.pc, fcnt := (actorSt t f.actor).count, seq := seq, sband := sband }

/-- A tile instruction of the running firing: it holds issue, or faults, or leaves the firing with its issue cycles spent. -/
def tileStep (body : State → Nat → Tile → Firing → Except TStop (Tile × Firing × Nat)) (s : State) : Res :=
  let t := s.tile s.site
  match t.firing with
  | none => .next s
  | some f =>
    match body s s.site t f with
    | .error .wait => .next s
    | .error (.fault c seq sband) => .next (firingFault s s.site t f c seq sband)
    | .ok (t1, f1, n) => .next (s.setTile s.site { t1 with firing := some { f1 with busyTo := s.now + n } })

/-- The firing goes on at the next word. -/
def Firing.step (f : Firing) : Firing := { f with pc := f.pc + 1 }

/-- An instruction that reads sources and yields a result: ports are checked, the sources read, the result computed and given
out (R249). `settle`: it also reads what an ending firing leaves (R126). -/
def yielding (sels : List Sel) (imm : BitVec 21) (out : Push) (cycles : Nat) (settle : Bool)
    (op : State → Nat → Tile → Firing → List Vec → Except TStop (Firing × Vec)) (s : State) (x : Nat) (t : Tile) (f : Firing) :
    Except TStop (Tile × Firing × Nat) :=
  if !ownsAll (actorCfg t f) sels out.omsk then tfault 0x047
  else if (settle || sels.any selWaits) && mustSettle s.now t then .error .wait
  else
    match readSels s.now t imm f sels with
    | .error e => .error e
    | .ok (f1, vs) =>
      match op s x t f1 vs with
      | .error e => .error e
      | .ok (f2, v) =>
        match yield t f2 out v with
        | .error e => .error e
        | .ok f3 => .ok (t, f3.step, cycles)

/-- An instruction that yields no result. -/
def acting (sels : List Sel) (imm : BitVec 21) (omsk : BitVec 4) (cycles : Nat)
    (op : State → Nat → Tile → Firing → List Vec → Except TStop (Tile × Firing)) (s : State) (x : Nat) (t : Tile) (f : Firing) :
    Except TStop (Tile × Firing × Nat) :=
  if !ownsAll (actorCfg t f) sels omsk then tfault 0x047
  else if sels.any selWaits && mustSettle s.now t then .error .wait
  else
    match readSels s.now t imm f sels with
    | .error e => .error e
    | .ok (f1, vs) =>
      match op s x t f1 vs with
      | .error e => .error e
      | .ok (t1, f2) => .ok (t1, f2.step, cycles)

end Sys2Proof.Machine
end

