-- ==== Sys2Proof/Machine/Flags.lean ====
section
/-! DEFINITION. Flag computations: the masks of compares (R254), the clamp of SAT (R251), and the matrix status register (R140,
R293, R301). -/

namespace Sys2Proof.Machine

/-- The element width of a lane type (R250). -/
def laneW (lt : LaneType) : Nat := if lt.half then 16 else 32

/-- A lane type of two's complement integers. -/
def isSigned : LaneType → Bool
  | .i32 | .i16x2 => true
  | .n32 | .f32 | .bf16x2 | .n16x2 | .fmt => false

/-- The range of an integer lane type (R251). -/
def intLo (lt : LaneType) : Int := if isSigned lt then -(2 ^ (laneW lt - 1)) else 0
def intHi (lt : LaneType) : Int := if isSigned lt then 2 ^ (laneW lt - 1) - 1 else 2 ^ laneW lt - 1

/-- The value of an element under its type (R250). -/
def intVal (lt : LaneType) (n : Nat) : Int :=
  if isSigned lt && decide (2 ^ (laneW lt - 1) ≤ n) then (n : Int) - 2 ^ laneW lt else n

def clampInt (lo hi v : Int) : Int := if v < lo then lo else if hi < v then hi else v

/-- An exact integer delivered: clamped under SAT, else wrapped (R251). -/
def deliver (lt : LaneType) (sat : Bool) (v : Int) : Nat :=
  ((if sat then clampInt (intLo lt) (intHi lt) v else v) % 2 ^ laneW lt).toNat

/-- The mask of a compare: all ones where the test holds (R254). -/
def maskOf (lt : LaneType) (b : Bool) : Nat := if b then 2 ^ laneW lt - 1 else 0

/-! ## The matrix status register (R140) -/

def MatStat.bits (m : MatStat) : Nat := m.cl % 65536 * 2 ^ 16 + m.snan.toNat * 8 + m.inf.toNat * 4 + m.nan.toNat * 2 + m.psp.toNat

/-- Sticky flags added. -/
def MatStat.join (m k : MatStat) : MatStat :=
  { cl := Nat.min 0xFFFF (m.cl + k.cl), snan := m.snan || k.snan, inf := m.inf || k.inf, nan := m.nan || k.nan, psp := m.psp || k.psp }

/-- What a clearing mstat will clear at END: the flags it names and read as 1 (R301). -/
def MatStat.clearSet (m : MatStat) (clr : BitVec 5) : BitVec 5 :=
  clr &&& (BitVec.ofBool m.psp).setWidth 5 ||| (clr &&& ((BitVec.ofBool m.nan).setWidth 5 <<< 1))
    ||| (clr &&& ((BitVec.ofBool m.inf).setWidth 5 <<< 2)) ||| (clr &&& ((BitVec.ofBool m.snan).setWidth 5 <<< 3))

/-- Flags cleared at END, and CL lowered by the largest value read under its name (R301). -/
def MatStat.clear (m : MatStat) (clr : BitVec 5) (cl : Nat) : MatStat :=
  { cl := m.cl - cl, psp := m.psp && !clr.getLsbD 0, nan := m.nan && !clr.getLsbD 1, inf := m.inf && !clr.getLsbD 2,
    snan := m.snan && !clr.getLsbD 3 }

end Sys2Proof.Machine
end

