-- ==== Sys2Proof/Machine/Lanes.lean ====
section
/-! DEFINITION. Tile instructions that compute on lanes (R249-R264, R282): integers, bits, compares, floating point,
conversion, lane moves, reductions, constants and draws. -/

namespace Sys2Proof.Machine

/-! ## Elements (R250) -/

/-- Element h of lane l under a lane type; a 32-bit type has h = 0 only. -/
def elem (lt : LaneType) (v : Vec) (l h : Nat) : Nat :=
  if lt.half then (laneAt v l).toNat / 2 ^ (16 * h) % 2 ^ 16 else (laneAt v l).toNat

/-- A vector from its elements. -/
def perElem (lt : LaneType) (f : Nat → Nat → Nat) : Vec :=
  ofLanes (fun l =>
    if lt.half then BitVec.ofNat 32 (f l 0 % 65536 + 65536 * (f l 1 % 65536)) else BitVec.ofNat 32 (f l 0))

/-- The first, second and third source. -/
def srcA (vs : List Vec) : Vec := vs.getD 0 0
def srcB (vs : List Vec) : Vec := vs.getD 1 0
def srcC (vs : List Vec) : Vec := vs.getD 2 0

/-- The sources a lane word reads. -/
def laneSels (o : Lane) : Nat → List Sel
  | 0 => []
  | 1 => [o.sa]
  | 2 => [o.sa, o.sb]
  | _ => [o.sa, o.sb, o.sc]

/-- A lane instruction (R249, R256). `op` has the draw of an element under rsr (half 1 takes it rotated by 16 bits) and the
sources; under rsr the counter goes on by 8. -/
def laneForm (o : Lane) (arity cycles : Nat) (op : (Nat → Nat → Nat) → List Vec → Vec) :
    State → Nat → Tile → Firing → Except TStop (Tile × Firing × Nat) :=
  yielding (laneSels o arity) o.imm ⟨o.omsk, o.keep⟩ cycles (o.rnd = .rsr) (fun _ _ t f vs =>
    let c := drawCtr t f
    let d := fun l h =>
      if o.rnd = .rsr then
        (let w := drawAt t f (c + BitVec.ofNat 128 l)
         if h = 0 || o.lt ≠ .bf16x2 then w.toNat else (w.rotateLeft 16).toNat)
      else 0
    .ok ({ f with ctr := if o.rnd = .rsr then some (c + 8) else f.ctr }, op d vs))

/-! ## Integers (R251, R252, R254) -/

def intOp1 (o : Lane) (op : Int → Int) (vs : List Vec) : Vec :=
  perElem o.lt (fun l h => deliver o.lt o.sat (op (intVal o.lt (elem o.lt (srcA vs) l h))))

def intOp2 (o : Lane) (op : Int → Int → Int) (vs : List Vec) : Vec :=
  perElem o.lt (fun l h =>
    deliver o.lt o.sat (op (intVal o.lt (elem o.lt (srcA vs) l h)) (intVal o.lt (elem o.lt (srcB vs) l h))))

/-- Two elements as bits, for shifts and compares. -/
def bitsOp2 (o : Lane) (op : Nat → Nat → Nat) (vs : List Vec) : Vec :=
  perElem o.lt (fun l h => op (elem o.lt (srcA vs) l h) (elem o.lt (srcB vs) l h))

def compare (o : Lane) (test : Int → Int → Bool) (vs : List Vec) : Vec :=
  bitsOp2 o (fun a b => maskOf o.lt (test (intVal o.lt a) (intVal o.lt b))) vs

/-- The value of an element in two's complement, whatever the type (R252). -/
def twos (lt : LaneType) (n : Nat) : Int := if 2 ^ (laneW lt - 1) ≤ n then (n : Int) - 2 ^ laneW lt else n

def execTileAdd (o : Lane) (s : State) : Res := tileStep (laneForm o 2 1 (fun _ => intOp2 o (· + ·))) s
def execTileSub (o : Lane) (s : State) : Res := tileStep (laneForm o 2 1 (fun _ => intOp2 o (· - ·))) s
def execTileMul (o : Lane) (s : State) : Res := tileStep (laneForm o 2 1 (fun _ => intOp2 o (· * ·))) s
def execTileMulh (o : Lane) (s : State) : Res :=
  tileStep (laneForm o 2 1 (fun _ => intOp2 o (fun a b => a * b / 2 ^ laneW o.lt))) s
def execTileMin (o : Lane) (s : State) : Res := tileStep (laneForm o 2 1 (fun _ => intOp2 o (fun a b => if b < a then b else a))) s
def execTileMax (o : Lane) (s : State) : Res := tileStep (laneForm o 2 1 (fun _ => intOp2 o (fun a b => if a < b then b else a))) s
def execAbs (o : Lane) (s : State) : Res := tileStep (laneForm o 1 1 (fun _ => intOp1 o (fun a => (a.natAbs : Int)))) s
def execNeg (o : Lane) (s : State) : Res := tileStep (laneForm o 1 1 (fun _ => intOp1 o (fun a => -a))) s
def execShl (o : Lane) (s : State) : Res :=
  tileStep (laneForm o 2 1 (fun _ => bitsOp2 o (fun a b =>
    deliver o.lt o.sat (intVal o.lt a * 2 ^ (b % laneW o.lt))))) s
def execShr (o : Lane) (s : State) : Res := tileStep (laneForm o 2 1 (fun _ => bitsOp2 o (fun a b => a / 2 ^ (b % laneW o.lt)))) s
def execSar (o : Lane) (s : State) : Res :=
  tileStep (laneForm o 2 1 (fun _ => bitsOp2 o (fun a b =>
    (twos o.lt a / 2 ^ (b % laneW o.lt) % 2 ^ laneW o.lt).toNat))) s
def execCeq (o : Lane) (s : State) : Res := tileStep (laneForm o 2 1 (fun _ => compare o (fun a b => decide (a = b)))) s
def execCne (o : Lane) (s : State) : Res := tileStep (laneForm o 2 1 (fun _ => compare o (fun a b => decide (a ≠ b)))) s
def execClt (o : Lane) (s : State) : Res := tileStep (laneForm o 2 1 (fun _ => compare o (fun a b => decide (a < b)))) s
def execCle (o : Lane) (s : State) : Res := tileStep (laneForm o 2 1 (fun _ => compare o (fun a b => decide (a ≤ b)))) s

/-! ## Bits (R253, R254) -/

/-- The number of one bits among the lowest n. -/
def onesIn (w : Nat) : Nat → Nat
  | 0 => 0
  | n + 1 => (w.testBit n).toNat + onesIn w n

/-- Leading zero bits of the lowest n. -/
def leadZeros (w : Nat) : Nat → Nat
  | 0 => 0
  | n + 1 => if w.testBit n then 0 else 1 + leadZeros w n

def execTileAnd (o : Lane) (s : State) : Res := tileStep (laneForm o 2 1 (fun _ vs => srcA vs &&& srcB vs)) s
def execTileOr (o : Lane) (s : State) : Res := tileStep (laneForm o 2 1 (fun _ vs => srcA vs ||| srcB vs)) s
def execTileXor (o : Lane) (s : State) : Res := tileStep (laneForm o 2 1 (fun _ vs => srcA vs ^^^ srcB vs)) s
def execNotLane (o : Lane) (s : State) : Res := tileStep (laneForm o 1 1 (fun _ vs => ~~~(srcA vs))) s
def execPopc (o : Lane) (s : State) : Res :=
  tileStep (laneForm o 1 1 (fun _ vs => ofLanes (fun l => BitVec.ofNat 32 (onesIn (laneAt (srcA vs) l).toNat 32)))) s
def execClz (o : Lane) (s : State) : Res :=
  tileStep (laneForm o 1 1 (fun _ vs => ofLanes (fun l => BitVec.ofNat 32 (leadZeros (laneAt (srcA vs) l).toNat 32)))) s
def execSel (o : Lane) (s : State) : Res :=
  tileStep (laneForm o 3 1 (fun _ vs => (srcA vs &&& srcC vs) ||| (srcB vs &&& ~~~(srcC vs)))) s

/-! ## Floating point (R255-R258) -/

/-- The layout of a floating lane type. -/
def fpLane (lt : LaneType) : FloatFmt := if lt = .bf16x2 then bf16 else fp32

def fpElem (lt : LaneType) (v : Vec) (l h : Nat) : Fp := fpDecode (fpLane lt) (elem lt v l h)

/-- Results rounded once to the element format under RND (R255). -/
def fpOut (o : Lane) (d : Nat → Nat → Nat) (f : Nat → Nat → Fp) : Vec :=
  perElem o.lt (fun l h => fpEncode (fpLane o.lt) o.rnd (d l h) (f l h))

def fpOp2 (o : Lane) (op : Fp → Fp → Fp) (d : Nat → Nat → Nat) (vs : List Vec) : Vec :=
  fpOut o d (fun l h => op (fpElem o.lt (srcA vs) l h) (fpElem o.lt (srcB vs) l h))

def fpOp1 (o : Lane) (op : Fp → Fp) (d : Nat → Nat → Nat) (vs : List Vec) : Vec :=
  fpOut o d (fun l h => op (fpElem o.lt (srcA vs) l h))

/-- An operation on FP32 words applied to elements of a floating type; it keeps BF16 values in BF16. -/
def via32 (o : Lane) (op : Word32 → Word32 → Word32) (vs : List Vec) : Vec :=
  perElem o.lt (fun l h =>
    let up := fun v => if o.lt.half then bf16To32 (elem o.lt v l h) else laneAt v l
    let r := (op (up (srcA vs)) (up (srcB vs))).toNat
    if o.lt.half then r / 65536 else r)

def execFadd (o : Lane) (s : State) : Res := tileStep (laneForm o 2 1 (fpOp2 o (Fp.add o.rnd))) s
def execFsub (o : Lane) (s : State) : Res := tileStep (laneForm o 2 1 (fpOp2 o (fun a b => Fp.add o.rnd a b.neg))) s
def execFmul (o : Lane) (s : State) : Res := tileStep (laneForm o 2 1 (fpOp2 o Fp.mul)) s
def execFma (o : Lane) (s : State) : Res :=
  tileStep (laneForm o 3 1 (fun d vs => fpOut o d (fun l h =>
    Fp.add o.rnd (Fp.mul (fpElem o.lt (srcA vs) l h) (fpElem o.lt (srcB vs) l h)) (fpElem o.lt (srcC vs) l h)))) s
def execFmin (o : Lane) (s : State) : Res := tileStep (laneForm o 2 1 (fun _ => via32 o fmin32)) s
def execFmax (o : Lane) (s : State) : Res := tileStep (laneForm o 2 1 (fun _ => via32 o fmax32)) s

/-- The sign bit of each element set by a function of it. -/
def signOp (o : Lane) (g : Bool → Bool) (vs : List Vec) : Vec :=
  perElem o.lt (fun l h =>
    let n := elem o.lt (srcA vs) l h
    let m := n % 2 ^ (laneW o.lt - 1)
    if g (decide (2 ^ (laneW o.lt - 1) ≤ n)) then m + 2 ^ (laneW o.lt - 1) else m)

def execFabs (o : Lane) (s : State) : Res := tileStep (laneForm o 1 1 (fun _ => signOp o (fun _ => false))) s
def execFneg (o : Lane) (s : State) : Res := tileStep (laneForm o 1 1 (fun _ => signOp o (fun b => !b))) s

/-- A real as a value whose lowest bit stands for everything below it: it rounds as the real does, for the part's formats. -/
def stickyFp (neg : Bool) (q : Nat) (exact : Bool) (e : Int) : Fp := .fin neg (2 * q + (!exact).toNat) (e - 1)

/-- floor(√n), bit by bit. -/
def isqrtFrom (n : Nat) : Nat → Nat → Nat
  | 0, r => r
  | i + 1, r => if (r + 2 ^ i) * (r + 2 ^ i) ≤ n then isqrtFrom n i (r + 2 ^ i) else isqrtFrom n i r
def isqrt (n : Nat) : Nat := isqrtFrom n (ilog n / 2 + 1) 0

/-- 1/a (R258). -/
def rcpFp : Fp → Fp
  | .nan => .nan
  | .inf s => .fin s 0 0
  | .fin s n e =>
    if n = 0 then .inf s
    else
      let k := ilog n + 128
      stickyFp s (2 ^ k / n) (2 ^ k % n = 0) (-(k : Int) - e)

/-- 1/√a (R258). -/
def rsqFp : Fp → Fp
  | .nan => .nan
  | .inf s => if s then .nan else .fin false 0 0
  | .fin s n e =>
    if n = 0 then .inf s
    else if s then .nan
    else
      let m := if e % 2 = 0 then n else 2 * n
      let g := if e % 2 = 0 then e else e - 1
      let k := ilog m + 128
      let r := isqrt (2 ^ (2 * k) / m)
      stickyFp false r (r * r * m = 2 ^ (2 * k)) (-(k : Int) - g / 2)

/-- The fractional bits of the series below. -/
def seriesBits : Nat := 320

/-- atanh of a number z < 1 in units of 2^-320: the terms z^(2i+1)/(2i+1). -/
def atanhTerms (z2 : Nat) : Nat → Nat → Nat → Nat
  | 0, _, _ => 0
  | left + 1, i, p => p / (2 * i + 1) + atanhTerms z2 left (i + 1) (p * z2 / 2 ^ seriesBits)
def atanhFix (num den : Nat) : Nat :=
  let z := num * 2 ^ seriesBits / den
  atanhTerms (z * z / 2 ^ seriesBits) 110 0 z

/-- ln 2 in units of 2^-320. -/
def ln2Fix : Nat := 2 * atanhFix 1 3

/-- e^y for y in units of 2^-320. -/
def expTerms (y : Nat) : Nat → Nat → Nat → Nat
  | 0, _, _ => 0
  | left + 1, i, p => p + expTerms y left (i + 1) (p * y / ((i + 1) * 2 ^ seriesBits))
def expFix (y : Nat) : Nat := expTerms y 90 0 (2 ^ seriesBits)

/-- 2^a (R258): exact for integers, else from the series (log entry 15). -/
def exp2Fp : Fp → Fp
  | .nan => .nan
  | .inf s => if s then .fin false 0 0 else .inf false
  | .fin s n e =>
    let v : Int := if s then -(n : Int) else n
    let den : Nat := pow2 (-e)
    let whole : Int := clampInt (-2000) 2000 (if e < 0 then v / (den : Int) else v * (pow2 e : Int))
    let frac : Nat := if e < 0 then (v % (den : Int)).toNat else 0
    if frac = 0 then .fin false 1 whole
    else stickyFp false (expFix (ln2Fix * frac / den)) false (whole - seriesBits)

/-- log2 a (R258): exact for powers of two, else from the series (log entry 15). -/
def log2Fp : Fp → Fp
  | .nan => .nan
  | .inf s => if s then .nan else .inf false
  | .fin s n e =>
    if n = 0 then .inf true
    else if s then .nan
    else
      let top := ilog n
      let whole : Int := (top : Int) + e
      if n = 2 ^ top then .fin (whole < 0) whole.natAbs 0
      else
        let l := 2 * atanhFix (n - 2 ^ top) (n + 2 ^ top) * 2 ^ seriesBits / ln2Fix
        let v : Int := whole * 2 ^ seriesBits + l
        if 0 ≤ v then stickyFp false v.toNat false (-(seriesBits : Int))
        else .fin true (2 * v.natAbs - 1) (-(seriesBits : Int) - 1)

def execFrcp (o : Lane) (s : State) : Res := tileStep (laneForm o 1 4 (fpOp1 o rcpFp)) s
def execFrsq (o : Lane) (s : State) : Res := tileStep (laneForm o 1 4 (fpOp1 o rsqFp)) s
def execFexp2 (o : Lane) (s : State) : Res := tileStep (laneForm o 1 4 (fpOp1 o exp2Fp)) s
def execFlog2 (o : Lane) (s : State) : Res := tileStep (laneForm o 1 4 (fpOp1 o log2Fp)) s

/-! ## Conversion (R259, R260) -/

/-- The descriptor slot of a grove (R31). -/
def fmtSlot (g : Grove) (n : Nat) : Word32 := g.image.fmts.getD n 0

/-- A value rounded to an integer under a mode, unbounded. -/
def toInteger (mode : Rnd) (d : Nat) (neg : Bool) (n : Nat) (e : Int) : Int :=
  let m : Int := roundAt mode neg d n e 0
  if neg then -m else m

/-- A floating value to an integer element (R259). -/
def fpToInt (res : LaneType) (mode : Rnd) (d : Nat) (sat : Bool) : Fp → Nat
  | .nan => 0
  | .inf s => if sat then deliver res true (if s then intLo res else intHi res) else 0
  | .fin s n e => deliver res sat (toInteger mode d s n e)

/-- One element converted (R259). -/
def cvtElem (desc : Word32) (res src : LaneType) (mode : Rnd) (sat : Bool) (d n : Nat) : Nat :=
  if res = src then (if res = .fmt then n % 2 ^ descWidth desc else n)
  else
    match res, src with
    | .bf16x2, .f32 => toBf16 mode d (BitVec.ofNat 32 n)
    | .f32, .bf16x2 => (bf16To32 n).toNat
    | .f32, .fmt => (descTo32 desc n).toNat
    | .fmt, _ => descFrom32 desc mode d (BitVec.ofNat 32 n)
    | .f32, _ | .bf16x2, _ =>
      let v := intVal src n
      fpEncode (fpLane res) mode d (.fin (v < 0) v.natAbs 0)
    | _, .f32 => fpToInt res mode d sat (fpDecode fp32 n)
    | _, .bf16x2 => fpToInt res mode d sat (fpDecode bf16 n)
    | _, _ => deliver res sat (intVal src n)

/-- cvt of whole vectors: the mapping of elements (R259). -/
def cvtVec (desc : Word32) (o : Lane) (d : Nat → Nat → Nat) (vs : List Vec) : Vec :=
  let src := (laneTypeOf o.xa.toNat).getD .i32
  perElem o.lt (fun l h =>
    let n :=
      if o.lt.half && !src.half then elem src (if h = 0 then srcA vs else srcB vs) l 0
      else if !o.lt.half && src.half then elem src (srcA vs) l (o.imm.toNat % 2)
      else elem src (srcA vs) l h
    cvtElem desc o.lt src o.rnd o.sat (d l h) n)

/-- A lane word that may name a descriptor: an empty one faults with 0x081 (R46). -/
def fmtForm (o : Lane) (arity : Nat) (names : Bool) (op : Word32 → (Nat → Nat → Nat) → List Vec → Vec) (s : State) (x : Nat)
    (t : Tile) (f : Firing) : Except TStop (Tile × Firing × Nat) :=
  let desc := fmtSlot (siteGrove s x) o.fmtx
  if names && desc = 0 then (if ownsAll (actorCfg t f) (laneSels o arity) o.omsk then tfault 0x081 else tfault 0x047)
  else laneForm o arity 1 (op desc) s x t f

def execCvt (o : Lane) (s : State) : Res :=
  let src := (laneTypeOf o.xa.toNat).getD .i32
  tileStep (fmtForm o (cvtArity o.lt src) (o.lt = .fmt || src = .fmt) (fun desc => cvtVec desc o)) s

/-- An integer converted to a code of a descriptor (R37). -/
def descFromInt (desc : Word32) (mode : Rnd) (d : Nat) (v : Int) : Nat :=
  if descE desc = 0 then
    (let lo : Int := if descS desc = 1 then -(2 ^ (descWidth desc - 1)) else 0
     let hi : Int := if descS desc = 1 then 2 ^ (descWidth desc - 1) - 1 else 2 ^ descWidth desc - 1
     (clampInt lo hi v % 2 ^ descWidth desc).toNat)
  else fpEncode (descFloat desc) mode d (.fin (v < 0) v.natAbs 0)

/-- j and h of pkn and upn (R260). -/
def packJ (o : Lane) : Nat := o.imm.toNat % 32
def packH (o : Lane) : Nat := o.imm.toNat / 32 % 2

/-- The code pkn makes of lane l (R260): of a bf16x2 half 1, with the draw of R256 rotated; of an integer, with the lane's draw. -/
def pknCode (desc : Word32) (o : Lane) (d : Nat → Nat → Nat) (a : Vec) (l : Nat) : Nat :=
  let h := if o.lt.half then packH o else 0
  let n := elem o.lt a l h
  match o.lt with
  | .fmt => n % 2 ^ descWidth desc
  | .f32 => descFrom32 desc o.rnd (d l h) (BitVec.ofNat 32 n)
  | .bf16x2 => descFrom32 desc o.rnd (d l h) (bf16To32 n)
  | lt => descFromInt desc o.rnd (d l 0) (intVal lt n)

/-- Bits [p+n-1 : p] of a vector replaced; bits past 255 are dropped. -/
def putBits (v : Vec) (p n c : Nat) : Vec :=
  BitVec.ofNat 256 (v.toNat - v.toNat / 2 ^ p % 2 ^ n * 2 ^ p + c % 2 ^ n * 2 ^ p)

def pknVec (desc : Word32) (o : Lane) (d : Nat → Nat → Nat) (vs : List Vec) : Vec :=
  let n := descWidth desc
  (List.range 8).foldl (fun v l => putBits v (8 * n * packJ o + n * l) n (pknCode desc o d (srcA vs) l)) (srcB vs)

/-- The value upn gives a code (R260). -/
def upnElem (desc : Word32) (lt : LaneType) (c : Nat) : Nat :=
  match lt with
  | .fmt => c
  | .f32 => (descTo32 desc c).toNat
  | .bf16x2 => toBf16 .rne 0 (descTo32 desc c)
  | lt => (roundInt .rne 0 (intLo lt) (intHi lt) (descValue desc c) % 2 ^ laneW lt).toNat

def upnVec (desc : Word32) (o : Lane) (_ : Nat → Nat → Nat) (vs : List Vec) : Vec :=
  let n := descWidth desc
  ofLanes (fun l =>
    let c := (srcA vs).toNat / 2 ^ (8 * n * packJ o + n * l) % 2 ^ n
    let r := upnElem desc o.lt c
    if o.lt.half then
      (let b := (laneAt (srcB vs) l).toNat
       BitVec.ofNat 32 (if packH o = 0 then b / 65536 * 65536 + r else b % 65536 + r * 65536))
    else BitVec.ofNat 32 r)

def execPkn (o : Lane) (s : State) : Res := tileStep (fmtForm o 2 true (fun desc => pknVec desc o)) s
def execUpn (o : Lane) (s : State) : Res :=
  tileStep (fmtForm o (if o.lt.half then 2 else 1) true (fun desc => upnVec desc o)) s

/-! ## Lane moves, reductions, constants, draws (R261-R264) -/

def laneNo (v : Vec) (l : Nat) : Nat := (laneAt v l).toNat % 8

def execBcast (o : Lane) (s : State) : Res := tileStep (laneForm o 2 1 (fun _ vs => splat (laneAt (srcA vs) (laneNo (srcB vs) 0)))) s
def execPerm (o : Lane) (s : State) : Res :=
  tileStep (laneForm o 2 1 (fun _ vs => ofLanes (fun l => laneAt (srcA vs) (laneNo (srcB vs) l)))) s
def execLrot (o : Lane) (s : State) : Res :=
  tileStep (laneForm o 2 1 (fun _ vs => ofLanes (fun l => laneAt (srcA vs) ((l + laneNo (srcB vs) 0) % 8)))) s

/-- The fixed tree over 8 lanes; `op` has the node's number, 0-6 (R262). -/
def laneTree (op : Nat → Word32 → Word32 → Word32) (a : Vec) : Vec :=
  let n1 := fun i => op i (laneAt a (2 * i)) (laneAt a (2 * i + 1))
  let n2 := fun i => op (4 + i) (n1 (2 * i)) (n1 (2 * i + 1))
  splat (op 6 (n2 0) (n2 1))

/-- A lane reduction by the type's order: the greater, or the lesser. -/
def orderOp (lt : LaneType) (greater : Bool) (a b : Word32) : Word32 :=
  match lt with
  | .f32 => if greater then fmax32 a b else fmin32 a b
  | _ => if decide (intVal lt a.toNat < intVal lt b.toNat) = greater then b else a

def execRadd (o : Lane) (s : State) : Res :=
  tileStep (laneForm o 1 2 (fun d vs =>
    laneTree (fun i a b =>
      if o.lt = .f32 then to32 o.rnd (d i 0) (Fp.add o.rnd (fpOf32 a) (fpOf32 b)) else a + b) (srcA vs))) s
def execRmax (o : Lane) (s : State) : Res := tileStep (laneForm o 1 2 (fun _ vs => laneTree (fun _ => orderOp o.lt true) (srcA vs))) s
def execRmin (o : Lane) (s : State) : Res := tileStep (laneForm o 1 2 (fun _ vs => laneTree (fun _ => orderOp o.lt false) (srcA vs))) s

/-- const (R263). -/
def execConstLane (omsk : BitVec 4) (v : Word32) (s : State) : Res :=
  tileStep (yielding [] 0 ⟨omsk, false⟩ 1 false (fun _ _ _ f _ => .ok (f, splat v))) s

/-- draw (R264). -/
def execDraw (o : Lane) (s : State) : Res :=
  tileStep (yielding [o.sa] o.imm ⟨o.omsk, o.keep⟩ 2 true (fun _ _ t f vs =>
    let base : BitVec 128 := if selBroadcast o.sa then (laneAt (srcA vs) 0).setWidth 128 else (srcA vs).setWidth 128
    let c := drawCtr t f + base
    .ok ({ f with ctr := some (c + 8) }, ofLanes (fun l => drawAt t f (c + BitVec.ofNat 128 l))))) s

/-- treeadd (R282): two partials taken from ports are siblings, else 0x0C9. -/
def execTreeadd (o : Lane) (s : State) : Res :=
  tileStep (fun s x t f =>
    let coords := fun (f : Firing) (sel : Sel) =>
      match sel with
      | .port p => (nextTok f p).bind (fun n => if n.tok.kind = 6 then some (n.wf / 4096 % 16, n.wf % 4096) else none)
      | _ => none
    let a := coords f o.sa
    let f1 := match readSel s.now t f o.imm o.sa with
      | .ok y => y.1
      | .error _ => f
    let b := coords f1 o.sb
    let apart := match a, b with
      | some (la, ia), some (lb, ib) => la ≠ lb || ia % 2 ≠ 0 || ib ≠ ia + 1
      | _, _ => false
    yielding [o.sa, o.sb] o.imm ⟨o.omsk, o.keep⟩ 1 false (fun _ _ _ f vs =>
      if apart then tfault 0x0C9 else .ok (f, laneMap2 add32 (srcA vs) (srcB vs))) s x t f) s

end Sys2Proof.Machine
end

