-- ==== Sys2Proof/Machine/Records.lean ====
section
/-! DEFINITION. Tile instructions on records, state, tile store and control (R267-R287), and the tokens of a tmove (R281). -/

namespace Sys2Proof.Machine

/-- A port or control port that an instruction names must be the actor's (R267): 0x047. -/
def guarded (own : ActorCfg → BitVec 4) (p : Fin 4) (body : State → Nat → Tile → Firing → Except TStop (Tile × Firing × Nat))
    (s : State) (x : Nat) (t : Tile) (f : Firing) : Except TStop (Tile × Firing × Nat) :=
  if (own (actorCfg t f)).getLsbD p then body s x t f else tfault 0x047

/-- Lane 0 as n32. -/
def lane0 (v : Vec) : Nat := (laneAt v 0).toNat

/-- All lanes zero but those given. -/
def lanesOf (l : List Nat) : Vec := ofLanes (fun i => BitVec.ofNat 32 (l.getD i 0))

/-! ## Emitting (R268-R272) -/

/-- emit and emit.p: a weight of 0 at a record's first token faults with 0x0C6 (R269). -/
def emitForm (partial_ : Bool) (a b : Sel) (omsk : BitVec 4) (imm : BitVec 21) : State → Nat → Tile → Firing →
    Except TStop (Tile × Firing × Nat) :=
  acting [a, b] imm omsk 1 (fun _ _ t f vs =>
    let w := lane0 (srcB vs)
    (eachPort t omsk (fun rl po g =>
      if !partial_ && g.pos = 0 && w = 0 then tfault 0x0C6
      else stageTok rl po (if partial_ then 6 else 0) (if partial_ then w % 65536 else w) (srcA vs) g) f allPorts).map (fun f1 => (t, f1)))

def execEmit (a b : Sel) (omsk : BitVec 4) (imm : BitVec 21) (s : State) : Res := tileStep (emitForm false a b omsk imm) s
def execEmitP (a b : Sel) (omsk : BitVec 4) (imm : BitVec 21) (s : State) : Res := tileStep (emitForm true a b omsk imm) s

/-- The tokens of the last record opened take another weight field (R271). -/
def reweigh (g : Stage) (rl w : Nat) : List Tok :=
  let n := if g.pos = 0 then rl else g.pos
  (List.range g.toks.length).map (fun i =>
    let k := g.toks.getD i {}
    if g.openAt ≤ i ∧ i < g.openAt + n then { k with weight := Nat.min w 65535 } else k)

/-- setw on a port's staging: the weight replaced, and the excess ash inserted, changed or removed to match (R271). -/
def setWeightOf (rl po w : Nat) (g : Stage) : Except TStop Stage :=
  if !g.opened || g.kind ≠ 0 then tfault 0x0C8
  else if w = 0 then tfault 0x0C6
  else
    let toks := reweigh g rl w
    let g1 : Stage := { g with req := w, toks := toks }
    let at_ := g.openAt + rl
    let rest := if g.excess then toks.drop (at_ + 1) else toks.drop at_
    if g.pos ≠ 0 then .ok g1
    else if 65535 < w then
      (if g.excess then .ok { g1 with toks := toks.take at_ ++ [excessTok g.seq w] ++ rest }
       else if po < g.recs + 1 then tfault 0x0C5
       else .ok { g1 with toks := toks.take at_ ++ [excessTok g.seq w] ++ rest, recs := g.recs + 1, excess := true })
    else if g.excess then .ok { g1 with toks := toks.take at_ ++ rest, recs := g.recs - 1, excess := false }
    else .ok g1

def execSetw (p : Fin 4) (a : Sel) (imm : BitVec 21) (s : State) : Res :=
  tileStep (guarded (·.ownO) p (acting [a] imm 0 1 (fun _ _ t f vs =>
    (setWeightOf (outRl t p) ((actorCfg t f).po[p]) (lane0 (srcA vs)) f.stage[p]).map (fun g =>
      (t, { f with stage := f.stage.set p g }))))) s

/-- The ash that `ash` builds from its source (R272). -/
def ashFields (v : Vec) : Ash :=
  let l := fun i => (laneAt v i).toNat
  { cnt := l 0, dw := l 1 + l 2 % 65536 * 2 ^ 32, uw := l 3 + l 4 % 65536 * 2 ^ 32, org := BitVec.ofNat 8 (l 5) }

/-- An ash token staged (R272). -/
def stageAsh (a : Ash) (po : Nat) (g : Stage) : Except TStop Stage :=
  if a.cnt = 0 || a.dw < a.uw then tfault 0x0C6
  else if g.pos ≠ 0 then tfault 0x0C7
  else if po < g.recs + 1 then tfault 0x0C5
  else
    let k : Tok := { pay := Ash.bits { a with fseq := g.next, lseq := g.next + a.cnt - 1 }, kind := 1 }
    .ok { g with toks := g.toks ++ [k], recs := g.recs + 1, next := g.next + a.cnt }

def execAsh (a : Sel) (omsk : BitVec 4) (s : State) : Res :=
  tileStep (acting [a] 0 omsk 1 (fun _ _ t f vs =>
    (eachPort t omsk (fun _ po g => stageAsh (ashFields (srcA vs)) po g) f allPorts).map (fun f1 => (t, f1)))) s

/-! ## Reading records (R273-R275) -/

def execKind (p : Fin 4) (out : Push) (s : State) : Res :=
  tileStep (guarded (·.ownI) p (yielding [] 0 out 1 false (fun _ _ _ f _ =>
    .ok (f, splat (BitVec.ofNat 32 (match nextTok f p with
      | some n => n.tok.kind
      | none => 15)))))) s

def execWgt (p : Fin 4) (out : Push) (s : State) : Res :=
  tileStep (guarded (·.ownI) p (yielding [] 0 out 1 false (fun _ _ _ f _ =>
    .ok (f, match nextTok f p with
      | some n => lanesOf [n.wf, n.seq, n.pos, n.left]
      | none => 0)))) s

/-- The window counters as lanes (R275). -/
def windowLanes (a : ActorSt) : Vec := lanesOf [a.wc % 2 ^ 32, a.wc / 2 ^ 32, a.wl]

def execWcr (out : Push) (s : State) : Res :=
  tileStep (yielding [] 0 out 1 true (fun _ _ t f _ => .ok (f, windowLanes (actorSt t f.actor)))) s
def execWcc (out : Push) (s : State) : Res :=
  tileStep (yielding [] 0 out 1 true (fun _ _ t f _ => .ok ({ f with wcc := true }, windowLanes (actorSt t f.actor)))) s

/-! ## State vectors (R276, R277) -/

def execSvr (a : Sel) (out : Push) (s : State) : Res :=
  tileStep (yielding [a] 0 out 1 true (fun s _ t f vs =>
    (readState s.now t f (lane0 (srcA vs) % 8)).map (fun v => (f, v)))) s

/-- The lanes of a mask written into a firing's own writes (R277). -/
def writeLanes (w : Tab Word32) (n : Nat) (mask : BitVec 8) (v : Vec) : Tab Word32 :=
  (List.range 8).foldl (fun w l => if mask.getLsbD l then tabPut w (8 * n + l) (laneAt v l) else w) w

/-- svw: the mask is IMM[7:0], so an immediate source reads it (R232, R242). -/
def execSvw (a : Sel) (n : Fin 8) (mask : BitVec 8) (s : State) : Res :=
  tileStep (acting [a] (mask.setWidth 21) 0 1 (fun _ _ t f vs => .ok (t, { f with writes := writeLanes f.writes n mask (srcA vs) }))) s

/-! ## Tile store (R278-R280) -/

/-- The checks of an address (R278), in their order. -/
def storeAddr (base off size : Nat) : Except TStop Nat :=
  let a := (base + off) % 2 ^ 32
  if off % size ≠ 0 || a % size ≠ 0 then tfault 0x1C6
  else if 0x20000 ≤ a then tfault 0x1C1
  else if stateBase ≤ a then tfault 0x1C2
  else .ok a

/-- A read of the tile's store, its cause as a fault of the firing. -/
def tileRead (t : Tile) (a n : Nat) : Except TStop Nat :=
  match t.read a n with
  | .ok v => .ok v
  | .error c => tfault c

/-- The lanes of a mask; the others zero. -/
def maskLanes (mask : BitVec 8) (v : Vec) : Vec := ofLanes (fun l => if mask.getLsbD l then laneAt v l else 0)

def execTld (a : Sel) (st : StoreOp) (out : Push) (s : State) : Res :=
  tileStep (yielding [a] 0 out 1 false (fun s _ t f vs =>
    match storeAddr (lane0 (srcA vs)) st.off.toNat 32 with
    | .error e => .error e
    | .ok ad => (tileRead (t.before s.now) ad 32).map (fun v => (f, maskLanes st.mask (BitVec.ofNat 256 v))))) s

/-- The lanes of a mask written at an address by the firing: all eight as one whole word. -/
def putLanes (t : Tile) (now ad : Nat) (mask : BitVec 8) (v : Vec) : Tile :=
  if mask = 0xFF then t.put now rankTst ad 32 v.toNat false
  else (List.range 8).foldl (fun t l => if mask.getLsbD l then t.put now rankTst (ad + 4 * l) 4 (laneAt v l).toNat false else t) t

def execTst (a b : Sel) (st : StoreOp) (s : State) : Res :=
  tileStep (acting [a, b] 0 0 1 (fun s _ t f vs =>
    (storeAddr (lane0 (srcB vs)) st.off.toNat 32).map (fun ad => (putLanes t s.now ad st.mask (srcA vs), f)))) s

/-- The lanes of a tldx from lane `l`, lowest first: the addresses of the mask's lanes are checked, and where the mask is 0 those of all lanes (R278,
R280; DEDUCED, log entry 87); the mask's lanes are read. -/
def gatherLanes (t : Tile) (off : Nat) (mask : BitVec 8) (a : Vec) : Nat → Nat → Except TStop Nat
  | 0, _ => .ok 0
  | left + 1, l =>
    let here : Except TStop Nat :=
      if mask.getLsbD l || mask = 0 then
        (match storeAddr (laneAt a l).toNat off 4 with
         | .error e => .error e
         | .ok ad => if mask.getLsbD l then tileRead t ad 4 else .ok 0)
      else .ok 0
    match here with
    | .error e => .error e
    | .ok v => (gatherLanes t off mask a left (l + 1)).map (fun rest => v + 2 ^ 32 * rest)

def execTldx (a : Sel) (st : StoreOp) (out : Push) (s : State) : Res :=
  tileStep (yielding [a] 0 out 2 false (fun s _ t f vs =>
    if st.off.toNat % 4 ≠ 0 then tfault 0x1C6
    else (gatherLanes (t.before s.now) st.off.toNat st.mask (srcA vs) 8 0).map (fun v => (f, BitVec.ofNat 256 v)))) s

/-! ## tmove (R85, R281) -/

/-- The neighbour a tmove may reach (R85): the next site on a side, a tile of the same grove, bound by an mv track. -/
def moveTarget (s : State) (x dir : Nat) : Option Nat :=
  match neighbour x dir 1 with
  | none => none
  | some y =>
    if siteIsSlice y || s.groveOfSite y ≠ s.groveOfSite x then none
    else if (sinksOf s x 0x44).any (fun k => k.1 = y && k.2.1 = 0x45) then some y
    else none

/-- The sides as numbers, N to W. -/
def sideNo (dir : Fin 4) : Nat := dir

/-- A range past the store's end, then one that touches the state area (R281). -/
def moveRange (src dst len : Nat) : Option Cause :=
  if 0x20000 < src + len || 0x20000 < dst + len then some 0x1C1
  else if stateBase < src + len || stateBase < dst + len then some 0x1C2
  else none

/-- Token at byte `off` of a tmove's source: its value, or poison; a stale granule under STRICT faults (R89, R93). -/
def moveRead (t : Tile) (off : Nat) : Except Cause (Nat × Bool) :=
  match t.read off 32 with
  | .ok v => .ok (v, false)
  | .error c => if c = 0x1C3 then .ok (0, true) else .error c

def execTmove (o : TmoveOp) (s : State) : Res :=
  let imm : BitVec 21 := BitVec.ofNat 21 (o.immHi.toNat * 4 + o.cin)
  tileStep (fun s x t f =>
    if !ownsAll (actorCfg t f) [o.src, o.dst, o.len] 0 then tfault 0x047
    else if t.mover.isSome then .error .wait
    else
      acting [o.src, o.dst, o.len] imm 0 1 (fun s x t f vs =>
        let src := lane0 (srcA vs)
        let dst := lane0 (srcB vs)
        let len := lane0 (srcC vs)
        if (moveTarget s x (sideNo o.dir)).isNone then tfault 0x1C4
        else if src % 32 ≠ 0 || dst % 32 ≠ 0 || len = 0 || len % 32 ≠ 0 then tfault 0x1C6
        else
          match moveRange src dst len with
          | some c => tfault c
          | none =>
            let m : Mover := { src := src, dst := dst, len := len, dir := sideNo o.dir, notify := if o.notify then some o.cin else none,
                               actor := f.actor, pc := f.pc, since := s.nextId }
            if s.halos.any (fun h => h.from_ = x) then .ok ({ t with mover := some { m with idle := true } }, f)
            else
              match moveRead (t.before s.now) src with
              | .error c => tfault c
              | .ok (v, bad) => .ok ({ t with mover := some { m with fly := v, bad := bad, due := s.now + 1 } }, f)) s x t f) s

/-- The actor that owns a port of its tile (R219), if any. -/
def ownerOf (t : Tile) (own : ActorCfg → BitVec 4) (p : Nat) : Option Nat :=
  (List.range 8).find? (fun i => (((t.cfg.actors[i]?).getD none).map (fun a => (own a).getLsbD p)).getD false)

/-- The tile stops at a fault of one of its ports (R113, R191): the running firing is undone and a record sent, which names the actor that owns
the port (log entry 23). -/
def portFault (s : State) (x : Nat) (p : Nat) (owner : Option Nat) (seq sband : Nat) : Option Cause → State
  | none => s
  | some c =>
    tileRecord (s.setTile x { (s.tile x).undoRunning with stopped := true }) x
      { cause := c, ep := epOf x p, act := owner.getD 0, fcnt := (owner.map (fun i => (actorSt (s.tile x) i).count)).getD 0,
        seq := seq, sband := sband }

/-- A control token queued at a control input (R69): one that would need a ninth entry stops the tile with 0x0F0, and is recorded in the fault record,
by its bit and its input, and not queued. -/
def pushCtl (s : State) (x : Nat) (c : Nat) (b : Bool) : State :=
  let t := s.tile x
  match runPush ((t.cin[c]?).getD []) b with
  | some q => s.setTile x { t with cin := at_ t.cin c (fun _ => q), cinNew := at_ t.cinNew c (fun k => (s.now, if k.1 = s.now then k.2 + 1 else 1)) }
  | none => portFault s x c (ownerOf t (·.ownC) c) 0 b.toNat (some 0x0F0)

/-- The next token of a tmove is read and sent; a fault of that read ends the copy and stops the tile (R281). -/
def moverSend (s : State) (site : Nat) (m : Mover) : State :=
  let t := s.tile site
  match moveRead (t.before s.now) (m.src + m.done) with
  | .ok (v, bad) => s.setTile site { t with mover := some { m with fly := v, bad := bad, due := s.now + 1, idle := false } }
  | .error c =>
    tileRecord (s.setTile site { t.undoRunning with mover := none, stopped := true }) site
      { cause := c, ep := epOf site 0, act := m.actor, pc := m.pc, fcnt := (actorSt t m.actor).count }

/-- TMOVE_TOKEN_LAND: the token on its way is written at the neighbour; the next one is read, or the copy is at its end and
notifies the neighbour (R281). A tmove behind a shalo of its tile sends its first token once that has sent its last (R328). -/
def execTmoveTokenLand (site : Nat) (s : State) : Res :=
  .next
    (let t := s.tile site
     match t.mover, t.mover.bind (fun m => neighbour site m.dir 1) with
     | some m, some y =>
       if s.now < m.due then s
       else if m.idle then (if s.halos.any (fun h => h.from_ = site && decide (h.id < m.since)) then s else moverSend s site m)
       else
         let s1 := s.setTile y ((s.tile y).put s.now (rankSide ((m.dir + 2) % 4)) (m.dst + m.done) 32 m.fly m.bad)
         let t1 := s1.tile site
         if m.len ≤ m.done + 32 then
           let s2 := s1.setTile site { t1 with mover := none }
           (match m.notify with
            | none => s2
            | some c => pushCtl s2 y c true)
         else moverSend s1 site { m with done := m.done + 32 }
     | _, _ => s)

/-! ## Control (R283-R287) -/

def execCtok (q : Fin 4) (a : Sel) (imm : BitVec 21) (s : State) : Res :=
  tileStep (guarded (·.ownQ) q (acting [a] imm 0 1 (fun _ _ t f vs =>
    if 32 ≤ (f.qout[q]).length then tfault 0x0F2
    else .ok (t, { f with qout := f.qout.set q (f.qout[q] ++ [decide (lane0 (srcA vs) ≠ 0)]) })))) s

/-- A branch taken spends two cycles, one not taken spends one (R116). -/
def branchTo (t : Tile) (f : Firing) (taken : Bool) (target : BitVec 9) : Except TStop (Tile × Firing × Nat) :=
  if taken then .ok (t, { f with pc := target.toNat }, 2) else .ok (t, f.step, 1)

def execBr (tgt : BitVec 9) (s : State) : Res := tileStep (fun _ _ t f => branchTo t f true tgt) s

/-- The next held control token of an input is read (R123, R284): beyond the holding 0x0F1. -/
def takeCtl (f : Firing) (c : Fin 4) : Except TStop (Firing × Bool) :=
  match (f.ctl[c])[f.ci[c]]? with
  | none => tfault 0x0F1
  | some b => .ok ({ f with ci := f.ci.set c (f.ci[c] + 1) }, b)

def execBc (c : Fin 4) (v : Bool) (tgt : BitVec 9) (s : State) : Res :=
  tileStep (guarded (·.ownC) c (fun _ _ t f =>
    match takeCtl f c with
    | .error e => .error e
    | .ok (f1, b) => branchTo t f1 (b = v) tgt)) s

def lanesAny (v : Vec) : Bool := (List.range 8).any (fun l => laneAt v l ≠ 0)
def lanesAll (v : Vec) : Bool := (List.range 8).all (fun l => laneAt v l ≠ 0)

/-- A branch on a test of a bypass slot (R89, R284). -/
def branchOn (test : Vec → Bool) (n : Fin 6) (tgt : BitVec 9) (s : State) : Res :=
  tileStep (fun _ _ t f =>
    match f.current t f.byp[n] with
    | .error e => .error e
    | .ok (f1, v) => branchTo t f1 (test v) tgt) s

def execBany (n : Fin 6) (tgt : BitVec 9) (s : State) : Res := branchOn lanesAny n tgt s
def execBall (n : Fin 6) (tgt : BitVec 9) (s : State) : Res := branchOn lanesAll n tgt s

/-- The chained decrement of loop (R285) over the counters from `n`, `left` of them: the counters, and whether it branches. -/
def loopRun (reload : Vector Nat 4) : Nat → Nat → Vector Nat 4 → Vector Nat 4 × Bool
  | 0, _, k => (k, false)
  | left + 1, n, k =>
    let v := ((k[n]?).getD 0 + 65535) % 65536
    if v ≠ 0 then (at_ k n (fun _ => v), true)
    else loopRun reload left (n + 1) (at_ k n (fun _ => (reload[n]?).getD 0))

def execLoop (n m : Fin 4) (tgt : BitVec 9) (s : State) : Res :=
  tileStep (fun _ _ t f =>
    let r := loopRun (actorCfg t f).k (m.val + 1 - n.val) n f.k
    branchTo t { f with k := r.1 } r.2 tgt) s

/-- end (R268, R286): an open record faults with 0x0C7; else the firing is over, and its end cycle falls five cycles later. -/
def execEndFiring (s : State) : Res :=
  .next
    (let t := s.tile s.site
     match t.firing with
     | none => s
     | some f =>
       if allPorts.any (fun p => (f.stage[p]).pos ≠ 0) then firingFault s s.site t f 0x0C7 0 0
       else
         s.setTile s.site { t with
           firing := none, ending := t.ending ++ [{ f.step with endAt := some (s.now + 5) }], nextAt := s.now + 1 })

/-- trap (R287): the code stands in the record's SEQ. -/
def execTileTrap (code : BitVec 16) (s : State) : Res := tileStep (fun _ _ _ _ => .error (.fault 0x0E0 code.toNat 0)) s

/-- A grove halted for Huash, with the line it prints (R213). -/
def haltGrove (s : State) (g : Nat) (line : Line) : State :=
  let x := s.grove g
  let s1 := if x.run = .halted then s else s.setGrove g { x with run := .halted, was := x.run, haltedAt := some s.now }
  { s1 with huash := { s1.huash with lines := s1.huash.lines ++ [line] } }

/-- brk (R287): while a Huash session is attached the grove halts once it has issued. -/
def execBrk (code : BitVec 16) (s : State) : Res :=
  let r := tileStep (fun _ _ t f => .ok (t, f.step, 1)) s
  match s.groveOfSite s.site, (s.tile s.site).firing with
  | some g, some f =>
    if s.huash.attached then
      (match r with
       | .next s1 => .next (haltGrove s1 g { cmd := "brk", vals := [s.site, f.actor, f.pc, code.toNat] })
       | other => other)
    else r
  | _, _ => r

def execNop (s : State) : Res := tileStep (fun _ _ t f => .ok (t, f.step, 1)) s

/-- An opcode that no row names: 0x040 (R235). -/
def execUnassignedTileOpcode (s : State) : Res := tileStep (fun _ _ _ _ => tfault 0x040) s

end Sys2Proof.Machine
end

