-- ==== Sys2Proof/Machine/MatrixIssue.lean ====
section
/-! DEFINITION. Matrix instructions at issue (R131, R289, R298-R302): commands staged by a firing, and the three that act at
once. -/

namespace Sys2Proof.Machine

/-- A command staged; a ninth faults with 0x143 (R131). -/
def stageCmd (op : MatOp) (_ : State) (_ : Nat) (t : Tile) (f : Firing) : Except TStop (Tile × Firing × Nat) :=
  if 8 ≤ f.cmds.length then tfault 0x143
  else .ok (t, { f.step with cmds := f.cmds ++ [{ op := op, actor := f.actor }] }, 1)

/-- The slots of mma.c (R289): X is even and Y = X + 1. -/
def evenSlot (h : Fin 4) : Fin 8 := Fin.ofNat 8 (2 * h.val)
def oddSlot (h : Fin 4) : Fin 8 := Fin.ofNat 8 (2 * h.val + 1)

def execClaim (n : Fin 8) (s : State) : Res := tileStep (stageCmd (.claim n)) s
def execReleaseSlot (n : Fin 8) (s : State) : Res := tileStep (stageCmd (.release n)) s
def execMma (o : MmaOp) (s : State) : Res := tileStep (stageCmd (.mma o.acc o.x o.y o.kl.toNat o.kh.toNat)) s
def execMmaC (o : MmaCOp) (s : State) : Res :=
  let kl := o.klh.toNat * 256
  tileStep (stageCmd (.mmac o.acc (evenSlot o.xh) (oddSlot o.xh) kl (kl + o.len.toNat + 1) o.j.toNat)) s
def execMmas (acc : Fin 4) (x y : Fin 8) (s : State) : Res := tileStep (stageCmd (.mmas acc x y)) s
def execAzero (acc : Fin 4) (s : State) : Res := tileStep (stageCmd (.azero acc)) s
def execAload (acc : Fin 4) (off : BitVec 17) (s : State) : Res := tileStep (stageCmd (.aload acc off.toNat)) s

/-- The ports PM0-PM3 name together (R218, R299). -/
def steerPorts (t : Tile) : BitVec 4 := t.cfg.pm[0] ||| t.cfg.pm[1] ||| t.cfg.pm[2] ||| t.cfg.pm[3]

/-- A drain counts its records against the productions of its port set, then it is staged (R299). -/
def drainForm (acc : Fin 4) (st : Bool) (mask : BitVec 4) (s : State) (x : Nat) (t : Tile) (f : Firing) :
    Except TStop (Tile × Firing × Nat) :=
  if !st && !ownsAll (actorCfg t f) [] mask then tfault 0x047
  else if 8 ≤ f.cmds.length then tfault 0x143
  else
    match eachPort t (if st then steerPorts t else mask)
        (fun rl po g => if po < g.recs + 32 / rl then tfault 0x0C5 else .ok { g with recs := g.recs + 32 / rl }) f allPorts with
    | .error e => .error e
    | .ok f1 => stageCmd (.drain acc st mask) s x t f1

def execDrain (acc : Fin 4) (omsk : BitVec 4) (s : State) : Res := tileStep (drainForm acc false omsk) s
def execDrainSteer (acc : Fin 4) (s : State) : Res := tileStep (drainForm acc true 0) s

/-- steer: two held control tokens, the first as bit 1 (R298). -/
def execSteer (a b : Fin 4) (s : State) : Res :=
  tileStep (guarded (·.ownC) a (guarded (·.ownC) b (fun s x t f =>
    match takeCtl f a with
    | .error e => .error e
    | .ok (f1, hi) =>
      match takeCtl f1 b with
      | .error e => .error e
      | .ok (f2, lo) => stageCmd (.steer (BitVec.ofNat 2 (2 * hi.toNat + lo.toNat))) s x t f2))) s

/-- cutb: the bound triple; a stale one reads zero (R297, R300, R303; log entry 17). -/
def execCutb (n : Fin 8) (out : Push) (s : State) : Res :=
  tileStep (yielding [] 0 out 1 false (fun _ _ t f _ =>
    let b := t.bounds[n]
    .ok (f, if b.gen = t.gen then lanesOf [b.lo, b.hi, b.n % 4096] else 0))) s

/-- MS as it stands: the flags of a running command count from its last array cycle (R293, R301). -/
def matStatus (now : Nat) (t : Tile) : MatStat :=
  match t.run with
  | some r => if r.flagsAt ≤ now then t.ms.join r.flags else t.ms
  | none => t.ms

def execMstat (clr : BitVec 5) (out : Push) (s : State) : Res :=
  tileStep (yielding [] 0 out 1 false (fun s _ t f _ =>
    let m := matStatus s.now t
    .ok ({ f with msClr := f.msClr ||| m.clearSet clr, clMax := if clr.getLsbD 4 then Nat.max f.clMax m.cl else f.clMax },
         lanesOf [m.bits]))) s

/-- The accumulators a command names. -/
def accOf : MatOp → Option (Fin 4)
  | .mma a _ _ _ _ | .mmac a _ _ _ _ _ | .mmas a _ _ | .azero a | .aload a _ | .drain a _ _ => some a
  | .claim _ | .release _ | .steer _ => none

/-- Every named slot has nothing pending and no use, and no command of the queue names a named accumulator (R302). -/
def mwaitIdle (t : Tile) (o : MwaitOp) : Bool :=
  (List.range 8).all (fun i => !o.slots.getLsbD i || (((t.slots[i]?).getD {}).pending = 0 && ((t.slots[i]?).getD {}).use = 0))
    && ((t.run.map (·.cmd)).toList ++ t.mq).all (fun c =>
      match accOf c.op with
      | some a => !o.accs.getLsbD a
      | none => true)

/-- mwait gives up: its limit has passed, an ember marker is pending, or the grove is frozen or halted (R302). -/
def mwaitEnds (s : State) (x : Nat) (t : Tile) (f : Firing) (o : MwaitOp) : Bool :=
  (o.limit ≠ 0 && decide (f.wait.getD s.now + o.limit.toNat ≤ s.now)) || t.ember ≠ .no || !unitsRun s x

def execMwait (o : MwaitOp) (s : State) : Res :=
  tileStep (fun s x t f =>
    if !ownsAll (actorCfg t f) [] o.out.omsk then tfault 0x047
    else if mwaitIdle t o || mwaitEnds s x t f o then
      yielding [] 0 o.out 1 false (fun _ _ _ f _ => .ok ({ f with wait := none }, splat (if mwaitIdle t o then 1 else 0))) s x t f
    else .ok (t, { f with wait := some (f.wait.getD s.now) }, 0)) s

/-- The tile word at an address: a word that no frame writes reads as zero, which no opcode names (R114, R235). -/
def tileWord (t : Tile) (pc : Nat) : Word64 := tabGet t.cfg.code pc 0

/-- MWAIT_LIMIT_EXPIRY: the limit of the mwait that holds issue has passed, so it pushes 0 (R302). -/
def execMwaitLimitExpiry (site : Nat) (s : State) : Res :=
  let t := s.tile site
  match t.firing with
  | none => .next s
  | some f =>
    match decodeTile (tileWord t f.pc) with
    | .ok (.mwait o) =>
      if f.wait.isSome && o.limit ≠ 0 && decide (f.wait.getD s.now + o.limit.toNat ≤ s.now) then
        (match execMwait o { s with site := site } with
         | .next s1 => .next s1
         | other => other)
      else .next s
    | _ => .next s

end Sys2Proof.Machine
end

