-- ==== Sys2Proof/Machine/MatrixRun.lean ====
section
/-! DEFINITION. The matrix queue (R128-R135, R290-R299): entry checks, the arithmetic of mma, mma.c and mmas, drains, the start
and the completion of a command. -/

namespace Sys2Proof.Machine

/-! ## Slots as operands (R128, R129, R360) -/

/-- The contents of a slot: a stale one reads zero as BF16 (R297). -/
def slotAt (t : Tile) (n : Fin 8) : Slot :=
  let x := t.slots[n]
  if x.gen = t.gen then x else { x with bits := 0, fmt := .bf16, scaled := false, scales := [] }

/-- The code width of a slot (R129). -/
def fmtWidth : SlotFmt → Nat
  | .none | .bf16 => 16
  | .desc d => descWidth d

/-- K per slot, and K positions per cycle (R129). -/
def fmtCap (w : Nat) : Nat := if 8 < w then 256 else if 4 < w then 512 else 1024
def fmtRate (w : Nat) : Nat := if 8 < w then 1 else if 4 < w then 2 else 8

/-- The smaller capacity and the lower rate of two slots. -/
def pairCap (t : Tile) (x y : Fin 8) : Nat := Nat.min (fmtCap (fmtWidth (slotAt t x).fmt)) (fmtCap (fmtWidth (slotAt t y).fmt))
def pairRate (t : Tile) (x y : Fin 8) : Nat := Nat.min (fmtRate (fmtWidth (slotAt t x).fmt)) (fmtRate (fmtWidth (slotAt t y).fmt))

/-- The value of a code of a slot's format. -/
def fmtValue (f : SlotFmt) (c : Nat) : Fp :=
  match f with
  | .none | .bf16 => fpDecode bf16 (c % 65536)
  | .desc d => descValue d c

/-- The value at a bit position. -/
def Slot.valueAt (x : Slot) (pos : Nat) : Fp := fmtValue x.fmt (x.bits / 2 ^ pos % 2 ^ fmtWidth x.fmt)

/-- The block that a code of index q belongs to (R360). -/
def blockOf (d : Word32) (q : Nat) : Nat :=
  if descAxis d = 0 then q / descBlock d else 16 * (q / 16 / descBlock d) + q % 16

/-- The scale byte of a code; 127 for an unscaled slot and for a block that did not land (R360). -/
def Slot.scaleAt (x : Slot) (q : Nat) : Nat :=
  match x.scaled, x.fmt with
  | true, .desc d => tabGet x.scales (blockOf d q) 127
  | _, _ => 127

/-- a[i,k] and its scale in A role; b[k,j] and its scale in B role (R128, R360). -/
def aRole (x : Slot) (i k : Nat) : Fp × Nat :=
  let n := fmtWidth x.fmt
  (x.valueAt (4096 * i + n * k), x.scaleAt (4096 * i / n + k))
def bRole (x : Slot) (k j : Nat) : Fp × Nat :=
  let n := fmtWidth x.fmt
  (x.valueAt (n * (16 * k + j)), x.scaleAt (16 * k + j))

/-- A product with both scales in its exponent (R41): NaN where a scale is 0xFF. -/
def scaledProduct (a b : Fp × Nat) : Fp :=
  if a.2 = 255 ∨ b.2 = 255 then .nan else (Fp.mul a.1 b.1).shift ((a.2 : Int) - 127 + ((b.2 : Int) - 127))

/-- Groups of 32 terms, the accumulator in the first and each result in the next (R41). -/
def groupsOf : Nat → List Fp → Word32 → Word32
  | 0, _, acc => acc
  | fuel + 1, ts, acc =>
    match ts with
    | [] => acc
    | t :: rest => groupsOf fuel ((t :: rest).drop 32) (groupSum (fpOf32 acc :: (t :: rest).take 32))

/-- dot over [kl, kh) (R41). -/
def dotRange (x y : Slot) (i j kl kh : Nat) (acc : Word32) : Word32 :=
  groupsOf 64 ((List.range (kh - kl)).map (fun k => scaledProduct (aRole x i (kl + k)) (bRole y (kl + k) j))) acc

/-- The accumulator's values: a stale one reads zero, and its tag plain (R297). -/
def accAt (t : Tile) (a : Fin 4) : Acc :=
  let x := t.accs[a]
  if x.gen = t.gen then x else {}

/-- INF and NAN of the results (R293). -/
def resultFlags (l : List Word32) : MatStat :=
  { inf := l.any (fun w => fpOf32 w = .inf false || fpOf32 w = .inf true), nan := l.any isNan32 }

/-- mma and mma.c (R132, R133, R293, R294): 256 results from the accumulator given, and the flags. -/
def denseRun (x y : Slot) (kl kh : Nat) (acc : Vector Word32 256) : Vector Word32 256 × MatStat :=
  let v := if kh ≤ kl then acc else acc.mapIdx (fun q w => dotRange x y (q / 16) (q % 16) kl kh w)
  let ks := (List.range (kh - kl)).map (· + kl)
  let bad := (List.range 16).any (fun i => ks.any (fun k => (aRole x i k).2 = 255 || (bRole y k i).2 = 255))
  (v, if kh ≤ kl then {} else { resultFlags v.toList with snan := bad })

/-- Entry e of a sparse slot (R139). -/
def cutEntry (x : Slot) (e : Nat) : Nat := x.bits / 2 ^ (32 * e) % 2 ^ 32

/-- The terms of row i and column j of an mmas (R295). -/
def sparseTerms (fa : SlotFmt) (x y : Slot) (n i j : Nat) : List (Fp × (Fp × Nat)) :=
  ((List.range n).map (cutEntry x)).filterMap (fun e =>
    if e / 4096 % 16 = i then some (fmtValue fa (e / 65536 % 2 ^ fmtWidth fa), bRole y (e % 256) j) else none)

/-- mmas (R134, R295): rows without entries are left bit-unchanged. -/
def sparseRun (x y : Slot) (n : Nat) (acc : Vector Word32 256) : Vector Word32 256 × MatStat :=
  let row := fun q => sparseTerms x.fmt x y n (q / 16) (q % 16)
  let v := acc.mapIdx (fun q w => groupsOf 64 ((row q).map (fun e => scaledProduct (e.1, 127) e.2)) w)
  let made := (List.range 256).filter (fun q => !(row q).isEmpty)
  (v, { resultFlags (made.map (fun q => (v[q]?).getD 0)) with
        snan := (List.range 256).any (fun q => (row q).any (fun e => e.2.2 = 255)) })

/-! ## Entry (R131, R290) -/

/-- The slots a command reads, each once. -/
def slotsRead : MatOp → List (Fin 8)
  | .mma _ x y _ _ | .mmac _ x y _ _ _ | .mmas _ x y => if x = y then [x] else [x, y]
  | .claim _ | .release _ | .azero _ | .aload _ _ | .drain _ _ _ | .steer _ => []

/-- The commands ahead: the running one, then the queue. -/
def Tile.commands (t : Tile) : List MatCmd := (t.run.map (·.cmd)).toList ++ t.mq

/-- Who claims a slot as a command entering now sees it (R290): the last claim or release ahead of it, or the slot's state. -/
def claimSeen (t : Tile) (n : Fin 8) : Option Nat :=
  t.commands.foldl (fun c k =>
    match k.op with
    | .claim m => if m = n then some k.actor else c
    | .release m => if m = n then none else c
    | _ => c) (t.slots[n]).claim

/-- The range checks of aload (R296), in the order of R278. -/
def aloadFault (off : Nat) : Option Cause :=
  if off % 32 ≠ 0 then some 0x1C6 else if 0x20000 < off + 1024 then some 0x1C1 else if stateBase < off + 1024 then some 0x1C2 else none

/-- A port a drain may write (R135): the actor's, with RL dividing 32. -/
def drainPort (t : Tile) (actor : Nat) (p : Fin 4) : Bool :=
  (((t.cfg.actors[actor]?).getD none).getD {}).ownO.getLsbD p && 32 % outRl t p = 0

/-- The port set of a drain at entry. -/
def drainSet (t : Tile) (st : Bool) (mask : BitVec 4) : BitVec 4 := if st then steerPorts t else mask

/-- The entry checks of a command (R290, R292-R299). -/
def entryFault (t : Tile) (c : MatCmd) : Option Cause :=
  let mine := fun (n : Fin 8) => claimSeen t n = some c.actor
  match c.op with
  | .claim _ | .azero _ | .steer _ => none
  | .release n => if mine n || (claimSeen t n).isNone then none else some 0x144
  | .mma _ x y kl kh => if !mine x || !mine y then some 0x144 else if kh < kl || pairCap t x y < kh then some 0x145 else none
  | .mmac _ x y kl kh _ =>
    if !mine x || !mine y then some 0x144 else if kh < kl || 256 < kh - kl || pairCap t x y < kh then some 0x145 else none
  | .mmas _ x y => if !mine x || !mine y then some 0x144 else none
  | .aload _ off => aloadFault off
  | .drain _ st mask =>
    if allPorts.all (fun p => !(drainSet t st mask).getLsbD p || drainPort t c.actor p) then none else some 0x147

/-- One added to, or taken from, the use counts of the slots a command reads. -/
def useMore (t : Tile) (op : MatOp) : Tile :=
  { t with slots := (slotsRead op).foldl (fun v (n : Fin 8) => v.set n { v[n] with use := v[n].use + 1 }) t.slots }
def useLess (t : Tile) (op : MatOp) : Tile :=
  { t with slots := (slotsRead op).foldl (fun v (n : Fin 8) => v.set n { v[n] with use := v[n].use - 1 }) t.slots }

/-- The commands at the end of a queue that are follow-ons of this cycle and belong behind one of slot `n`, and those ahead of them (R131). -/
def splitFollows (now n : Nat) (l : List MatCmd) : List MatCmd × List MatCmd :=
  let after := (l.reverse.takeWhile (fun c => c.follow.isSome && c.since = now && decide (n < c.slot))).length
  (l.take (l.length - after), l.drop (l.length - after))

/-- A follow-on in its place: those that enter in the same cycle stand in slot order (R131). -/
def enqueueFollow (now : Nat) (t : Tile) (c : MatCmd) : Tile :=
  let q := splitFollows now c.slot t.mq
  useMore { t with mq := q.1 ++ { c with since := now } :: q.2 } c.op

/-- A command at the end of the queue. -/
def enqueue (now : Nat) (t : Tile) (c : MatCmd) : Tile := useMore { t with mq := t.mq ++ [{ c with since := now }] } c.op

/-- Commands that enter in order, each checked as it enters; the first fault, if there is one. -/
def enterAll (now : Nat) : Tile → List MatCmd → Except Cause Tile
  | t, [] => .ok t
  | t, c :: rest =>
    match entryFault t c with
    | some k => .error k
    | none => enterAll now (enqueue now t c) rest

/-! ## Faults of queued commands (R191, R291) -/

/-- The newest record of a unit stands ahead of those that it sent in the same cycle (R191). -/
def newestFirst (s : State) (clu ep : Nat) : State :=
  match s.packets.reverse with
  | [] => s
  | p :: rest =>
    let after := (rest.takeWhile (fun q => q.type = 6 && q.cls = 15 && q.sclu = clu && q.sep / 8 = ep / 8 && q.at_ = p.at_ && q.due = s.now)).length
    { s with packets := (rest.drop after).reverse ++ p :: (rest.take after).reverse }

/-- A command of the queue faults: it is discarded and the queue stops there, the running firing is undone and the tile stops; a
follow-on leaves its thread's mx (log entry 18). Its record goes ahead of a firing's of the same cycle (R191). -/
def commandFault (s : State) (x : Nat) (t : Tile) (c : MatCmd) (k : Cause) : State :=
  let t1 := useLess { t.undoRunning with stopped := true, mqStop := true } c.op
  let s1 := match c.follow with
    | some (th, _) => s.setThr th ((s.thr th).subCtr .mx 1)
    | none => s
  newestFirst (tileRecord (s1.setTile x t1) x
    { cause := k, ep := epOf x 0, act := c.actor, sid := (c.follow.map (·.2)).getD 0, fcnt := (actorSt t c.actor).count })
    (cluCode (siteCluster x)) (epOf x 0)

/-- A follow-on enters in the reserved entry of its slot (R131); a check it fails is a fault of a queued command. -/
def followEnter (s : State) (x : Nat) (op : MatOp) (th sid : Nat) (slot : Fin 8) : State :=
  let t := s.tile x
  let c : MatCmd := { op := op, actor := ((t.slots[slot]).claim).getD 0, follow := some (th, sid), slot := slot }
  match entryFault t c with
  | some k => commandFault s x (useMore t c.op) c k
  | none => s.setTile x (enqueueFollow s.now t c)

/-- A firing of a tile is at its end cycle: its commands enter ahead of the follow-ons of that cycle (R131). -/
def endDue (now : Nat) (t : Tile) : Bool := t.ending.any (fun f => (f.endAt.map (fun e => decide (e ≤ now))).getD false)

/-! ## Start (R291-R299) -/

/-- The streams of a grove, in generators and in command queues. -/
def openStreams (s : State) (g : Grove) : List Stream :=
  g.slices.flatMap (fun y => (s.slice y).engines.toList.flatMap (fun e => e.gens.toList.filterMap id))
    ++ g.clusters.flatMap (fun c => (s.coreOf c).cmdq.map (·.stream))

/-- A cutter stream of the grove, bound or still in its queue, holds a slot of this tile as one of its pairs, or a fill that runs ahead is to fill it:
neither writes a slot that no actor owns (R59, R139, R292). -/
def cutHolds (s : State) (x : Nat) (n : Fin 8) : Bool :=
  let g := siteGrove s x
  (openStreams s g).any (fun st =>
    match st.cut with
    | some c => st.node = x && c.pairs.any (fun p => p.1 = n || p.2 = n)
    | none => st.kind = .fill && st.gen.isSome && st.slot = n.val &&
        ((g.sliceAt (st.sid / 512 % 128)).map (fun y => (sinksOf s y (0x40 + st.cp)).any (fun q => q.1 = x))).getD false)

/-- The tokens that a running drain is still to write to a port's staging (R299). -/
def drainLeft (t : Tile) (p : Fin 4) : Nat :=
  match t.run with
  | some r => if r.mask.getLsbD p then 32 - (r.sent + outRl t p - 1) / outRl t p * outRl t p else 0
  | none => 0

/-- Free staging of an output port (R124): 64 tokens less those still leaving or held there, those a running drain is to write and those of
firings that have not ended. -/
def freeStaging (now : Nat) (t : Tile) (p : Fin 4) : Nat :=
  64 - ((t.outs[p]).busyTo - now) - (t.outs[p]).waiting.length - drainLeft t p - ((t.firing.map (fun f => (f.stage[p]).toks.length)).getD 0)
    - t.ending.foldl (fun a f => a + (f.stage[p]).toks.length) 0

/-- The array works for a command (R291). -/
def usesArray : MatOp → Bool
  | .mma _ _ _ _ _ | .mmac _ _ _ _ _ _ | .mmas _ _ _ => true
  | _ => false

/-- Heavy slots a grove occupies (R164): arrays at work, and engines in heavy use. -/
def heavyUsed (s : State) (g : Grove) : Nat :=
  (g.tiles.filter (fun x => ((s.tile x).run.map (fun r => usesArray r.cmd.op)).getD false)).length
    + (g.slices.foldl (fun a x => a + ((s.slice x).engines.toList.filter (·.heavy)).length) 0)

/-- The mask of a drain when it runs (R299). -/
def drainMask (t : Tile) (st : Bool) (mask : BitVec 4) : BitVec 4 := if st then (t.cfg.pm[t.steer.toNat]?).getD 0 else mask

/-- The head command waits (R130, R164, R291, R292, R299). -/
def headWaits (s : State) (x : Nat) (t : Tile) (c : MatCmd) : Bool :=
  (slotsRead c.op).any (fun (n : Fin 8) => (t.slots[n]).pending ≠ 0)
    || (match c.op with
        | .release n => (t.slots[n]).claim.isSome && ((t.slots[n]).pending ≠ 0 || cutHolds s x n)
        | .drain _ st mask => allPorts.any (fun p => (drainMask t st mask).getLsbD p && decide (freeStaging s.now t p < 32))
        | _ => false)
    || (usesArray c.op && decide ((siteGrove s x).h ≤ heavyUsed s (siteGrove s x)))

/-- A stale slot, or accumulator, met under STRICT when a command runs (R297). -/
def staleSlot (t : Tile) (n : Fin 8) : Bool := t.strict && (t.slots[n]).gen ≠ t.gen
def staleAcc (t : Tile) (a : Fin 4) : Bool := t.strict && (t.accs[a]).gen ≠ t.gen

/-- The cut that wrote a slot's bound triple since its last claim: a stale triple was written by none (R134, R297). -/
def boundCut (t : Tile) (n : Fin 8) : Option Nat := if (t.bounds[n]).gen = t.gen then (t.bounds[n]).cut else none

/-- What a command that runs faults with (R292, R295-R297). -/
def runFault (t : Tile) (c : MatCmd) : Option Cause :=
  match c.op with
  | .claim n => if (t.slots[n]).claim.isSome then some 0x141 else none
  | .release n => if (t.slots[n]).claim.isNone then some 0x141 else none
  | .mma a x y _ _ => if staleAcc t a || staleSlot t x || staleSlot t y then some 0x1C0 else none
  | .mmac _ x y _ _ _ => if staleSlot t x || staleSlot t y then some 0x1C0 else none
  | .mmas a x y =>
    let bx := t.bounds[x]
    let by_ := t.bounds[y]
    if (boundCut t x).isNone || boundCut t x ≠ boundCut t y || (bx.lo, bx.hi, bx.n) ≠ (by_.lo, by_.hi, by_.n) then some 0x146
    else if staleAcc t a || staleSlot t x || staleSlot t y then some 0x1C0
    else none
  | .aload _ off => aloadFault off
  | .drain a _ _ => if staleAcc t a then some 0x1C0 else none
  | .azero _ | .steer _ => none

/-- The array cycles of a command (R291). -/
def arrayCycles (t : Tile) : MatOp → Nat
  | .mma _ x y kl kh | .mmac _ x y kl kh _ =>
    let r := pairRate t x y
    Nat.max 1 ((kh - kl + r - 1) / r)
  | .mmas _ x _ => Nat.max 1 (((t.bounds[x]).n + 15) / 16)
  | _ => 1

/-- The cycles a command occupies the unit, and how long after the last of them it completes. -/
def occupies (t : Tile) (op : MatOp) : Nat × Nat :=
  match op with
  | .mma _ _ _ _ _ | .mmac _ _ _ _ _ _ | .mmas _ _ _ => (arrayCycles t op, 12)
  | .aload _ _ | .drain _ _ _ => (32, 0)
  | .claim _ | .release _ | .azero _ | .steer _ => (1, 0)

/-- What the array will write, and the flags (R293-R296). -/
def arrayResult (t : Tile) : MatOp → Option Acc × MatStat
  | .mma a x y kl kh =>
    let r := denseRun (slotAt t x) (slotAt t y) kl kh (accAt t a).v
    (some { accAt t a with v := r.1, gen := t.gen }, r.2)
  | .mmac _ x y kl kh j =>
    let r := denseRun (slotAt t x) (slotAt t y) kl kh (Vector.replicate 256 0)
    (some { v := r.1, tag := .part 0 j, gen := t.gen }, r.2)
  | .mmas a x y =>
    let r := sparseRun (slotAt t x) (slotAt t y) (t.bounds[x]).n (accAt t a).v
    (some { accAt t a with v := r.1, gen := t.gen }, r.2)
  | .azero _ => (some { gen := t.gen }, {})
  | _ => (none, {})

/-- What a command takes along as it starts: an array result with its flags, or the accumulator and the ports of a drain. -/
def commandResult (t : Tile) (op : MatOp) : Option Acc × MatStat × BitVec 4 :=
  match op with
  | .drain a st mask => (some (accAt t a), {}, drainMask t st mask)
  | _ => ((arrayResult t op).1, (arrayResult t op).2, 0)

/-- The words of an aload read up to a cycle, one per cycle (R291, R296). -/
def aloadRead (t : Tile) (now : Nat) : Nat → MatRun → MatRun
  | 0, r => r
  | fuel + 1, r =>
    match r.cmd.op with
    | .aload _ off =>
      if r.words.length < 32 ∧ r.startAt + r.words.length ≤ now then
        (match t.read (off + 32 * r.words.length) 32 with
         | .ok v => aloadRead t now fuel { r with words := r.words ++ [v] }
         | .error c => aloadRead t now fuel { r with words := r.words ++ [0], bad := r.bad.or (some c) })
      else r
    | _ => r

/-- The 32 tokens of a drain on a port (R135): kind, weight, and FIRST and LAST by the port's RL. -/
def drainToks (a : Acc) (rl : Nat) : List Tok :=
  (List.range 32).map (fun i =>
    let kw := match a.tag with
      | .plain => (0, 1)
      | .part level index => (6, level % 16 * 4096 + index % 4096)
    { pay := ofLanes (fun l => (a.v[8 * i + l]?).getD 0), kind := kw.1, weight := kw.2, first := decide (i % rl = 0),
      last := decide (i % rl + 1 = rl) })

/-- Where a record stands, as a number. -/
def placeCode : Place → Nat
  | .queue => 0 | .joined _ => 1 | .spill => 2 | .defer => 3 | .recorded => 5

/-- An item as q prints it: kind, weight, sequence, place, held; ash with its counts and sequences. -/
def itemVals : Item → List Nat
  | .record r p h _ => [r.kind, r.weight, r.seq, if r.wait && p ≠ .recorded then 4 else placeCode p, h.toNat]
  | .ash a o h => [1, a.cnt, a.dw, a.uw, a.fseq, a.lseq, o.toNat, h.toNat]
  | .marker k => [k]

/-- Huash's record of what a traced port or actor does (R349). -/
def traceAdd (s : State) (of : TraceOf) (vals : List Nat) : State :=
  if s.huash.traces.any (fun k => k.2 = of && decide (k.1 ≤ s.now)) then
    { s with huash := { s.huash with recs := s.huash.recs ++ [{ of := of, vals := vals }] } }
  else s

/-- Tokens that leave from a cycle on, with the sequence of each: the channel's count ahead of them is `n` (R97). -/
def leaveList (cycle n : Nat) : List Tok → List (Nat × Nat × Tok)
  | [] => []
  | k :: rest =>
    let opened := k.kind = 0 || k.kind = 6 || k.kind = 7
    (cycle, if opened && !k.first then (n + 2 ^ 32 - 1) % 2 ^ 32 else n, k) :: leaveList (cycle + 1) (chanAfter n k) rest

/-- Tokens that begin to leave an output port from a cycle, after those still leaving. The port's count stands behind them. -/
def sendPort (s : State) (x : Nat) (p : Fin 4) (cycle : Nat) (toks : List Tok) : State :=
  let t := s.tile x
  let o := t.outs[p]
  let start := Nat.max cycle o.busyTo
  let first := (o.seq + 2 ^ 32 - toks.foldl chanAfter 0) % 2 ^ 32
  let o1 : OutPort := { o with busyTo := start + toks.length, leaving := o.leaving ++ leaveList start first toks }
  sendToks (s.setTile x { t with outs := t.outs.set p o1 }) x (0x40 + p) start toks

/-- Tokens leave an output port, or stay in its staging while the grove is frozen or halted (R198, R213); its sequence goes on by `n`
(R97, R124). -/
def leaveFrom (s : State) (x : Nat) (p : Fin 4) (cycle : Nat) (toks : List Tok) (n : Nat) : State :=
  let t := s.tile x
  let o : OutPort := { t.outs[p] with seq := ((t.outs[p]).seq + n) % 2 ^ 32 }
  if unitsRun s x then sendPort (s.setTile x { t with outs := t.outs.set p o }) x p cycle toks
  else s.setTile x { t with outs := t.outs.set p { o with waiting := o.waiting ++ toks } }

/-- Control tokens leave a control output one per cycle, or stay in its staging (R124, R198, R213). -/
def leaveControl (s : State) (x : Nat) (q : Fin 4) (bits : List Bool) : State :=
  let t := s.tile x
  let start := Nat.max s.now t.qbusy[q]
  if unitsRun s x then sendBits (s.setTile x { t with qbusy := t.qbusy.set q (start + bits.length) }) x (0xC0 + q) start bits
  else s.setTile x { t with qwait := t.qwait.set q (t.qwait[q] ++ bits) }

/-- What the staging of a tile holds begins to leave when its grove goes on, unless it goes on frozen (R198, R213). -/
def releaseStaging (s : State) (x : Nat) : State :=
  let t := s.tile x
  if !unitsRun s x then s
  else
    let s0 := s.setTile x { t with outs := t.outs.map (fun o => { o with waiting := [] }), qwait := Vector.replicate 4 [] }
    let s1 := allPorts.foldl (fun s (p : Fin 4) => sendPort s x p s.now (t.outs[p]).waiting) s0
    allPorts.foldl (fun s (q : Fin 4) => leaveControl s x q t.qwait[q]) s1

/-- Tokens leave an output port now. -/
def leavePort (s : State) (x : Nat) (p : Fin 4) (toks : List Tok) (n : Nat) : State := leaveFrom s x p s.now toks n

/-- A grove goes on after a freeze or a halt: what its tiles hold in staging begins to leave. -/
def goOn (s : State) (g : Grove) : State := g.tiles.foldl releaseStaging s

/-- Token `i` of a drain, written in a cycle to every port of its mask: a record joins what leaves as its first token is written, so that no other
record comes between its tokens (R299). -/
def drainTok (s : State) (x : Nat) (a : Acc) (mask : BitVec 4) (cycle i : Nat) : State :=
  allPorts.foldl (fun s (p : Fin 4) =>
    let rl := outRl (s.tile x) p
    if mask.getLsbD p && decide (i % rl = 0) then leaveFrom s x p cycle (((drainToks a rl).drop i).take rl) 1 else s) s

/-- The tokens of a running drain up to a cycle, one per cycle (R299). -/
def drainTo (s : State) (x now : Nat) : State :=
  match (s.tile x).run with
  | none => s
  | some r =>
    match r.cmd.op, r.res with
    | .drain _ _ _, some a =>
      let k := Nat.min 32 (now + 1 - r.startAt)
      let s1 := ((List.range k).drop r.sent).foldl (fun s i => drainTok s x a r.mask (r.startAt + i) i) s
      s1.setTile x { s1.tile x with run := some { r with sent := Nat.max r.sent k } }
    | _, _ => s

/-- MATRIX_COMMAND_START: the head command starts on the unit, or waits, or faults (R291). -/
def execMatrixCommandStart (site : Nat) (s : State) : Res :=
  .next
    (let t := s.tile site
     match t.mq with
     | [] => s
     | c :: rest =>
       if t.run.isSome || t.mqStop || t.ember = .saved || decide (s.now < t.mqFrom) || decide (s.now ≤ c.since) || headWaits s site t c then s
       else
         match runFault t c with
         | some k => commandFault s site { t with mq := rest } c k
         | none =>
           let o := occupies t c.op
           let r := commandResult t c.op
           let run : MatRun := { cmd := c, startAt := s.now, flagsAt := s.now + o.1 - 1, doneAt := s.now + o.1 - 1 + o.2,
                                 res := r.1, flags := r.2.1, mask := r.2.2 }
           drainTo (s.setTile site { t with mq := rest, run := some (aloadRead (t.before s.now) s.now 1 run) }) site s.now)

/-! ## Completion (R291, R154) -/

/-- An accumulator from the words of an aload (R296). -/
def accOfWords (gen : Nat) (ws : List Nat) : Acc :=
  { v := Vector.ofFn (fun q => BitVec.ofNat 32 (ws.getD (q.val / 8) 0 / 2 ^ (32 * (q.val % 8)))), gen := gen }

/-- What a command leaves in the tile when it completes. -/
def commandDone (t : Tile) (r : MatRun) : Tile :=
  let t1 := useLess { t with ms := t.ms.join r.flags } r.cmd.op
  match r.cmd.op, r.res with
  | .claim n, _ =>
    { t1 with slots := t1.slots.set n { t1.slots[n] with claim := some r.cmd.actor },
              bounds := t1.bounds.set n { t1.bounds[n] with cut := none } }
  | .release n, _ => { t1 with slots := t1.slots.set n { t1.slots[n] with claim := none } }
  | .aload a _, _ => { t1 with accs := t1.accs.set a (accOfWords t.gen r.words) }
  | .steer v, _ => { t1 with steer := v }
  | .mma a _ _ _ _, some x | .mmac a _ _ _ _ _, some x | .mmas a _ _, some x | .azero a, some x => { t1 with accs := t1.accs.set a x }
  | _, _ => t1

/-- MATRIX_COMMAND_COMPLETE: use counts fall, the command's effect stands, and a follow-on completes on mx (R154, R291). -/
def execMatrixCommandComplete (site : Nat) (s : State) : Res :=
  .next
    (let s := drainTo s site s.now
     let t := s.tile site
     match t.run with
     | none => s
     | some r0 =>
       let r := aloadRead (t.before s.now) s.now 32 r0
       if s.now < r.doneAt then s
       else
         match r.bad with
         | some k => commandFault s site { t with run := none } r.cmd k
         | none =>
           let s1 := s.setTile site { commandDone t r with run := none, mqFrom := s.now + 1 }
           (match r.cmd.follow with
            | some (th, _) => s1.setThr th ((s1.thr th).subCtr .mx 1)
            | none => s1))

end Sys2Proof.Machine
end

