-- ==== Sys2Proof/Machine/Translate.lean ====
section
/-! DEFINITION. The page table and its walk (R16-R20), the translation buffer (R24), extents (R22), and the translation
faults (R30). Where an entry breaks several conditions, the cause is the first in the order coded here (log entry 8). -/

namespace Sys2Proof.Machine

/-! ## The fields of an entry (R18) -/

def pteV (e : Nat) : Bool := flag e 63
def pteLeaf (e : Nat) : Bool := flag e 62
def pteGrp (e : Nat) : Nat := field e 60 2
def pteW (e : Nat) : Bool := flag e 59
def pteX (e : Nat) : Bool := flag e 58
def pteFe (e : Nat) : Bool := flag e 57
def pteRmt (e : Nat) : Bool := flag e 56
def pteKey (e : Nat) : Nat := field e 46 10
def pteFmt (e : Nat) : Nat := field e 41 5
def pteGeo (e : Nat) : Nat := field e 38 3
def pteMig (e : Nat) : Nat := field e 36 2
def pteFrame (e : Nat) : Nat := field e 0 36

/-- The first 4 KiB page a leaf names: of a remote leaf, on its device (R18). -/
def ptePage (e : Nat) : Nat := if pteRmt e then field e 1 27 * 512 else pteFrame e

/-- Every field of an entry but the page it names. -/
def pteRest (e : Nat) : Nat := if pteRmt e then e / 2 ^ 28 * 2 + e % 2 else e / 2 ^ 36

/-- The physical address of a leaf's first page: a remote leaf has bit 56 set and its device id, and one that names this
device is local (R12, R18). -/
def ptePa (dev e : Nat) : Nat :=
  if pteRmt e ∧ field e 28 8 ≠ dev then 2 ^ 56 + field e 28 8 * 2 ^ 48 + ptePage e * 4096 else ptePage e * 4096

/-- The index bits of a level (R16). -/
def vaIndex (va level : Nat) : Nat := va / 2 ^ (48 - 9 * level) % 512

/-- The bytes a single leaf of a level maps (R16). -/
def leafSize (level : Nat) : Nat := 4096 * 512 ^ (4 - level)

/-- A group code is allowed at a level (R16, R17). -/
def grpAllowed (level grp : Nat) : Bool := level = 4 || level = 3 || (level = 2 && (grp = 0 || grp = 2))

/-- The checks of a leaf at a level (R17, R18, R20): `members` are the entries of its group, first to last. A remote frame in the other
device's reserved range passes here (DESIGN CHOICE, log entry 85). -/
def leafCheck (dev key level : Nat) (e : Nat) (members : List Nat) : Option Cause :=
  let unit := 512 ^ (4 - level)
  let n := members.length
  let e0 := members.headD e
  if !grpAllowed level (pteGrp e) then some 0x206
  else if members.any (fun m => pteRest m ≠ pteRest e) then some 0x205
  else if ptePage e0 % (n * unit) ≠ 0 then some 0x206
  else if (members.zipIdx).any (fun p => ptePage p.1 ≠ ptePage e0 + p.2 * unit) then some 0x205
  else if 2 ≤ pteGeo e || pteMig e = 3 || (pteRmt e && level ≠ 4 && flag e 0) then some 0x207
  else if pteRmt e && level = 4 then some 0x209
  else if pteKey e ≠ key then some 0x204
  else if regionOf dev (ptePa dev e) = .reserved then some 0x208
  else if pteFe e && regionOf dev (ptePa dev e) ≠ .lpddr then some 0x20A
  else if pteMig e = 1 then some 0x20B
  else none

/-- The walk (R16-R18): `left` levels remain below and with the page at `table`. -/
def walkFrom (s : State) (key va : Nat) : Nat → Nat → Except Cause TlbEntry
  | 0, _ => .error 0x20D
  | left + 1, table0 =>
    let table := localPa s.dev table0
    let level := 4 - left
    if table % 4096 ≠ 0 || regionOf s.dev table ≠ .lpddr then .error 0x208
    else
      let idx := vaIndex va level
      let e := s.numAt key (table + 8 * idx) 8
      if !pteV e then .error 0x200
      else if (level = 1 && pteLeaf e) || (level = 4 && !pteLeaf e) then .error 0x20D
      else if !pteLeaf e then
        (if field e 36 26 ≠ 0 then .error 0x207 else walkFrom s key va left (pteFrame e * 4096))
      else
        let n := 4 ^ pteGrp e
        let first := idx - idx % n
        let members := if grpAllowed level (pteGrp e) then (List.range n).map (fun i => s.numAt key (table + 8 * (first + i)) 8) else [e]
        match leafCheck s.dev key level e members with
        | some c => .error c
        | none =>
          let size := n * leafSize level
          .ok { va := va / size * size, size := size, pa := ptePa s.dev (members.headD e), leaf := BitVec.ofNat 64 e }

/-- The entries that a walk reads. -/
def walkReads (s : State) (key va : Nat) : Nat → Nat → List Nat
  | 0, _ => []
  | left + 1, table0 =>
    let at_ := localPa s.dev table0 + 8 * vaIndex va (4 - left)
    let e := s.numAt key at_ 8
    at_ :: (if pteV e && !pteLeaf e then walkReads s key va left (pteFrame e * 4096) else [])

/-- The walk from a root, for a virtual address (R16): bits [63:48] must be zero. -/
def walk (s : State) (root key va : Nat) : Except Cause TlbEntry :=
  if 2 ^ 48 ≤ va then .error 0x201 else walkFrom s key va 4 root

/-- A grove's walk. -/
def State.walkG (s : State) (g : Grove) (va : Nat) : Except Cause TlbEntry := walk s g.troot g.key va

/-! ## The translation buffer (R24) -/

/-- The entry that covers an address. -/
def tlbHit (l : List TlbEntry) (va : Nat) : Option TlbEntry := l.find? (fun e => decide (e.va ≤ va ∧ va < e.va + e.size))

/-- An entry taken in; of a full buffer some entry is evicted (log entry 4). -/
def tlbInsert (l : List TlbEntry) (e : TlbEntry) (n : Nat) : List TlbEntry :=
  if l.length < 256 then l ++ [e] else l.eraseIdx (Config.freeIndex n % 256) ++ [e]

/-- A control access of a thread translated through its core's buffer; the state with the buffer filled. -/
def translate (s : State) (t va : Nat) : Except Cause TlbEntry × State :=
  let c := t / 8
  let co := s.coreOf c
  match (if va < 2 ^ 48 then tlbHit co.tlb va else none) with
  | some e => (.ok e, s)
  | none =>
    match s.groveOfThread t with
    | none => (.error 0x200, s)
    | some g =>
      match s.walkG (s.grove g) va with
      | .error c => (.error c, s)
      | .ok e => (.ok e, { s.setCore c { co with tlb := tlbInsert co.tlb e s.fresh } with fresh := s.fresh + 1 })

/-- What an access needs of its page. -/
inductive Access where
  | load | store | fe | feStore | amo | code
  deriving DecidableEq, Repr

/-- The access checks of a translated page (R20, R309, R311, R312), and the links a remote page needs (R206). -/
def accessFault (s : State) (a : Access) (e : TlbEntry) : Option Cause :=
  let leaf := e.leaf.toNat
  if linkFault s e.pa then some 0x384
  else
    match a with
    | .load => none
    | .code => if pteX leaf then none else some 0x203
    | .store => if pteW leaf then none else some 0x202
    | .fe => if pteFe leaf then none else some 0x20E
    | .feStore => if !pteFe leaf then some 0x20E else if pteW leaf then none else some 0x202
    | .amo => if !pteW leaf then some 0x202 else if regionOf s.dev e.pa = .host then some 0x210 else none

/-- The physical address of a virtual one in its page. -/
def TlbEntry.at_ (e : TlbEntry) (va : Nat) : Nat := e.pa + (va - e.va)

/-! ## Pieces of an access (R309, R170) -/

/-- The pieces of a misaligned access from `va`, `left` bytes to go: each the largest of 1, 2, 4 bytes that is aligned and
does not pass the end. -/
def cutPieces : Nat → Nat → Nat → List (Nat × Nat)
  | 0, _, _ => []
  | fuel + 1, va, left =>
    if left = 0 then []
    else
      let n := if va % 4 = 0 ∧ 4 ≤ left then 4 else if va % 2 = 0 ∧ 2 ≤ left then 2 else 1
      (va, n) :: cutPieces fuel (va + n) (left - n)

/-- The pieces of a control access: one when it is aligned (R170). -/
def piecesOf (va size : Nat) : List (Nat × Nat) := if va % size = 0 then [(va, size)] else cutPieces 8 va size

/-- All pieces translated and checked, in order, before any is performed (R309): (offset, bytes, PA), or the first fault with
its address. -/
def translatePieces (s : State) (t : Nat) (a : Access) (va0 : Nat) :
    List (Nat × Nat) → Except (Cause × Nat) (List (Nat × Nat × Nat)) × State
  | [] => (.ok [], s)
  | (va, n) :: rest =>
    match translate s t va with
    | (.error c, s1) => (.error (c, va), s1)
    | (.ok e, s1) =>
      match accessFault s1 a e with
      | some c => (.error (c, va), s1)
      | none =>
        match translatePieces s1 t a va0 rest with
        | (.error x, s2) => (.error x, s2)
        | (.ok ps, s2) => (.ok ((va - va0, n, e.at_ va) :: ps), s2)

/-! ## Reading and writing whole ranges at a check (records, lists, manifests) -/

/-- `n` bytes of a grove's virtual space read at once, or the first fault with its address. The bytes are taken chunk by
chunk of one page. -/
def readVa (s : State) (g : Grove) : Nat → Nat → Nat → Except (Cause × Nat) (List Byte)
  | 0, _, _ => .ok []
  | fuel + 1, va, n =>
    if n = 0 then .ok []
    else
      match s.walkG g va with
      | .error c => .error (c, va)
      | .ok e =>
        match accessFault s .load e with
        | some c => .error (c, va)
        | none =>
          let k := Nat.min n (e.va + e.size - va)
          match readVa s g fuel (va + k) (n - k) with
          | .error x => .error x
          | .ok rest => .ok (s.bytesAt g.key (e.at_ va) k ++ rest)

/-- The first page of a range of a grove's virtual space that an access may not use, if there is one. -/
def vaFault (s : State) (g : Grove) (a : Access) : Nat → Nat → Nat → Option (Cause × Nat)
  | 0, _, _ => none
  | fuel + 1, va, n =>
    if n = 0 then none
    else
      match s.walkG g va with
      | .error c => some (c, va)
      | .ok e =>
        match accessFault s a e with
        | some c => some (c, va)
        | none =>
          let k := Nat.min n (e.va + e.size - va)
          vaFault s g a fuel (va + k) (n - k)

/-- A range of a grove's virtual space checked for stores: the chunks (PA, bytes), or the first fault. -/
def storeChunks (s : State) (g : Grove) : Nat → Nat → Nat → Except (Cause × Nat) (List (Nat × Nat))
  | 0, _, _ => .ok []
  | fuel + 1, va, n =>
    if n = 0 then .ok []
    else
      match s.walkG g va with
      | .error c => .error (c, va)
      | .ok e =>
        match accessFault s .store e with
        | some c => .error (c, va)
        | none =>
          let k := Nat.min n (e.va + e.size - va)
          match storeChunks s g fuel (va + k) (n - k) with
          | .error x => .error x
          | .ok rest => .ok ((e.at_ va, k) :: rest)

/-- Bytes written over chunks. -/
def writeChunks (s : State) (key : Nat) : List (Nat × Nat) → List Byte → State
  | [], _ => s
  | (pa, k) :: rest, bs => writeChunks (s.writeBytes key pa (bs.take k)) key rest (bs.drop k)

/-! ## Extents (R22) -/

/-- Whether a page continues an extent: contiguous in VA and PA, every field of the leaf but its frame the same. -/
def Extent.joins (x : Extent) (e : TlbEntry) : Bool :=
  x.fault.isNone && e.va = x.va + x.len && e.pa = x.pa + x.len && pteRest e.leaf.toNat = pteRest x.leaf.toNat

/-- The extent set that starts at a page: pages upward while at most 16 extents, to `last`; it stops at the first page
whose walk faults, recorded against that page (R22). `acc` is in reverse. -/
def buildExtents (s : State) (g : Grove) (last : Nat) : Nat → Nat → List Extent → List Extent
  | 0, _, acc => acc.reverse
  | fuel + 1, va, acc =>
    if last < va then acc.reverse
    else
      match s.walkG g va with
      | .error c => if acc.length < 16 then ({ va := va / 4096 * 4096, len := 4096, fault := some c } :: acc).reverse else acc.reverse
      | .ok e =>
        match acc with
        | x :: rest =>
          if x.joins e then buildExtents s g last fuel (e.va + e.size) ({ x with len := x.len + e.size } :: rest)
          else if acc.length < 16 then
            buildExtents s g last fuel (e.va + e.size) ({ va := e.va, len := e.size, pa := e.pa, leaf := e.leaf } :: acc)
          else acc.reverse
        | [] => buildExtents s g last fuel (e.va + e.size) [{ va := e.va, len := e.size, pa := e.pa, leaf := e.leaf }]

/-- The extent of a set that holds an address. -/
def extentAt (l : List Extent) (va : Nat) : Option Extent := l.find? (fun x => decide (x.va ≤ va ∧ va < x.va + x.len))

end Sys2Proof.Machine
end

