-- ==== Sys2Proof/Machine/LoadStore.lean ====
section
/-! DEFINITION. Loads, stores, full-empty forms and atomics (R309-R313), the memory nodes that perform them (R166-R171), and
the arrival of their answers (R154, R310, R316). -/

namespace Sys2Proof.Machine

/-! ## The orders of requests (R166-R171) -/

/-- The points of the pieces of an access. -/
def pointsOf (s : State) (ps : List (Nat × Nat × Nat)) : List Point := ps.map (fun p => pointOf s.dev p.2.2)

/-- The point at which a request's next event is performed. -/
def MemReq.nextPoint (r : MemReq) (s : State) : Option Point :=
  match r.pieces with
  | [] => none
  | (_, _, pa) :: _ =>
    match r.kind with
    | .barInit x _ _ | .barArrive x _ | .gatherRead _ _ x _ _ => some (.slice x)
    | .gjoin g _ | .gleave g _ | .gsize g _ => some (.record g)
    | _ => some (pointOf s.dev pa)

/-- A request of an engine or of a node that serves it, not of the thread itself (R169). -/
def MemReq.ofEngine (r : MemReq) : Bool :=
  match r.kind with
  | .engineRead _ _ | .portWrite _ _ _ _ _ _ | .gatherRead _ _ _ _ _ | .manifest _ => true
  | _ => false

/-- A request still has an event to perform at a point: `points` names the point of each piece, in order. -/
def MemReq.owes (r : MemReq) (p : Point) : Bool := (r.points.drop (r.points.length - r.pieces.length)).contains p

/-- The scopes nest (R168): tile, cluster, die, package, domain, system. -/
def scopeHas (sc : Scope) (c : Nat) : Point → Bool
  | .tile x => siteCluster x = c
  | .slice x =>
    match sc with
    | .tile => false
    | .cluster => siteCluster x = c
    | .die => siteDie x = dieOf c
    | .package | .domain | .system => true
  | .dieStore d =>
    match sc with
    | .tile | .cluster => false
    | .die => d = dieOf c
    | .package | .domain | .system => true
  | .channel _ | .record _ =>
    match sc with
    | .tile | .cluster | .die => false
    | .package | .domain | .system => true
  | .device _ _ =>
    match sc with
    | .domain | .system => true
    | .tile | .cluster | .die | .package => false
  | .cxl =>
    match sc with
    | .system => true
    | .tile | .cluster | .die | .package | .domain => false

/-- The route-class messages of a thread to tiles of its cluster, not yet received (R168). -/
def tileSends (s : State) (t : Nat) : List Nat :=
  (s.packets.filter (fun p => p.type = 6 && p.ddev = s.dev && p.dclu = cluCode (t / 8) && decide (p.dep / 32 % 8 < 7)
    && s.ops.any (fun o => o.id = p.op && o.thread = t))).map (·.id)

/-- A request has an event still to perform within a scope of a cluster. -/
def MemReq.owesIn (r : MemReq) (sc : Scope) (c : Nat) : Bool := (r.points.drop (r.points.length - r.pieces.length)).any (scopeHas sc c)

/-- Every access of a thread within package scope before the id `id` has been performed (R171). -/
def performedBefore (s : State) (t id : Nat) : Bool :=
  s.reqs.all (fun r => !(r.src = t && decide (r.id < id) && !r.ofEngine && r.owesIn .package (t / 8))) && (tileSends s t).all (fun q => decide (id < q))

/-- Every earlier access of a thread within package scope has been performed (R171). -/
def packagePerformed (s : State) (t : Nat) : Bool :=
  s.reqs.all (fun r => !(r.src = t && !r.ofEngine && r.owesIn .package (t / 8))) && (tileSends s t).isEmpty

/-- Every earlier access of a thread to a point has been performed (R167). -/
def pointPerformed (s : State) (t : Nat) (p : Point) : Bool := s.reqs.all (fun r => !(r.src = t && !r.ofEngine && r.owes p))

/-- Every access of a thread to a point from before the command `id` has been performed (R169): of a tile, the messages sent to it. -/
def forkReady (s : State) (t id : Nat) (p : Point) : Bool :=
  s.reqs.all (fun r => !(r.src = t && decide (r.id < id) && !r.ofEngine && r.owes p)) &&
    (match p with
     | .tile x => s.packets.all (fun q => !(q.type = 6 && q.ddev = s.dev && decide (q.id < id) && siteOfEp (cluDecode q.dclu) q.dep = x
         && s.ops.any (fun o => o.id = q.op && o.thread = t)))
     | _ => true)

/-! ## Issue -/

/-- A counter at 1,023 makes the instruction wait (R154). -/
def ctrFull (th : Thread) (c : Ctr) (n : Nat) : Bool := 1023 < th.ctr c + n

/-! ### Requests and answers as packets (R70-R72, R75) -/

/-- The requests that an engine may have on their way. -/
def enginePermits : Nat := 32

/-- The number under which the permits of an engine are counted. -/
def engineKey (slice gen : Nat) : Nat := slice * 2 + gen / 4

/-- The permits that a request of a cluster to a slice spends: the cluster's own on its die, else those of its die's egress agent. -/
def slicePermit (c slice : Nat) : Nat × Nat :=
  if dieOf c = siteDie slice then (2 ^ 20 + c * 2 ^ 14 + slice, 4) else (2 ^ 33 + dieOf c * 2 ^ 14 + slice, 8)

/-- The permit that a request spends, with the number there are; a request of a control core to the hearth spends none. -/
def MemReq.permit (r : MemReq) : Option (Nat × Nat) :=
  match r.kind with
  | .engineRead x g | .portWrite x g _ _ _ _ => some (engineKey x g, enginePermits)
  | .barInit x _ _ | .barArrive x _ => some (slicePermit (r.src / 8) x)
  | .gatherRead h _ x _ _ => some (slicePermit (siteCluster h) x)
  | _ => none

/-- The slice a request goes to; none for the hearth. -/
def MemReq.slice (r : MemReq) : Option Nat :=
  match r.kind with
  | .barInit x _ _ | .barArrive x _ | .gatherRead _ _ x _ _ => some x
  | _ => none

/-- The cluster and the endpoint a request comes from. -/
def MemReq.source (r : MemReq) : Nat × Nat :=
  match r.kind with
  | .engineRead x g | .portWrite x g _ _ _ _ => (siteCluster x, epOf x (1 + g / 4))
  | .gatherRead x n _ _ _ => (siteCluster x, epOf x (3 + n))
  | _ => (r.src / 8, coreEp)

/-- The order of sources at a point (R313): die, cluster, endpoint, thread; the CXL port last. -/
def MemReq.rank (r : MemReq) : Nat :=
  r.source.1 * 2 ^ 20 + r.source.2 * 2 ^ 12 + (if r.ofEngine then 0 else r.src)
def threadRank (t : Nat) : Nat := t / 8 * 2 ^ 20 + coreEp * 2 ^ 12 + t
def hostRank : Nat := 2 ^ 30

/-- What acts at a point without a request of its own came there in the cycle before: a request of an earlier source that came in that cycle is still to
be performed (R313; log entry 11). -/
def behindAt (s : State) (p : Point) (rank : Nat) : Bool :=
  s.reqs.any (fun q => !q.parked && (q.arr.map (fun a => decide (a + 1 = s.now))).getD false && q.nextPoint s = some p && decide (q.rank < rank))

/-- A core, or a node, reaches the slices of its own cluster directly (R8). -/
def MemReq.direct (r : MemReq) : Bool := (r.slice.map (fun x => decide (siteCluster x = r.source.1))).getD false

/-- A request that carries nothing but its address: TYPE 0. -/
def MemReq.reads_ (r : MemReq) : Bool :=
  match r.kind with
  | .load _ _ | .ldf | .ldt | .gsize _ _ | .nsend _ | .engineRead _ _ | .gatherRead _ _ _ _ _ => true
  | _ => false

/-- The answer brings data: TYPE 1, else an acknowledgement, TYPE 3. -/
def MemReq.answerLen (r : MemReq) : Nat :=
  match r.kind with
  | .load _ _ | .ldf | .ldt | .gsize _ _ | .amo _ _ _ _ | .barArrive _ _ | .gatherRead _ _ _ _ _ => 1
  | .nsend _ => r.flits
  | _ => 0

/-- The cluster in row 7 whose port leads down to the hearth from a cluster (R70). -/
def portCluster (c : Nat) : Nat := clusterAt (dieOf c) (cxOf c) 7

/-- The grove of a thread or of a slice, for a packet. -/
def MemReq.home (s : State) (r : MemReq) : Nat :=
  (match r.kind with
   | .engineRead x _ | .portWrite x _ _ _ _ _ | .gatherRead x _ _ _ _ => s.groveOfSite x
   | _ => s.groveOfThread r.src).getD 0

/-- The stream of a generator. -/
def genOf (s : State) (x k : Nat) : Option Stream :=
  ((s.slice x).engines.toList[k / 4]?).bind (fun e => (e.gens.toList[k % 4]?).join)

/-- A read is of an exact flow: of a cutter, all but its B rows are (R77, R352). -/
def exactRead (st : Stream) (tok0 : Nat) : Bool :=
  match st.cut with
  | some c => !st.lossy || ((c.asked[st.win.findIdx (fun w => w.idx = tok0)]?).map (fun a => decide (a.1 < 3))).getD false
  | none => !st.lossy

/-- The weight of a record by its first token: a partial's field holds its place in the tree (R95). -/
def Tok.ownWeight (t : Tok) : Nat := if t.kind = 6 then 1 else t.weight

/-- The fields of a packet that name the flow of an engine's request or answer (R71, R352): FLOW, EX, SEQ, and of the tokens that its payload carries
RECS and WSUM. -/
def flowFields (s : State) (r : MemReq) (p : Packet) : Packet :=
  match r.kind with
  | .engineRead x g =>
    (match genOf s x g with
     | none => p
     | some st => if st.op ≠ r.edge then p else
         { p with flow := st.sid, ex := exactRead st r.tok0, seq := (if st.cut.isSome then r.tok0 else r.tok0 / (st.pat.rlen + 1)) % 2 ^ 32 })
  | .portWrite x g _ _ _ _ =>
    (match genOf s x g with
     | none => p
     | some st => if st.op ≠ r.edge then p else
         let first := r.tok0 % (st.pat.rlen + 1) = 0
         let w := ((st.held.find? (fun h => h.pos = r.tok0)).map (fun h => h.tok.ownWeight)).getD 1
         { p with flow := st.sid, ex := !st.lossy, seq := (st.seq0 + r.tok0 / (st.pat.rlen + 1)) % 2 ^ 32,
                  recs := if p.len ≠ 0 && first then 1 else 0, wsum := if p.len ≠ 0 && first then w else 0 })
  | _ => p

/-- The packet of a request, on lane 2: to the hearth, or to a slice (R70-R72; log entry 56). -/
def requestPacket (s : State) (r : MemReq) : Packet :=
  let pa := (r.pieces.head?.map (·.2.2)).getD 0
  let c := r.source.1
  let remote := match r.slice, regionOf s.dev pa with
    | none, .remote d => d
    | _, _ => s.dev
  let n := if r.reads_ then 0 else 1
  flowFields s r
  { ddev := remote, sdev := s.dev, vl := 2, type := if r.reads_ then 0 else 2, len := n, olen := n,
    dclu := cluCode ((r.slice.map siteCluster).getD (portCluster c)), dep := (r.slice.map (fun x => epOf x 0)).getD 0, sclu := cluCode c, sep := r.source.2,
    addr := pa, hub := r.slice.isNone, grove := r.home s, req := some r.id }

/-- The answer to a request that has been performed, on lane 1 (R72). -/
def answerPacket (s : State) (r : MemReq) : Packet :=
  let n := r.answerLen
  let c := r.source.1
  flowFields s r
  { ddev := s.dev, sdev := s.dev, vl := 1, type := if n = 0 then 3 else 1, len := n, olen := n, dclu := cluCode c, dep := r.source.2,
    sclu := cluCode ((r.slice.map siteCluster).getD (portCluster c)), sep := (r.slice.map (fun x => epOf x 0)).getD 0, grove := r.home s, req := some r.id }

/-- The answers of requests that have been performed set out: from the hearth, or from the slice's router; to a core of the slice's cluster, at
once. An engine's read is answered by its response. -/
def answerAll (s : State) : State :=
  (s.reqs.filter (fun r => r.pieces.isEmpty && r.ans = 0 && (match r.kind with
    | .engineRead _ _ => false
    | _ => true))).foldl (fun s r =>
      let s1 := { s with reqs := s.reqs.map (fun q => if q.id = r.id then { q with ans := if r.direct then 2 else 1 } else q) }
      if r.direct then s1
      else if r.slice.isSome then s1.send (answerPacket s r)
      else { s1 with packets := s1.packets ++ [{ (answerPacket s r).sealed with id := s1.nextId, at_ := .hub, due := s1.now }], nextId := s1.nextId + 1 }) s

/-- A permit of a kind is free. -/
def permitFree (s : State) (k : Nat × Nat) : Bool := decide (tabGet s.permits k.1 0 < k.2)

/-- A new request. It goes on its way when it has its permit; one that was performed as it issued is answered. -/
def addReq (s : State) (r : MemReq) : State :=
  let used := (r.permit.map (fun k => tabGet s.permits k.1 0)).getD 0
  let free := (r.permit.map (fun k => decide (used < k.2))).getD true
  let r1 : MemReq := { r with ans := 0, sent := free, arr := if r.direct then some s.now else none }
  let s1 := { s with reqs := s.reqs ++ [r1] }
  if r.pieces.isEmpty then answerAll s1
  else if !free then s1
  else
    let s2 := match r.permit with
      | some k => { s1 with permits := tabPut s1.permits k.1 (used + 1) }
      | none => s1
    if r.direct then s2 else s2.send (requestPacket s r1)

/-- A new request of the issuing thread; it counts on `c` and the instruction retires. -/
def putReq (s : State) (r : MemReq) (c : Ctr) : State :=
  let id := s.nextId
  let p := s.me.retire s.me.next
  let th := p.1.addCtr c 1
  let th := match r.dst with
    | some d => th.pendReg d id
    | none => th
  addReq { s.setMe th with nextId := id + 1 } { r with id := id, src := s.focus, give := p.2 }

/-- The key id of the issuing thread's grove. -/
def myKey (s : State) : Nat :=
  match s.groveOfThread s.focus with
  | some g => (s.grove g).key
  | none => 0

/-- The virtual address of an I-format access (R309). -/
def vaOf (th : Thread) (a : Reg) (imm : BitVec 15) : Nat := (th.reg a + immSigned th imm).toNat

/-- A fence whose scope takes in a point of an access still waits for an earlier access within the scope (R168, R321). -/
def fenced (s : State) (ps : List Point) : Bool :=
  s.me.fences.any (fun f => s.unperformed f.1 && (match f.2 with
    | some sc => ps.any (scopeHas sc (s.focus / 8))
    | none => true))

/-- A load (R309): every piece is translated and checked, then the request goes to memory. -/
def loadForm (d a : Reg) (imm : BitVec 15) (size : Nat) (signed : Bool) (s : State) : State :=
  if ctrFull s.me .ld 1 then stall s
  else
    issue { srcs := [a], dst := some d, mem := true } (fun s =>
      let va := vaOf s.me a imm
      match translatePieces s s.focus .load va (piecesOf va size) with
      | (.error (c, bad), s1) => trapMe s1 c (BitVec.ofNat 64 bad)
      | (.ok ps, s1) =>
        if fenced s1 (pointsOf s1 ps) then stall s1 else
        putReq s1 { kind := .load size signed, va := va, key := myKey s1, pieces := ps, points := pointsOf s1 ps, dst := some d } .ld) s

/-- A store (R309): the low bytes of rs. -/
def storeForm (r a : Reg) (imm : BitVec 15) (size : Nat) (s : State) : State :=
  if ctrFull s.me .st 1 then stall s
  else
    issue { srcs := [a, r], mem := true } (fun s =>
      let va := vaOf s.me a imm
      match translatePieces s s.focus .store va (piecesOf va size) with
      | (.error (c, bad), s1) => trapMe s1 c (BitVec.ofNat 64 bad)
      | (.ok ps, s1) =>
        if fenced s1 (pointsOf s1 ps) then stall s1 else
        putReq s1 { kind := .store size ((s1.me.reg r).toNat % 2 ^ (8 * size)), va := va, key := myKey s1, pieces := ps,
                    points := pointsOf s1 ps } .st) s

def execLdB (d a : Reg) (imm : BitVec 15) (s : State) : Res := .next (loadForm d a imm 1 true s)
def execLdBu (d a : Reg) (imm : BitVec 15) (s : State) : Res := .next (loadForm d a imm 1 false s)
def execLdH (d a : Reg) (imm : BitVec 15) (s : State) : Res := .next (loadForm d a imm 2 true s)
def execLdHu (d a : Reg) (imm : BitVec 15) (s : State) : Res := .next (loadForm d a imm 2 false s)
def execLdW (d a : Reg) (imm : BitVec 15) (s : State) : Res := .next (loadForm d a imm 4 true s)
def execLdWu (d a : Reg) (imm : BitVec 15) (s : State) : Res := .next (loadForm d a imm 4 false s)
def execLdD (d a : Reg) (imm : BitVec 15) (s : State) : Res := .next (loadForm d a imm 8 false s)
def execStB (r a : Reg) (imm : BitVec 15) (s : State) : Res := .next (storeForm r a imm 1 s)
def execStH (r a : Reg) (imm : BitVec 15) (s : State) : Res := .next (storeForm r a imm 2 s)
def execStW (r a : Reg) (imm : BitVec 15) (s : State) : Res := .next (storeForm r a imm 4 s)
def execStD (r a : Reg) (imm : BitVec 15) (s : State) : Res := .next (storeForm r a imm 8 s)

/-! ## Full-empty forms (R21, R311) -/

/-- The physical address of a full-empty word, or the cause that refuses the form: alignment, then the page (R311). -/
def feAddress (s : State) (a : Access) (va : Nat) : Except Cause Nat × State :=
  if va % 8 ≠ 0 then (.error 0x20F, s)
  else
    match translate s s.focus va with
    | (.error c, s1) => (.error c, s1)
    | (.ok e, s1) =>
      match accessFault s1 a e with
      | some c => (.error c, s1)
      | none => (.ok (e.at_ va), s1)

/-- ldf and ldt: the request goes to the node, and the thread waits with its pc at the instruction until the node performs it (R151,
R311; log entry 86). -/
def feLoad (d a : Reg) (imm : BitVec 15) (kind : MemKind) (s : State) : State :=
  if ctrFull s.me .ld 1 then stall s
  else
    issue { srcs := [a], dst := some d, mem := true } (fun s =>
      let va := vaOf s.me a imm
      match feAddress s .fe va with
      | (.error c, s1) => trapMe s1 c (BitVec.ofNat 64 va)
      | (.ok pa, s1) =>
        if fenced s1 (pointsOf s1 [(0, 8, pa)]) then stall s1 else
        let id := s1.nextId
        addReq { s1.setMe { s1.me.addCtr .ld 1 with status := .waiting (.word id) } with nextId := id + 1 }
          { id := id, src := s1.focus, kind := kind, va := va, key := myKey s1, pieces := [(0, 8, pa)], points := pointsOf s1 [(0, 8, pa)],
            dst := some d }) s

/-- The thread of an ldf or ldt goes on when the node has performed it: its register awaits the data, and its later accesses wait for them
(R171, R305, R311). The second part is the give that the answer pushes. -/
def resumeWord (s : State) (r : MemReq) : State × Option (Fin 8) :=
  let th := s.thr r.src
  if th.status = .waiting (.word r.id) then
    let p := th.retire th.next
    let h := match r.dst with
      | some d => p.1.pendReg d r.id
      | none => p.1
    (s.setThr r.src { h with fences := h.fences ++ [(r.id, none)], since := s.now }, p.2)
  else (s, none)

/-- A word that a full-empty load reads: its answer is ready, a take empties the word, and its thread goes on. -/
def serveWord (s : State) (r : MemReq) (pa : Nat) : MemReq × State :=
  let x := resumeWord s r
  ({ r with pieces := [], parked := false, res := s.numAt r.key pa 8, bad := s.badAt pa 8, give := x.2 },
   match r.kind with
   | .ldt => x.1.setFull pa false
   | _ => x.1)

/-- The requests waiting at a word, served in arrival order while it is full (R21). -/
def serveWaiters (s : State) (pa : Nat) : List MemReq → List MemReq × State
  | [] => ([], s)
  | r :: rest =>
    if r.parked && r.pieces = [(0, 8, pa)] && s.isFull pa then
      let x := serveWord s r pa
      let y := serveWaiters x.2 pa rest
      (x.1 :: y.1, y.2)
    else
      let y := serveWaiters s pa rest
      (r :: y.1, y.2)

/-- A word filled: written, full, and its waiters served (R21). -/
def fillWord (s : State) (key pa : Nat) (bs : List Byte) : State :=
  let s1 := (s.writeBytes key pa bs).setFull pa true
  let y := serveWaiters s1 pa s1.reqs
  answerAll { y.2 with reqs := y.1 }

/-- stf and stfo (R311): performed once every earlier access of the thread within package scope is (R171). A full word faults an stf with
0x20C, before any later instruction issues (R190), so an stf is performed as it issues (log entry 11); an stfo, which the word cannot fault, goes to
the node as a request. -/
def feStore (r a : Reg) (imm : BitVec 15) (overwrite : Bool) (s : State) : State :=
  if ctrFull s.me .st 1 then stall s
  else
    issue { srcs := [a, r], mem := true } (fun s =>
      let va := vaOf s.me a imm
      match feAddress s .feStore va with
      | (.error c, s1) => trapMe s1 c (BitVec.ofNat 64 va)
      | (.ok pa, s1) =>
        if fenced s1 (pointsOf s1 [(0, 8, pa)]) then stall s1
        else if overwrite then
          putReq s1 { kind := .fill (s1.me.reg r).toNat, va := va, key := myKey s1, pieces := [(0, 8, pa)], points := pointsOf s1 [(0, 8, pa)] } .st
        else if !packagePerformed s1 s1.focus || behindAt s1 (pointOf s1.dev pa) (threadRank s1.focus) then stall s1
        else if s1.isFull pa then trapMe s1 0x20C (BitVec.ofNat 64 va)
        else
          let s2 := fillWord s1 (myKey s1) pa (bytesOf 8 (s1.me.reg r).toNat)
          putReq s2 { kind := .fillAck, va := va, key := myKey s2, points := pointsOf s2 [(0, 8, pa)] } .st) s

def execLdf (d a : Reg) (imm : BitVec 15) (s : State) : Res := .next (feLoad d a imm .ldf s)
def execLdt (d a : Reg) (imm : BitVec 15) (s : State) : Res := .next (feLoad d a imm .ldt s)
def execStf (r a : Reg) (imm : BitVec 15) (s : State) : Res := .next (feStore r a imm false s)
def execStfo (r a : Reg) (imm : BitVec 15) (s : State) : Res := .next (feStore r a imm true s)

/-! ## Atomics (R312) -/

def amoBytes : AmoSize → Nat
  | .w => 4 | .d => 8

/-- An atomic: the address is aligned to the size (0x20F), the page allows stores (0x202) and is not host memory (0x210). For
cas the old value of rd is the expected one. -/
def amoForm (op : Nat) (d a b : Reg) (sz : AmoSize) (s : State) : State :=
  if ctrFull s.me .st 1 then stall s
  else
    issue { srcs := if op = 4 then [a, b, d] else [a, b], dst := some d, mem := true } (fun s =>
      let n := amoBytes sz
      let va := (s.me.reg a).toNat
      if va % n ≠ 0 then trapMe s 0x20F (BitVec.ofNat 64 va)
      else
        match translatePieces s s.focus .amo va [(va, n)] with
        | (.error (c, bad), s1) => trapMe s1 c (BitVec.ofNat 64 bad)
        | (.ok ps, s1) =>
          if fenced s1 (pointsOf s1 ps) then stall s1 else
          putReq s1 { kind := .amo op n ((s1.me.reg b).toNat % 2 ^ (8 * n)) ((s1.me.reg d).toNat % 2 ^ (8 * n)), va := va,
                      key := myKey s1, pieces := ps, points := pointsOf s1 ps, dst := some d } .st) s

def execAmoAdd (d a b : Reg) (sz : AmoSize) (s : State) : Res := .next (amoForm 0 d a b sz s)
def execAmoMin (d a b : Reg) (sz : AmoSize) (s : State) : Res := .next (amoForm 1 d a b sz s)
def execAmoMax (d a b : Reg) (sz : AmoSize) (s : State) : Res := .next (amoForm 2 d a b sz s)
def execAmoSwap (d a b : Reg) (sz : AmoSize) (s : State) : Res := .next (amoForm 3 d a b sz s)
def execAmoCas (d a b : Reg) (sz : AmoSize) (s : State) : Res := .next (amoForm 4 d a b sz s)

/-- A number of `n` bytes as a signed integer. -/
def signedOf (n v : Nat) : Int := if 2 ^ (8 * n - 1) ≤ v then (v : Int) - 2 ^ (8 * n) else v

/-- What an atomic writes (R312): old value m, operand b, expected value e, all of `n` bytes. -/
def amoResult (op n m b e : Nat) : Nat :=
  match op with
  | 0 => (m + b) % 2 ^ (8 * n)
  | 1 => if signedOf n b < signedOf n m then b else m
  | 2 => if signedOf n m < signedOf n b then b else m
  | 3 => b
  | _ => if m = e then b else m

/-! ## The nodes perform requests (R166) -/

def putBack (s : State) (r : MemReq) : State := { s with reqs := s.reqs.map (fun q => if q.id = r.id then r else q) }

/-- The grove's group set changed at the hearth record (R153). -/
def setGroup (s : State) (g k : Nat) (f : List Nat → List Nat) : State :=
  let gr := s.grove g
  s.setGrove g { gr with groups := gr.groups.set! k (f (gr.groups[k]?.getD [])) }

/-! ## Permits (R75) -/

/-- A request that waits for a permit of a kind. -/
def MemReq.unsent (k : Nat) (r : MemReq) : Bool := !r.sent && r.permit.map (·.1) = some k

/-- A permit returns: the next request that waited for one takes it, and goes on its way. -/
def returnPermit (s : State) (k : Nat) : State :=
  match s.reqs.find? (·.unsent k) with
  | some r =>
    let s1 := { s with reqs := s.reqs.map (fun q => if q.id = r.id then { q with sent := true } else q) }
    if r.direct then s1 else s1.send (requestPacket s1 r)
  | none => { s with permits := tabPut s.permits k (tabGet s.permits k 0 - 1) }

/-- The permit of a request that its target has taken out of its buffer returns. -/
def MemReq.release (s : State) (r : MemReq) : State := (r.permit.map (fun k => returnPermit s k.1)).getD s

/-- Requests withdrawn, with their packets. -/
def withdraw (s : State) (f : MemReq → Bool) : State :=
  let gone := s.reqs.filter f
  (gone.filter (fun r => r.sent && !r.pieces.isEmpty)).foldl MemReq.release
    { s with reqs := s.reqs.filter (fun r => !f r), packets := s.packets.filter (fun p => !gone.any (fun r => p.req = some r.id)) }

/-- The pieces that one event of an engine's read takes: of a flit read jointly all of them, else the first (R52). -/
def eventPieces (r : MemReq) (off : Nat) : List (Nat × Nat × Nat) :=
  if r.joint.contains (off / 32) then r.pieces.filter (fun p => p.1 / 32 = off / 32) else r.pieces.take 1

/-- The response to an engine's read (R70, R71, R352): TYPE 1, on lane 1, pruneable, from the hearth into the requester's column. R73 has no endpoint
for the hearth's memory agent: SCLU names the cluster of the port that it comes up by, and SEP is 0 (log entry 56). -/
def respond (s : State) (r : MemReq) (slice gen : Nat) : State :=
  match genOf s slice gen with
  | none => s
  | some st =>
    if st.op ≠ r.edge then s
    else
      let rl := st.pat.rlen + 1
      let n := r.flits
      let c := siteCluster slice
      { s with
        packets := s.packets ++ [({
          id := s.nextId, ddev := s.dev, sdev := s.dev, vl := 1, cls := 0, type := 1, pr := true, ex := exactRead st r.tok0, len := n, olen := n,
          dclu := cluCode c, dep := epOf slice (1 + gen / 4), sclu := cluCode (portCluster c), flow := st.sid,
          seq := (if st.cut.isSome then r.tok0 else r.tok0 / rl) % 2 ^ 32, addr := r.va,
          wsum := ((List.range n).filter (fun i => (r.tok0 + i) % rl = 0)).length,
          recs := ((List.range n).filter (fun i => (r.tok0 + i) % rl = 0)).length,
          pay := (List.range n).map (fun i => BitVec.ofNat 256 (r.res / 2 ^ (256 * i))),
          at_ := .hub, grove := st.grove, val := r.res, op := r.edge, tok0 := r.tok0,
          reads := r.reads, joint := r.joint, badAt := r.badAt, gen := gen } : Packet).sealed],
        nextId := s.nextId + 1 }

/-- One event of an engine's read; after the last, the permit returns and the response leaves (R75). -/
def readEvent (s : State) (r : MemReq) (slice gen off : Nat) (rest : List (Nat × Nat × Nat)) : State :=
  let ev := eventPieces r off
  let left := if ev.length = 1 then rest else r.pieces.filter (fun p => !ev.contains p)
  let bad := ev.any (fun p => s.badAt p.2.2 p.2.1)
  let r1 : MemReq := { r with
    pieces := left, res := ev.foldl (fun a p => a + s.numAt r.key p.2.2 p.2.1 * 2 ^ (8 * p.1)) r.res,
    badAt := if bad then r.badAt ++ [off / 32] else r.badAt }
  if left.isEmpty then
    (let s1 := respond (r1.release s) r1 slice gen
     { s1 with reqs := s1.reqs.filter (fun q => q.id ≠ r.id) })
  else putBack s r1

/-- A class message whose payload has been read, still at its source. -/
def messageReady (p : Packet) : Bool := p.type = 6 && p.at_ = .backoff 0 && p.pay.length = p.len

/-- Messages leave once their payload has come: R74 keeps the order in which the packets of a source enter the network, and no rule orders that by the
issue of their nsends (log entry 39). -/
def leaveSends (s : State) : State :=
  s.packets.foldl (fun s p =>
    if messageReady p then
      { s with packets := s.packets.filter (fun q => q.id ≠ p.id) ++ [{ p.sealed with at_ := .router (cluDecode p.sclu) 6 }] }
    else s) s

/-- The flits of a message have been read and have come back (R337): the packet may leave. Uncorrectable data leave as a free value (log entry 4). -/
def sendEvent (s : State) (r : MemReq) (pkt : Nat) : State :=
  let s1 : State := { s with reqs := s.reqs.filter (fun q => q.id ≠ r.id) }
  let s2 := if r.bad then s1.drawFree.2 else s1
  let pay := fun (p : Packet) => (List.range p.len).map (fun i => if r.bad then s1.drawFree.1 else BitVec.ofNat 256 (r.res / 2 ^ (256 * i)))
  leaveSends { s2 with packets := s2.packets.map (fun p => if p.id = pkt then { p with pay := pay p } else p) }

/-- The answer to a request has come: a message's flits go out with it; a thread's answer is there to be taken. -/
def answerHere (s : State) (id : Nat) : State :=
  match s.reqs.find? (fun r => r.id = id) with
  | none => s
  | some r =>
    match r.kind with
    | .nsend pkt => sendEvent s r pkt
    | _ => putBack s { r with ans := 2 }

/-- A request has come to its node (R313: the cycle in which it did). -/
def requestHere (s : State) (id : Nat) : State :=
  { s with reqs := s.reqs.map (fun r => if r.id = id then { r with arr := some s.now } else r) }

/-! ## The writes of store ports (R142-R148) -/

/-- A line of 256 bytes is poisoned (R13, R93, R143). -/
def poisonLine (s : State) (pa : Nat) : State :=
  { s with badLine := ((List.range 8).map (· + pa / 256 * 8)).foldl (fun l q => if l.contains q then l else q :: l) s.badLine }

def setGenOf (s : State) (x k : Nat) (st : Stream) : State :=
  let e := ((s.slice x).engines.toList[k / 4]?).getD {}
  s.setSlice x { s.slice x with engines := at_ (s.slice x).engines (k / 4) (fun _ => { e with gens := at_ e.gens (k % 4) (fun _ => some st) }) }

/-- The stream's dirty range with more bytes written (R26). -/
def Stream.dirty (st : Stream) (va n : Nat) : Stream :=
  if n = 0 then st else { st with lo := some (Nat.min (st.lo.getD va) va), hi := Nat.max st.hi (va + n - 1) }

/-- The pieces that one event of a store port's write takes: the whole token (R52), or, of a token that a width converter cuts, one piece
(R60, R170). -/
def writeEvent (r : MemReq) : List (Nat × Nat × Nat) := if r.joint.isEmpty then r.pieces.take 1 else r.pieces

/-- A stream pauses at a token; a pause that it is in stays the one the drain limit counts from (R192). -/
def Stream.pausedBy (st : Stream) (c : Cause) (va now : Nat) : Stream :=
  if st.paused.isSome then st else { st with paused := some (c, va), pausedAt := now }

/-- A stream pauses at a held token that met a full word: what follows of its port, or of its slice's commit, is not written (R148, R192). -/
def portStop (s : State) (r : MemReq) (slice gen : Nat) (exact : Bool) : State :=
  let later := fun (q : MemReq) =>
    match q.kind with
    | .portWrite y h e _ _ _ => y = slice && (if exact then e else h = gen) && !q.pieces.isEmpty && decide (r.id ≤ q.id)
    | _ => false
  let s1 := withdraw s later
  let s2 := s1.setSlice slice { s1.slice slice with commit := none }
  match genOf s2 slice gen with
  | none => s2
  | some st =>
    (setGenOf s2 slice gen { st.pausedBy 0x20C r.va s.now with headHeld := true }).sendRecord st.grove
      { cause := 0x20C, src := 1, clu := cluCode (siteCluster slice), ep := epOf slice (1 + gen / 4), sid := st.sid, addr := r.va % 2 ^ 48 }

/-- Poisoned spans whose 32 bytes all lie in the runs that one event writes, as (PA, bytes), are clean again (R93, R143; log entry 6). -/
def State.clearSpans (s : State) (ps : List (Nat × Nat)) : State :=
  { s with badLine := s.badLine.filter (fun q => !(List.range 32).all (fun i => ps.any (fun p => decide (p.1 ≤ q * 32 + i ∧ q * 32 + i < p.1 + p.2)))) }

/-- The bytes of a port's write put in memory: `reads` names the words of full-empty pages, which fill in ascending address (R148). -/
def portPut (s : State) (r : MemReq) (poison : Bool) (data : Nat) (ev : List (Nat × Nat × Nat)) : State :=
  let s0 := if poison then ev.foldl (fun s p => poisonLine s p.2.2) s else s.clearSpans (ev.map (fun p => (p.2.2, p.2.1)))
  ev.foldl (fun s p =>
    let bs := bytesOf p.2.1 (data / 2 ^ (8 * p.1))
    if r.reads.contains p then fillWord s r.key p.2.2 bs else s.writeBytes r.key p.2.2 bs) s0

/-- One event of a store port's write: a full word stops its stream; else the bytes are written, and the token leaves the port's hold with its
last event. -/
def portEvent (s : State) (r : MemReq) (slice gen : Nat) (exact poison : Bool) (data : Nat) : State :=
  let ev := writeEvent r
  if ev.any (fun p => r.reads.contains p && s.isFull p.2.2) then portStop s r slice gen exact
  else
    let s1 := portPut s r poison data ev
    let left := r.pieces.drop ev.length
    let s2 := if left.isEmpty then r.release s1 else s1
    let s3 := { s2 with reqs := s2.reqs.map (fun q => if q.id = r.id then { r with pieces := left } else q) }
    match genOf s3 slice gen with
    | none => s3
    | some st =>
      let st1 := ev.foldl (fun (st : Stream) p => st.dirty (r.va + p.1) p.2.1) st
      setGenOf s3 slice gen (if left.isEmpty then { st1 with held := st1.held.filter (fun h => h.pos ≠ r.tok0) } else st1)

/-- A word of slice store that a gather node asked for (R62, R89, R93). -/
def gatherWord (s : State) (r : MemReq) (x off : Nat) : MemReq :=
  match (s.slice x).read off 4 with
  | .ok v => { r with pieces := [], res := v }
  | .error c => if c = 0x1C3 then { r with pieces := [], bad := true } else { r with pieces := [], fault := some c }

/-- One event of a request at its point. -/
def performPiece (s : State) (r : MemReq) (off n pa : Nat) (rest : List (Nat × Nat × Nat)) : State :=
  match r.kind with
  | .load _ _ =>
    putBack s { r with pieces := rest, res := r.res + s.numAt r.key pa n * 2 ^ (8 * off), bad := r.bad || s.badAt pa n }
  | .store _ v => putBack (s.writeNum r.key pa n (v / 2 ^ (8 * off))) { r with pieces := rest }
  | .manifest v => putBack (s.writeNum r.key pa n (v / 2 ^ (8 * off))) { r with pieces := rest }
  | .amo op size b e =>
    let m := s.numAt r.key pa size
    putBack (s.writeNum r.key pa size (amoResult op size m b e)) { r with pieces := rest, res := m, bad := s.badAt pa n }
  | .ldf | .ldt =>
    if s.isFull pa then
      let x := serveWord s r pa
      putBack x.2 x.1
    else { s with reqs := s.reqs.filter (fun q => q.id ≠ r.id) ++ [{ r with parked := true }] }
  | .barInit x off n =>
    putBack ((r.release s).setSlice x ((s.slice x).put s.now rankNode off 16 (Barrier.bits ⟨n, n, 0⟩) false)) { r with pieces := rest }
  | .gjoin g k =>
    let i := (s.grove g).threadIndex r.src
    putBack (setGroup s g k (fun l => if l.contains i then l else l ++ [i])) { r with pieces := rest }
  | .gleave g k =>
    let i := (s.grove g).threadIndex r.src
    putBack (setGroup s g k (fun l => l.filter (fun j => j ≠ i))) { r with pieces := rest }
  | .gsize g k => putBack s { r with pieces := rest, res := ((s.grove g).groups[k]?.getD []).length }
  | .nsend _ => putBack s { r with pieces := rest, res := r.res + s.numAt r.key pa n * 2 ^ (8 * off), bad := r.bad || s.badAt pa n }
  | .engineRead slice gen => readEvent s r slice gen off rest
  | .portWrite slice gen exact poison data _ => portEvent s r slice gen exact poison data
  | .fill v => putBack (fillWord s r.key pa (bytesOf 8 v)) { r with pieces := rest }
  | .gatherRead _ _ x off _ => putBack (r.release s) (gatherWord s r x off)
  | .fillAck | .barArrive _ _ => s

/-- One event of a request is performed at its point, and what has been performed whole is answered. -/
def performEvent (s : State) (r : MemReq) (off n pa : Nat) (rest : List (Nat × Nat × Nat)) : State := answerAll (performPiece s r off n pa rest)

/-- A fill synchronises: it follows every earlier access of its thread within package scope (R171). The read of a word of slice store waits a cycle
where its granule has just been written (R83). -/
def syncReady (s : State) (r : MemReq) : Bool :=
  match r.kind with
  | .fill _ => performedBefore s r.src r.id
  | .gatherRead _ _ x off _ => !(s.slice x).fresh s.now off
  | _ => true

/-- The order among an engine's own requests: the two reads of a token that crosses a line in walk order (R52), a live port's writes in arrival
order (R144), and the commits of a slice in theirs (R146). -/
def afterOf (r q : MemReq) : Bool :=
  match r.kind, q.kind with
  | .engineRead x g, .engineRead y h => x = y && g = h && q.edge = r.edge && decide (r.tok0 < q.tok0 + q.flits ∧ q.tok0 < r.tok0 + r.flits)
  | .portWrite x g e _ _ _, .portWrite y h _ _ _ _ => x = y && (if e then (match q.kind with
      | .portWrite _ _ e1 _ _ _ => e1
      | _ => false) else g = h)
  | _, _ => false

/-- Another request that came to the same point in the same cycle goes first (R313). A request is performed in a later cycle than the one it came in,
so that all of that cycle are there. -/
def comesAfter (s : State) (r q : MemReq) (p : Point) : Bool :=
  q.arr = r.arr && !q.parked && q.nextPoint s = some p && decide (q.rank < r.rank)

/-- A request has come to its node, and nothing that program order, a fork edge, R171, R313 or the engine's own order puts before its next event
is still to be performed (R167, R169). -/
def mayPerform (s : State) (r : MemReq) (p : Point) : Bool :=
  syncReady s r && r.sent && (r.arr.map (fun a => decide (a < s.now))).getD false && decide (r.due ≤ s.now) && s.reqs.all (fun q => !comesAfter s r q p)
    && s.reqs.all (fun q => !(q.src = r.src && decide (q.id < (if r.ofEngine then r.edge else r.id)) && !q.ofEngine && q.owes p))
    && s.reqs.all (fun q => !(decide (q.id < r.id) && afterOf r q && !q.pieces.isEmpty))

/-- The grove whose access a request is. -/
def MemReq.groveOf (r : MemReq) (s : State) : Option Nat :=
  match r.kind with
  | .engineRead slice _ | .portWrite slice _ _ _ _ _ | .gatherRead slice _ _ _ _ => s.groveOfSite slice
  | _ => s.groveOfThread r.src

/-- MEMORY_REQUEST_PERFORM: a node performs the next event of a request, in an order that the rules allow; a request that
must still wait is not performed (R166, R167). A parked full-empty request waits for its fill. -/
def execMemoryRequestPerform (id : Nat) (s : State) : Res :=
  .next
    (match s.reqs.find? (fun r => r.id = id) with
     | none => s
     | some r =>
       match r.pieces, r.nextPoint s with
       | (off, n, pa) :: rest, some p =>
         if r.parked || !mayPerform s r p then s else performEvent (s.noteDomain (r.groveOf s) pa) r off n pa rest
       | _, _ => s)

/-! ## Answers (R154, R310, R316) -/

/-- A register's value arrives: it is written if the register still awaits this operation; uncorrectable data poison it. -/
def GReg.arrive (x : GReg) (id gen : Nat) (v : Word64) (bad : Option Nat) (now : Nat) : GReg :=
  if x.pend = some id then { val := v, gen := gen, pend := none, poison := bad, readyAt := now } else x

def Thread.arrive (th : Thread) (id : Nat) (v : Word64) (bad : Option Nat) (now : Nat) : Thread :=
  { th with regs := th.regs.map (fun x => x.arrive id th.gen v bad now),
            specs := th.specs.map (fun g => { g with regs := g.regs.map (fun x => x.arrive id th.gen v bad now) }) }

/-- A give pushed, if there is one. -/
def Thread.pushGive (th : Thread) : Option (Fin 8) → Thread
  | none => th
  | some f => th.fifoPush f

/-- The value a load writes (R309, R312). -/
def MemReq.value (r : MemReq) : Word64 :=
  match r.kind with
  | .load n signed => if signed then BitVec.ofInt 64 (signedOf n r.res) else BitVec.ofNat 64 r.res
  | .amo _ n _ _ => BitVec.ofInt 64 (signedOf n r.res)
  | _ => BitVec.ofNat 64 r.res

def takenBranch (op : Nat) (a b : Word64) : Bool :=
  match op with
  | 0 => a = b
  | 1 => a ≠ b
  | 2 => lessS a b
  | 3 => !lessS a b
  | 4 => lessU a b
  | _ => !lessU a b

end Sys2Proof.Machine
end

