-- ==== Sys2Proof/Machine/Branch.lean ====
section
/-! DEFINITION. Branches and jumps (R314-R316): targets, hints, and opening a speculation generation. -/

namespace Sys2Proof.Machine

/-- A jump to a byte address of the code store, or 0x064 (R314, R315). -/
def jumpTo (s : State) (d : Reg) (link : Word64) (target : Int) : State :=
  if 0 ≤ target ∧ target ≤ 0xFFFC ∧ target % 4 = 0 then
    s.setMe ((s.me.setReg d link (s.now + 1)).retireNow target.toNat)
  else trapMe s 0x064 0

/-- The target of a branch or jal: offsets count words from its own address (R236). -/
def relTarget (th : Thread) (off : Int) : Int := (th.pc : Int) + 4 * off

/-- The outstanding load that a register awaits (R316). -/
def awaitedLoad (s : State) (th : Thread) (r : Reg) : Option Nat :=
  if r = 0 then none
  else
    match (th.regs[r]).pend with
    | none => none
    | some id =>
      (s.reqs.find? (fun q => q.id = id)).bind (fun q =>
        match q.kind with
        | .load _ _ | .ldf | .ldt => some id
        | _ => none)

/-- The lowest generation number 1-15 that is not open (R58). -/
def freeGenNum (th : Thread) : Option Nat := ((List.range 15).map (· + 1)).find? (fun n => th.specs.all (fun g => g.num ≠ n))

/-- Whether an operand is available, or is what an outstanding load will bring. -/
def speculable (s : State) (th : Thread) (r : Reg) : Bool := !th.busyReg s.now r || (awaitedLoad s th r).isSome

/-- A hinted branch whose operand awaits a load opens a generation and goes on along the hinted path (R58, R316). Where 15 generations are open it
waits. Where either path is a target outside the code store, the branch issues again once that path is decided: the fault is held until then, and a hinted
path that is such a target issues nothing. The branch issues: its take is popped and its give reserved. -/
def openGen (op : Nat) (a b : Reg) (hinted : Bool) (off : BitVec 13) (s : State) : State :=
  let th := s.me
  let target := relTarget th off.toInt
  let inStore : Bool := decide (0 ≤ target ∧ target ≤ 0xFFFC)
  let held := hinted && !inStore
  let onPath : Int := if held then 0x10000 else if hinted then target else th.pc + 4
  let other : Int := if hinted then th.pc + 4 else if inStore then target else th.pc
  match freeGenNum th, (awaitedLoad s th a).or (awaitedLoad s th b) with
  | some n, some id =>
    if !speculable s th a || !speculable s th b || mustWait s { spec := true } then stall s
    else
      s.setMe { (th.retire onPath.toNat).1 with
        specs := th.specs ++ [{ num := n, req := id, pcAt := th.pc, other := other.toNat, hinted := hinted, op := op, held := held,
                                ra := a, rb := b, regs := th.regs, mark := th.mark, group := th.group }] }
  | _, _ => stall s

/-- A conditional branch (R314, R316). A branch that is not taken never faults on its target. -/
def branchForm (op : Nat) (a b : Reg) (h : Hint) (off : BitVec 13) (s : State) : State :=
  if s.me.busyReg s.now a || s.me.busyReg s.now b then
    (match h with
     | .none => stall s
     | .taken => openGen op a b true off s
     | .fall => openGen op a b false off s)
  else
    issue { srcs := [a, b], spec := true } (fun s =>
      if takenBranch op (s.me.reg a) (s.me.reg b) then jumpTo s 0 0 (relTarget s.me off.toInt)
      else s.setMe (s.me.retireNow s.me.next)) s

def execBeq (a b : Reg) (h : Hint) (off : BitVec 13) (s : State) : Res := .next (branchForm 0 a b h off s)
def execBne (a b : Reg) (h : Hint) (off : BitVec 13) (s : State) : Res := .next (branchForm 1 a b h off s)
def execBlt (a b : Reg) (h : Hint) (off : BitVec 13) (s : State) : Res := .next (branchForm 2 a b h off s)
def execBge (a b : Reg) (h : Hint) (off : BitVec 13) (s : State) : Res := .next (branchForm 3 a b h off s)
def execBltu (a b : Reg) (h : Hint) (off : BitVec 13) (s : State) : Res := .next (branchForm 4 a b h off s)
def execBgeu (a b : Reg) (h : Hint) (off : BitVec 13) (s : State) : Res := .next (branchForm 5 a b h off s)

/-- The link of a jump (R315). -/
def linkOf (th : Thread) : Word64 := BitVec.ofNat 64 (th.pc + 4)

def execJal (d : Reg) (off : BitVec 20) (s : State) : Res :=
  .next (issue { dst := some d, spec := true } (fun s => jumpTo s d (linkOf s.me) (relTarget s.me off.toInt)) s)

/-- jr: the source is read before the link is written (R315). -/
def execJr (d a : Reg) (s : State) : Res :=
  .next (issue { srcs := [a], dst := some d, spec := true }
    (fun s => jumpTo s d (linkOf s.me) ((s.me.reg a).toNat : Int)) s)

/-! ## A load's answer resolves the branches that waited for it (R316) -/

/-- A branch that has been decided retires: its give is pushed (R155). -/
def SpecGen.retired (g : SpecGen) (th : Thread) : Thread :=
  match g.mark with
  | some (false, f) => th.fifoPush f
  | _ => th

/-- A branch sent back to issue again: the entry it took stands again, and the one it reserved is free (R190: a faulting instruction has changed
nothing). -/
def SpecGen.reissued (g : SpecGen) (th : Thread) : Thread :=
  let th1 : Thread := { th.endGroup with pc := g.pcAt, status := .ready, mark := g.mark, group := g.group }
  match g.mark with
  | none => th1
  | some (true, f) => { th1 with fifos := th1.fifos.set f { th1.fifos[f] with entries := th1.gen :: (th1.fifos[f]).entries } }
  | some (false, f) => { th1 with fifos := th1.fifos.set f { th1.fifos[f] with reserved := (th1.fifos[f]).reserved - 1 } }

/-- What a load's answer makes of a thread's generations: the thread, the numbers confirmed, the numbers discarded. A branch
whose operand is still awaited waits on; a poisoned operand, or one that is stale under STRICT, sends the thread back to the branch, which then traps,
and so does a target outside the code store that it takes. -/
def resolveGens (th : Thread) (id : Nat) : List SpecGen → List SpecGen → Thread × List SpecGen × List Nat
  | _, [] => (th, th.specs, [])
  | older, g :: younger =>
    if g.req ≠ id ∨ g.sure then resolveGens th id (older ++ [g]) younger
    else
      let at_ : Thread := { th with regs := g.regs }
      let more := (at_.regs[g.ra]).pend.or (at_.regs[g.rb]).pend
      let undone := (g :: younger).map (·.num)
      match more with
      | some q =>
        let g1 := { g with req := q }
        resolveGens { th with specs := older ++ g1 :: younger } id (older ++ [g1]) younger
      | none =>
        if (sourceFault at_ [g.ra, g.rb]).isSome then ({ g.reissued at_ with specs := older }, older, undone)
        else if takenBranch g.op (at_.reg g.ra) (at_.reg g.rb) = g.hinted && !g.held then
          let g1 := { g with sure := true }
          resolveGens { g.retired th with specs := older ++ g1 :: younger } id (older ++ [g1]) younger
        else if g.other = g.pcAt || (g.held && takenBranch g.op (at_.reg g.ra) (at_.reg g.rb)) then ({ g.reissued at_ with specs := older }, older, undone)
        else ({ (g.retired at_).endGroup with pc := g.other, specs := older, status := .ready }, older, undone)

/-- The generations at the head that are confirmed: they are closed, oldest first. -/
def closeSure : List SpecGen → List Nat × List SpecGen
  | [] => ([], [])
  | g :: rest =>
    if g.sure then
      let x := closeSure rest
      (g.num :: x.1, x.2)
    else ([], g :: rest)

end Sys2Proof.Machine
end

