-- ==== Sys2Proof/Machine/System.lean ====
section
/-! DEFINITION. System registers (R317, R318, R338), trap, eret, halt, idle, fence, wait (R319-R321, R331), barriers
(R156, R332) and groups (R153, R333). -/

namespace Sys2Proof.Machine

/-! ## System registers (R317) -/

/-- The numbers only a privileged thread may name. -/
def sysPriv (n : Nat) : Bool := 0x100 ≤ n && n ≤ 0x105

/-- The numbers that are registers: those of R317, and frsrc and frec0-3 of R338. -/
def sysKnown (n : Nat) : Bool := n ≤ 0x00E || (0x010 ≤ n && n ≤ 0x013) || sysPriv n

/-- The numbers that may be written. -/
def sysWritable (n : Nat) : Bool := n ≤ 2 || n = 4 || n = 5 || n = 6 || n = 0x100 || (0x102 ≤ n && n ≤ 0x105)

/-- The grove of the issuing thread. -/
def myGroveId (s : State) : Nat := (s.groveOfThread s.focus).getD 0
def myGrove (s : State) : Grove := s.grove (myGroveId s)

/-- The value of a system register (R317, R338). -/
def sysValue (s : State) (n : Nat) : Nat :=
  let t := s.focus
  let th := s.me
  let g := myGrove s
  let c := t / 8
  match n with
  | 0x000 => th.cause.toNat
  | 0x001 => th.epc
  | 0x002 => th.tval.toNat
  | 0x003 => th.trapActive.toNat + 2 * th.specs.length
  | 0x004 => g.tvec.getD 0
  | 0x005 => th.role
  | 0x006 => (s.coreOf c).ageM
  | 0x007 => th.gen + th.strict.toNat * 2 ^ 12
  | 0x008 => g.threadIndex t
  | 0x009 => dieOf c * 2 ^ 14 + cxOf c * 2 ^ 11 + cyOf c * 2 ^ 7 + g.indexOf c
  | 0x00A => s.dev
  | 0x00B => s.now
  | 0x00C => g.exact.toNat
  | 0x00D => th.ld + th.st * 2 ^ 10 + th.cp * 2 ^ 20 + th.mx * 2 ^ 30
  | 0x00E => th.frsrc.toNat
  | 0x010 => (th.frec[0]).toNat
  | 0x011 => (th.frec[1]).toNat
  | 0x012 => (th.frec[2]).toNat
  | 0x013 => (th.frec[3]).toNat
  | 0x100 => g.troot
  | 0x101 => g.key
  | 0x102 => g.tdrain
  | 0x103 => g.dlbase
  | 0x104 => g.dlsize
  | 0x105 => g.ctroot
  | _ => 0

/-- A translation root: 4 KiB aligned, in local LPDDR (R317). -/
def rootOk (v : Nat) : Bool := v % 4096 = 0 && decide (v < 0x018000000000)

/-- The value is in the range of the register (R317; for epc and tvec log entry 12). -/
def sysInRange (n v : Nat) : Bool :=
  match n with
  | 0x000 => decide (v < 1024)
  | 0x004 => v % 4 = 0 && decide (v < 0x10000)
  | 0x005 => decide (v < 3)
  | 0x006 => 16 ≤ v && v ≤ 4096
  | 0x100 => rootOk v
  | 0x102 => 1 ≤ v && v ≤ 65535
  | 0x103 => v % 64 = 0
  | 0x104 => v = 0 || (6 ≤ v && v ≤ 16)
  | 0x105 => rootOk v
  | _ => true

/-- The translation buffers of a grove's cores emptied (R24, R318). -/
def purgeTlbs (s : State) (g : Grove) : State :=
  g.clusters.foldl (fun s c => s.setCore c { s.coreOf c with tlb := [] }) s

/-- The value written (R317, R318). -/
def sysWrite (s : State) (n v : Nat) : State :=
  let th := s.me
  let g := myGrove s
  let c := s.focus / 8
  match n with
  | 0x000 => s.setMe { th with cause := BitVec.ofNat 10 v }
  | 0x001 => s.setMe { th with epc := v / 4 * 4 }
  | 0x002 => s.setMe { th with tval := BitVec.ofNat 64 v }
  | 0x004 => s.setGrove (myGroveId s) { g with tvec := some v }
  | 0x005 => s.setMe { th with role := v }
  | 0x006 => s.setCore c { s.coreOf c with ageM := v }
  | 0x100 => purgeTlbs (s.setGrove (myGroveId s) { g with troot := v }) g
  | 0x102 => s.setGrove (myGroveId s) { g with tdrain := v }
  | 0x103 => s.setGrove (myGroveId s) { g with dlbase := v }
  | 0x104 => s.setGrove (myGroveId s) { g with dlsize := v }
  | 0x105 => s.setGrove (myGroveId s) { g with ctroot := v }
  | _ => s

/-- sysr (R317): 0x065 for an unassigned number and for a privileged one from a thread that is not privileged. -/
def execSysr (d : Reg) (n : BitVec 10) (s : State) : Res :=
  .next (issue { dst := some d } (fun s =>
    if !sysKnown n.toNat || (sysPriv n.toNat && !(myGrove s).priv) then trapMe s 0x065 0
    else finish s d (BitVec.ofNat 64 (sysValue s n.toNat)) 1) s)

/-- sysw (R317): also 0x065 for a register that is read-only, and 0x061 for a value out of range, which it keeps out. -/
def execSysw (a : Reg) (n : BitVec 10) (s : State) : Res :=
  .next (issue { srcs := [a] } (fun s =>
    let v := (s.me.reg a).toNat
    if !sysKnown n.toNat || (sysPriv n.toNat && !(myGrove s).priv) || !sysWritable n.toNat then trapMe s 0x065 0
    else if !sysInRange n.toNat v then trapMe s 0x061 0
    else
      let s1 := sysWrite s n.toNat v
      s1.setMe (s1.me.retireNow s1.me.next)) s)

/-! ## Traps, halt, idle (R319, R320) -/

def execTrap (code : BitVec 10) (s : State) : Res :=
  .next (issue {} (fun s => trapMe s 0x0E1 (code.setWidth 64)) s)

def execEret (s : State) : Res :=
  .next (issue {} (fun s => s.setMe (s.me.retireNow s.me.epc).returnTrap) s)

/-- The thread's own loads, stores, atomics and full-empty forms have completed (R320). -/
def ownDone (s : State) (t : Nat) : Bool :=
  s.reqs.all (fun r => r.src ≠ t ||
    (match r.kind with
     | .load _ _ | .store _ _ | .amo _ _ _ _ | .ldf | .ldt | .fill _ | .fillAck => false
     | _ => true))

def execHalt (s : State) : Res :=
  .next (issue {} (fun s =>
    if !ownDone s s.focus then stall s else s.setMe { s.me.retireNow s.me.next with status := .halted }) s)

def execIdle (s : State) : Res :=
  .next (issue {} (fun s =>
    if !ownDone s s.focus then stall s else s.setMe { s.me.retireNow s.me.next with status := .waiting .idle }) s)

/-! ## Fences and waits (R168, R331) -/

/-- fence: the thread's later accesses within the scope wait until its outstanding requests within the scope are answered, and its messages to tiles
of its cluster received (R168, R321). -/
def execFence (sc : Scope) (s : State) : Res :=
  .next (issue {} (fun s =>
    let ids := (s.reqs.filter (fun r => r.src = s.focus && !r.ofEngine && r.points.any (scopeHas sc (s.focus / 8)))).map (·.id)
    let th := s.me.retireNow s.me.next
    s.setMe { th with fences := th.fences.filter (fun f => s.unperformed f.1) ++ (ids ++ tileSends s s.focus).map (fun i => (i, some sc)) }) s)

/-- A counter is at or below a limit; 31 leaves it unwaited (R331). -/
def atMost (n : Nat) (limit : BitVec 5) : Bool := limit = 31 || decide (n ≤ limit.toNat)

def execWait (l c p m : BitVec 5) (s : State) : Res :=
  .next (issue {} (fun s =>
    let th := s.me
    if atMost th.ld l && atMost th.st c && atMost th.cp p && atMost th.mx m then s.setMe (th.retireNow th.next) else stall s) s)

/-! ## Barriers (R156, R332) -/

/-- The request of an instruction whose event is performed at a slice or at the hearth record. -/
def pointReq (s : State) (k : MemKind) (p : Point) (dst : Option Reg) (c : Ctr) : State :=
  putReq s { kind := k, pieces := [(0, 0, 0)], points := [p], dst := dst } c

/-- bar.init: n in 1-65,535, else 0x304; the object at a slice of the grove, aligned, else 0x305. -/
def execBarInit (a b : Reg) (s : State) : Res :=
  .next (if ctrFull s.me .st 1 then stall s else
    issue { srcs := [a, b], mem := true } (fun s =>
      let n := (s.me.reg b).toNat
      if n = 0 ∨ 65535 < n then trapMe s 0x304 0
      else
        match barrierAt (myGrove s) (s.me.reg a).toNat with
        | .error c => trapMe s c 0
        | .ok (x, off) => if fenced s [.slice x] then stall s else pointReq s (.barInit x off n) (.slice x) none .st) s)

/-- arrive: one event at the slice, performed once the thread's earlier accesses within package scope are (R171; log entry
11), its cluster has a permit (R75) and no copy has written the object in this cycle (R83); the phase returns later. An object that is not initialised faults with 0x305. -/
def execArrive (d a : Reg) (s : State) : Res :=
  .next (if ctrFull s.me .ld 1 then stall s else
    issue { srcs := [a], dst := some d, mem := true } (fun s =>
      match barrierAt (myGrove s) (s.me.reg a).toNat with
      | .error c => trapMe s c 0
      | .ok (x, off) =>
        if fenced s [.slice x] || !packagePerformed s s.focus || !permitFree s (slicePermit (s.focus / 8) x) || (s.slice x).taken s.now off
            || behindAt s (.slice x) (threadRank s.focus) then stall s
        else
          match (s.slice x).read off 16 with
          | .error c => trapMe s c 0
          | .ok v =>
            let b := barrierOf v
            if b.part = 0 then trapMe s 0x305 0
            else
              let left := (b.pend + 2 ^ 32 - 1) % 2 ^ 32
              let last := left = 0
              let b1 : Barrier := ⟨b.part, if last then b.part else left, if last then (b.phase + 1) % 2 ^ 32 else b.phase⟩
              let s1 := s.setSlice x ((s.slice x).put s.now rankNode off 16 b1.bits false)
              putReq s1 { kind := .barArrive x off, points := [.slice x], dst := some d, res := b.phase } .ld) s)

/-- await: waits until the phase differs from g[rb][31:0] (R332). -/
def execAwait (a b : Reg) (s : State) : Res :=
  .next (issue { srcs := [a, b], mem := true } (fun s =>
    match barrierAt (myGrove s) (s.me.reg a).toNat with
    | .error c => trapMe s c 0
    | .ok (x, off) =>
      if fenced s [.slice x] || !pointPerformed s s.focus (.slice x) || (s.slice x).fresh s.now off then stall s
      else
        match (s.slice x).read off 16 with
        | .error c => trapMe s c 0
        | .ok v =>
          if (barrierOf v).phase = (s.me.reg b).toNat % 2 ^ 32 then stall s else s.setMe (s.me.retireNow s.me.next)) s)

/-! ## Groups (R153, R333) -/

/-- A group command: an id above 63 faults with 0x306; the effect is performed at the grove's hearth record. -/
def groupForm (k : Nat → Nat → MemKind) (a : Reg) (dst : Option Reg) (c : Ctr) (s : State) : State :=
  if ctrFull s.me c 1 then stall s
  else
    issue { srcs := [a], dst := dst, mem := true } (fun s =>
      let id := (s.me.reg a).toNat
      if 63 < id then trapMe s 0x306 0
      else if fenced s [.record (myGroveId s)] then stall s
      else pointReq s (k (myGroveId s) id) (.record (myGroveId s)) dst c) s

def execGjoin (a : Reg) (s : State) : Res := .next (groupForm .gjoin a none .st s)
def execGleave (a : Reg) (s : State) : Res := .next (groupForm .gleave a none .st s)
def execGsize (d a : Reg) (s : State) : Res := .next (groupForm .gsize a (some d) .ld s)

end Sys2Proof.Machine
end

