-- ==== Sys2Proof/Machine/Walk.lean ====
section
/-! DEFINITION. The walk of a pattern (R48-R52): records as the little-endian image of their bit map, the element a page fixes, tokens
and the bytes each is read from, the checks at bind (R51), and extents as an engine uses them (R22, R23). -/

namespace Sys2Proof.Machine

/-! ## Records in memory (R357) -/

/-- A signed field. -/
def sfield (v lo n : Nat) : Int := (BitVec.ofNat n (field v lo n)).toInt

/-- A pattern record (R48). -/
def patternOf (v : Nat) : Pattern :=
  { base := field v 448 64,
    e := [field v 432 16, field v 416 16, field v 400 16, field v 384 16, field v 368 16],
    s := [sfield v 336 32, sfield v 304 32, sfield v 272 32, sfield v 240 32, sfield v 208 32],
    form := field v 206 2, rlen := field v 204 2, rlm1 := field v 184 20, win := field v 168 16, rsv := field v 0 168 }

def Pattern.ext (p : Pattern) (d : Nat) : Nat := p.e.getD d 0
def Pattern.stride (p : Pattern) (d : Nat) : Int := p.s.getD d 0
def Pattern.rl (p : Pattern) : Nat := p.rlen + 1
def Pattern.empty (p : Pattern) : Bool := p.e.any (· = 0)

/-- The points that hold `n` bytes from an address of a grove: one for each 64 bytes, and that of the last. -/
def rangePoints (s : State) (g : Grove) (va n : Nat) : List Point :=
  ((List.range (n / 64 + 2)).map (fun i => Nat.min (va + 64 * i) (va + n - 1))).filterMap (fun a =>
    match s.walkG g a with
    | .error _ => none
    | .ok e => some (pointOf s.dev (e.at_ a)))

/-- Nothing that a thread itself asked of memory is still to be performed. -/
def ownStoresDone (s : State) (t : Nat) : Bool := s.reqs.all (fun r => r.src ≠ t || r.ofEngine || r.pieces.isEmpty)

/-- The issuing thread's earlier accesses to the points that hold `n` bytes from an address have been performed (R169: a fork edge). -/
def earlierDone (s : State) (g : Grove) (va n : Nat) : Bool :=
  ownStoresDone s s.focus || (rangePoints s g va n).all (fun p => pointPerformed s s.focus p)

/-! ## Lists in order -/

/-- A list put in order by a key, equal keys as they stand. -/
def insertBy {α : Type} (f : α → Nat) (a : α) : List α → List α
  | [] => [a]
  | b :: rest => if f a < f b then a :: b :: rest else b :: insertBy f a rest
def sortBy {α : Type} (f : α → Nat) (l : List α) : List α := l.foldl (fun acc a => insertBy f a acc) []

/-! ## The element a page fixes (R49) -/

/-- The descriptor of a format slot of a grove (R32): fmt0, fmt30 and fmt31 are fixed. -/
def fmtDesc (g : Grove) (f : Nat) : Word32 := g.image.fmts.getD f 0

/-- The code width in bits of a format of a page. -/
def codeWidth (g : Grove) (f : Nat) : Nat := if f = 0 then 8 else if f = 30 then 16 else if f = 31 then 32 else descWidth (fmtDesc g f)

/-- The element bytes of a block record (R19). -/
def blockBytes (g : Grove) (f : Nat) : Nat := (descBlock (fmtDesc g f) * codeWidth g f + 7) / 8

/-- The width in bytes of an element (R19, R49). -/
def elemWidth (g : Grove) (f geo : Nat) : Nat :=
  let n := codeWidth g f
  if f = 0 then 1 else if f = 30 then 2 else if f = 31 then 4
  else if geo = 1 then (blockBytes g f + 1 + 3) / 4 * 4
  else if n = 3 || n = 5 || n = 6 || n = 7 then n
  else 1

/-- The codes one element carries (R49). -/
def elemCodes (g : Grove) (f geo : Nat) : Nat :=
  let n := codeWidth g f
  if f = 0 || f = 30 || f = 31 then 1
  else if geo = 1 then descBlock (fmtDesc g f)
  else if n = 3 || n = 5 || n = 6 || n = 7 then 8
  else 8 / Nat.max 1 n

/-! ## Addresses -/

/-- The least and the greatest first byte of the pattern's elements. -/
def Pattern.span (p : Pattern) : Int × Int :=
  (List.range 5).foldl (fun a d =>
    let x := ((p.ext d : Int) - 1) * p.stride d
    (a.1 + min 0 x, a.2 + max 0 x)) ((p.base : Int), (p.base : Int))

/-- The rows of the walk, and the first address of row r (R49). -/
def Pattern.rows (p : Pattern) : Nat := p.ext 1 * p.ext 2 * p.ext 3 * p.ext 4
def Pattern.rowBase (p : Pattern) (r : Nat) : Int :=
  let i1 := r % p.ext 1
  let i2 := r / p.ext 1 % p.ext 2
  let i3 := r / (p.ext 1 * p.ext 2) % p.ext 3
  let i4 := r / (p.ext 1 * p.ext 2 * p.ext 3)
  (p.base : Int) + i1 * p.stride 1 + i2 * p.stride 2 + i3 * p.stride 3 + i4 * p.stride 4

/-- The bytes of memory a token of a row stands for: 32 in packed form, eight codes in widened form. -/
def tokenSpan (p : Pattern) (w codes : Nat) : Nat := if p.form = 1 then 8 * w / Nat.max 1 codes else 32

/-- Tokens in a row (R50). -/
def rowTokens (p : Pattern) (w codes : Nat) : Nat := (p.ext 0 * w + tokenSpan p w codes - 1) / Nat.max 1 (tokenSpan p w codes)

/-- Tokens of the walk. -/
def walkTokens (p : Pattern) (w codes : Nat) : Nat := if p.empty then 0 else p.rows * rowTokens p w codes

/-- The valid bytes of token t of a row. -/
def validBytes (p : Pattern) (w codes t : Nat) : Nat := Nat.min (tokenSpan p w codes) (p.ext 0 * w - t * tokenSpan p w codes)

/-- A run of bytes cut where it crosses a line of 256 bytes (R352). -/
def cutLines (off va n : Nat) : List (Nat × Nat × Nat) :=
  let k := 256 - va % 256
  if n ≤ k then [(off, va, n)] else [(off, va, k), (off + k, va + k, n - k)]

/-- The bytes of token `t` of row `r`, element by element in walk order: (offset in the token, VA, bytes). -/
def tokenParts (p : Pattern) (w codes r t : Nat) : List (Nat × Nat × Nat) :=
  let span := tokenSpan p w codes
  let first := t * span
  let last := first + validBytes p w codes t
  ((List.range (last / Nat.max 1 w + 1 - first / Nat.max 1 w)).map (· + first / Nat.max 1 w)).flatMap (fun e =>
    let lo := Nat.max first (e * w)
    let hi := Nat.min last ((e + 1) * w)
    if hi ≤ lo then []
    else cutLines (lo - first) (p.rowBase r + e * p.stride 0 + (lo - e * w : Nat)).toNat (hi - lo))

/-! ## A stream's tokens -/

/-- The grove of a stream. -/
def streamGrove (s : State) (st : Stream) : Grove := s.grove st.grove

def Stream.codes (s : State) (st : Stream) : Nat := elemCodes (streamGrove s st) st.fmt st.geo
def Stream.rowToks (s : State) (st : Stream) : Nat := Nat.max 1 (rowTokens st.pat st.w (st.codes s))

/-- The slice a stream of an id belongs to (R325). -/
def sidSlice (g : Grove) (sid : Nat) : Option Nat := g.sliceAt (sid / 512 % 128)

/-- A width converter bound on the stream (R51, R60). -/
def widthNode (s : State) (x : Nat) (store : Bool) (cp : Nat) : Bool :=
  (s.slice x).cfg.nodes.toList.any (fun n => n.kind = 3 && (if store then n.inp = some cp else n.out = some cp))

/-- A width converter cuts the tokens of a stream into narrower memory events (R60). -/
def Stream.narrow (s : State) (st : Stream) : Bool :=
  match sidSlice (streamGrove s st) st.sid with
  | some x => (st.kind = .load || st.kind = .fill || st.kind = .store) && widthNode s x (st.kind = .store) st.cp
  | none => false

/-- A run of bytes cut at aligned words of eight: (offset, VA, bytes). -/
def wordParts : Nat → Nat → Nat → Nat → List (Nat × Nat × Nat)
  | 0, _, _, _ => []
  | fuel + 1, off, va, n =>
    if n = 0 then []
    else
      let k := Nat.min n (8 - va % 8)
      (off, va, k) :: wordParts fuel (off + k) (va + k) (n - k)

/-- The bytes of token `i` of a pattern stream; through a width converter, the aligned words that hold them (R60; log entry 89). -/
def Stream.parts (s : State) (st : Stream) (i : Nat) : List (Nat × Nat × Nat) :=
  let l := tokenParts st.pat st.w (st.codes s) (i / st.rowToks s) (i % st.rowToks s)
  if st.narrow s then l.flatMap (fun p => wordParts 6 p.1 p.2.1 p.2.2) else l

def Stream.valid (s : State) (st : Stream) (i : Nat) : Nat := validBytes st.pat st.w (st.codes s) (i % st.rowToks s)

/-- The first address, and the bytes, of token `i` of a store's walk. -/
def Stream.storeVa (s : State) (st : Stream) (i : Nat) : Nat :=
  (st.pat.rowBase (i / st.rowToks s) + (i % st.rowToks s * tokenSpan st.pat st.w (st.codes s) : Nat)).toNat

def Stream.storeParts (s : State) (st : Stream) (i : Nat) : List (Nat × Nat × Nat) :=
  wordParts 6 0 (st.storeVa s i) (st.valid s i)

/-- The element bytes a token carries: of block records, not the scale byte and the padding (R56). -/
def Stream.elemBytes (s : State) (st : Stream) (i : Nat) : Nat :=
  let n := st.valid s i
  if st.geo = 1 then
    (let b := blockBytes (streamGrove s st) st.fmt
     ((List.range n).filter (fun j => (i % st.rowToks s * 32 + j) % st.w < b)).length)
  else n

/-- The element bytes of a whole fill (R56). -/
def fillBytes (g : Grove) (p : Pattern) (f geo : Nat) : Nat :=
  if p.empty then 0 else p.rows * p.ext 0 * (if geo = 1 then blockBytes g f else elemWidth g f geo)

/-! ## Checks at bind (R51) -/

/-- Any address of the pattern outside [0, 2^48), with `w` bytes an element. -/
def rangeFault (p : Pattern) (w : Nat) : Bool := decide (p.span.1 < 0) || decide ((2 : Int) ^ 48 < p.span.2 + w)

/-- Overlapping or descending writes (R51): F(0) = (E0 − 1)·S0 + w, F(d) = (Ed − 1)·|Sd| + F(d−1). -/
def storeOverlap (p : Pattern) (w : Nat) : Bool :=
  p.stride 0 ≠ (w : Int) ||
    (((List.range 4).map (· + 1)).foldl (fun (a : Bool × Int) d =>
      let sd : Int := (p.stride d).natAbs
      (a.1 || (decide (1 < p.ext d) && decide (sd < a.2)), a.2 + ((p.ext d : Int) - 1) * sd))
      (false, ((p.ext 0 : Int) - 1) * p.stride 0 + w)).1

/-- Misaligned base or strides (R51). -/
def misaligned (p : Pattern) (w : Nat) (store : Bool) : Bool :=
  if store then p.base % 32 ≠ 0 || [1, 2, 3, 4].any (fun d => p.stride d % 32 ≠ 0)
  else
    let a := Nat.min w 4
    p.base % a ≠ 0 || [0, 1, 2, 3, 4].any (fun d => p.stride d % (a : Int) ≠ 0)

/-- What an n-byte group counts as in the alignment checks (R49). -/
def alignWidth (g : Grove) (f geo : Nat) : Nat := if geo = 0 && elemCodes g f geo = 8 && f ≠ 0 then 1 else elemWidth g f geo

/-- The geometry disagrees with the descriptor (R19). -/
def geoFault (g : Grove) (f geo : Nat) : Bool :=
  if f = 0 || f = 30 || f = 31 then geo ≠ 0
  else (geo = 1 && descScale (fmtDesc g f) = 0) || (geo = 0 && descScale (fmtDesc g f) ≠ 0)

/-- A page names the empty descriptor (R31). -/
def emptyDesc (g : Grove) (f : Nat) : Bool := !(f = 0 || f = 30 || f = 31) && fmtDesc g f = 0

/-- What the checks need of a stream's first page: its format and geometry. -/
def pageFormat (e : TlbEntry) : Nat × Nat := (pteFmt e.leaf.toNat, pteGeo e.leaf.toNat)

/-- FORM or reserved bits, without a page (R51). -/
def formFault (p : Pattern) : Bool := 2 ≤ p.form || p.rsv ≠ 0

/-- The pattern checks of R51 in the order of the table, and the first page's format. A store stream's first page must allow stores (R20). -/
def patternCheck (s : State) (g : Grove) (p : Pattern) (store wide : Bool) : Except (Cause × Nat) (Nat × Nat × Option TlbEntry) :=
  if p.empty then (if formFault p then .error (0x240, 0) else .ok (0, 0, none))
  else if rangeFault p 1 then .error (0x243, 0)
  else
    match s.walkG g p.base with
    | .error c => .error (c, p.base)
    | .ok e =>
      let f := (pageFormat e).1
      let geo := (pageFormat e).2
      let w := elemWidth g f geo
      if store && !pteW e.leaf.toNat then .error (0x202, p.base)
      else if rangeFault p w then .error (0x243, 0)
      else if store && storeOverlap p w then .error (0x242, 0)
      else if misaligned p (alignWidth g f geo) store && !wide then .error (0x241, 0)
      else if walkTokens p w (elemCodes g f geo) % p.rl ≠ 0 then .error (0x244, 0)
      else if formFault p || (p.form = 1 && (f = 0 || geo = 1)) then .error (0x240, 0)
      else if emptyDesc g f then .error (0x245, 0)
      else if geoFault g f geo then .error (0x246, 0)
      else .ok (f, geo, some e)

/-! ## Extents in use (R22, R23) -/

/-- The last page address a pattern can name. -/
def Pattern.lastVa (p : Pattern) (w : Nat) : Nat := (p.span.2 + w - 1).toNat

/-- An extent, or an entry of a translation buffer, meets a range. -/
def meets (va len lo hi : Nat) : Bool := decide (va < hi) && decide (lo < va + len)

/-- A tinv of its grove that is under way holds the generator of a stream: it issues nothing until the tinv has patched it (R25). -/
def tinvHolds (s : State) (st : Stream) : Bool :=
  s.tinvs.any (fun v => v.2.1 = st.grove && (st.ext ++ st.nextExt).any (fun x => meets x.va x.len v.2.2.1 v.2.2.2))

/-- The set built upward from an address. -/
def extentsFrom (s : State) (g : Grove) (va last : Nat) : List Extent :=
  buildExtents s g last (last / 4096 - va / 4096 + 2) (va / 4096 * 4096) []

/-- The end of a set. -/
def extentsEnd (l : List Extent) : Nat := (l.getLast?.map (fun x => x.va + x.len)).getD 0

/-- The last address a stream's walk can reach; of a cutter, the top of the address space. -/
def Stream.lastVa (st : Stream) : Nat := if st.cut.isSome then 2 ^ 48 - 1 else st.pat.lastVa st.w

/-- The sets of a generator walked again in the current table, in place (R25). -/
def Stream.rewalk (s : State) (st : Stream) : Stream :=
  let again := fun (l : List Extent) =>
    match l.head? with
    | none => []
    | some x => extentsFrom s (streamGrove s st) x.va st.lastVa
  { st with ext := again st.ext, nextExt := again st.nextExt }

end Sys2Proof.Machine
end

