-- ==== Sys2Proof/Machine/Streams.lean ====
section
/-! DEFINITION. Stream commands (R47, R51, R56, R142, R145, R323-R330): the stream word, the checks at bind, binding a stream, the command
queue, and the controls of a bound stream. -/

namespace Sys2Proof.Machine

/-! ## Where streams are -/

/-- Where a stream is: in a generator 0-7 of a slice (4 × engine + generator), or waiting in a core's command queue. -/
inductive Loc where
  | gen (slice k : Nat) | queued (cluster i : Nat)
  deriving DecidableEq, Repr

/-- The engine of a slice, and the stream of a generator. -/
def engineOf (s : State) (x e : Nat) : Engine := ((s.slice x).engines.toList[e]?).getD {}
def setEngine (s : State) (x e : Nat) (v : Engine) : State :=
  s.setSlice x { s.slice x with engines := at_ (s.slice x).engines e (fun _ => v) }
def genStream (s : State) (x k : Nat) : Option Stream := ((engineOf s x (k / 4)).gens.toList[k % 4]?).join
def setGen (s : State) (x k : Nat) (v : Option Stream) : State :=
  setEngine s x (k / 4) { engineOf s x (k / 4) with gens := at_ (engineOf s x (k / 4)).gens (k % 4) (fun _ => v) }

/-- The streams of a slice's generators. -/
def sliceStreams (s : State) (x : Nat) : List (Loc × Stream) :=
  (List.range 8).filterMap (fun k => (genStream s x k).map (fun st => (Loc.gen x k, st)))

/-- The streams waiting in a grove's command queues. -/
def queuedStreams (s : State) (g : Grove) : List (Loc × Stream) :=
  g.clusters.flatMap (fun c => (s.coreOf c).cmdq.zipIdx.map (fun q => (Loc.queued c q.2, q.1.stream)))

/-- Every bound stream of a grove. -/
def groveStreams (s : State) (g : Grove) : List (Loc × Stream) := g.slices.flatMap (sliceStreams s) ++ queuedStreams s g

/-- The stream of an id in a grove (R325). -/
def findStream (s : State) (g : Grove) (sid : Nat) : Option (Loc × Stream) := (groveStreams s g).find? (fun l => l.2.sid = sid)

/-- A stream changed where it is. -/
def putStream (s : State) (l : Loc) (st : Stream) : State :=
  match l with
  | .gen x k => setGen s x k (some st)
  | .queued c i => s.setCore c { s.coreOf c with cmdq := (s.coreOf c).cmdq.modify i (fun q => { q with stream := st }) }

/-- A stream gone. -/
def dropStream (s : State) (l : Loc) : State :=
  match l with
  | .gen x k => setGen s x k none
  | .queued c i => s.setCore c { s.coreOf c with cmdq := (s.coreOf c).cmdq.eraseIdx i }

/-! ## The end of an operation (R154, R324) -/

/-- An operation has reached its stated end; OPERATION_COMPLETE lowers its counter. -/
def opDone (s : State) (id : Nat) : State :=
  { s with ops := s.ops.map (fun o => if o.id = id then { o with done := true } else o) }

/-- An operation that the issuing instruction starts: it counts, and its give waits for its end. The thread goes on. -/
def startOp (s : State) (c : Ctr) (n : Nat) (dst : Option Reg) : State :=
  let id := s.nextId
  let p := s.me.retire s.me.next
  let th := p.1.addCtr c n
  let th := match dst with
    | some d => th.pendReg d id
    | none => th
  { s.setMe th with ops := s.ops ++ [{ id := id, thread := s.focus, ctr := some c, dst := dst, give := p.2 }], nextId := id + 1 }

/-! ## The stream word (R325) -/

/-- The fields of a stream word. -/
structure SWord where
  fk : Nat
  fop : Nat
  slot : Nat
  tv : Bool
  tn : Nat
  node : Nat
  ls : Bool
  cp : Nat
  eng : Nat
  sl : Nat

def swordOf (v : Nat) : SWord :=
  { fk := field v 62 2, fop := field v 33 29, slot := field v 30 3, tv := flag v 27, tn := field v 23 4, node := field v 11 2, ls := flag v 10,
    cp := field v 8 2, eng := field v 7 1, sl := field v 0 7 }

/-- The bits a command may set in its stream word. -/
def swordMask : StreamKind → Nat
  | .load => 0xF800000 + 0x7FF
  | .fill => 0xFFFFFFFFC0000000 + 0xF800000 + 0x7FF
  | .store => 0xF800000 + 0x7FF
  | .gather => 0xF800000 + 0x1800 + 0x4FF
  | .scatter => 0x1800 + 0x4FF
  | .cut => 0xFFFE000 + 0x7FF

/-- A bit set that the command does not use, or a template number or a follow-on word without its flag. -/
def swordBits (k : StreamKind) (v : Nat) : Bool :=
  (BitVec.ofNat 64 v &&& ~~~BitVec.ofNat 64 (swordMask k)) ≠ 0
    || (match k with
        | .cut | .scatter => false
        | _ => !(swordOf v).tv && (swordOf v).tn ≠ 0)
    || (match k with
        | .fill => (swordOf v).fk = 0 && (swordOf v).fop ≠ 0
        | _ => false)

/-- The node kind a command needs (R226). -/
def nodeNeed : StreamKind → Option Nat
  | .gather => some 2
  | .scatter => some 1
  | _ => none

/-- The sinks of a circuit output of a slice. -/
def cpSinks (s : State) (x cp : Nat) : List (Nat × Nat × Nat) := sinksOf s x (0x40 + cp)

/-- The circuit check of a command (R326). -/
def circuitFault (s : State) (k : StreamKind) (x cp : Nat) : Bool :=
  let l := cpSinks s x cp
  match k with
  | .load => l.isEmpty
  | .fill => l.isEmpty || l.any (fun q => q.2.1 ≠ 0x44)
  | .cut => l.length ≠ 1 || l.any (fun q => q.2.1 ≠ 0x44)
  | .store | .gather | .scatter => false

/-- The checks of the stream word: 0x251, or the slice (R326). -/
def swordCheck (s : State) (g : Grove) (k : StreamKind) (v : Nat) : Except (Cause × Nat) Nat :=
  let w := swordOf v
  match g.sliceAt w.sl with
  | none => .error (0x251, 0)
  | some x =>
    let node := ((s.slice x).cfg.nodes.toList[w.node]?).getD {}
    if circuitFault s k x w.cp || (nodeNeed k).any (fun n => node.kind ≠ n) || (w.ls && g.exact) || swordBits k v then .error (0x251, 0)
    else if w.tv && (match k with
        | .cut | .scatter => false
        | _ => (tabFind (s.slice x).cfg.temps w.tn).isNone) then .error (0x251, 0)
    else .ok x

/-- The stream id of the next bind on an engine (R325). -/
def nextSid (s : State) (x : Nat) (w : SWord) : Nat := w.sl * 512 + w.eng * 256 + (engineOf s x w.eng).binds % 256

/-- The follow-on of a fill: its command as laid out in R289. -/
def followOf (fk f : Nat) : Option MatOp :=
  let acc := Fin.ofNat 4 (field f 27 2)
  match fk with
  | 1 => some (.mma acc (Fin.ofNat 8 (field f 24 3)) (Fin.ofNat 8 (field f 21 3)) (field f 11 10) (field f 0 11))
  | 2 =>
    let kl := field f 23 2 * 256
    some (.mmac acc (Fin.ofNat 8 (2 * field f 25 2)) (Fin.ofNat 8 (2 * field f 25 2 + 1)) kl (kl + field f 15 8 + 1) (field f 3 12))
  | 3 => some (.mmas acc (Fin.ofNat 8 (field f 24 3)) (Fin.ofNat 8 (field f 21 3)))
  | _ => none

/-! ## The pattern of a command -/

/-- A record of `n` bytes read by the loader. -/
def readRecord (s : State) (g : Grove) (va n : Nat) : Except (Cause × Nat) Nat :=
  match readVa s g (n + 1) va n with
  | .error x => .error x
  | .ok bs => .ok (ofBytes bs)

/-- The pattern in memory, or the template with its base moved (R326). -/
def commandPattern (s : State) (g : Grove) (x : Nat) (w : SWord) (va : Nat) : Except (Cause × Nat) Pattern :=
  if w.tv then
    (let p := tabGet (s.slice x).cfg.temps w.tn {}
     .ok { p with base := (p.base + va) % 2 ^ 64 })
  else
    match readRecord s g va 64 with
    | .error e => .error e
    | .ok v => .ok (patternOf v)

/-- The windows of a stream: one branch for each bit of its output's mask (R53, R227). -/
def branchesOf (s : State) (x cp win : Nat) : List (Nat × Nat) :=
  let m := ((s.slice x).cfg.branch.toList[cp]?).getD 0
  ((List.range 8).filter (fun b => m.getLsbD b)).map (fun b => (b, win))

/-- What a fill or a cut asks of a slot (R130), with the page's format: 0x142, 0x148, 0x140. A fill that runs ahead counts as pending for its own
thread only: no other thread sees it before it is confirmed (R59, R174). -/
def slotFault (s : State) (tile slot : Nat) (bad148 : Bool) : Option Cause :=
  let t := s.tile tile
  let x := (t.slots.toList[slot]?).getD {}
  if x.claim.isNone then some 0x142
  else if bad148 then some 0x148
  else if x.pending ≠ 0 || x.use ≠ 0 then some 0x140
  else if (groveStreams s (siteGrove s tile)).any (fun l =>
      l.2.kind = .fill && l.2.gen.isSome && l.2.thread = s.focus && l.2.slot = slot &&
        (match sidSlice (siteGrove s tile) l.2.sid with
         | some y => (cpSinks s y l.2.cp).any (fun q => q.1 = tile)
         | none => false)) then some 0x140
  else none

/-- The reservation of an exact store stream (R145). -/
def reservation (g : Grove) (p : Pattern) : Nat := if g.exact then 2 * (p.rlm1 + 1) * p.rl else 0

/-- A stream of a pattern that has passed the pattern checks. -/
def patternStream (s : State) (g : Grove) (k : StreamKind) (x : Nat) (w : SWord) (p : Pattern) (f : Nat × Nat × Option TlbEntry) : Stream :=
  let wd := elemWidth g f.1 f.2.1
  { sid := nextSid s x w, kind := k, thread := s.focus, grove := myGroveId s, pat := p, fmt := f.1, geo := f.2.1, w := wd,
    toks := walkTokens p wd (elemCodes g f.1 f.2.1), empty := p.empty, lossy := w.ls, cp := w.cp, node := w.node, slot := w.slot,
    round := p.rlm1 + 1, resv := if k = .store then reservation g p else 0,
    branches := if k = .store || k = .gather then [] else branchesOf s x w.cp p.win,
    follow := if k = .fill then followOf w.fk w.fop else none,
    ext := (f.2.2.map (fun _ => extentsFrom s g p.base (p.lastVa wd))).getD [],
    gen := s.me.specs.getLast?.map (·.num) }

/-- The checks of a pattern command after its stream word, in the order of R326. -/
def patternBind (s : State) (g : Grove) (k : StreamKind) (x : Nat) (w : SWord) (va : Nat) : Except (Cause × Nat) Stream :=
  match commandPattern s g x w va with
  | .error e => .error e
  | .ok p =>
    match patternCheck s g p (k = .store) (widthNode s x (k = .store) w.cp) with
    | .error e => .error e
    | .ok f =>
      let st := patternStream s g k x w p f
      match k with
      | .fill =>
        if 8192 < fillBytes g p f.1 f.2.1 then .error (0x248, 0)
        else
          match (cpSinks s x w.cp).findSome? (fun q =>
            slotFault s q.1 w.slot (!p.empty && (f.1 = 0 || f.1 = 31 || p.form = 1))) with
          | some c => .error (c, 0)
          | none => .ok st
      | .store =>
        if 1024 < st.resv then .error (0x24C, 0)
        else if (f.2.2.map (fun e => pteFe e.leaf.toNat)).getD false && (p.ext 0 * st.w) % 8 ≠ 0 then .error (0x24E, 0)
        else .ok st
      | .gather => if !p.empty && (f.1 ≠ 0 || (p.ext 0 * st.w) % 32 ≠ 0) then .error (0x251, 0) else .ok st
      | _ => .ok st

/-! ## The cut record (R327) -/

/-- A cutter from its record. -/
def cutterOf (v sw : Nat) : Cutter :=
  { vals := field v 448 64, rptr := field v 384 64, pos := field v 320 64, bbase := field v 256 64, bpitch := field v 224 32, row0 := field v 208 16,
    k := field v 188 20, bud := field v 176 12,
    pairs := [(Fin.ofNat 8 (field sw 25 3), Fin.ofNat 8 (field sw 22 3)), (Fin.ofNat 8 (field sw 19 3), Fin.ofNat 8 (field sw 16 3))],
    fe := flag sw 15, fa := Fin.ofNat 4 (field sw 13 2) }

/-- The slots of the pairs. -/
def Cutter.slots (c : Cutter) : List (Fin 8) := c.pairs.flatMap (fun p => [p.1, p.2])

/-- A page format a cut may have under GEO 0: BF16, or a descriptor of at most 8 bits without a scale (R19, R327). -/
def cutFormat (g : Grove) (f : Nat) : Bool := f = 30 || (f ≠ 0 && f ≠ 31 && codeWidth g f ≤ 8 && !emptyDesc g f && !geoFault g f 0)

/-- The fault of a B page (R327). -/
def bPageFault (g : Grove) (f geo : Nat) : Option Cause :=
  if f = 0 || f = 31 then some 0x148 else if geo ≠ 0 || !cutFormat g f then some 0x246 else none

/-- The bytes of a B row (R352). -/
def bRowBytes (g : Grove) (f : Nat) : Nat := 2 * codeWidth g f

/-- The aligned tokens that hold a range of bytes: (kind, address, bytes). -/
def rangeToks (kind va n : Nat) : List (Nat × Nat × Nat) :=
  if n = 0 then []
  else (List.range ((va + n - 1) / 32 + 1 - va / 32)).map (fun i => (kind, (va / 32 + i) * 32, 32))

/-- The checks of scut after its stream word (R130, R138, R327). -/
def cutBind (s : State) (g : Grove) (x : Nat) (w : SWord) (sw va : Nat) : Except (Cause × Nat) Stream :=
  match readRecord s g va 64 with
  | .error e => .error e
  | .ok v =>
    let c := cutterOf v sw
    let tile := ((cpSinks s x w.cp).head?.map (·.1)).getD 0
    if c.k = 0 || field v 0 176 ≠ 0 || !c.slots.Nodup then .error (0x251, 0)
    else if c.bud < 4 || 2048 < c.bud then .error (0x180, 0)
    else
      match s.walkG g c.vals with
      | .error k => .error (k, c.vals)
      | .ok e =>
        let f := (pageFormat e).1
        let raw := f = 0 || f = 31
        if emptyDesc g f then .error (0x245, 0)
        else if (pageFormat e).2 ≠ 0 || (!raw && !cutFormat g f) then .error (0x246, 0)
        else
          let b := match s.walkG g c.bbase with
            | .ok e => some (pageFormat e)
            | .error _ => none
          let off := match b with
            | some q => (bPageFault g q.1 q.2).isNone && (c.bbase % bRowBytes g q.1 ≠ 0 || c.bpitch % bRowBytes g q.1 ≠ 0)
            | none => false
          if off then .error (0x241, 0)
          else
            match c.slots.findSome? (fun n => slotFault s tile n.val raw) with
            | some k => .error (k, 0)
            | none =>
              let need := rangeToks 0 (c.rptr + 8 * c.row0) 136 ++ rangeToks 1 c.pos 1 ++ rangeToks 2 c.vals 1
              .ok { sid := nextSid s x w, kind := .cut, thread := s.focus, grove := myGroveId s, fmt := f, lossy := w.ls, cp := w.cp, node := tile,
                    cut := some { c with vfmt := f, need := need }, toks := need.length,
                    ext := extentsFrom s g (c.rptr + 8 * c.row0) (2 ^ 48 - 1) }

/-- The scatter stream of sscatter: it has no record. -/
def scatterBind (s : State) (x : Nat) (w : SWord) : Stream :=
  { sid := nextSid s x w, kind := .scatter, thread := s.focus, grove := myGroveId s, lossy := w.ls, node := w.node }

/-- All checks of a stream command. -/
def bindCheck (s : State) (k : StreamKind) (va sw : Nat) : Except (Cause × Nat) (Nat × Stream) :=
  let g := myGrove s
  match swordCheck s g k sw with
  | .error e => .error e
  | .ok x =>
    let w := swordOf sw
    match (match k with
      | .cut => cutBind s g x w sw va
      | .scatter => .ok (scatterBind s x w)
      | _ => patternBind s g k x w va) with
    | .error e => .error e
    | .ok st => .ok (x, st)

/-! ## Binding (R324) -/

/-- The slot format a page gives (R56, R129). -/
def slotFormat (g : Grove) (f : Nat) : SlotFmt := if f = 30 then .bf16 else .desc (fmtDesc g f)

/-- A slot as a fill begins (R56, R89): stamped, all codes zero, the bytes it awaits; an empty fill keeps the format. -/
def slotBegin (g : Grove) (t : Tile) (old : Slot) (st : Stream) (bytes : Nat) : Slot :=
  let fmt := if st.empty then (if old.gen = t.gen && old.fmt ≠ .none then old.fmt else .bf16) else slotFormat g st.fmt
  { gen := t.gen, fmt := fmt, scaled := !st.empty && st.geo = 1, claim := old.claim, use := old.use, pending := bytes, sid := st.op,
    follow := st.follow.map (fun m => (m, st.thread)) }

/-- The slots that a fill's circuit reaches, set up at its issue or, issued under a generation, at its confirmation (R56, R59). -/
def setupFill (s : State) (st : Stream) : State :=
  let g := streamGrove s st
  match sidSlice g st.sid with
  | none => s
  | some y =>
    (cpSinks s y st.cp).foldl (fun s q =>
      let t := s.tile q.1
      let bytes := fillBytes g st.pat st.fmt st.geo
      s.setTile q.1 { t with slots := at_ t.slots st.slot (fun old => slotBegin g t old st bytes) }) s

/-- The follow-ons a command will issue: one for each fill sink (R324). A cutter adds its own as it decides. -/
def followCount (s : State) (x : Nat) (st : Stream) : Nat :=
  match st.kind, st.follow with
  | .fill, some _ => (cpSinks s x st.cp).length
  | _, _ => 0

/-- The counter of a stream command (R323). -/
def streamCtr : StreamKind → Ctr
  | .store | .scatter => .st
  | _ => .ld

/-- A command that passed its checks: it enters the command queue, counts, and rd receives the stream id. -/
def bindStream (s : State) (d : Reg) (x : Nat) (st : Stream) : State :=
  let eng := st.sid / 256 % 2
  let e := engineOf s x eng
  let s1 := setEngine s x eng { e with binds := e.binds + 1 }
  let id := s1.nextId
  let st1 := { st with op := id }
  let s2 := startOp (s1.setMe (s1.me.setReg d (BitVec.ofNat 64 st.sid) (s1.now + 1))) (streamCtr st.kind) 1 none
  let s3 := s2.setMe (s2.me.addCtr .mx (followCount s x st))
  let c := s.focus / 8
  let s4 := s3.setCore c { s3.coreOf c with cmdq := (s3.coreOf c).cmdq ++ [{ slice := x, eng := eng, stream := st1 }] }
  if st.gen.isSome then s4
  else
    let s5 := { s4 with trims := tabDel s4.trims (2 ^ 20 + st.grove * 65536 + st.sid) }
    if st.kind = .fill then setupFill s5 st1 else s5

/-- The thread's earlier accesses to the points that hold a command's record have been performed; a template has no record, nor has a
scatter. -/
def recordRead (s : State) (k : StreamKind) (va sw : Nat) : Bool :=
  k = .scatter || (k ≠ .cut && (swordOf sw).tv) || earlierDone s (myGrove s) va 64

/-- Another thread has bound a stream on the engine under a generation that is still open: the bind waits, so that the id it takes does not tell of a
path that is discarded (R59, R174; log entry 34). -/
def bindsAhead (s : State) (st : Stream) : Bool :=
  (groveStreams s (s.grove st.grove)).any (fun l => l.2.gen.isSome && l.2.thread ≠ st.thread && l.2.sid / 256 = st.sid / 256)

/-- A stream command: it waits for its thread's earlier accesses to where its record lies, and for room in the queue and in its counters; no
fence holds it (R321). Its checks trap precisely. -/
def streamForm (k : StreamKind) (d : Reg) (va sw : State → Nat) (srcs : List Reg) (s : State) : State :=
  issue { srcs := srcs, dst := some d, spec := k = .load || k = .fill || k = .gather } (fun s =>
    if !recordRead s k (va s) (sw s) || ctrFull s.me (streamCtr k) 1 || 1024 ≤ (s.coreOf (s.focus / 8)).cmdq.length then stall s
    else
      match bindCheck s k (va s) (sw s) with
      | .error (c, bad) => trapMe s c (BitVec.ofNat 64 bad)
      | .ok (x, st) => if ctrFull s.me .mx (followCount s x st) || bindsAhead s st then stall s else bindStream s d x st) s

/-- A register's value at issue. -/
def regAt (r : Reg) (s : State) : Nat := (s.me.reg r).toNat

def execSbind (d a b : Reg) (s : State) : Res := .next (streamForm .load d (regAt a) (regAt b) [a, b] s)
def execSfill (d a b : Reg) (s : State) : Res := .next (streamForm .fill d (regAt a) (regAt b) [a, b] s)
def execSstore (d a b : Reg) (s : State) : Res := .next (streamForm .store d (regAt a) (regAt b) [a, b] s)
def execSgather (d a b : Reg) (s : State) : Res := .next (streamForm .gather d (regAt a) (regAt b) [a, b] s)
def execSscatter (d b : Reg) (s : State) : Res := .next (streamForm .scatter d (fun _ => 0) (regAt b) [b] s)
def execScut (d a b : Reg) (s : State) : Res := .next (streamForm .cut d (regAt a) (regAt b) [a, b] s)

/-! ## The command queue (R47, R142, R145) -/

/-- A data, partial or poisoned token. -/
def Tok.isData (t : Tok) : Bool := t.kind = 0 || t.kind = 6 || t.kind = 7

/-- The tokens a paused store stream holds behind its withheld token, and that one (R361). -/
def Stream.holdsBehind (st : Stream) : Nat :=
  st.held.length + ((st.withheld.toList ++ st.behind).filter Tok.isData).length

/-- The commit buffer of a slice that no reservation and no token held for a paused live stream takes (R145, R361). -/
def freeCommit (s : State) (x : Nat) : Nat :=
  1024 - (sliceStreams s x).foldl (fun a l => a + (if l.2.resv ≠ 0 then l.2.resv else if l.2.paused.isSome then l.2.holdsBehind else 0)) 0

/-- The port a store stream takes is held by an earlier one, or one that any core has bound earlier waits for it (R142, R350). -/
def inputHeld (s : State) (x : Nat) (st : Stream) : Bool :=
  (sliceStreams s x).any (fun l => l.2.kind = .store && l.2.cp = st.cp)
    || (queuedStreams s (streamGrove s st)).any (fun l =>
      l.2.kind = .store && l.2.cp = st.cp && decide (l.2.op < st.op) && sidSlice (streamGrove s st) l.2.sid = some x)

/-- A free generator of an engine. -/
def freeGen (s : State) (x eng : Nat) : Option Nat := ((List.range 4).map (· + 4 * eng)).find? (fun k => (genStream s x k).isNone)

/-- What a queued command needs is there. -/
def mayBind (s : State) (q : Queued) : Bool :=
  (freeGen s q.slice q.eng).isSome &&
    (match q.stream.kind with
     | .store => !inputHeld s q.slice q.stream && decide (q.stream.resv ≤ freeCommit s q.slice)
     | _ => true)

/-- An sstore of the queue waits for an earlier one of its slice that takes the same input first, or the commit buffer (R142, R145). -/
def waitsFor (q k : Queued) : Bool :=
  q.slice = k.slice && q.stream.kind = .store && k.stream.kind = .store
    && (q.stream.cp = k.stream.cp || (q.stream.resv ≠ 0 && k.stream.resv ≠ 0))

/-- The circuit input of a slice that a stream takes: a store's port, or that of a scatter's node. -/
def Stream.input (s : State) (x : Nat) (st : Stream) : Option Nat :=
  match st.kind with
  | .store => some st.cp
  | .scatter => (((s.slice x).cfg.nodes.toList[st.node]?).map (·.inp)).join
  | _ => none

/-- A stream as it takes its generator: its input's sequence count (R97), and the rounds its slice has committed or is committing (R146). -/
def Stream.atBind (s : State) (x : Nat) (st : Stream) : Stream :=
  let q := ((st.input s x).bind (fun p => (s.slice x).inSeq.toList[p]?)).getD 0
  { st with seqIn := q, seq0 := q,
            commitBase := match (s.slice x).commit with
              | some (none, n) => n
              | _ => (s.slice x).committed }

/-- STREAM_COMMAND_DEQUEUE: the first command that waits for no earlier one and whose needs are met takes its generator. -/
def execStreamCommandDequeue (cluster : Nat) (s : State) : Res :=
  .next
    (let co := s.coreOf cluster
     let halted := (co.grove.map (fun g => decide ((s.grove g).run = .embering))).getD true
     let ok := fun (k : Queued × Nat) =>
       mayBind s k.1 && !((co.cmdq.take k.2).any (waitsFor · k.1))
     match (if halted then none else co.cmdq.zipIdx.find? ok) with
     | none => s
     | some (q, i) =>
       match freeGen s q.slice q.eng with
       | none => s
       | some k =>
         let s1 := s.setCore cluster { co with cmdq := co.cmdq.eraseIdx i }
         setGen s1 q.slice k (some (q.stream.atBind s q.slice)))

/-! ## Controls of a bound stream (R330) -/

/-- A control of a stream: it names a bound stream of the grove, or faults with 0x251; then its effect, and the thread goes on. -/
def controlForm (srcs : List Reg) (a : Reg) (f : State → Loc → Stream → Except Cause State) (s : State) : State :=
  issue { srcs := srcs, mem := false } (fun s =>
    match findStream s (myGrove s) (s.me.reg a).toNat with
    | none => trapMe s 0x251 0
    | some (l, st) =>
      match f s l st with
      | .error c => trapMe s c 0
      | .ok s1 => s1.setMe (s1.me.retireNow s1.me.next)) s

/-- swin: the window of a branch, or of all. -/
def execSwin (a b : Reg) (s : State) : Res :=
  .next (controlForm [a, b] a (fun s l st =>
    let v := (s.me.reg b).toNat
    if st.kind = .store || st.kind = .scatter || st.kind = .cut || 2 ^ 20 ≤ v then .error 0x251
    else
      .ok (putStream s l { st with branches := st.branches.map (fun p =>
        if flag v 19 || p.1 = field v 16 3 then (p.1, field v 0 16) else p) })) s)

/-- round: R from the round that opens after the stream's next marker. -/
def execSetRound (a b : Reg) (s : State) : Res :=
  .next (controlForm [a, b] a (fun s l st =>
    let v := (s.me.reg b).toNat
    if st.kind = .cut then .error 0x251
    else if v = 0 || 2 ^ 20 < v || !(streamGrove s st).exact || (st.kind = .store && decide (st.resv < 2 * v * st.pat.rl)) then .error 0x252
    else
      let g := streamGrove s st
      .ok ((putStream s l { st with pendR := some v }).setGrove st.grove { g with roundSet := tabPut g.roundSet st.sid v })) s)

/-- The records of tokens, at least one. -/
def recordsOf (rl n : Nat) : Nat := (n + rl - 1) / rl

/-- The slots of a cutter's decided cuts that have not wholly landed: nothing more is pending, and their follow-ons are not issued. -/
def cutAbort (s : State) (st : Stream) : State :=
  let t := s.tile st.node
  let gone := t.slots.toList.filter (fun x => x.sid = st.op && x.follow.isSome)
  let s1 := s.setTile st.node { t with slots := t.slots.map (fun x => if x.sid = st.op then { x with pending := 0, follow := none } else x) }
  s1.setThr st.thread ((s1.thr st.thread).subCtr .mx gone.length)

/-- A withheld place of the window. -/
def RoTok.faulted (r : RoTok) : Bool :=
  match r.st with
  | .fault _ _ => true
  | _ => false

/-- What a cutter is to send without its n-th B row. -/
def withoutRow : Nat → List CutTok → List CutTok
  | _, [] => []
  | n, t :: rest => if t.entry then t :: withoutRow n rest else if n = 0 then rest else t :: withoutRow (n - 1) rest

/-- A cutter decides no further cut; it completes with the last token it has still to land. A withheld B row is discarded (R330). -/
def cutClose (s : State) (l : Loc) (st : Stream) (c : Cutter) (drop : Bool) : State :=
  let q := if drop then [] else if st.win.any RoTok.faulted then withoutRow (st.win.findIdx RoTok.faulted) c.queue else c.queue
  let lastQ := q.zipIdx.map (fun k => if k.2 + 1 = q.length then { k.1 with fin := true } else k.1)
  let win := if drop then [] else st.win.take (st.win.findIdx RoTok.faulted)
  let upTo := st.win.findIdx RoTok.faulted
  let asked := if drop then [] else c.asked.take upTo
  let c1 : Cutter := { c with ended := true, queue := lastQ, asked := asked, need := if drop then [] else c.need.filter (fun r => r.1 = 3) }
  let s1 := putStream s l { st with closing := true, paused := none, win := win, cut := some c1 }
  let s2 := if drop then cutAbort s1 st else s1
  if q.isEmpty then
    (let r := s2.flights.reverse
     if r.any (fun f => f.op = st.op) then
       { s2 with flights := (r.modify (r.findIdx (fun f => f.op = st.op)) (fun f => { f with fin := true })).reverse }
     else opDone s2 st.op)
  else s2

/-- The stream once a data token, or one that was lost, has taken its position, the round its record, and the draws their next number (R359). -/
def Stream.took (st : Stream) : Stream :=
  { st with wpos := st.wpos + 1, inRound := if st.wpos % st.pat.rl = 0 then st.inRound + 1 else st.inRound,
            seqIn := if st.wpos % st.pat.rl = 0 then (st.seqIn + 1) % 2 ^ 32 else st.seqIn, draws := st.draws + 1 }

/-- The record of a number in a store stream's walk is lost: it joins the stream's ash total, with its weight, once (R330, R361). -/
def storeLose (st : Stream) (rec weight : Nat) : Stream :=
  if st.gone.contains rec then st
  else { st with ash := st.ash.lose ((st.seq0 + rec) % 2 ^ 32) weight weight orgEscalate, gone := st.gone ++ [rec] }

/-- The walk position before each of some tokens that wait at a port, from a position on. -/
def waitingPos (rl : Nat) : Nat → List Tok → List (Nat × Tok)
  | _, [] => []
  | p, t :: rest =>
    (p, t) :: waitingPos rl (p + (if t.isData || t.kind = 8 then 1 else if t.kind = 1 then (ashOf t.pay).cnt * rl else 0)) rest

/-- The data tokens at positions of a walk, each record of them lost once. -/
def loseTokens (rl : Nat) (l : List (Nat × Tok)) (st : Stream) : Stream := l.foldl (fun v q => storeLose v (q.1 / rl) q.2.ownWeight) st

/-- A write of the token at a position of a stream's walk is on its way. -/
def writeUnderWay (s : State) (op pos : Nat) : Bool := s.reqs.any (fun q => q.edge = op && q.tok0 = pos && (match q.kind with
  | .portWrite _ _ _ _ _ _ => true
  | _ => false))

/-- sflush of a store stream: the tokens it holds are discarded, and their records and the ash among them join its total. -/
def storeFlush (s : State) (st : Stream) : Stream :=
  let rl := st.pat.rl
  let wait := waitingPos rl st.wpos (st.withheld.toList ++ st.behind)
  let gone := (st.held.filter (fun h => !writeUnderWay s st.op h.pos)).map (fun h => (h.pos, h.tok))
  let st1 := loseTokens rl (gone ++ wait.filter (fun q => q.2.isData)) st
  let st2 := wait.foldl (fun (v : Stream) q => if q.2.kind = 1 then { v with ash := v.ash.join (ashOf q.2.pay) } else v) st1
  { st2 with held := st.held.filter (fun h => writeUnderWay s st.op h.pos), behind := [], withheld := none, paused := none, headHeld := false,
             closing := true }

/-- A load stream closed early: it issues no more, emits what it has read, and ends. A withheld token is discarded (R330). -/
def loadClose (st : Stream) (drop : Bool) : Stream :=
  let upTo := st.win.findIdx RoTok.faulted
  let win := if drop then [] else st.win.take upTo
  { st with closing := true, paused := none, win := win, toks := st.emit + win.length, issue := st.emit + win.length, part := 0, skipTo := none }

/-- A store stream that leaves its withheld token unwritten. -/
def Stream.pass (st : Stream) : Stream :=
  match st.withheld with
  | none => st
  | some t =>
    let st1 : Stream := { st with withheld := none }
    if t.isData then st1.took
    else if t.kind = 1 then { st1 with wpos := st.wpos + (ashOf t.pay).cnt * st.pat.rl, seqIn := chanAfter st.seqIn t }
    else st1

/-- The sequence of the record that a token of a scatter stream belongs to (R97). -/
def Stream.recSeq (st : Stream) (t : Tok) : Nat := if t.first then st.seqIn else (st.seqIn + 2 ^ 32 - 1) % 2 ^ 32

/-- A scatter stream after a token: its sequence count, and the place of the next token in its record. -/
def Stream.scattered (st : Stream) (t : Tok) : Stream :=
  { st with seqIn := chanAfter st.seqIn t, part := if t.isData then (if t.first then 1 else st.part + 1) else st.part }

/-- sflush of a scatter stream: the tokens that wait behind its withheld one are discarded with it, each record of them lost once. -/
def scatterFlush (st : Stream) : Stream :=
  let step := fun (v : Stream) (t : Tok) =>
    let v1 := v.scattered t
    if t.isData then storeLose v1 ((v.recSeq t + 2 ^ 32 - st.seq0) % 2 ^ 32) t.ownWeight
    else if t.kind = 1 then { v1 with ash := v.ash.join (ashOf t.pay) } else v1
  { (st.withheld.toList ++ st.behind).foldl step st with behind := [], withheld := none, paused := none, closing := true }

/-- A token that a slice's node withholds of a stream is discarded (R330). -/
def dropWithheld (s : State) (g : Grove) (op : Nat) : State :=
  g.slices.foldl (fun s x => s.setSlice x { s.slice x with nodes := (s.slice x).nodes.map (fun nd =>
    match nd.withheld with
    | some (f, _) => if f.op = op then { nd with withheld := none } else nd
    | none => nd) }) s

/-- Pairs of a closing scatter stream that nodes withhold: the first is left unwritten, and under sflush so are the others (R330). -/
def dropStuck (s : State) (st : Stream) (drop : Bool) : State :=
  (streamGrove s st).slices.foldl (fun s x =>
    s.setSlice x { s.slice x with nodes := at_ (s.slice x).nodes st.node (fun nd =>
      let left := if (nd.stuck.head?.map (·.src)) = some st.sid then nd.stuck.drop 1 else nd.stuck
      { nd with stuck := if drop then left.filter (fun p => p.src ≠ st.sid) else left }) }) s

/-- sclose (R330): a token withheld at its commit is the first held. -/
def closeStream (s : State) (l : Loc) (st : Stream) (drop : Bool) : State :=
  match st.kind, st.cut with
  | .cut, some c => cutClose s l st c drop
  | .store, _ =>
    if drop then putStream s l (storeFlush s st)
    else
      putStream s l { st.pass with paused := none, closing := true, headHeld := false, held := if st.headHeld then st.held.drop 1 else st.held }
  | .scatter, _ =>
    putStream (dropStuck s st drop) l (if drop then scatterFlush st
      else { (st.withheld.map st.scattered).getD st with closing := true, paused := none, withheld := none })
  | _, _ => putStream (dropWithheld s (streamGrove s st) st.op) l (loadClose st drop)

def execSclose (a : Reg) (s : State) : Res := .next (controlForm [a] a (fun s l st => .ok (closeStream s l st false)) s)
def execSflush (a : Reg) (s : State) : Res := .next (controlForm [a] a (fun s l st => .ok (closeStream s l st true)) s)

/-- A paused load stream goes on from its withheld token, whose address is translated again (R57, R192). -/
def resumeLoad (st : Stream) : Stream :=
  let upTo := st.win.findIdx RoTok.faulted
  let cut := st.cut.map (fun c => { c with need := c.asked.drop upTo ++ c.need, asked := c.asked.take upTo })
  { st with paused := none, win := st.win.take upTo, issue := st.emit + upTo, part := 0, ext := [], nextExt := [], cut := cut }

def execSresume (a : Reg) (s : State) : Res :=
  .next (controlForm [a] a (fun s l st =>
    .ok (match st.paused with
     | none => s
     | some _ => if st.kind = .store then putStream s l { st with paused := none, headHeld := false, ext := [] } else putStream s l (resumeLoad st))) s)

/-- sresume.t: a stopped tile restarts; its queue goes on after a discarded command (R191). -/
def execSresumeT (a : Reg) (s : State) : Res :=
  .next (issue { srcs := [a] } (fun s =>
    let v := (s.me.reg a).toNat
    match (if 2 ^ 12 ≤ v then none else (myGrove s).siteRel (v / 64) (v % 64)) with
    | none => trapMe s 0x251 0
    | some x =>
      if siteIsSlice x then trapMe s 0x251 0
      else
        let s1 := s.setTile x { s.tile x with stopped := false, mqStop := false }
        s1.setMe (s1.me.retireNow s1.me.next)) s)

end Sys2Proof.Machine
end

