-- ==== Sys2Proof/Machine/Answers.lean ====
section
/-! DEFINITION. Answers that reach a control thread (R154, R310, R311, R316, R324): loads, acknowledgements, operations, and the confirming
and discarding of run-ahead streams (R59). -/

namespace Sys2Proof.Machine

/-! ## Run-ahead confirmed and discarded (R59, R316) -/

/-- The trim counter of a flow at its receiver (R76). -/
def flowKey (g sid : Nat) : Nat := 2 ^ 20 + g * 65536 + sid
def addTrim (s : State) (k n : Nat) : State := { s with trims := tabPut s.trims k (Nat.min 0xFFFF (tabGet s.trims k 0 + n)) }

/-- A stream's generation is confirmed: its flow's trim counter begins with the prunes it met, its slots are set up, its tokens may leave. -/
def confirmStream (s : State) (l : Loc) (st : Stream) : State :=
  let s0 := putStream s l { st with gen := none, specTrim := 0 }
  let s1 := { s0 with trims := tabDel s0.trims (flowKey st.grove st.sid) }
  let s2 := if st.specTrim = 0 then s1 else addTrim s1 (flowKey st.grove st.sid) st.specTrim
  if st.kind = .fill then setupFill s2 st else s2

/-- The streams a thread bound under some generations. -/
def genStreams (s : State) (t : Nat) (nums : List Nat) : List (Loc × Stream) :=
  match s.groveOfThread t with
  | none => []
  | some g => (groveStreams s (s.grove g)).filter (fun l => l.2.thread = t && (match l.2.gen with
    | some n => nums.contains n
    | none => false))

def confirmGens (s : State) (t : Nat) (nums : List Nat) : State :=
  (genStreams s t nums).foldl (fun s l => confirmStream s l.1 l.2) s

/-- The bind count of an engine falls again, so that the next id is as without the discarded stream (R59; log entry 34): no other thread has bound on
that engine since. -/
def unbind (s : State) (st : Stream) : State :=
  match sidSlice (s.grove st.grove) st.sid with
  | none => s
  | some x =>
    let i := st.sid / 256 % 2
    let e := engineOf s x i
    setEngine s x i { e with binds := e.binds - 1 }

/-- A run-ahead stream discarded: it is unbound and leaves no count. -/
def discardStream (s : State) (st : Stream) : State :=
  match findStream s (s.grove st.grove) st.sid with
  | none => s
  | some (l, cur) =>
    let n := followCount s (match sidSlice (s.grove st.grove) st.sid with
      | some x => x
      | none => 0) cur
    let s1 := unbind (dropStream s l) st
    let s2 := { s1 with ops := s1.ops.filter (fun o => o.id ≠ st.op) }
    s2.setThr st.thread (((s2.thr st.thread).subCtr .ld 1).subCtr .mx n)

/-- The youngest bind is discarded first. -/
def discardGens (s : State) (t : Nat) (nums : List Nat) : State :=
  (sortBy (fun l => l.2.op) (genStreams s t nums)).foldr (fun l s => discardStream s l.2) s

/-- After a value has arrived, the branches that waited for it are decided (R316). -/
def resolveThread (s : State) (t id : Nat) : State :=
  match resolveGens (s.thr t) id [] (s.thr t).specs with
  | (th, specs, gone) =>
    let sure := closeSure specs
    let s1 := discardGens (s.setThr t { th with specs := sure.2, since := if th.status = .ready then (s.thr t).readySince s.now else th.since }) t gone
    confirmGens s1 t sure.1

/-! ## Answers -/

/-! ## The end of a commit (R146) -/

/-- The exact store streams bound on a slice, by port. -/
def exactPorts (s : State) (x : Nat) : List (Nat × Stream) :=
  sortBy (fun q => q.2.cp) ((sliceStreams s x).filterMap (fun l =>
    match l.1 with
    | .gen _ k => if l.2.kind = .store && (streamGrove s l.2).exact then some (k, l.2) else none
    | .queued _ _ => none))

/-- The tokens of a round that a stream holds. -/
def Stream.ofRound (st : Stream) (n : Nat) : List Held := st.held.filter (fun h => h.round = n)

/-- A stream has committed its rounds up to n. -/
def roundDone (n : Nat) (s : State) (x k : Nat) : State :=
  match genStream s x k with
  | none => s
  | some st => setGen s x k (some { st with rdone := Nat.max st.rdone n })

/-- The streams whose round n a commit of a slice performs: one that commits alone, or all but those bound since it began. -/
def commitPorts (s : State) (x : Nat) (alone : Option Nat) (n : Nat) : List (Nat × Stream) :=
  (exactPorts s x).filter (fun q => if alone.isNone then decide (q.2.commitBase < n) else alone = some q.1)

/-- The tokens of a commit whose writes are not on their way yet, in the order of R146: (generator, token). -/
def commitLeft (s : State) (x : Nat) (alone : Option Nat) (n : Nat) : List (Nat × Held) :=
  (commitPorts s x alone n).flatMap (fun q => ((q.2.ofRound n).filter (fun h => !writeUnderWay s q.2.op h.pos)).map (fun h => (q.1, h)))

/-- A write of a commit of a slice has not been acknowledged. -/
def commitOpen (s : State) (x : Nat) : Bool := s.reqs.any (fun q => match q.kind with
  | .portWrite y _ exact _ _ _ => y = x && exact
  | _ => false)

/-- A round counts as committed once every write of it has been acknowledged. -/
def settleCommit (s : State) (x : Nat) : State :=
  match (s.slice x).commit with
  | none => s
  | some (alone, n) =>
    if commitOpen s x || !(commitLeft s x alone n).isEmpty then s
    else
      let s1 := (commitPorts s x alone n).foldl (fun s q => roundDone n s x q.1) s
      s1.setSlice x { s1.slice x with commit := none, committed := if alone.isNone then n else (s1.slice x).committed }

def dropReq (s : State) (id : Nat) : State := { s with reqs := s.reqs.filter (fun r => r.id ≠ id) }

/-- The VA a bad word poisons the register with. -/
def MemReq.poison (r : MemReq) : Option Nat := if r.bad then some r.va else none

/-- A value arrives at its register and its operation completes on a counter. -/
def arriveAt (s : State) (r : MemReq) (c : Ctr) : State :=
  let s1 := dropReq s r.id
  s1.setThr r.src ((((s1.thr r.src).arrive r.id r.value r.poison s1.now).subCtr c 1).pushGive r.give)

/-- LOAD_DATA_RETURN, once the answer has come: the value of a load, an ldf or ldt, an arrive or a gsize reaches its register, and it completes on ld. -/
def execLoadDataReturn (id : Nat) (s : State) : Res :=
  .next
    (match s.reqs.find? (fun r => r.id = id) with
     | none => s
     | some r =>
       if !r.pieces.isEmpty || r.ans ≠ 2 then s
       else
         match r.kind with
         | .load _ _ | .ldf | .ldt => resolveThread (arriveAt s r .ld) r.src id
         | .barArrive _ _ | .gsize _ _ => arriveAt s r .ld
         | _ => s)

/-- STORE_ACKNOWLEDGEMENT: a store, an atomic, a fill, a bar.init or a group command is acknowledged, completing on st; the write of a store
port's token is acknowledged to its port (R146, R149). -/
def execStoreAcknowledgement (id : Nat) (s : State) : Res :=
  .next
    (match s.reqs.find? (fun r => r.id = id) with
     | none => s
     | some r =>
       if !r.pieces.isEmpty || r.ans ≠ 2 then s
       else
         match r.kind with
         | .store _ _ | .amo _ _ _ _ | .fill _ | .fillAck | .manifest _ | .barInit _ _ _ | .gjoin _ _ | .gleave _ _ => arriveAt s r .st
         | .portWrite x _ _ _ _ _ => settleCommit (dropReq s id) x
         | _ => s)

/-- An operation that has reached its end is gone: its result is written, its counter falls, its give is pushed. -/
def endOp (s : State) (o : Op) : State :=
  let s1 := { s with ops := s.ops.filter (fun q => q.id ≠ o.id) }
  let th := (s1.thr o.thread).arrive o.id o.res none s1.now
  let th1 := match o.ctr with
    | some c => th.subCtr c 1
    | none => th
  s1.setThr o.thread (th1.pushGive o.give)

end Sys2Proof.Machine
end

