-- ==== Sys2Proof/Machine/Engines.lean ====
section
/-! DEFINITION. Stream engines at work (R47-R59, R77): extents, read requests, responses, emission under windows, the fill sink, and the
tile cutter (R137-R140, R352, R353). -/

namespace Sys2Proof.Machine

/-- Some set covers an address. -/
def covered (l : List Extent) (va : Nat) : Bool := (extentAt l va).isSome

/-- Every address of a list of parts lies in a set. -/
def allCovered (l : List Extent) (ps : List (Nat × Nat × Nat)) : Bool := ps.all (fun p => covered l p.2.1)

/-! ## Read requests (R52, R55, R75, R352) -/

/-- The format rule of a cutter's read, by kind (R327). -/
def cutPageFault (g : Grove) (c : Cutter) (kind f geo : Nat) : Option Cause :=
  match kind with
  | 2 => if f ≠ c.vfmt || geo ≠ 0 then some 0x247 else none
  | 3 =>
    match bPageFault g f geo with
    | some k => some k
    | none =>
      if c.bfmt.any (fun b => b ≠ f) then some 0x247
      else if c.bbase % bRowBytes g f ≠ 0 || c.bpitch % bRowBytes g f ≠ 0 then some 0x241
      else none
  | _ => none

/-- The physical address an engine reads a part at, or its fault. -/
def readPa (s : State) (st : Stream) (kind va : Nat) : Except Cause Nat :=
  match extentAt st.ext va with
  | none => .error 0x200
  | some x =>
    match x.fault with
    | some c => .error c
    | none =>
      let f := pteFmt x.leaf.toNat
      let geo := pteGeo x.leaf.toNat
      let bad := match st.cut with
        | some c => cutPageFault (streamGrove s st) c kind f geo
        | none => if f ≠ st.fmt || geo ≠ st.geo then some 0x247 else none
      match bad with
      | some c => .error c
      | none =>
        let pa := x.pa + (va - x.va)
        if linkFault s pa then .error 0x384 else .ok pa

/-- Parts with their physical addresses, or the first fault with its address. -/
def partsPa (s : State) (st : Stream) (kind : Nat) : List (Nat × Nat × Nat) → Except (Cause × Nat) (List (Nat × Nat × Nat))
  | [] => .ok []
  | (off, va, n) :: rest =>
    match readPa s st kind va, partsPa s st kind rest with
    | .error c, _ => .error (c, va)
    | .ok _, .error e => .error e
    | .ok pa, .ok l => .ok ((off, n, pa) :: l)

/-- Consecutive parts of one line of 256 bytes. -/
def lineGroups : List (Nat × Nat × Nat) → List (List (Nat × Nat × Nat))
  | [] => []
  | p :: rest =>
    match lineGroups rest with
    | (q :: more) :: groups => if p.2.1 / 256 = q.2.1 / 256 then (p :: q :: more) :: groups else [p] :: (q :: more) :: groups
    | groups => [p] :: groups

/-- The kind and the parts of the token `i` after the one an engine asks for next. -/
def aheadParts (s : State) (st : Stream) (i : Nat) : Option (Nat × List (Nat × Nat × Nat)) :=
  match st.cut with
  | some c => (c.need[i]?).map (fun r => (r.1, cutLines 0 r.2.1 r.2.2))
  | none => if st.issue + i < st.toks then some (0, st.parts s (st.issue + i)) else none

/-- What an engine reads next of a stream, the parts of one line; of a store stream, what its port writes next. -/
def nextGroup (s : State) (st : Stream) : Option (List (Nat × Nat × Nat)) :=
  if st.kind = .store then (if st.wpos < st.toks then some (st.storeParts s st.wpos) else none)
  else (aheadParts s st 0).bind (fun q => (lineGroups q.2)[st.part]?)

/-- EXTENT_SET_BUILD: the loader patches the set that the engine's next address needs, or prepares the next one (R23). -/
def execExtentSetBuild (slice gen : Nat) (s : State) : Res :=
  .next
    (match genStream s slice gen with
     | none => s
     | some st =>
       let g := streamGrove s st
       match (if tinvHolds s st then none else nextGroup s st) with
       | none => s
       | some grp =>
         if !allCovered st.ext grp && !allCovered st.nextExt grp then
           (let va := (grp.head?.map (·.2.1)).getD 0
            setGen s slice gen (some { st with ext := extentsFrom s g va st.lastVa, nextExt := [] }))
         else if st.nextExt.isEmpty && decide (extentsEnd st.ext ≤ st.lastVa) && st.ext.all (fun x => x.fault.isNone) then
           setGen s slice gen (some { st with nextExt := extentsFrom s g (extentsEnd st.ext) st.lastVa })
         else s)

/-- The format of a cutter's first B page, once its address is the next to issue and the page is in order (R22, R327). -/
def firstRows (s : State) (st : Stream) (c : Cutter) : Option Nat :=
  match c.bfmt, c.need with
  | none, (3, va, _) :: _ =>
    (extentAt st.ext va).bind (fun x =>
      let f := pteFmt x.leaf.toNat
      if x.fault.isNone && (cutPageFault (streamGrove s st) c 3 f (pteGeo x.leaf.toNat)).isNone then some f else none)
  | _, _ => none

/-- The B rows of cuts that were decided before the format of their page was known take it: their bytes, their slots' formats and counters. -/
def fitRows (s : State) (st : Stream) : State × Stream :=
  match st.cut with
  | none => (s, st)
  | some c =>
    match firstRows s st c with
    | none => (s, st)
    | some f =>
      let g := streamGrove s st
      let n := bRowBytes g f
      let t := s.tile st.node
      let slot := fun (o : Slot) =>
        if o.sid = st.op && o.pending ≠ 0 then { o with fmt := slotFormat g f, pending := o.pending / Nat.max 1 (bRowBytes g c.bguess) * n } else o
      (s.setTile st.node { t with slots := c.pairs.foldl (fun v p => at_ v p.2.val slot) t.slots },
       { st with cut := some { c with
           bfmt := some f, bguess := f, need := c.need.map (fun r => if r.1 = 3 then (3, r.2.1, n) else r),
           queue := c.queue.map (fun q => if q.entry then q else { q with bytes := n }) } })

/-- How many tokens after the first have bytes in its line, so that one request reads those with it; a token that goes on in another line is
the last of them (R352). -/
def runLength (s : State) (st : Stream) (line : Nat) : Nat → Nat → Nat
  | 0, _ => 0
  | fuel + 1, i =>
    match aheadParts s st i with
    | none => 0
    | some (kind, ps) =>
      match lineGroups ps with
      | [] => 0
      | grp :: more =>
        if grp.all (fun p => p.2.1 / 256 = line) && allCovered st.ext grp && (partsPa s st kind grp).toOption.isSome then
          (if more.isEmpty then 1 + runLength s st line fuel (i + 1) else 1)
        else 0

/-- The parts, in lines, of the token `i` after the one an engine asks for next. -/
def aheadGroups (s : State) (st : Stream) (i : Nat) : List (List (Nat × Nat × Nat)) :=
  match aheadParts s st i with
  | some (_, ps) => lineGroups ps
  | none => []

/-- The physical pieces of the token `i` after the next that one line holds: its first line, or for the next token the line it goes on with. -/
def aheadPieces (s : State) (st : Stream) (i : Nat) : List (Nat × Nat × Nat) :=
  match aheadParts s st i with
  | some (kind, ps) =>
    (match partsPa s st kind (((lineGroups ps)[if i = 0 then st.part else 0]?).getD []) with
     | .ok l => l.map (fun p => (p.1 + 32 * i, p.2))
     | .error _ => [])
  | none => []

/-- All bytes of a token lie in one aligned span of 32 bytes (R52). -/
def oneSpan (ps : List (Nat × Nat × Nat)) : Bool :=
  match ps with
  | [] => true
  | p :: _ => ps.all (fun q => q.2.1 / 32 = p.2.1 / 32 && (q.2.1 + q.2.2 - 1) / 32 = p.2.1 / 32)

/-- Tokens that an engine's streams hold: run ahead or not (R55, R58). -/
def windowUsed (s : State) (x e : Nat) (ahead : Bool) : Nat :=
  (List.range 4).foldl (fun a k =>
    match genStream s x (4 * e + k) with
    | some st => if st.gen.isSome = ahead then a + st.win.length else a
    | none => a) 0

/-- A stream bound earlier holds the circuit output (R350). -/
def portTaken (s : State) (x : Nat) (st : Stream) : Bool :=
  st.kind ≠ .gather &&
    ((sliceStreams s x) ++ (queuedStreams s (streamGrove s st)).filter (fun l => sidSlice (streamGrove s st) l.2.sid = some x)).any (fun l =>
      (l.2.kind = .load || l.2.kind = .fill || l.2.kind = .cut) && l.2.cp = st.cp && decide (l.2.op < st.op) && !l.2.ended)

/-- The engine's count of tokens issued without a gap of 64 idle cycles (R164). -/
def engineRun (e : Engine) (now : Nat) : Nat := if 64 ≤ now - e.lastIssue then 0 else e.run

/-- The grove's engines issue: it is not frozen, halted or being embered (R195, R198, R213). -/
def enginesRun (s : State) (st : Stream) : Bool := (streamGrove s st).run = .running || (streamGrove s st).run = .splicing

/-- A new place in the window: lost with its record if that is lost already (R77). -/
def newPlace (st : Stream) (i left : Nat) : RoTok :=
  match st.skipTo with
  | some (upTo, grp) => if i < upTo then { idx := i, st := .gone grp, left := left } else { idx := i, left := left }
  | none => { idx := i, left := left }

/-- A stream after it has asked for the last of `n` tokens. -/
def askedWhole (st : Stream) (n : Nat) : Stream :=
  { st with issue := st.issue + n, part := 0,
            cut := st.cut.map (fun c => { c with asked := c.asked ++ c.need.take n, need := c.need.drop n }) }

/-- A stream after a request for the parts of `n` tokens that one line holds: the last of them may go on in another line. -/
def askedFor (s : State) (st : Stream) (n : Nat) : Stream :=
  let new := (List.range n).drop (if st.part = 0 then 0 else 1)
  let st1 : Stream := { st with win := st.win ++ new.map (fun i => newPlace st (st.issue + i) (aheadGroups s st i).length) }
  let got := if n = 1 then st.part + 1 else 1
  if got < (aheadGroups s st (n - 1)).length then { askedWhole st1 (n - 1) with part := got } else askedWhole st1 n

/-- The request of an engine, put on its way. -/
def putRead (s : State) (x k : Nat) (st st1 : Stream) (tok0 n : Nat) (ps : List (Nat × Nat × Nat)) (joint : List Nat) : State :=
  let e := engineOf s x (k / 4)
  let run := engineRun e s.now + n - (if st.part = 0 then 0 else 1)
  let s1 := setEngine s x (k / 4) { e with run := run, lastIssue := s.now, heavy := decide (256 < run) }
  let s2 := setGen s1 x k (some st1)
  let r : MemReq := { id := s.nextId, src := st.thread, kind := .engineRead x k, va := (ps.head?.map (·.2.2)).getD 0, key := (streamGrove s st).key,
                      pieces := ps, edge := st.op, joint := joint, tok0 := tok0, flits := n, reads := ps }
  addReq { s2 with nextId := s.nextId + 1 } r

/-- A place withheld for a fault (R22, R192): what was read of it goes with it. -/
def withhold (st : Stream) (c : Cause) (va : Nat) : Stream :=
  let win := if st.part = 0 then st.win else st.win.dropLast
  { askedWhole st 1 with win := win ++ [{ idx := st.issue, st := .fault c va }] }

/-- The tokens an engine may still issue: without a heavy slot none that makes more than 256 in a run (R164). -/
def heavyRoom (s : State) (x k : Nat) (st : Stream) : Nat :=
  let e := engineOf s x (k / 4)
  if (e.heavy && decide (s.now - e.lastIssue < 64)) || decide (heavyUsed s (streamGrove s st) < (streamGrove s st).h) then 256
  else 256 - engineRun e s.now

/-- The read an engine issues: what one line holds of the next token and of those after it (R352). -/
def issueRead (s : State) (x k : Nat) (st : Stream) : State :=
  let q := (aheadParts s st 0).getD (0, [])
  let kind := q.1
  let groups := lineGroups q.2
  match groups[st.part]? with
  | none => s
  | some grp =>
    match partsPa s st kind grp with
    | .error (c, va) => setGen s x k (some (withhold st c va))
    | .ok _ =>
      let line := (grp.head?.map (·.2.1 / 256)).getD 0
      let room := (if st.gen.isSome then 128 - windowUsed s x (k / 4) true else 256 - windowUsed s x (k / 4) false) + (if st.part = 0 then 0 else 1)
      let n := if st.part + 1 = groups.length then 1 + runLength s st line (Nat.min (Nat.min 8 room) (heavyRoom s x k st + (if st.part = 0 then 0 else 1)) - 1) 1 else 1
      let joint := (List.range n).filter (fun i =>
        match aheadParts s st i with
        | some (_, q) => oneSpan q && !st.narrow s
        | none => false)
      putRead s x k st (askedFor s st n) st.issue n ((List.range n).flatMap (aheadPieces s st)) joint

/-- An engine may issue a read of a stream (R22, R55, R58, R75, R164, R350). -/
def mayIssue (s : State) (x k : Nat) (st : Stream) : Bool :=
  enginesRun s st && !tinvHolds s st && (!st.closing || st.kind = .cut) && st.paused.isNone && !st.win.any RoTok.faulted && !portTaken s x st
    && (st.kind = .load || st.kind = .fill || st.kind = .gather || st.kind = .cut)
    && (st.part ≠ 0 || decide (windowUsed s x (k / 4) st.gen.isSome < (if st.gen.isSome then 128 else 256)))
    && decide (tabGet s.permits (engineKey x k) 0 < enginePermits) && (st.part ≠ 0 || decide (0 < heavyRoom s x k st))

/-- ENGINE_ISSUE_READ: an engine switches to the prepared set where it must, and issues a read, or waits for the loader. -/
def execEngineIssueRead (slice gen : Nat) (s : State) : Res :=
  .next
    (match genStream s slice gen with
     | none => s
     | some st =>
       if !mayIssue s slice gen st then s
       else
         match aheadParts s st 0 with
         | none => s
         | some (_, ps) =>
           let grp := ((lineGroups ps)[st.part]?).getD []
           let go := fun (st : Stream) =>
             let y := fitRows s st
             issueRead y.1 slice gen y.2
           if allCovered st.ext grp then go st
           else if allCovered st.nextExt grp then go { st with ext := st.nextExt, nextExt := [] }
           else s)

/-! ## Responses (R55, R59, R77) -/

/-- One flit of a response enters its place; a token of zero bytes stays one (R77). -/
def RoTok.take (r : RoTok) (v : Nat) (bad : Bool) : RoTok :=
  let r1 : RoTok := { r with got := if r.zero then 0 else r.got + v, left := r.left - 1, bad := !r.zero && (r.bad || bad) }
  match r.st with
  | .asked | .hole _ _ => if r1.left = 0 then { r1 with st := .data r1.bad } else { r1 with st := .asked }
  | _ => r1

/-- A response's flits enter the window. -/
def enterWindow (p : Packet) (win : List RoTok) : List RoTok :=
  win.map (fun r =>
    if p.tok0 ≤ r.idx ∧ r.idx < p.tok0 + p.olen then
      r.take (p.val / 2 ^ (256 * (r.idx - p.tok0)) % 2 ^ 256) (p.badAt.contains (r.idx - p.tok0))
    else r)

/-- The pruned response of a lossy fill: every token that it carried is one of zero bytes (R77). -/
def zeroWindow (p : Packet) (win : List RoTok) : List RoTok :=
  win.map (fun r => if p.tok0 ≤ r.idx ∧ r.idx < p.tok0 + p.olen then ({ r with got := 0, bad := false, zero := true } : RoTok).take 0 false else r)

/-- The bytes read of a kind, from an address. -/
def Cutter.bytesAt (c : Cutter) (kind va n : Nat) : Nat :=
  let v := (List.range ((va + n - 1) / 32 + 1 - va / 32)).foldl (fun a i =>
    a + tabGet c.tabs (kind * 2 ^ 60 + va / 32 + i) 0 * 2 ^ (256 * i)) 0
  v / 2 ^ (8 * (va % 32)) % 2 ^ (8 * n)

/-- Row-pointer entry i of the panel: position-byte index and value index (R137). -/
def Cutter.rowPtr (c : Cutter) (i : Nat) : Nat × Nat :=
  let v := c.bytesAt 0 (c.rptr + 8 * (c.row0 + i)) 8
  (v / 2 ^ 32, v % 2 ^ 32)

/-- The further tokens of the panel's position bytes and values, in ascending order (R352). -/
def Cutter.plan (c : Cutter) (n : Nat) : List (Nat × Nat × Nat) :=
  let a := c.rowPtr 0
  let b := c.rowPtr 16
  let v0 := c.vals + n * a.2 / 8
  let v1 := c.vals + (n * b.2 + 7) / 8
  (rangeToks 1 (c.pos + a.1) (b.1 - a.1) ++ rangeToks 2 v0 (v1 - v0)).filter (fun r =>
    (tabFind c.tabs (r.1 * 2 ^ 60 + r.2.1 / 32)).isNone)

/-- The columns of a row's position bytes (R137), or 0x181. -/
def decodeRow : List Nat → Int → Nat → Except Cause (List Nat)
  | [], _, gap => if gap = 0 then .ok [] else .error 0x181
  | d :: rest, prev, gap =>
    if d = 255 then decodeRow rest prev (gap + 255)
    else
      let k := (prev + 1 + gap + d).toNat
      match decodeRow rest k 0 with
      | .error c => .error c
      | .ok l => .ok (k :: l)

/-- The elements of the panel, row by row: (row, k, value code) (R137). -/
def Cutter.decode (c : Cutter) (n : Nat) : Nat → Except Cause (List (Nat × Nat × Nat))
  | 0 => .ok []
  | i + 1 =>
    match c.decode n i with
    | .error e => .error e
    | .ok before =>
      let a := c.rowPtr i
      let b := c.rowPtr (i + 1)
      if b.1 < a.1 || b.2 < a.2 then .error 0x183
      else
        match decodeRow ((List.range (b.1 - a.1)).map (fun j => c.bytesAt 1 (c.pos + a.1 + j) 1)) (-1) 0 with
        | .error e => .error e
        | .ok ks =>
          if ks.length ≠ b.2 - a.2 then .error 0x183
          else
            .ok (before ++ ks.zipIdx.map (fun q =>
              let bit := n * (a.2 + q.2)
              (i, q.1, c.bytesAt 2 (c.vals + bit / 8) ((bit % 8 + n + 7) / 8) / 2 ^ (bit % 8) % 2 ^ n)))

/-- Tokens of row pointers, position bytes and values leave the window in walk order for the cutter. -/
def absorb : Nat → Stream → Cutter → Stream × Cutter
  | 0, st, c => (st, c)
  | fuel + 1, st, c =>
    match st.win, c.asked with
    | r :: win, a :: asked =>
      (match r.st with
       | .data _ =>
         if a.1 < 3 then
           absorb fuel { st with win := win, emit := st.emit + 1 }
             { c with asked := asked, tabs := tabPut c.tabs (a.1 * 2 ^ 60 + a.2.1 / 32) r.got }
         else (st, c)
       | _ => (st, c))
    | _, _ => (st, c)

/-- The cutter goes on with what it has: it plans its ranges once the row pointers are there, and is loaded once all is read. -/
def cutProgress (s : State) (st : Stream) (c : Cutter) : Stream :=
  let y := absorb 1024 st c
  let c1 := y.2
  if !c1.need.isEmpty || !c1.asked.isEmpty then { y.1 with cut := some c1 }
  else if !c1.planned then
    (let need := c1.plan (codeWidth (streamGrove s st) c1.vfmt)
     { y.1 with cut := some { c1 with planned := true, need := need, loaded := need.isEmpty }, toks := y.1.issue + need.length })
  else { y.1 with cut := some { c1 with loaded := true } }

/-- A stream after its window has changed. -/
def settle (s : State) (st : Stream) : Stream :=
  match st.cut with
  | some c => if c.loaded then st else cutProgress s st c
  | none => st

/-- READ_RESPONSE_ARRIVAL: a response delivered to its engine enters the reorder window; one whose stream is gone is dropped. -/
def execReadResponseArrival (pkt : Nat) (s : State) : Res :=
  .next
    (match s.packets.find? (fun p => p.id = pkt) with
     | none => s
     | some p =>
       if p.type ≠ 1 || p.pruned || p.at_ ≠ .delivered then s
       else
         let s1 := { s with packets := s.packets.filter (fun q => q.id ≠ pkt) }
         let x := siteOfEp (cluDecode p.dclu) p.dep
         match genStream s1 x p.gen with
         | none => s1
         | some st =>
           if st.op ≠ p.op then s1
           else setGen s1 x p.gen (some (settle s1 { st with win := enterWindow p st.win })))

/-! ## Emission (R50, R53, R54) -/

/-- What an engine can emit of a stream. -/
inductive EmitAct where
  | pause (c : Cause) (va : Nat) | data (r : RoTok) | ash (grp : Nat) | marker | eor | cutTok (t : CutTok)
  deriving DecidableEq, Repr

/-- The reported count of a branch that counts in a cycle (R54). -/
def reportedAt (e : Engine) (now b : Nat) : Nat :=
  match (e.fresh.filter (fun f => f.1 = b && decide (f.2.2 < now))).getLast? with
  | some f => f.2.1
  | none => (e.reported.toList[b]?).getD 0

/-- The window count of a branch (R54), modulo 2^32. -/
def windowCount (e : Engine) (now b : Nat) : Int := (BitVec.ofInt 32 (((e.sent.toList[b]?).getD 0 : Int) - reportedAt e now b)).toInt

/-- Every branch's window lets one more token out (R54). -/
def windowsOpen (e : Engine) (now : Nat) (st : Stream) : Bool :=
  st.branches.all (fun p => p.2 = 0 || decide (windowCount e now p.1 < p.2))

/-- A round is complete, and its marker is due before anything else (R50). -/
def markerDue (exact : Bool) (st : Stream) : Bool := exact && decide (st.round ≤ st.inRound)

/-- The whole record that begins at the head has arrived, or what is left of it in a stream that was closed; only lossy flows wait for it (R77; log
entry 20). -/
def recordReady (st : Stream) : Bool :=
  !st.lossy || st.kind = .fill || st.emit % st.pat.rl ≠ 0
    || ((st.win.take st.pat.rl).length = Nat.min st.pat.rl (st.toks - st.emit) && (st.win.take st.pat.rl).all (fun r =>
      match r.st with
      | .data _ => true
      | _ => false))

/-- The lost tokens of one response at the head are whole records (R77). -/
def ashReady (st : Stream) (grp : Nat) : Bool :=
  let n := (st.win.takeWhile (fun r => r.st = .gone grp)).length
  (st.emit + n) % st.pat.rl = 0 || st.emit + n = st.toks

/-- What a stream can emit now: nothing while one bound earlier holds its circuit output (R350). -/
def emitAct (s : State) (x : Nat) (e : Engine) (st : Stream) : Option EmitAct :=
  let exact := (streamGrove s st).exact
  if st.paused.isSome || st.gen.isSome || st.ended || !enginesRun s st || portTaken s x st then none
  else
    match st.kind, st.cut with
    | .cut, some c =>
      let w := st.win.head?.map RoTok.st
      (match c.queue with
       | [] =>
         (match w with
          | some (.fault k va) => some (.pause k va)
          | _ => if c.ended then some .eor else none)
       | t :: _ =>
         if t.entry then some (.cutTok t)
         else
           match w with
           | some (.fault k va) => some (.pause k va)
           | some (.data _) => some (.cutTok t)
           | _ => none)
    | .load, _ | .fill, _ | .gather, _ =>
      if markerDue exact st then some .marker
      else
        (match st.win with
         | r :: _ =>
           (match r.st with
            | .fault k va => some (.pause k va)
            | .data _ => if recordReady st && windowsOpen e s.now st then some (.data r) else none
            | .gone grp => if ashReady st grp then some (.ash grp) else none
            | .asked | .hole _ _ => none)
         | [] =>
           if st.toks ≤ st.emit && st.part = 0 then
             (if exact && !st.marked && (st.inRound ≠ 0 || st.empty || st.emit % st.pat.rl ≠ 0) then some .marker else some .eor)
           else none)
    | _, _ => none

/-- The generator an engine serves: the first with a token ready after the one that emitted last (R47). -/
def servedGen (s : State) (x e : Nat) : Option Nat :=
  let en := engineOf s x e
  ((List.range 4).map (fun i => 4 * e + (en.rr + 1 + i) % 4)).find? (fun k =>
    match genStream s x k with
    | none => false
    | some st =>
      match emitAct s x en st with
      | none | some (.pause _ _) => false
      | some _ => true)

/-- A token put on a circuit output of a slice. The spec does not say what happens where the two engines of a slice, or an engine and a node, put
tokens on one output in one cycle: both are on the track, present at its sinks in the same cycle (log entry 91). -/
def launch (s : State) (x src : Nat) (f : Flight) : State :=
  { s with flights := s.flights ++ (sinksOf s x src).map (fun k => { f with sink := sinkNo k.1 k.2.1, due := s.now + k.2.2 }) }

/-- A token leaves a load stream: onto its circuit, or to its gather node. -/
def outToken (s : State) (x : Nat) (st : Stream) (f : Flight) : State :=
  if st.kind = .gather then
    s.setSlice x { s.slice x with nodes := at_ (s.slice x).nodes st.node (fun n => { n with rows := n.rows ++ [f.tok] }) }
  else
    let y := chanToks s x st.cp [f.tok]
    launch y.2 x (0x40 + st.cp) { f with tok := (y.1.head?).getD f.tok, sid := st.sid, op := st.op, slot := st.slot }

/-- The payload of a token from the bytes read (R50). -/
def tokenPay (s : State) (st : Stream) (r : RoTok) : Vec :=
  if st.pat.form ≠ 1 then BitVec.ofNat 256 r.got
  else
    let g := streamGrove s st
    let n := codeWidth g st.fmt
    let have_ := st.valid s r.idx * st.codes s / Nat.max 1 st.w
    ofLanes (fun l =>
      if have_ ≤ l then 0
      else
        let c := codeAt r.got n l
        if st.fmt = 31 then BitVec.ofNat 32 c else if st.fmt = 30 then bf16To32 c else descTo32 (fmtDesc g st.fmt) c)

/-- The stream once a data token has left. -/
def emitted (st : Stream) : Stream :=
  let e := st.emit + 1
  { st with emit := e, win := st.win.drop 1, inRound := if e % st.pat.rl = 0 then st.inRound + 1 else st.inRound, marked := false }

/-- The engine's branch counts after a data token of a stream. -/
def countSent (e : Engine) (st : Stream) : Engine :=
  { e with sent := st.branches.foldl (fun v p => at_ v p.1 (fun n => (n + 1) % 2 ^ 32)) e.sent }

/-- The end of a load stream's emission: a gather's generator is freed when its node has passed the end on, others now. -/
def emitEnd (s : State) (x k : Nat) (st : Stream) : State :=
  let s1 := outToken s x st { tok := markTok 4 }
  match st.kind with
  | .gather => setGen s1 x k (some { st with ended := true })
  | .cut => setGen s1 x k none
  | _ => opDone (setGen s1 x k none) st.op

/-- A stream pauses at a fault: its record goes out with SRC 1 (R191, R192). -/
def pauseStream (s : State) (x k : Nat) (st : Stream) (c : Cause) (va ep : Nat) : State :=
  (setGen s x k (some (st.pausedBy c va s.now))).sendRecord st.grove
    { cause := c, src := 1, clu := cluCode (siteCluster x), ep := ep, sid := st.sid, addr := va % 2 ^ 48 }

/-- The endpoint of an engine of a slice (R73). -/
def engineEp (x k : Nat) : Nat := epOf x (1 + k / 4)

/-- What an emission does. -/
def emitDo (s : State) (x k : Nat) (st : Stream) : EmitAct → State
  | .pause c va => pauseStream s x k st c va (engineEp x k)
  | .data r =>
    let free := s.drawFree
    let bad := match r.st with
      | .data b => b
      | _ => false
    let s0 := if bad then free.2 else s
    let rl := st.pat.rl
    let t : Tok := { pay := if bad then free.1 else tokenPay s st r, kind := if bad then 7 else 0, weight := 1, first := decide (st.emit % rl = 0),
                     last := decide (st.emit % rl + 1 = rl) }
    let s1 := setEngine s0 x (k / 4) (countSent (engineOf s0 x (k / 4)) st)
    outToken (setGen s1 x k (some (emitted st))) x st { tok := t, bytes := st.elemBytes s st.emit, valid := st.valid s st.emit }
  | .ash grp =>
    let n := (st.win.takeWhile (fun r => r.st = .gone grp)).length
    let rl := st.pat.rl
    let cnt := recordsOf rl n
    let a : Ash := { fseq := st.emit / rl % 2 ^ 32, lseq := (st.emit / rl + cnt - 1) % 2 ^ 32, cnt := cnt, dw := cnt, uw := cnt, org := orgPrune }
    let st1 : Stream := { st with emit := st.emit + n, win := st.win.drop n, inRound := st.inRound + cnt, marked := false }
    outToken (setGen s x k (some st1)) x st { tok := { pay := a.bits, kind := 1 } }
  | .marker =>
    let r := st.pendR.getD st.round
    outToken (setGen s x k (some { st with inRound := 0, marked := true, round := r, pendR := none })) x st { tok := markTok 2 }
  | .eor => emitEnd s x k st
  | .cutTok t =>
    let got := if t.entry then t.pay else BitVec.ofNat 256 ((st.win.head?.map (·.got)).getD 0)
    let bad := !t.entry && (match st.win.head?.map RoTok.st with
      | some (.data b) => b
      | _ => false)
    let st1 : Stream := { st with
      emit := if t.entry then st.emit else st.emit + 1, win := if t.entry then st.win else st.win.drop 1,
      cut := st.cut.map (fun c => { c with queue := c.queue.drop 1, asked := if t.entry then c.asked else c.asked.drop 1 }) }
    launch (setGen s x k (some st1)) x (0x40 + st.cp)
      { tok := { pay := got, kind := if bad then 7 else 0 }, sid := st.sid, op := st.op, slot := t.slot, bytes := t.bytes,
        pos := if t.entry then none else some t.row, cut := t.cut, skips := t.skips, fin := t.fin }

/-- ENGINE_EMIT_TOKEN: the engine emits the next token of the stream it serves, at most one a cycle; a withheld token pauses its stream. -/
def execEngineEmitToken (slice gen : Nat) (s : State) : Res :=
  .next
    (match genStream s slice gen with
     | none => s
     | some st =>
       let e := engineOf s slice (gen / 4)
       match emitAct s slice e st with
       | none => s
       | some (.pause c va) => emitDo s slice gen st (.pause c va)
       | some a =>
         if e.lastEmit = some s.now || servedGen s slice (gen / 4) ≠ some gen then s
         else
           let s1 := emitDo s slice gen st a
           setEngine s1 slice (gen / 4) { engineOf s1 slice (gen / 4) with lastEmit := some s.now, rr := gen % 4 })

/-- CONSUMED_COUNT_REPORT: a report counts from the cycle after it arrives (R53, R54). -/
def execConsumedCountReport (pkt : Nat) (s : State) : Res :=
  .next
    (match s.packets.find? (fun p => p.id = pkt) with
     | none => s
     | some p =>
       if p.type ≠ 7 || p.at_ ≠ .delivered then s
       else
         let s1 := { s with packets := s.packets.filter (fun q => q.id ≠ pkt) }
         let x := siteOfEp (cluDecode p.dclu) p.dep
         let e := engineOf s1 x (p.dep % 8 - 1)
         let old := e.fresh.filter (fun f => decide (f.2.2 < s.now))
         let e1 : Engine := { e with
           reported := old.foldl (fun v f => at_ v f.1 (fun _ => f.2.1)) e.reported,
           fresh := e.fresh.filter (fun f => !decide (f.2.2 < s.now)) ++ [(p.addr % 8, p.val, s.now)] }
         setEngine s1 x (p.dep % 8 - 1) e1)

/-- ENGINE_IDLE_GAP: 64 idle cycles free the heavy slot of an engine (R164). -/
def execEngineIdleGap (slice : Nat) (eng : Fin 2) (s : State) : Res :=
  .next
    (let e := engineOf s slice eng
     if 64 ≤ s.now - e.lastIssue then setEngine s slice eng { e with heavy := false, run := 0 } else s)

/-! ## The fill sink (R56, R57, R128, R353, R360) -/

/-- A field of `n` bits put at a bit position of a number. -/
def putSlotBits (v pos n x : Nat) : Nat := v - (v / 2 ^ pos % 2 ^ n) * 2 ^ pos + x % 2 ^ n * 2 ^ pos

/-- The place in the slot's code string of code c of block b (R360). -/
def blockPlace (d : Word32) (b c : Nat) : Nat :=
  if descAxis d = 0 then b * descBlock d + c else 16 * (descBlock d * (b / 16) + c) + b % 16

/-- The block records of a carry taken apart: codes to their places, scales to theirs (R128, R360). -/
def landBlocks (d : Word32) (rec bytes : Nat) : Nat → Slot → Slot
  | 0, x => x
  | fuel + 1, x =>
    if x.carry.length < rec then x
    else
      let r := ofBytes (x.carry.take rec)
      let n := descWidth d
      let bits := (List.range (descBlock d)).foldl (fun v c => putSlotBits v (n * blockPlace d x.blocks c) n (r / 2 ^ (n * c))) x.bits
      landBlocks d rec bytes fuel
        { x with bits := bits, scales := tabPut x.scales x.blocks (r / 2 ^ (8 * bytes) % 256), blocks := x.blocks + 1, carry := x.carry.drop rec }

/-- A token's bytes put into the slot: a B row at its place, block records taken apart, else in the order of delivery. -/
def landIn (x : Slot) (f : Flight) (valid : Nat) : Slot :=
  let v := f.tok.pay.toNat
  let x1 : Slot :=
    match f.pos, x.scaled, x.fmt with
    | some row, _, _ => { x with bits := putSlotBits x.bits (row * 8 * f.bytes) (8 * f.bytes) v }
    | none, true, .desc d =>
      let bytes := (descBlock d * descWidth d + 7) / 8
      let rec_ := (bytes + 1 + 3) / 4 * 4
      landBlocks d rec_ bytes 8 { x with carry := x.carry ++ bytesOf valid v }
    | none, _, _ => { x with bits := putSlotBits x.bits (8 * x.landed) (8 * f.bytes) v, landed := x.landed + f.bytes }
  { x1 with pending := x.pending - f.bytes }

/-- A B row holds Inf or NaN in some column (R140). -/
def rowSpecial (fmt : SlotFmt) (v : Nat) : Bool :=
  (List.range 16).any (fun j =>
    match fmtValue fmt (v / 2 ^ (fmtWidth fmt * j) % 2 ^ fmtWidth fmt) with
    | .nan | .inf _ => true
    | _ => false)

/-- Slots whose follow-ons are due: nothing pending and a follow-on not yet issued, in slot order (R131). -/
def issueFollows (s : State) (x : Nat) (sid op : Nat) : State :=
  (List.range 8).foldl (fun s i =>
    let t := s.tile x
    match t.slots.toList[i]? with
    | none => s
    | some sl =>
      match sl.follow with
      | some (m, th) =>
        if sl.sid = op && sl.pending = 0 then
          followEnter (s.setTile x { t with slots := at_ t.slots i (fun q => { q with follow := none }) }) x m th sid (Fin.ofNat 8 i)
        else s
      | none => s) s

/-- The bound triple of a cut written to both slots of its pair (R139). -/
def setBounds (t : Tile) (pair : List Nat) (c : Cut) (serial : Nat) : Tile :=
  { t with bounds := pair.foldl (fun v i => at_ v i (fun _ => ⟨c.lo, c.hi, c.n, t.gen, some serial⟩)) t.bounds }

/-- FILL_TOKEN_LAND: a data token due at the fill sink lands in its stream's slot (R56). -/
def execFillTokenLand (site : Nat) (s : State) : Res :=
  .next
    (match (if endDue s.now (s.tile site) then none else takeFlight s (sinkNo site 0x44)) with
     | none => s
     | some (f, s1) =>
       if f.tok.kind ≠ 0 && f.tok.kind ≠ 7 then (if f.tok.kind = 4 then s else s1)
       else
         let t := s1.tile site
         let t0 := match f.cut with
           | some (c, serial, pair) => setBounds t [pair / 8, pair % 8] c serial
           | none => t
         let old := (t0.slots.toList[f.slot]?).getD {}
         if old.sid ≠ f.op || old.pending = 0 then (if f.fin then opDone s1 f.op else s1)
         else
           let sl := landIn old f f.valid
           let psp := f.pos.isSome && f.skips && rowSpecial sl.fmt f.tok.pay.toNat
           let t1 : Tile := { t0 with slots := at_ t0.slots f.slot (fun _ => sl), ms := { t0.ms with psp := t0.ms.psp || psp } }
           let s2 := issueFollows (s1.setTile site t1) site f.sid f.op
           if f.fin then opDone s2 f.op else s2)

/-- FILL_SINK_END_OF_RUN: the end of a run at its sink: an empty fill issues its follow-on; a slot that is short of bytes keeps what has landed, and
its follow-on is not issued (R56, R330). -/
def execFillSinkEndOfRun (site : Nat) (s : State) : Res :=
  .next
    (match (if endDue s.now (s.tile site) then none else takeFlight s (sinkNo site 0x44)) with
     | none => s
     | some (f, s1) =>
       if f.tok.kind ≠ 4 then s
       else
         let t := s1.tile site
         let short := fun (q : Slot) => q.sid = f.op && q.pending ≠ 0
         let s2 := s1.setTile site { t with slots := t.slots.map (fun q => if short q then { q with pending := 0, follow := none } else q) }
         let gone := ((t.slots.toList.filter short).filterMap (·.follow)).map (·.2)
         issueFollows (gone.foldl (fun s th => s.setThr th ((s.thr th).subCtr .mx 1)) s2) site f.sid f.op)

/-! ## Cuts (R138, R139, R352, R353) -/

/-- The number of the panel's rows that store a column. -/
def countAt (l : List (Nat × Nat × Nat)) (k : Nat) : Nat := (l.filter (fun e => e.2.1 = k)).length

/-- The cut grown from its first column (R138). -/
def growCut (l : List (Nat × Nat × Nat)) (kMax bud lo : Nat) : Nat → Nat → Nat → Nat × Nat
  | 0, hi, n => (hi, n)
  | fuel + 1, hi, n =>
    if hi < kMax ∧ hi - lo < 256 then
      (if bud < n + countAt l hi then (hi, n) else growCut l kMax bud lo fuel (hi + 1) (n + countAt l hi))
    else (hi, n)

/-- The cut from a column on; none when no element remains (R138). -/
def cutFrom (l : List (Nat × Nat × Nat)) (kMax bud start : Nat) : Option Cut :=
  match ((l.filter (fun e => decide (start ≤ e.2.1))).map (·.2.1)).min? with
  | none => none
  | some lo =>
    let y := growCut l kMax bud lo 256 (lo + 1) (countAt l lo)
    some ⟨lo, y.1, y.2⟩

/-- The entries of a cut, by row and then by column (R139). -/
def cutEntries (l : List (Nat × Nat × Nat)) (c : Cut) : List Nat :=
  (l.filter (fun e => decide (c.lo ≤ e.2.1 ∧ e.2.1 < c.hi))).map (fun e => e.2.2 % 2 ^ 16 * 2 ^ 16 + e.1 * 2 ^ 12 + (e.2.1 - c.lo))

/-- The tokens of a cut: its entries, eight to a token, then its B rows. -/
def cutTokens (l : List (Nat × Nat × Nat)) (c : Cut) (x y : Fin 8) (serial rowB : Nat) (last : Bool) : List CutTok :=
  let es := cutEntries l c
  let a := (List.range ((es.length + 7) / 8)).map (fun i =>
    let part := (es.drop (8 * i)).take 8
    ({ entry := true, pay := ofLanes (fun j => BitVec.ofNat 32 (part.getD j 0)), slot := x, bytes := 4 * part.length,
       cut := if i = 0 then some (c, serial, 8 * x.val + y.val) else none } : CutTok))
  let b := (List.range (c.hi - c.lo)).map (fun i =>
    ({ row := i, slot := y, bytes := rowB, skips := decide (countAt l (c.lo + i) < 16), fin := last && decide (i + 1 = c.hi - c.lo) } : CutTok))
  a ++ b

/-- A slot as a cut begins to fill it. -/
def cutSlot (t : Tile) (old : Slot) (fmt : SlotFmt) (bytes op : Nat) (follow : Option (MatOp × Nat)) : Slot :=
  { gen := t.gen, fmt := fmt, claim := old.claim, use := old.use, pending := bytes, sid := op, follow := follow }

/-- The elements in range, and how many were out of it (R137). -/
def inRange (kMax : Nat) (l : List (Nat × Nat × Nat)) : List (Nat × Nat × Nat) × Nat :=
  (l.filter (fun e => decide (e.2.1 < kMax)), (l.filter (fun e => decide (kMax ≤ e.2.1))).length)

/-- The format that a cut's B rows count with before the first of them is read: that of the page of its first row as the sets in use give it, else
as the table does; a page that is not in order is left to the address that first reads it (R22, R327). -/
def rowFormat (s : State) (g : Grove) (st : Stream) (c : Cutter) (va : Nat) : Option Nat :=
  let good := fun (f geo : Nat) => if (cutPageFault g c 3 f geo).isNone then some f else none
  match extentAt (st.ext ++ st.nextExt) va with
  | some e => if e.fault.isNone then good (pteFmt e.leaf.toNat) (pteGeo e.leaf.toNat) else none
  | none =>
    match s.walkG g va with
    | .error _ => none
    | .ok e => good (pageFormat e).1 (pageFormat e).2

/-- A cut of a stream decided: the slots' counters, the thread's mx, the tokens to send and the B rows to read. -/
def decideCut (s : State) (x k : Nat) (st : Stream) (c : Cutter) (cut : Cut) : State :=
  let g := streamGrove s st
  let bf := c.bfmt.getD (if c.any then c.bguess else (rowFormat s g st c (c.bbase + cut.lo * c.bpitch)).getD 30)
  let pair := (c.pairs[st.rounds % 2]?).getD (0, 0)
  let rowB := bRowBytes g bf
  let t := s.tile st.node
  let last := (cutFrom c.elems c.k c.bud cut.hi).isNone
  let follow := if c.fe then some (MatOp.mmas c.fa pair.1 pair.2, st.thread) else none
  let t1 : Tile := { t with
    slots := at_ (at_ t.slots pair.1 (fun o => cutSlot t o (slotFormat g c.vfmt) (4 * cut.n) st.op none)) pair.2
      (fun o => cutSlot t o (slotFormat g bf) ((cut.hi - cut.lo) * rowB) st.op follow) }
  let rows := (List.range (cut.hi - cut.lo)).map (fun i => (3, c.bbase + (cut.lo + i) * c.bpitch, rowB))
  let c1 : Cutter := { c with
    bguess := bf, next := cut.hi, any := true, ended := last, need := c.need ++ rows,
    queue := c.queue ++ cutTokens c.elems cut pair.1 pair.2 s.nextId rowB last }
  let s1 := setGen { s.setTile st.node t1 with nextId := s.nextId + 1 } x k
    (some { st with cut := some c1, rounds := st.rounds + 1, toks := st.toks + rows.length })
  if c.fe then s1.setThr st.thread ((s1.thr st.thread).addCtr .mx 1) else s1

/-- The one empty tile of a panel without elements (R138, R139, R353). -/
def emptyCut (s : State) (x k : Nat) (st : Stream) (c : Cutter) : State :=
  let pair := (c.pairs[0]?).getD (0, 0)
  let t := s.tile st.node
  let follow := if c.fe then some (MatOp.mmas c.fa pair.1 pair.2, st.thread) else none
  let fmtOf := fun (o : Slot) => if o.gen = t.gen then o.fmt else .none
  let t1 : Tile := { t with
    slots := at_ (at_ t.slots pair.1 (fun o => cutSlot t o (fmtOf o) 0 st.op none)) pair.2 (fun o => cutSlot t o (fmtOf o) 0 st.op follow) }
  let s1 := setGen { s.setTile st.node (setBounds t1 [pair.1, pair.2] ⟨c.k, c.k, 0⟩ s.nextId) with nextId := s.nextId + 1 } x k
    (some { st with cut := some { c with any := true, ended := true } })
  let s2 := if c.fe then s1.setThr st.thread ((s1.thr st.thread).addCtr .mx 1) else s1
  opDone (issueFollows s2 st.node st.sid st.op) st.op

/-- CUT_DECIDE: the cutter decodes its panel once, and decides the next cut once both slots of its pair are free (R138, R139). -/
def execCutDecide (slice gen : Nat) (s : State) : Res :=
  .next
    (match genStream s slice gen with
     | none => s
     | some st =>
       match st.cut with
       | none => s
       | some c =>
         let g := streamGrove s st
         let pair := (c.pairs[st.rounds % 2]?).getD (0, 0)
         let t := s.tile st.node
         let free := fun (i : Fin 8) => (t.slots[i]).use = 0 && (t.slots[i]).pending = 0
         if !c.loaded || c.ended || st.closing || st.paused.isSome || !enginesRun s st || endDue s.now t then s
         else
           match (if c.any || !c.elems.isEmpty then .ok c.elems else c.decode (codeWidth g c.vfmt) 16) with
           | .error k => pauseStream s slice gen st k 0 (engineEp slice gen)
           | .ok all =>
             let y := inRange c.k all
             if y.2 ≠ 0 && g.exact then pauseStream s slice gen st 0x182 0 (engineEp slice gen)
             else
               let s0 := if y.2 = 0 then s
                 else s.setTile st.node { t with ms := { t.ms with cl := Nat.min 0xFFFF (t.ms.cl + y.2) } }
               let c0 : Cutter := { c with elems := y.1, any := c.any || y.1.isEmpty }
               if !free pair.1 || !free pair.2 || ctrFull (s.thr st.thread) .mx 1 then
                 setGen s0 slice gen (some { st with cut := some c0 })
               else
                 match cutFrom y.1 c.k c.bud c.next with
                 | none => if c.ended then s0 else emptyCut s0 slice gen st c0
                 | some cut => decideCut s0 slice gen st c0 cut)

end Sys2Proof.Machine
end

