-- ==== Sys2Proof/Machine/Network.lean ====
section
/-! DEFINITION. The packet network (R70-R77): routing a header, queues and pruning, pruned headers at their receivers, re-requests. -/

namespace Sys2Proof.Machine

/-! ## Queues (R70, R72, R76) -/

def State.packet (s : State) (id : Nat) : Option Packet := s.packets.find? (fun p => p.id = id)
def State.dropPacket (s : State) (id : Nat) : State := { s with packets := s.packets.filter (fun p => p.id ≠ id) }

/-- A packet moves: it stands last at its new place. -/
def State.movePacket (s : State) (p : Packet) : State := { s with packets := s.packets.filter (fun q => q.id ≠ p.id) ++ [p] }

/-- The lane a packet rides: a pruned header rides lane 0 (R72). -/
def Packet.lane (p : Packet) : Nat := if p.pruned then 0 else p.vl

/-- The number of a place with a queue of its own. -/
def placeKey : PktAt → Nat
  | .router r dir => r * 8 + dir
  | .hearth die cx => 4096 + die * 8 + cx
  | .link n => 8192 + n
  | _ => 4096 + 64

/-- A link: the cycle from which it is free, the lane it is sending, and the lane of 1, 2 and 3 that it served last. -/
def linkAt (s : State) (a : PktAt) : Nat × Nat × Nat := tabGet s.links (placeKey a) (0, 3, 3)

/-- Flits of a packet that is leaving a place and are still there: one goes each cycle (R70). -/
def flitsLeaving (s : State) (a : PktAt) (lane : Nat) : Nat := if (linkAt s a).2.1 = lane then (linkAt s a).1 - s.now else 0

/-- Flits of a lane at a place. -/
def laneFlits (s : State) (a : PktAt) (lane : Nat) : Nat :=
  (s.packets.filter (fun p => p.at_ = a && p.lane = lane)).foldl (fun n p => n + 1 + p.len) (flitsLeaving s a lane)

/-- Packets that stand in one queue: those of a place; at the crossing of the dies, those that go the same way on. -/
def sameQueue (p q : Packet) : Bool :=
  q.at_ = p.at_ && q.lane = p.lane
    && (p.at_ ≠ .hub || q.ddev = p.ddev && dieOf (cluDecode q.dclu) = dieOf (cluDecode p.dclu) && cxOf (cluDecode q.dclu) = cxOf (cluDecode p.dclu))

/-- A packet is the first of its lane where it stands: queues keep their order. -/
def firstInLane (s : State) (p : Packet) : Bool :=
  match (s.packets.filter (sameQueue p)).head? with
  | some q => q.id = p.id
  | none => false

/-- A packet of another die's cluster, for this package: it crosses from die to die (R70). -/
def crosses (s : State) (p : Packet) : Bool :=
  p.ddev = s.dev && p.sdev = s.dev && dieOf (cluDecode p.sclu) ≠ dieOf (cluDecode p.dclu)

/-- The first cycle in which a header that comes to a place now may leave it (R70): 2 cycles at a router, 16 for the crossing between dies. -/
def leavesAt (s : State) (p : Packet) : PktAt → Nat
  | .input _ _ => s.now + 2
  | .hub => if crosses s p then s.now + 16 else s.now
  | _ => s.now

/-- A place with a lane-1 queue that prunes (R76): a router's output, a hearth crossing, a link. -/
def queueAt : PktAt → Bool
  | .router _ d => d ≠ 6
  | .hearth _ _ | .link _ => true
  | .input _ _ | .hub | .delivered | .backoff _ | .hole => false

/-- A pruneable packet meets more than 27 flits on lane 1. -/
def prunedAt (s : State) (p : Packet) (a : PktAt) : Bool := p.pr && !p.pruned && queueAt a && decide (27 < laneFlits s a 1)

/-- A packet arrives at a place: if it is pruneable and more than 27 flits wait there on lane 1, its payload is discarded, HCHK is computed
again, and it goes on on lane 0 (R72, R76). -/
def arrivePacket (s : State) (p : Packet) (a : PktAt) : State :=
  if prunedAt s p a then
    addTrim (s.movePacket { ({ p with pruned := true, len := 0, vl := 0 } : Packet).sealed with at_ := a, due := leavesAt s p a, pay := [], val := 0 })
      (placeKey a) 1
  else s.movePacket { p with at_ := a, due := leavesAt s p a }

/-- The packets of a class that a receiver holds (R72): taken into its queue, or there to be taken. -/
def classHeld (s : State) (p : Packet) : Nat :=
  (s.packets.filter (fun q => q.at_ = .delivered && q.vl = 3 && q.cls = p.cls && q.dclu = p.dclu && q.dep = p.dep)).length
    + (if p.dep = coreEp then ((s.coreOf (cluDecode p.dclu)).inbox.filter (fun q => q.cls = p.cls)).length
       else ((s.tile (siteOfEp (cluDecode p.dclu) p.dep)).msgq.filter (fun q => q.1 = p.cls && decide (s.now < q.2.2))).length)

/-- A place has room for a packet: 36 flits a lane in a buffer or a queue (R70, R76); 16 packets of a class at a receiver (R72). A packet that is
pruned there needs room for its header alone. -/
def roomAt (s : State) (p : Packet) (a : PktAt) : Bool :=
  match a with
  | .delivered => p.vl ≠ 3 || decide (classHeld s p < 16)
  | .hub | .backoff _ | .hole => true
  | _ => if prunedAt s p a then decide (laneFlits s a 0 + 1 ≤ 36) else decide (laneFlits s a p.lane + 1 + p.len ≤ 36)

/-! ## Routes (R70, R74) -/

/-- The output of XY, or of YX, towards a router of the same die. -/
def stepX (cx tx : Nat) : Option Nat := if cx < tx then some 1 else if tx < cx then some 3 else none
def stepY (cy ty : Nat) : Option Nat := if cy < ty then some 2 else if ty < cy then some 0 else none

/-- The direction an algorithm takes (R74). -/
def routeDir (s : State) (alg r lane tx ty : Nat) : Nat :=
  let x := stepX (cxOf r) tx
  let y := stepY (cyOf r) ty
  match alg with
  | 1 => (y.or x).getD 4
  | 2 =>
    if x = some 3 then 3
    else
      match x, y with
      | some a, some b => if laneFlits s (.router r b) lane < laneFlits s (.router r a) lane then b else a
      | some a, none => a
      | none, some b => b
      | none, none => 4
  | _ => (x.or y).getD 4

/-- The algorithm of a packet: classes 14 and 15, and every packet that is not a class message, go XY (R74). None when the class has no
entry. -/
def routeAlg (s : State) (p : Packet) : Option Nat :=
  if p.type ≠ 6 || 14 ≤ p.cls then some 0 else tabFind (s.grove p.grove).image.routes p.cls

/-- A packet leaves its die's mesh: for the hearth, another die, or another device; under algorithm 3 it goes to the hearth first. -/
def leavesDie (s : State) (p : Packet) (r alg : Nat) : Bool :=
  !p.down && (alg = 3 || p.hub || p.ddev ≠ s.dev || dieOf (cluDecode p.dclu) ≠ dieOf r)

/-- The output a packet takes at a router. -/
def outputAt (s : State) (p : Packet) (r alg : Nat) : PktAt :=
  if leavesDie s p r alg then
    (match stepY (cyOf r) 7 with
     | some d => .router r d
     | none => .router r 5)
  else
    let c := cluDecode p.dclu
    .router r (routeDir s alg r p.lane (cxOf c) (cyOf c))

/-- Where a packet goes next. -/
def nextPlace (s : State) (p : Packet) (alg : Nat) : Option PktAt :=
  match p.at_ with
  | .router r 0 => some (.input (r - 8) 2)
  | .router r 1 => some (.input (r + 1) 3)
  | .router r 2 => some (.input (r + 8) 0)
  | .router r 3 => some (.input (r - 1) 1)
  | .router r 6 => some (.input r 4)
  | .router _ 5 => some (if p.hub && p.ddev = s.dev then .delivered else .hub)
  | .router _ _ => some .delivered
  | .input r _ => some (outputAt s p r alg)
  | .hub => if p.ddev ≠ s.dev then (linkTo s p.ddev).map .link else some (.hearth (dieOf (cluDecode p.dclu)) (cxOf (cluDecode p.dclu)))
  | .hearth die cx => some (.input (clusterAt die cx 7) 5)
  | .link _ => some .delivered
  | .delivered | .backoff _ | .hole => none

/-! ## Turns (R72, R76) -/

/-- A packet stands ready to move on. -/
def readyToMove (s : State) (p : Packet) : Bool :=
  firstInLane s p && decide (p.due ≤ s.now) &&
    (match routeAlg s p with
     | none => false
     | some alg => ((nextPlace s p alg).map (roomAt s p)).getD false)

/-- The lane that a link serves: lane 0 first, then round-robin after that of the others it served last, lane 1 first (R72; log entry 102). -/
def servedLane (s : State) (a : PktAt) : Option Nat :=
  let ready := fun (l : Nat) => s.packets.any (fun q => q.at_ = a && q.lane = l && readyToMove s q)
  let last := (linkAt s a).2.2
  if ready 0 then some 0 else ((List.range 3).map (fun i => (last + i) % 3 + 1)).find? ready

/-- A place that sends over a link, one flit a cycle. -/
def sendsOn : PktAt → Bool
  | .router _ d => d ≠ 6
  | .hearth _ _ | .link _ => true
  | .input _ _ | .hub | .delivered | .backoff _ | .hole => false

/-- The rank of a router's inputs: local, north, east, south, west, hearth (R76). -/
def inputRank (side : Nat) : Nat := if side = 4 then 0 else if side = 5 then 5 else side + 1

/-- A packet of another input that is judged first at the same output, in the same cycle (R76). -/
def judgedFirst (s : State) (p : Packet) : Bool :=
  match p.at_, routeAlg s p with
  | .input r side, some alg =>
    s.packets.any (fun q =>
      match q.at_, routeAlg s q with
      | .input r1 side1, some alg1 =>
        r1 = r && decide (inputRank side1 < inputRank side) && readyToMove s q && outputAt s q r alg1 = outputAt s p r alg
      | _, _ => false)
  | _, _ => false

/-- A packet has its turn where it stands. -/
def hasTurn (s : State) (p : Packet) : Bool :=
  if sendsOn p.at_ then decide ((linkAt s p.at_).1 ≤ s.now) && servedLane s p.at_ = some p.lane else !judgedFirst s p

/-- A link busy with a packet's flits. -/
def useLink (s : State) (p : Packet) : State :=
  if sendsOn p.at_ then
    { s with links := tabPut s.links (placeKey p.at_) (s.now + 1 + p.len, p.lane, if p.lane = 0 then (linkAt s p.at_).2.2 else p.lane) }
  else s

/-! ## Packets discarded (R71, R74, R189) -/

/-- A record to the grove of a packet's sender, with SRC 3 (R191). -/
def packetRecord (s : State) (p : Packet) (c : Cause) : State :=
  s.sendRecord p.grove { cause := c, src := 3, clu := p.sclu, ep := p.sep, sid := p.flow, seq := p.seq }

/-- A message is discarded: its operation completes, and its sender's grove has the record (R154, R189). -/
def discardMessage (s : State) (p : Packet) (c : Cause) : State := opDone (packetRecord (s.dropPacket p.id) p c) p.op

/-- A malformed header (R71). -/
def malformed (p : Packet) : Bool := decide (8 < p.len) || decide (8 < p.olen) || decide (9 ≤ p.type) || p.rsv ≠ 0

/-- A packet is where it was sent: a request is at its node, an answer at its unit; another device keeps what is not a request. -/
def handOver (s : State) (p : Packet) : State :=
  match p.req with
  | some id => if p.type = 0 || p.type = 2 then requestHere (s.dropPacket p.id) id else answerHere (s.dropPacket p.id) id
  | none => if p.ddev ≠ s.dev then s.dropPacket p.id else s.movePacket { p with at_ := .delivered, due := s.now }

/-- A packet goes to its next place. -/
def goTo (s : State) (p : Packet) (a : PktAt) : State :=
  let s1 := useLink s p
  match a with
  | .delivered => handOver s1 p
  | .hub => arrivePacket s1 { p with down := true } a
  | _ => arrivePacket s1 p a

/-- ROUTER_HEADER_ARRIVAL: a header goes on from where it stands: into its router, to the router's output, over the link to the next router, the
hearth, another device's link, or its destination (R70-R72, R74, R76). -/
def execRouterHeaderArrival (pkt : Nat) (s : State) : Res :=
  .next
    (match s.packet pkt with
     | none => s
     | some p =>
       if !firstInLane s p || decide (s.now < p.due) then s
       else if p.hchk ≠ p.check then (s.dropPacket pkt).logEvent 0x3C0 p.grove 0 0
       else if malformed p then (s.dropPacket pkt).logEvent 0x283 p.grove 0 0
       else
         match routeAlg s p with
         | none => discardMessage s p 0x280
         | some alg =>
           match nextPlace s p alg with
           | none => s
           | some a => if roomAt s p a && hasTurn s p then goTo s p a else s)

/-! ## Pruned headers (R77) -/

/-- The cycles before a re-request, by the flow's prunes so far. -/
def backoffAfter (n : Nat) : Nat := 64 * 2 ^ Nat.min 5 n

/-- A lossy flow: every record of which the response carried a token is lost whole (R77). -/
def loseRecords (st : Stream) (p : Packet) : Stream :=
  let rl := st.pat.rl
  let lo := p.tok0 / rl * rl
  let hi := (p.tok0 + p.olen + rl - 1) / rl * rl
  { st with
    win := st.win.map (fun r =>
      let r1 : RoTok := if p.tok0 ≤ r.idx && decide (r.idx < p.tok0 + p.olen) then { r with left := r.left - 1 } else r
      match r1.st with
      | .gone _ => r1
      | _ => if lo ≤ r1.idx && decide (r1.idx < hi) then { r1 with st := .gone p.id } else r1),
    skipTo := if st.issue < hi then some (hi, p.id) else st.skipTo }

/-- Holes of an exact flow. -/
def markHoles (now : Nat) (st : Stream) (p : Packet) : Stream :=
  { st with win := st.win.map (fun r => if p.tok0 ≤ r.idx ∧ r.idx < p.tok0 + p.olen then { r with st := .hole now none } else r) }

/-- A pruned read response at its engine. -/
def prunedRead (s : State) (p : Packet) : State :=
  let x := siteOfEp (cluDecode p.dclu) p.dep
  match genStream s x p.gen with
  | none => s.dropPacket p.id
  | some st =>
    if st.op ≠ p.op then s.dropPacket p.id
    else
      let s1 := if st.gen.isSome then s else addTrim s (flowKey st.grove st.sid) 1
      let st0 : Stream := { st with prunes := st.prunes + 1, specTrim := if st.gen.isSome then st.specTrim + 1 else st.specTrim }
      if p.ex then
        (setGen s1 x p.gen (some (markHoles s.now st0 p))).movePacket { p with at_ := .backoff (s.now + backoffAfter st.prunes) }
      else if st.kind = .fill || st.kind = .cut then
        (setGen s1 x p.gen (some (settle s1 { st0 with win := zeroWindow p st0.win }))).dropPacket p.id
      else (setGen s1 x p.gen (some (loseRecords st0 p))).dropPacket p.id

/-- The node of a slice that a scatter write is for. -/
def nodeOfEp (ep : Nat) : Nat := ep % 8 - 3
def sliceNode (s : State) (x n : Nat) : Node := ((s.slice x).nodes.toList[n]?).getD {}
def setNode (s : State) (x n : Nat) (v : Node) : State := s.setSlice x { s.slice x with nodes := at_ (s.slice x).nodes n (fun _ => v) }

/-- A pruned scatter write at its node. -/
def prunedScatter (s : State) (p : Packet) : State :=
  let x := siteOfEp (cluDecode p.dclu) p.dep
  let n := nodeOfEp p.dep
  let key := flowKey p.grove p.flow
  let before := tabGet s.trims key 0
  let s1 := addTrim s key 1
  if p.ex then s1.movePacket { p with at_ := .backoff (s.now + backoffAfter before) }
  else
    let nd := sliceNode s1 x n
    let a := nd.ash.add p.recs p.wsum p.wsum orgPrune
    let a1 : Ash := { a with fseq := if nd.ash.lost then a.fseq else p.seq, lseq := (p.seq + p.recs - 1) % 2 ^ 32, lost := true }
    (setNode s1 x n { nd with ash := a1 }).dropPacket p.id

/-- PRUNED_HEADER_RECEIPT: the flow's trim counter gains 1; an exact flow waits to ask again, a lossy one accounts for the loss. -/
def execPrunedHeaderReceipt (pkt : Nat) (s : State) : Res :=
  .next
    (match s.packet pkt with
     | none => s
     | some p =>
       if !p.pruned || p.at_ ≠ .delivered then s
       else if p.type = 1 then prunedRead s p
       else if p.type = 4 then prunedScatter s p
       else s)

/-! ## Re-requests (R75, R77) -/

/-- The permits that a re-request spends: of its engine, or of its cluster at the source slice. -/
def reKey (p : Packet) : Nat :=
  if p.type = 1 then engineKey (siteOfEp (cluDecode p.dclu) p.dep) p.gen
  else (slicePermit (cluDecode p.dclu) (siteOfEp (cluDecode p.sclu) p.sep)).1

def reLimit (p : Packet) : Nat := if p.type = 1 then enginePermits else (slicePermit (cluDecode p.dclu) (siteOfEp (cluDecode p.sclu) p.sep)).2

/-- The holes of a read response whose re-request leaves now. -/
def noteAgain (s : State) (p : Packet) : State :=
  let x := siteOfEp (cluDecode p.dclu) p.dep
  match (if p.type = 1 then genStream s x p.gen else none) with
  | none => s
  | some st =>
    if st.op ≠ p.op then s
    else
      setGen s x p.gen (some { st with win := st.win.map (fun r =>
        match r.st with
        | .hole c _ => if p.tok0 ≤ r.idx ∧ r.idx < p.tok0 + p.olen then { r with st := .hole c (some s.now) } else r
        | _ => r) })

/-- RE_REQUEST: the back-off has passed and a permit is free: the re-request leaves on lane 2, naming FLOW, SEQ and OLEN. -/
def execReRequest (id : Nat) (s : State) : Res :=
  .next
    (match s.packet id with
     | none => s
     | some p =>
       match p.at_ with
       | .backoff due =>
         if !p.pruned || decide (s.now < due) || decide (reLimit p ≤ tabGet s.permits (reKey p) 0) then s
         else
           let s1 : State := { (noteAgain s p).dropPacket id with permits := tabPut s.permits (reKey p) (tabGet s.permits (reKey p) 0 + 1) }
           s1.send { p with down := false, type := 5, vl := 2, pr := false, pruned := false, len := 0, hub := p.type = 1, dclu := p.sclu, dep := p.sep,
                            sclu := p.dclu, sep := p.dep, cls := 0 }
       | _ => s)

/-- The read done again at the memory node; its permit returns when it is performed. -/
def readAgain (s : State) (p : Packet) : State :=
  let x := siteOfEp (cluDecode p.sclu) p.sep
  match genStream s x p.gen with
  | none => returnPermit s (engineKey x p.gen)
  | some st =>
    if st.op ≠ p.op then returnPermit s (engineKey x p.gen)
    else
      { s with
        reqs := s.reqs ++ [{ id := s.nextId, src := st.thread, kind := .engineRead x p.gen, va := p.addr, key := (streamGrove s st).key,
                             pieces := p.reads, edge := st.op, joint := p.joint, tok0 := p.tok0, flits := p.olen, reads := p.reads, arr := some s.now, ans := 0 }],
        nextId := s.nextId + 1 }

/-- A scatter packet sent again by its source, or 0x282 when it is no longer held: its hole stays open (R77). -/
def scatterAgain (s : State) (p : Packet) : State :=
  let x := siteOfEp (cluDecode p.dclu) p.dep
  let n := nodeOfEp p.dep
  let s1 := returnPermit s (slicePermit (cluDecode p.sclu) x).1
  match (sliceNode s1 x n).sent.find? (fun q => q.flow = p.flow && q.seq = p.seq && q.dclu = p.sclu && q.dep = p.sep && q.pairs = p.pairs) with
  | some q => s1.send q
  | none => ({ s1 with packets := s1.packets ++ [{ p with at_ := .hole }] } : State).sendRecord p.grove { cause := 0x282, src := 1, clu := cluCode (siteCluster x), ep := p.dep, sid := p.flow, seq := p.seq }

/-- RE_REQUEST_RECEIPT: the source performs the read again, or sends the packet it holds (R77). -/
def execReRequestReceipt (pkt : Nat) (s : State) : Res :=
  .next
    (match s.packet pkt with
     | none => s
     | some p =>
       if p.type ≠ 5 || p.at_ ≠ .delivered then s
       else if p.hub then readAgain (s.dropPacket pkt) p
       else scatterAgain (s.dropPacket pkt) p)

end Sys2Proof.Machine
end

