-- ==== Sys2Proof/Machine/Nodes.lean ====
section
/-! DEFINITION. Slice nodes (R60-R65): scatter, gather, corner-turn, tree-reduce, tokenizer. -/

namespace Sys2Proof.Machine

/-! ## Inputs and outputs of a node -/

def nodeCfg (s : State) (x n : Nat) : NodeCfg := ((s.slice x).cfg.nodes.toList[n]?).getD {}

/-- The bound stream that sent a token on a circuit. -/
def feedOf (s : State) (x : Nat) (f : Flight) : Option (Loc × Stream) :=
  if f.op = 0 then none else (groveStreams s (siteGrove s x)).find? (fun l => l.2.op = f.op)

/-- The token due at a node's circuit input. A token that the node withholds comes first, once the stream it came from goes on; until then the
node takes nothing (R192; log entry 92). -/
def nodeToken (s : State) (x n : Nat) : Option (Flight × State) :=
  let nd := sliceNode s x n
  match (nodeCfg s x n).inp, nd.withheld with
  | none, _ => none
  | some _, some (f, _) =>
    if ((feedOf s x f).map (fun l => l.2.paused.isNone)).getD false then some (f, setNode s x n { nd with withheld := none }) else none
  | some p, none => takeInput s x p

/-- Tokens leave by a node's output, one a cycle, after those still leaving. -/
def nodeOut (s : State) (x n : Nat) (port : Option Nat) (toks : List Tok) : State :=
  match port with
  | none => s
  | some p =>
    let y := chanToks s x p toks
    let nd := sliceNode y.2 x n
    let start := Nat.max s.now nd.outTo
    sendToks (setNode y.2 x n { nd with outTo := start + toks.length }) x (0x40 + p) start y.1

/-- A node withholds a token for a fault: its record goes out with SRC 1, and the stream that the token came from pauses (R189, R192). -/
def nodeFault (s : State) (x n : Nat) (c : Cause) (f : Flight) : State :=
  let s0 := setNode s x n { sliceNode s x n with withheld := some (f, s.now) }
  let s1 := match feedOf s0 x f with
    | some (l, st) => putStream s0 l (st.pausedBy c 0 s.now)
    | none => s0
  s1.sendRecord ((s.groveOfSite x).getD 0) { cause := c, src := 1, clu := cluCode (siteCluster x), ep := epOf x (3 + n), sid := f.sid }

/-- The stream that a node serves. -/
def nodeStream (s : State) (x n : Nat) (k : StreamKind) : Option (Loc × Stream) :=
  (sliceStreams s x).find? (fun l => l.2.kind = k && l.2.node = n)

/-! ## Scatter (R61) -/

/-- An unused pair. -/
def unusedOff (off : Nat) : Bool := off / 2 ^ 30 % 4 = 3

/-- The pairs of a token: the offset in the low half of each 64 bits, the value above it. -/
def pairsOf (v : Vec) (sid seq place round : Nat) : List Pair :=
  (List.range 4).filterMap (fun j =>
    let off := field v.toNat (64 * j) 32
    if unusedOff off then none else some ⟨off, BitVec.ofNat 32 (field v.toNat (64 * j + 32) 32), sid, seq, place, round⟩)

/-- The slice index of an offset. -/
def offSlice (off : Nat) : Nat := off / 2 ^ 20 % 1024

/-- A scatter-write packet: the pairs of one token for one slice. Its RECS and WSUM count a record whose first token it is (R71). -/
def scatterPacket (s : State) (x n : Nat) (st : Stream) (y : Nat) (l : List Pair) (t : Tok) : Packet :=
  { ddev := s.dev, sdev := s.dev, vl := 1, type := 4, pr := true, ex := !st.lossy, len := 1, olen := 1, dclu := cluCode (siteCluster y),
    dep := epOf y (3 + n), sclu := cluCode (siteCluster x), sep := epOf x (3 + n), flow := st.sid, seq := st.recSeq t, wsum := if t.first then t.ownWeight else 0,
    recs := t.first.toNat,
    grove := st.grove, op := st.op, pairs := l, addr := (l.head?.map (·.off)).getD 0 }

/-- The packets of a token's pairs, one for each slice they name. -/
def scatterSend (s : State) (x n : Nat) (st : Stream) (t : Tok) (l : List Pair) : State :=
  (streamGrove s st).slices.zipIdx.foldl (fun s y =>
    let mine := l.filter (fun p => offSlice p.off = y.2)
    if mine.isEmpty then s
    else
      let p := scatterPacket s x n st y.1 mine t
      let s1 := s.send p
      let nd := sliceNode s1 x n
      if st.lossy then s1 else setNode s1 x n { nd with sent := (nd.sent ++ [p]).drop (nd.sent.length + 1 - 256) }) s

/-- A node's ash with one more record lost at it. The spec does not say when the ash of a read-modify-write node leaves it: it stays in the node
(log entry 96). -/
def nodeLose (s : State) (x n seq w : Nat) : State :=
  let nd := sliceNode s x n
  setNode s x n { nd with ash := nd.ash.lose seq w w orgSlice }

/-- A data token of a scatter stream. The spec does not say how a token with several pairs out of range counts in the node's ash: each such pair
counts one record, of the token's weight (log entry 96). -/
def scatterData (s : State) (x n : Nat) (l : Loc) (st : Stream) (t : Tok) : State :=
  let ps := pairsOf t.pay st.sid (st.recSeq t) (if t.first then 0 else st.part) st.rounds
  let count := (streamGrove s st).slices.length
  let bad := ps.filter (fun p => decide (count ≤ offSlice p.off))
  if !bad.isEmpty && !st.lossy then
    (match l with
     | .gen y k => { pauseStream s y k { st with withheld := some t } 0x249 0 (epOf x (3 + n)) with flights := s.flights }
     | .queued _ _ => s)
  else
    let s1 := bad.foldl (fun s p => nodeLose s x n p.seq t.ownWeight) s
    let s2 := scatterSend s1 x n st t (ps.filter (fun p => decide (offSlice p.off < count)))
    putStream s2 l (st.scattered t)

/-- A poisoned scatter token: the spec does not say what the node does with it. DESIGN CHOICE (log entry 96): none of its pairs is sent, and its record
is one record lost in the node's ash. -/
def scatterPoison (s : State) (x n : Nat) (l : Loc) (st : Stream) (t : Tok) : State :=
  let a := (sliceNode s x n).ash
  putStream (if a.lost && a.lseq = st.recSeq t then s else nodeLose s x n (st.recSeq t) t.ownWeight) l (st.scattered t)

/-- One token of a scatter stream, by its kind. -/
def scatterToken (s : State) (x n : Nat) (l : Loc) (st : Stream) (t : Tok) : State :=
  match t.kind with
  | 0 | 6 => scatterData s x n l st t
  | 7 => scatterPoison s x n l st t
  | 1 => putStream s l { st.scattered t with ash := st.ash.join (ashOf t.pay) }
  | 2 => putStream s l { st with rounds := st.rounds + 1 }
  | 4 | 5 => putStream s l { st with closing := true }
  | _ => s

/-- A token that ends a run (R143, R161). -/
def Tok.ends (t : Tok) : Bool := t.kind = 4 || t.kind = 5

/-- Tokens held behind a withheld one, once the stream goes on; what stands behind the end of its run is discarded (R142). -/
def scatterBehind (s : State) (x n : Nat) (l : Loc) : List Tok → State
  | [] => s
  | t :: rest =>
    match nodeStream s x n .scatter with
    | none => s
    | some (l1, st) =>
      if st.paused.isSome then putStream s l1 { st with behind := st.behind ++ (t :: rest) }
      else if t.ends then scatterToken s x n l1 st t
      else scatterBehind (scatterToken s x n l1 st t) x n l rest

/-- SCATTER_TOKEN_ARRIVAL: a token at a read-modify-write node's input: its pairs are sent; behind a withheld token it is held. -/
def execScatterTokenArrival (slice : Nat) (node : Fin 4) (s : State) : Res :=
  .next
    (match nodeStream s slice node .scatter with
     | none =>
       if (nodeCfg s slice node).kind = 1 then (match nodeToken s slice node with
         | some (_, s1) => s1
         | none => s) else s
     | some (l, st) =>
       if st.paused.isSome then
         (match nodeToken s slice node with
          | some (f, s1) => if f.tok.kind = 3 || st.closing || st.behind.any Tok.ends then s1 else putStream s1 l { st with behind := st.behind ++ [f.tok] }
          | none => s)
       else
         let waiting := st.withheld.toList ++ st.behind
         let s0 := putStream s l { st with withheld := none, behind := [] }
         if !waiting.isEmpty then scatterBehind s0 slice node l waiting
         else
           match nodeToken s0 slice node with
           | none => s
           | some (f, s1) => if st.closing then s1 else scatterToken s1 slice node l st f.tok)

/-! ## Read-modify-write (R61) -/

def bf16Add (a b : Nat) : Nat := fpEncode bf16 .rne 0 (Fp.add .rne (fpDecode bf16 a) (fpDecode bf16 b))

/-- The word a pair leaves: FP32 add, BF16 add in each half, INT32 add, min, max, or, swap. -/
def rmwWord (op : Nat) (m v : Word32) : Word32 :=
  match op with
  | 0 => add32 m v
  | 1 => BitVec.ofNat 32 (bf16Add (m.toNat / 65536) (v.toNat / 65536) * 65536 + bf16Add (m.toNat % 65536) (v.toNat % 65536))
  | 2 => m + v
  | 3 => if v.toInt < m.toInt then v else m
  | 4 => if m.toInt < v.toInt then v else m
  | 5 => m ||| v
  | _ => v

/-- The source stream of a pair records its range: the offsets of words (R61, R326). -/
def dirtyPair (s : State) (g : Grove) (p : Pair) : State :=
  let off := p.off / 4 * 4
  match findStream s g p.src with
  | none => s
  | some (l, st) => putStream s l { st with lo := some (Nat.min (st.lo.getD off) off), hi := Nat.max st.hi off }

/-- One pair applied at its word as one event (R83); the old value, and whether it is poisoned, is the answer of a swap. A stale word reads as zero,
and faults under STRICT (R89); an uncorrectable one stays so until it is written whole (R93). -/
def applyPair (s : State) (x n : Nat) (p : Pair) : Except Cause (State × Word32 × Bool) :=
  let off := p.off % 2 ^ 20 / 4 * 4
  let sl := s.slice x
  let put := fun (m : Word32) (bad : Bool) =>
    let s1 := s.setSlice x (sl.put s.now rankNode off 4 (rmwWord (nodeCfg s x n).op m p.val).toNat false)
    (dirtyPair s1 (siteGrove s1 x) p, m, bad)
  match sl.read off 4 with
  | .ok v => .ok (put (BitVec.ofNat 32 v) false)
  | .error c => if c = 0x1C3 then .ok (put 0 true) else .error c

/-- Pairs applied in order: the state, the old values, and the pairs left from the first that met a fault on, with its cause. -/
def applyEach (x n : Nat) : List Pair → State × List (Word32 × Bool) → State × List (Word32 × Bool) × Option (Cause × List Pair)
  | [], a => (a.1, a.2, none)
  | p :: rest, a =>
    match applyPair a.1 x n p with
    | .error c => (a.1, a.2, some (c, p :: rest))
    | .ok (s, v) => applyEach x n rest (s, a.2 ++ [v])

/-- The old values of a swap leave, eight to a token; a token with a poisoned word leaves as kind 7 with a free value. -/
def swapOut (s : State) (x n : Nat) (l : List (Word32 × Bool)) : State :=
  if (nodeCfg s x n).op ≠ 6 then s
  else
    let free := s.drawFree
    let toks := (List.range ((l.length + 7) / 8)).map (fun i =>
      let part := (l.drop (8 * i)).take 8
      let bad := part.any (·.2)
      ({ pay := if bad then free.1 else ofLanes (fun j => (part.map (·.1)).getD j 0), kind := if bad then 7 else 0 } : Tok))
    nodeOut (if l.any (·.2) then free.2 else s) x n (nodeCfg s x n).out toks

/-- Pairs applied in order. At a fault the pair and those behind it are withheld, and the pair's stream pauses (R89, R192). -/
def applyPairs (s : State) (x n : Nat) (l : List Pair) : State :=
  let y := applyEach x n l (s, [])
  let s1 := swapOut y.1 x n y.2.1
  match y.2.2 with
  | none => s1
  | some (c, left) =>
    let s2 := setNode s1 x n { sliceNode s1 x n with stuck := left }
    let src := (left.head?.map (·.src)).getD 0
    let s3 := match findStream s2 (siteGrove s2 x) src with
      | some (l, st) => putStream s2 l (st.pausedBy c 0 s.now)
      | none => s2
    s3.sendRecord ((s.groveOfSite x).getD 0) { cause := c, src := 1, clu := cluCode (siteCluster x), ep := epOf x (3 + n), sid := src }

/-- Pairs that come to a node wait behind those it withholds. -/
def takePairs (s : State) (x n : Nat) (l : List Pair) : State :=
  let nd := sliceNode s x n
  if nd.stuck.isEmpty then applyPairs s x n l else setNode s x n { nd with stuck := nd.stuck ++ l }

/-- Pairs may be applied at a slice: their threads' accesses to it from before the streams are performed (R169), and no copy has written their words
in this cycle (R83). -/
def pairsReady (s : State) (x : Nat) (l : List Pair) : Bool :=
  l.all (fun p => !(s.slice x).taken s.now (p.off % 2 ^ 20) &&
    ((findStream s (siteGrove s x) p.src).map (fun q => forkReady s q.2.thread q.2.op (.slice x))).getD true)

/-- The node of a slice whose withheld pairs may go on: the stream of the first is not paused. -/
def stuckNode (s : State) (x : Nat) : Option Nat :=
  (List.range 4).find? (fun n =>
    match (sliceNode s x n).stuck with
    | [] => false
    | p :: rest => pairsReady s x (p :: rest) && ((findStream s (siteGrove s x) p.src).map (fun l => l.2.paused.isNone)).getD true)

/-- A node's withheld pairs are applied. -/
def goStuck (s : State) (x n : Nat) : State :=
  let nd := sliceNode s x n
  applyPairs (setNode s x n { nd with stuck := [] }) x n nd.stuck

/-- SCATTER_WRITE_APPLY: in live mode the pairs are applied as they arrive; in exact mode they are held for their round. -/
def execScatterWriteApply (pkt : Nat) (s : State) : Res :=
  .next
    (match s.packet pkt with
     | none => s
     | some p =>
       if p.type ≠ 4 || p.pruned || p.at_ ≠ .delivered then s
       else
         let x := siteOfEp (cluDecode p.dclu) p.dep
         let n := nodeOfEp p.dep
         let s1 := s.dropPacket pkt
         if (siteGrove s x).exact then setNode s1 x n { sliceNode s1 x n with pairs := (sliceNode s1 x n).pairs ++ p.pairs }
         else if !pairsReady s x p.pairs then s
         else takePairs s1 x n p.pairs)

/-! ## Gather (R62) -/

/-- How many tokens of eight words a node has ready; `all` counts the last, which zeros pad. -/
def Node.ready (nd : Node) (all : Bool) : Nat := if all then (nd.outIds.length + 7) / 8 else nd.outIds.length / 8

/-- A poisoned word goes into the i-th of them. -/
def Node.badTok (nd : Node) (i : Nat) : Bool := nd.badIds.any (fun k => k / 8 = i)

/-- The words that a node has ready taken out of it, eight to a token. A token with one from a poisoned word is of kind 7, with a free value
(R93). -/
def packWords (s : State) (x n : Nat) (all : Bool) : List Tok × State :=
  let nd := sliceNode s x n
  let cnt := nd.ready all
  let free := s.drawFree
  ((List.range cnt).map (fun i =>
      { pay := if nd.badTok i then free.1 else ofLanes (fun j => nd.outIds.getD (8 * i + j) 0), kind := if nd.badTok i then 7 else 0 }),
   setNode (if (List.range cnt).any nd.badTok then free.2 else s) x n { nd with
      outIds := nd.outIds.drop (8 * cnt), badIds := (nd.badIds.filter (fun k => decide (cnt ≤ k / 8))).map (· - 8 * cnt) })

/-- Whole tokens of the words collected leave, with FIRST and LAST by the stream's record length. -/
def gatherFlush (s : State) (x n rl : Nat) (all : Bool) : State :=
  let y := packWords s x n all
  let nd := sliceNode y.2 x n
  nodeOut (setNode y.2 x n { nd with pos := nd.pos + y.1.length }) x n (nodeCfg s x n).out (y.1.zipIdx.map (fun t =>
    { t.1 with first := decide ((nd.pos + t.2) % rl = 0), last := decide ((nd.pos + t.2) % rl + 1 = rl) }))

/-- The node's ash leaves before a marker. -/
def flushAsh (s : State) (x n : Nat) : State :=
  let nd := sliceNode s x n
  if nd.ash.cnt = 0 then s
  else nodeOut (setNode s x n { nd with ash := {} }) x n (nodeCfg s x n).out [{ pay := nd.ash.bits, kind := 1 }]

/-- A read that a gather node has sent for a word. -/
def isGather (x n : Nat) (r : MemReq) : Bool :=
  match r.kind with
  | .gatherRead h m _ _ _ => h = x && m = n
  | _ => false

/-- The read of a lane's word. -/
def laneRead (s : State) (x n l : Nat) : Option MemReq :=
  s.reqs.find? (fun r => isGather x n r && (match r.kind with
    | .gatherRead _ _ _ _ i => i = l
    | _ => false))

/-- The node asks for the word of each offset of a token that names one: a read request to its slice, under the permits of the node's cluster (R62,
R75). -/
def gatherAsk (s : State) (x n : Nat) (st : Stream) (v : Vec) : State :=
  let g := streamGrove s st
  (List.range 8).foldl (fun s l =>
    let off := (laneAt v l).toNat
    match (if unusedOff off then none else g.sliceAt (offSlice off)) with
    | none => s
    | some y =>
      addReq { s with nextId := s.nextId + 1 }
        { id := s.nextId, src := st.thread, kind := .gatherRead x n y (off % 2 ^ 20 / 4 * 4) l, pieces := [(0, 4, off % 2 ^ 20 / 4 * 4)],
          points := [.slice y], edge := st.op, tok0 := (sliceNode s x n).pos })
    (setNode s x n { sliceNode s x n with asked := true })

/-- An offset outside the grove's slices. -/
def offOut (g : Grove) (off : Nat) : Bool := !unusedOff off && (g.sliceAt (offSlice off)).isNone

/-- What a lane's offset has brought: its word with its poison, zero for an unused one; nothing for one that is dropped. -/
def gatherLane (s : State) (g : Grove) (x n : Nat) (v : Vec) (l : Nat) : Option (Word32 × Bool) :=
  if offOut g (laneAt v l).toNat then none
  else some (((laneRead s x n l).map (fun r => (if r.bad then 0 else BitVec.ofNat 32 r.res, r.bad))).getD (0, false))

/-- The node withholds its offset token, and its stream pauses (R89, R192). -/
def gatherHold (s : State) (x n y k : Nat) (st : Stream) (t : Tok) (rest : List Tok) (c : Cause) : State :=
  let s1 := setNode s x n { sliceNode s x n with rows := rest, asked := false, withheld := some ({ tok := t, op := st.op }, s.now) }
  pauseStream s1 y k st c 0 (epOf x (3 + n))

/-- The words of a token have come: they join those collected, in request order, and whole tokens leave. -/
def gatherTake (s : State) (x n : Nat) (st : Stream) (t : Tok) (rest : List Tok) : State :=
  let got := (List.range 8).map (gatherLane s (streamGrove s st) x n t.pay)
  let s1 : State := { s with reqs := s.reqs.filter (fun r => !isGather x n r) }
  let s2 := (got.filter (·.isNone)).foldl (fun s _ => nodeLose s x n ((sliceNode s x n).pos * 8) 1) s1
  let nd := sliceNode s2 x n
  let vs := got.filterMap id
  let bad := (vs.zipIdx.filter (·.1.2)).map (fun q => nd.outIds.length + q.2)
  gatherFlush (setNode s2 x n { nd with rows := rest, asked := false, outIds := nd.outIds ++ vs.map (·.1), badIds := nd.badIds ++ bad }) x n st.pat.rl false

/-- A token of offsets: its words are asked for, and once all have come they leave. On an exact stream an offset out of range withholds the token
(R61, R62). -/
def gatherOffsets (s : State) (x n y k : Nat) (st : Stream) (t : Tok) (rest : List Tok) : State :=
  let g := streamGrove s st
  if !(sliceNode s x n).asked then
    (if !st.lossy && (List.range 8).any (fun l => offOut g (laneAt t.pay l).toNat) then gatherHold s x n y k st t rest 0x249
     else gatherAsk s x n st t.pay)
  else
    let mine := s.reqs.filter (isGather x n)
    if mine.any (fun r => !r.pieces.isEmpty || r.ans ≠ 2) then s
    else
      match mine.findSome? (·.fault) with
      | some c => gatherHold { s with reqs := s.reqs.filter (fun r => !isGather x n r) } x n y k st t rest c
      | none => gatherTake s x n st t rest

/-- A token that an engine has fed to a gather node. -/
def gatherToken (s : State) (x n y k : Nat) (st : Stream) (t : Tok) (rest : List Tok) : State :=
  let s0 := setNode s x n { sliceNode s x n with rows := rest }
  let out := (nodeCfg s x n).out
  match t.kind with
  | 0 => gatherOffsets s x n y k st t rest
  | 4 =>
    let s1 := nodeOut (flushAsh (gatherFlush s0 x n st.pat.rl true) x n) x n out [markTok 4]
    opDone (setGen (setNode s1 x n { sliceNode s1 x n with pos := 0 }) y k none) st.op
  | 2 => nodeOut (flushAsh (gatherFlush s0 x n st.pat.rl true) x n) x n out [markTok 2]
  | _ => nodeOut s0 x n out [t]

/-- GATHER_OFFSET_ARRIVAL: the next token that the engine has fed to the node; one that the node withholds comes first, once its stream goes on. -/
def execGatherOffsetArrival (slice : Nat) (node : Fin 4) (s : State) : Res :=
  .next
    (let nd := sliceNode s slice node
     match nodeStream s slice node .gather with
     | some (.gen y k, st) =>
       if !enginesRun s st then s
       else
         (match nd.withheld, nd.rows with
          | some (f, _), rows =>
            if st.paused.isSome then s
            else gatherToken (setNode s slice node { nd with withheld := none, rows := f.tok :: rows }) slice node y k st f.tok rows
          | none, t :: rest => gatherToken s slice node y k st t rest
          | none, [] => s)
     | _ => s)

/-! ## Corner-turn (R60) -/

/-- A block of eight tokens turned: token j carries column j, with the sideband of token j. -/
def turnBlock (l : List Tok) : List Tok :=
  (List.range 8).map (fun j =>
    let t := l.getD j {}
    { t with pay := ofLanes (fun i => laneAt (l.getD i {}).pay j), kind := if l.any (fun q => q.kind = 7) then 7 else t.kind })

/-- CORNER_TURN_TOKEN_ARRIVAL: a block leaves once its eight tokens have arrived; a partial one at end-of-run is padded with zero tokens. DESIGN CHOICE
(log entry 106): it is so padded at a round marker and at end-of-kernel too, which R60 does not name. -/
def execCornerTurnTokenArrival (slice : Nat) (node : Fin 4) (s : State) : Res :=
  .next
    (let c := nodeCfg s slice node
     match (if c.kind = 4 then nodeToken s slice node else none) with
     | none => s
     | some (f, s1) =>
       let nd := sliceNode s1 slice node
       match f.tok.kind with
       | 0 | 6 | 7 =>
         let rows := nd.rows ++ [f.tok]
         if rows.length < 8 then setNode s1 slice node { nd with rows := rows }
         else nodeOut (setNode s1 slice node { nd with rows := [] }) slice node c.out (turnBlock rows)
       | 3 => s1
       | _ =>
         let s2 := if nd.rows.isEmpty || f.tok.kind = 1 then s1
           else nodeOut (setNode s1 slice node { nd with rows := [] }) slice node c.out (turnBlock nd.rows)
         nodeOut s2 slice node c.out [f.tok])

/-! ## Tree-reduce (R42, R63) -/

/-- Nodes at a level of the tree over n. -/
def levelSize (n l : Nat) : Nat := (n + 2 ^ l - 1) / 2 ^ l

/-- The level of the root. -/
def rootLevel (n : Nat) : Nat := ((List.range 13).find? (fun l => levelSize n l ≤ 1)).getD 12

/-- The partial at coordinates. -/
def partAt (l : List (Nat × Nat × Vec)) (lv i : Nat) : Option Vec := (l.find? (fun p => p.1 = lv && p.2.1 = i)).map (·.2.2)

/-- A partial climbs: with its sibling it forms its parent; an unpaired left child passes up (R42). -/
def climb (n : Nat) : Nat → Nat → Nat → Vec → List (Nat × Nat × Vec) → List (Nat × Nat × Vec)
  | 0, lv, i, v, l => l ++ [(lv, i, v)]
  | fuel + 1, lv, i, v, l =>
    if rootLevel n ≤ lv then l ++ [(lv, i, v)]
    else if i % 2 = 0 ∧ levelSize n lv ≤ i + 1 then climb n fuel (lv + 1) (i / 2) v l
    else
      let sib := if i % 2 = 0 then i + 1 else i - 1
      match partAt l lv sib with
      | none => l ++ [(lv, i, v)]
      | some w =>
        let sum := if i % 2 = 0 then laneMap2 add32 v w else laneMap2 add32 w v
        climb n fuel (lv + 1) (i / 2) sum (l.filter (fun p => !(p.1 = lv && p.2.1 = sib)))

/-- TREE_REDUCE_PARTIAL_ARRIVAL: a partial is combined by its coordinates; the root leaves as partial (level, 0). DESIGN CHOICE (log entry 106): a data
token (kind 0) is dropped and a poisoned one (kind 7) goes on, of which R63 is silent. -/
def execTreeReducePartialArrival (slice : Nat) (node : Fin 4) (s : State) : Res :=
  .next
    (let c := nodeCfg s slice node
     match (if c.kind = 5 then nodeToken s slice node else none) with
     | none => s
     | some (f, s1) =>
       let nd := sliceNode s1 slice node
       let lv := f.tok.weight / 4096 % 16
       let i := f.tok.weight % 4096
       match f.tok.kind with
       | 6 =>
         if nd.seen.contains (lv, i) then nodeFault s1 slice node 0x24A f
         else
           let parts := climb c.chunks 13 lv i f.tok.pay nd.parts
           (match partAt parts (rootLevel c.chunks) 0 with
            | some v =>
              nodeOut (setNode s1 slice node { nd with parts := [], seen := [], formed := true }) slice node c.out
                [{ pay := v, kind := 6, weight := rootLevel c.chunks * 4096 }]
            | none => setNode s1 slice node { nd with parts := parts, seen := nd.seen ++ [(lv, i)] })
       | 4 =>
         if nd.seen.isEmpty && nd.formed then nodeOut (setNode s1 slice node { nd with formed := false }) slice node c.out [f.tok]
         else nodeFault s1 slice node 0x24B f
       | 0 | 3 => s1
       | _ => nodeOut s1 slice node c.out [f.tok])

/-! ## Tokenizer (R64, R65) -/

/-- The length a leading byte announces; none for a byte that begins no character. -/
def utfLength (b : Nat) : Option Nat :=
  if b < 0x80 then some 1 else if 0xC2 ≤ b ∧ b < 0xE0 then some 2 else if 0xE0 ≤ b ∧ b < 0xF0 then some 3
  else if 0xF0 ≤ b ∧ b < 0xF5 then some 4 else none

/-- The second byte's range, which excludes overlong forms, surrogates and values past U+10FFFF. -/
def utfSecond (b c : Nat) : Bool :=
  if b = 0xE0 then 0xA0 ≤ c && c < 0xC0 else if b = 0xED then 0x80 ≤ c && c < 0xA0 else if b = 0xF0 then 0x90 ≤ c && c < 0xC0
  else if b = 0xF4 then 0x80 ≤ c && c < 0x90 else 0x80 ≤ c && c < 0xC0

/-- The character at the head of a text: its length, invalid (0), or more bytes are needed (none). -/
def utfHead (l : List Byte) : Option Nat :=
  match l with
  | [] => none
  | b :: rest =>
    match utfLength b.toNat with
    | none => some 0
    | some n =>
      let tl := (rest.take (n - 1)).map (·.toNat)
      let ok := (tl.head?.map (utfSecond b.toNat)).getD true && (tl.drop 1).all (fun c => 0x80 ≤ c && c < 0xC0)
      if !ok then some 0 else if tl.length + 1 < n then none else some n

/-- The words of a slice's store as a reader sees them: what is stale reads as zero (R89). -/
def seenStore (sl : Slice) : List (Nat × BitVec 512) := (sl.store.filter (fun k => k.2.gen = sl.gen)).map (fun k => (k.1, k.2.val))

/-- A granule that a step reads is stale under STRICT, or poisoned. -/
def touchStale (sl : Slice) (g : Nat) : Bool := sl.strict && (tabGet sl.store g {}).gen ≠ sl.gen
def touchBad (sl : Slice) (g : Nat) : Bool := (tabGet sl.store g {}).bad ≠ 0 || (tabGet sl.store g {}).lost ≠ 0

/-- A walk of the trie along a text: the last accepting node's id and how many bytes it took, the steps, whether the text ran out, and the granules
that the steps read. A byte for which the node has no child is a step too (log entry 95). -/
structure Walked where
  best  : Option (Word32 × Nat) := none
  steps : Nat := 0
  out   : Bool := false
  read  : List Nat := []

def trieWalk (store : List (Nat × BitVec 512)) : Nat → List Byte → Nat → Walked → Walked
  | _, [], _, w => { w with out := true }
  | nd, b :: rest, len, w =>
    let w1 := { w with steps := w.steps + 1, read := w.read ++ Config.trieTouches store nd b }
    match Config.trieStep store nd b with
    | none => w1
    | some ch =>
      trieWalk store ch rest (len + 1) { w1 with best := match Config.trieId store ch with
        | some v => some (v, len + 1)
        | none => w1.best }

/-- The budget of a sample (R65). -/
def Node.budget (n : Node) : Nat := Nat.min 65536 (64 * n.mean)

/-- A run of invalid bytes has ended: one damage report on the side port. Its fields are lanes 0, 1 and 2 of one data token: the spec gives no
bits (log entry 95). -/
def endRun (s : State) (x n : Nat) : State :=
  let nd := sliceNode s x n
  match nd.badAt with
  | none => s
  | some p =>
    nodeOut (setNode s x n { nd with badAt := none }) x n (nodeCfg s x n).side
      [{ pay := ofLanes (fun l => BitVec.ofNat 32 ([nd.sample, p, nd.pos - p].getD l 0)) }]

/-- Ids not yet sent leave, eight to a token; `all` sends the last ones too. -/
def sendIds (s : State) (x n : Nat) (all : Bool) : State :=
  let y := packWords s x n all
  nodeOut y.2 x n (nodeCfg s x n).out y.1

/-- A sample that has reached its budget is cut at the current position (R65): the ids formed leave. -/
def cutSample (s : State) (x n : Nat) : State :=
  let s1 := sendIds (endRun s x n) x n true
  setNode s1 x n { sliceNode s1 x n with cutOff := true }

/-- The slow-path packet of a cut sample, to the grove's thread 0: the sample id in lane 0 and the position of the cut in lane 1, for which the
spec gives no bits (R65; log entry 95). -/
def slowPath (s : State) (x n sample pos : Nat) : State :=
  let g := (s.groveOfSite x).getD 0
  s.send
    { ddev := s.dev, sdev := s.dev, vl := 3, cls := 14, type := 6, len := 1, olen := 1, dclu := cluCode (s.grove g).cluster0, dep := coreEp,
      sclu := cluCode (siteCluster x), sep := epOf x (3 + n), grove := g,
      pay := [ofLanes (fun l => BitVec.ofNat 32 ([sample, pos].getD l 0))] }

/-- Ids added, and bytes of the text used up. -/
def Node.used_ (nd : Node) (ids : List Word32) (len steps : Nat) : Node :=
  { nd with outIds := nd.outIds ++ ids, text := nd.text.drop len, pos := nd.pos + len, used := nd.used + steps }

/-- The text of a sample matched as far as it can be: `done` says that the sample has ended, so nothing more comes. An invalid byte takes no step
(log entry 95). A walk that reads a stale granule under STRICT stops the node (R89). DESIGN CHOICE (log entry 95): a budget that is reached inside a walk
cuts the sample at the start of that walk, and a match that ends on the budget's last step is not emitted; R65 does not say. -/
def matchText (s : State) (x n : Nat) (done : Bool) : Nat → State
  | 0 => s
  | fuel + 1 =>
    let nd := sliceNode s x n
    let c := nodeCfg s x n
    let fall := fun (b : Byte) => BitVec.ofNat 32 (c.fallback + b.toNat)
    if nd.text.isEmpty || nd.cutOff || nd.stale then s
    else if nd.budget ≤ nd.used then cutSample s x n
    else
      match utfHead nd.text with
      | none => if done then matchText (setNode s x n
          { nd.used_ (nd.text.take 1 |>.map fall) 1 0 with badAt := some (nd.badAt.getD nd.pos) }) x n done fuel else s
      | some 0 => matchText (setNode s x n
          { nd.used_ (nd.text.take 1 |>.map fall) 1 0 with badAt := some (nd.badAt.getD nd.pos) }) x n done fuel
      | some len =>
        let sl := (s.slice x).before s.now
        let w := trieWalk (seenStore sl) c.trie nd.text 0 {}
        if w.read.any (touchStale sl) then setNode s x n { nd with stale := true }
        else if w.out && !done then s
        else if nd.budget ≤ nd.used + w.steps then cutSample (setNode s x n { nd with used := nd.budget }) x n
        else
          let s1 := endRun s x n
          let nd1 := sliceNode s1 x n
          let mark := fun (v : Node) => if w.read.any (touchBad sl) then { v with badIds := nd1.badIds ++ [nd1.outIds.length] } else v
          match w.best with
          | some (v, k) => matchText (setNode s1 x n (mark (nd1.used_ [v] k w.steps))) x n done fuel
          | none => matchText (setNode s1 x n (mark (nd1.used_ ((nd1.text.take len).map fall) len w.steps))) x n done fuel

/-- The ash of a cut sample leaves by the node's output with its own positions, and the channel counts its records. -/
def nodeAsh (s : State) (x n : Nat) (a : Ash) : State :=
  match (nodeCfg s x n).out with
  | none => s
  | some p =>
    let t : Tok := { kind := 1, pay := a.bits }
    let s1 := (chanToks s x p [t]).2
    let nd := sliceNode s1 x n
    let start := Nat.max s.now nd.outTo
    sendToks (setNode s1 x n { nd with outTo := start + 1 }) x (0x40 + p) start [t]

/-- A sample has ended: of a cut one the rest becomes ash, and then the slow-path packet leaves; the mean follows a completed one (R65). DESIGN CHOICE
(log entry 95): the numbering of samples, and the mean, begin again when the slice is allocated, not at a later bind or end-of-run; R64 does not say
which bind it counts from. -/
def endSample (s : State) (x n : Nat) : State :=
  let s1 := endRun s x n
  let nd := sliceNode s1 x n
  let rest := nd.text.length
  let nd1 : Node := { nd with text := [], pos := 0, used := 0, cutOff := false, sample := nd.sample + 1 }
  if nd.cutOff then
    slowPath (nodeAsh (setNode s1 x n nd1) x n
      { fseq := nd.pos, lseq := nd.pos + rest - 1, cnt := rest, dw := rest, uw := rest, org := orgSlice }) x n nd.sample nd.pos
  else setNode s1 x n { nd1 with mean := ((nd.mean : Int) + ((nd.used : Int) - nd.mean).tdiv 16).toNat }

/-- TOKENIZER_TOKEN_ARRIVAL: text joins its sample, which is matched as far as it can be. Ids of several samples share a token; one of fewer than
eight leaves at a marker or at a cut, which the spec leaves open (log entry 95). -/
def execTokenizerTokenArrival (slice : Nat) (node : Fin 4) (s : State) : Res :=
  .next
    (let c := nodeCfg s slice node
     match (if c.kind = 6 then nodeToken s slice node else none) with
     | none => s
     | some (f, s1) =>
       let nd := sliceNode s1 slice node
       match f.tok.kind with
       | 0 | 6 =>
         let v := f.tok.pay.toNat
         let cnt := field v 248 5
         let last := flag v 255
         let s2 := setNode s1 slice node { nd with text := nd.text ++ bytesOf (Nat.min 31 cnt) v }
         let s3 := matchText s2 slice node last (nd.text.length + 64)
         if (sliceNode s3 slice node).stale then nodeFault s1 slice node 0x1C0 f
         else
           let s4 := sendIds s3 slice node false
           if last then endSample s4 slice node else s4
       | 3 => s1
       | 2 | 4 | 5 => nodeOut (sendIds s1 slice node true) slice node c.out [f.tok]
       | _ => nodeOut s1 slice node c.out [f.tok])

end Sys2Proof.Machine
end

