-- ==== Sys2Proof/Machine/StorePorts.lean ====
section
/-! DEFINITION. Store ports (R142-R149, R361): tokens written at the positions of a walk, rounds held and committed, pauses, the end of a
store stream and its dirty-range entry (R26, R27). -/

namespace Sys2Proof.Machine

/-! ## The write of a token (R50-R52, R148) -/

/-- Where a store stream writes an address, and whether the page is full-empty; or the fault. -/
def writePa (s : State) (st : Stream) (va : Nat) : Except Cause (Nat × Bool) :=
  match extentAt st.ext va with
  | none => .error 0x200
  | some x =>
    match x.fault with
    | some c => .error c
    | none =>
      let leaf := x.leaf.toNat
      let pa := x.pa + (va - x.va)
      if !pteW leaf then .error 0x202
      else if pteFmt leaf ≠ st.fmt || pteGeo leaf ≠ st.geo then .error 0x247
      else if linkFault s pa then .error 0x384
      else .ok (pa, pteFe leaf)

/-- The pieces of a token with their places: (offset, bytes, PA, full-empty), or the first fault with its address. -/
def writePieces (s : State) (st : Stream) : List (Nat × Nat × Nat) → Except (Cause × Nat) (List (Nat × Nat × Nat × Bool))
  | [] => .ok []
  | (off, va, n) :: rest =>
    match writePa s st va, writePieces s st rest with
    | .error c, _ => .error (c, va)
    | .ok _, .error e => .error e
    | .ok (pa, fe), .ok l => .ok ((off, n, pa, fe) :: l)

/-- A stream with a set that covers the pieces: the one in use, the one prepared, or one built from the first address (R22, R23). -/
def Stream.extentsFor (s : State) (st : Stream) (ps : List (Nat × Nat × Nat)) : Stream :=
  if allCovered st.ext ps then st
  else if allCovered st.nextExt ps then { st with ext := st.nextExt, nextExt := [] }
  else { st with ext := extentsFrom s (streamGrove s st) ((ps.head?.map (·.2.1)).getD 0) st.lastVa, nextExt := [] }

/-- The draw of lane l of token t of a store stream (R359). -/
def storeDraw (sid t l : Nat) : Nat := (drawLane 1 (BitVec.ofNat 64 sid) (8 * t + l)).toNat

/-- The bytes of a data token, the `i`-th of its stream, as the page's format holds them (R36, R51). -/
def storeBits (s : State) (st : Stream) (i : Nat) (v : Vec) : Nat :=
  if st.pat.form ≠ 1 then v.toNat
  else
    let g := streamGrove s st
    let d := fmtDesc g st.fmt
    let n := codeWidth g st.fmt
    let code := fun l =>
      let w := laneAt v l
      if st.fmt = 31 then w.toNat
      else if st.fmt = 30 then toBf16 .rne 0 w
      else descFrom32 d (descDrnd d) (storeDraw st.sid i l) w
    (List.range 8).foldl (fun a l => a + code l % 2 ^ n * 2 ^ (n * l)) 0

/-- The write request of a token that a stream holds (R75, R142): where no permit is free the engine sends it later. The words that fill are the
whole words of full-empty pages, in one event (R148); else a width converter's pieces are events of their own (R60; log entry 89). -/
def writeRequest (s : State) (x k : Nat) (st : Stream) (h : Held) (exact : Bool) (l : List (Nat × Nat × Nat × Bool)) (due : Nat) : State :=
  let r : MemReq := { id := s.nextId, src := st.thread, kind := .portWrite x k exact (h.tok.kind = 7) (storeBits s st h.draw h.tok.pay) h.draw,
                      va := st.storeVa s h.pos, key := (streamGrove s st).key, pieces := l.map (fun p => (p.1, p.2.1, p.2.2.1)),
                      reads := (l.filter (fun p => p.2.2.2 && p.2.1 = 8)).map (fun p => (p.1, p.2.1, p.2.2.1)),
                      joint := if st.narrow s && l.all (fun p => !(p.2.2.2 && p.2.1 = 8)) then [] else [0], edge := st.op, tok0 := h.pos, due := due }
  addReq { s with nextId := s.nextId + 1 } r

/-- The tokens a stream holds whose writes are not on their way. -/
def Stream.unsent (s : State) (st : Stream) : List Held := st.held.filter (fun h => !writeUnderWay s st.op h.pos)

/-- A live stream's held tokens go out in order (R144); a fault waits for those ahead, then pauses the stream. -/
def sendHeld (x k : Nat) : List Held → State → State
  | [], s => s
  | h :: rest, s =>
    match genStream s x k with
    | none => s
    | some st =>
      let ps := st.storeParts s h.pos
      let st1 := st.extentsFor s ps
      match writePieces s st1 ps with
      | .error (c, va) => if st.held.head?.map (·.pos) = some h.pos then pauseStream s x k { st1 with headHeld := true } c va (engineEp x k) else s
      | .ok l => sendHeld x k rest (writeRequest (setGen s x k (some st1)) x k st1 h false l s.now)

/-! ## A token at a port (R142-R145, R192, R361) -/

/-- The stand-in of a token that was discarded behind a withheld one: it keeps its walk position. -/
def lostTok (t : Tok) : Tok := { kind := 8, first := t.first }

/-- A token withheld: its stream pauses, with the fault record of its engine's endpoint. -/
def storeWithhold (s : State) (x k : Nat) (st : Stream) (t : Tok) (c : Cause) (va : Nat) : State :=
  pauseStream s x k { st with withheld := some t } c va (engineEp x k)

/-- The stream holds a data token at its position (R359: the token draws by its number among the stream's data tokens). -/
def Stream.hold (st : Stream) (t : Tok) : Stream :=
  { st.took with held := st.held ++ [{ pos := st.wpos, draw := st.draws, tok := t, round := st.rounds + 1, seq := st.seqIn }] }

/-- A round of an exact stream that already has its R records takes no further one (R145). -/
def roundFull (exact : Bool) (st : Stream) (more : Nat) : Bool := exact && decide (st.round < st.inRound + more)

/-- A data token: its write goes out in live mode, and waits for its round in exact mode. -/
def storeData (s : State) (x k : Nat) (st : Stream) (t : Tok) : State :=
  let exact := (streamGrove s st).exact
  if st.toks ≤ st.wpos then storeWithhold s x k st t 0x24F 0
  else if st.wpos % st.pat.rl = 0 && roundFull exact st 1 then storeWithhold s x k st t 0x24D 0
  else
    let ps := st.storeParts s st.wpos
    let st1 := st.extentsFor s ps
    match writePieces s st1 ps with
    | .error (c, va) => storeWithhold s x k st1 t c va
    | .ok l =>
      let st2 := st1.hold t
      let s1 := setGen s x k (some st2)
      if exact then s1
      else
        match st2.held.getLast? with
        | some h => writeRequest s1 x k st2 h false l s.now
        | none => s1

/-- Ash: its records' positions are skipped, and the stream's total gains it. -/
def storeAsh (s : State) (x k : Nat) (st : Stream) (t : Tok) : State :=
  let a := ashOf t.pay
  if roundFull (streamGrove s st).exact st a.cnt then storeWithhold s x k st t 0x24D 0
  else
    setGen s x k (some { st with
      wpos := st.wpos + a.cnt * st.pat.rl, ash := st.ash.join a, inRound := st.inRound + a.cnt, seqIn := (st.seqIn + a.cnt) % 2 ^ 32 })

/-- The round marker closes the current round (R145); a new R holds from the next (R330). -/
def storeMarker (st : Stream) : Stream :=
  { st with rounds := st.rounds + 1, inRound := 0, round := st.pendR.getD st.round, pendR := none }

/-- One token taken by a store stream that is not paused, by its kind (R143). -/
def storeTok (s : State) (x k : Nat) (t : Tok) : State :=
  match genStream s x k with
  | none => s
  | some st =>
    match t.kind with
    | 0 | 6 | 7 => storeData s x k st t
    | 1 => storeAsh s x k st t
    | 2 => setGen s x k (some (storeMarker st))
    | 4 | 5 => setGen s x k (some { st with closing := true })
    | 8 => setGen s x k (some st.took)
    | _ => s

/-- The last tokens of a waiting line back to the first of their record: those that came of the record the port is in. -/
def sameRecord : List Tok → Nat
  | [] => 0
  | t :: rest => if t.isData then (if t.first then 1 else 1 + sameRecord rest) else 0

/-- A token behind a withheld one is held where there is room. Else its record is lost, once, with ORG bit 4: what is held of it is discarded
with it, and so is what follows (R361; log entry 90). -/
def storeBehind (s : State) (x k : Nat) (st : Stream) (t : Tok) : State :=
  let room := if st.resv = 0 then freeCommit s x else st.resv - st.holdsBehind
  let st0 : Stream := if t.isData && t.first then { st with lostNow := false } else st
  let st1 : Stream :=
    if !t.isData || (!st0.lostNow && room ≠ 0) then { st0 with behind := st0.behind ++ [t] }
    else if st0.lostNow then { st0 with behind := st0.behind ++ [lostTok t] }
    else
      let n := if t.first then 0 else sameRecord st0.behind.reverse
      let keep := st0.behind.length - n
      let pos := (waitingPos st.pat.rl st.wpos (st.withheld.toList ++ st0.behind ++ [t])).getLast?
      { storeLose st0 ((pos.map (·.1)).getD 0 / st.pat.rl) t.ownWeight with
        behind := st0.behind.take keep ++ (st0.behind.drop keep).map lostTok ++ [lostTok t], lostNow := true }
  setGen s x k (some st1)

/-- Tokens taken one after another; behind one that is withheld they wait, and what stands behind the end of the run is discarded (R142). -/
def storeToks (s : State) (x k : Nat) : List Tok → State
  | [] => s
  | t :: rest =>
    match genStream s x k with
    | none => s
    | some st =>
      if st.paused.isSome then setGen s x k (some { st with behind := st.behind ++ t :: rest })
      else if t.ends then storeTok s x k t
      else storeToks (storeTok s x k t) x k rest

/-- A token that arrives at a stream that is not paused: of a record that was lost while it was, it is skipped (R361). -/
def storeNext (s : State) (x k : Nat) (st : Stream) (t : Tok) : State :=
  if st.lostNow && t.isData && !t.first then storeTok s x k (lostTok t)
  else storeTok (if t.isData then setGen s x k (some { st with lostNow := false }) else s) x k t

/-- The store stream that holds a circuit input of a slice. -/
def portStream (s : State) (x p : Nat) : Option (Nat × Stream) :=
  (sliceStreams s x).findSome? (fun l =>
    match l.1 with
    | .gen _ k => if l.2.kind = .store && l.2.cp = p then some (k, l.2) else none
    | .queued _ _ => none)

/-- STORE_PORT_TOKEN_ARRIVAL: tokens waiting since a pause come first; a token that no stream and no node holds is discarded (R142). -/
def execStorePortTokenArrival (slice : Nat) (port : Fin 4) (s : State) : Res :=
  .next
    (match portStream s slice port with
     | none =>
       if (s.slice slice).cfg.nodes.toList.any (fun n => n.kind ≠ 0 && n.kind ≠ 3 && n.inp = some port.val) then s
       else (match takeInput s slice port with
         | none => s
         | some (_, s1) => s1)
     | some (k, st) =>
       let waiting := st.withheld.toList ++ st.behind
       if tinvHolds s st then s
       else if st.paused.isNone && !(streamGrove s st).exact && !(st.unsent s).isEmpty then sendHeld slice k (st.unsent s) s
       else if st.paused.isNone && !waiting.isEmpty then
         storeToks (setGen s slice k (some { st with withheld := none, behind := [] })) slice k waiting
       else
         match takeInput s slice port with
         | none => s
         | some (f, s1) =>
           if st.closing || st.behind.any Tok.ends || f.tok.kind = 3 then s1
           else if st.paused.isSome then storeBehind s1 slice k st f.tok
           else storeNext s1 slice k st f.tok)

/-! ## Rounds committed (R145-R147, R61) -/

/-- The circuit input that a store stream or a node takes from has had its ember marker: what stands behind it has saved, and begins no commit (R195,
R355). -/
def inputSaved (s : State) (x : Nat) (p : Option Nat) : Bool := (p.bind (fun q => ((s.slice x).emberIn.toList[q]?).join)).isSome

/-- A stream's round n is closed: by its marker, or by its end with no token waiting. -/
def Stream.roundClosed (st : Stream) (n : Nat) : Bool := n ≤ st.rounds || (st.closing && st.behind.isEmpty && st.withheld.isNone)

/-- A stream stands at a token withheld at its commit. -/
def Stream.commitPaused (st : Stream) : Bool := st.headHeld

/-- A stream has something of round n to commit: its marker has come, or it has ended within the round. -/
def Stream.roundDue (st : Stream) (n : Nat) : Bool := n ≤ st.rounds || (st.roundClosed n && !(st.ofRound n).isEmpty)

/-- A scatter packet or re-request of an exact stream with pairs for a slice in a round not after n is outstanding (R77). -/
def scatterOpen (s : State) (x n : Nat) : Bool :=
  let g := siteGrove s x
  s.packets.any (fun p => p.ex && (p.type = 4 || p.type = 5) && p.pairs.any (fun q => decide (q.round ≤ n) && g.sliceAt (offSlice q.off) = some x))

/-- A stream whose next round commits alone: it was bound after the slice had committed that number (R146). -/
def aloneRound (s : State) (x : Nat) (l : List (Nat × Stream)) : Option (Nat × Stream) :=
  l.find? (fun q => decide (q.2.rdone < q.2.commitBase) && !q.2.commitPaused && !inputSaved s x (some q.2.cp) && q.2.roundDue (q.2.rdone + 1) && !scatterOpen s x q.2.rdone)

/-- The round that all exact store ports of a slice commit next, where it may. -/
def sharedRound (s : State) (x : Nat) (l : List (Nat × Stream)) : Option Nat :=
  let n := (s.slice x).committed + 1
  if l.any (fun q => q.2.roundDue n) && l.all (fun q => q.2.roundClosed n && !q.2.commitPaused && !inputSaved s x (some q.2.cp)) && !scatterOpen s x (n - 1) then some n
  else none

/-- The writes of a commit go out in order, two a cycle (R146). A fault waits for the acknowledgement of those ahead, and then pauses its stream;
the rest stay held. -/
def sendCommit (x : Nat) : Nat → List (Nat × Held) → State → State
  | _, [], s => s
  | i, (k, h) :: rest, s =>
    match genStream s x k with
    | none => sendCommit x i rest s
    | some st =>
      let ps := st.storeParts s h.pos
      let st1 := st.extentsFor s ps
      if tinvHolds s st then s
      else
        match writePieces s st1 ps with
        | .error (c, va) =>
          if commitOpen s x then s else pauseStream (s.setSlice x { s.slice x with commit := none }) x k { st1 with headHeld := true } c va (engineEp x k)
        | .ok l => sendCommit x (i + 1) rest (writeRequest (setGen s x k (some st1)) x k st1 h true l (s.now + i / 2))

/-- A commit of a slice goes on: what is left of its round goes out. -/
def goCommit (s : State) (x : Nat) : State :=
  match (s.slice x).commit with
  | none => s
  | some (alone, n) => settleCommit (sendCommit x 0 (commitLeft s x alone n) s) x

/-- The exact scatter streams of a grove that feed a node of an index. -/
def scatterSources (s : State) (g : Grove) (n : Nat) : List Stream :=
  ((g.slices.flatMap (sliceStreams s)).map (·.2)).filter (fun st => st.kind = .scatter && st.node = n)

/-- The node of a slice that may apply a round of the pairs it holds, and the round (R61). -/
def scatterRound (s : State) (x : Nat) : Option (Nat × Nat) :=
  (List.range 4).findSome? (fun n =>
    match (if inputSaved s x ((((s.slice x).cfg.nodes.toList[n]?).getD {}).inp) then none else ((sliceNode s x n).pairs.map (·.round)).min?) with
    | none => none
    | some r =>
      if (scatterSources s (siteGrove s x) n).all (fun st => decide (r < st.rounds) || st.closing) && !scatterOpen s x r
          && pairsReady s x ((sliceNode s x n).pairs.filter (fun p => p.round = r)) then some (n, r) else none)

/-- A node's pairs of a round applied by (source, sequence). -/
def applyRound (s : State) (x n r : Nat) : State :=
  let nd := sliceNode s x n
  let mine := nd.pairs.filter (fun p => p.round = r)
  takePairs (setNode s x n { nd with pairs := nd.pairs.filter (fun p => p.round ≠ r) }) x n (sortBy (fun p => (p.src * 2 ^ 32 + p.seq) * 4 + p.place) mine)

/-- ROUND_COMMIT: a slice sends the held writes of a round in ascending (round, port, sequence) (R146); a node applies its pairs, those first that
it withheld. -/
def execRoundCommit (slice : Nat) (s : State) : Res :=
  .next
    (let begin_ := fun (alone : Option Nat) (n : Nat) => goCommit (s.setSlice slice { s.slice slice with commit := some (alone, n) }) slice
     if (s.slice slice).commit.isSome then goCommit s slice
     else
       let l := exactPorts s slice
       match aloneRound s slice l with
       | some (k, st) => begin_ (some k) (st.rdone + 1)
       | none =>
         match sharedRound s slice l with
         | some n => begin_ none n
         | none =>
           match stuckNode s slice, scatterRound s slice with
           | some n, _ => goStuck s slice n
           | none, some (n, r) => applyRound s slice n r
           | none, none => s)

/-! ## The end of a store stream (R26, R27, R149) -/

/-- A dirty-range entry (R26). -/
def dirtyEntry (g : Grove) (st : Stream) (lo seq : Nat) : Nat :=
  st.pat.base % 2 ^ 64 * 2 ^ 192 + lo % 2 ^ 64 * 2 ^ 128 + st.hi % 2 ^ 64 * 2 ^ 64 + st.sid % 2 ^ 16 * 2 ^ 48
    + g.indexOf (st.thread / 8) % 2 ^ 16 * 2 ^ 32 + seq % 2 ^ 32

/-- The entry of a stream that wrote something is deposited in the grove's log, and the deposit count rises (R27). DESIGN CHOICE (log entry 93):
SEQ is the count before this entry is counted, and an entry whose log page faults is dropped, with no fault and no count. -/
def deposit (s : State) (st : Stream) : State :=
  let g := streamGrove s st
  match st.lo with
  | none => s
  | some lo =>
    if g.dlsize < 6 || 16 < g.dlsize then s
    else
      match readVa s g 9 g.dlbase 8 with
      | .error _ => s
      | .ok bs =>
        let n := ofBytes bs
        let at_ := g.dlbase + 64 + n % 2 ^ g.dlsize * 32
        match storeChunks s g 33 at_ 32, storeChunks s g 9 g.dlbase 8 with
        | .ok a, .ok b => writeChunks (writeChunks s g.key a (bytesOf 32 (dirtyEntry g st lo n))) g.key b (bytesOf 8 (n + 1))
        | _, _ => s

/-- Nothing of a scatter stream is on its way or held at a node. -/
def scatterLanded (s : State) (st : Stream) : Bool :=
  !s.packets.any (fun p => (p.type = 4 || p.type = 5) && p.op = st.op)
    && (streamGrove s st).slices.all (fun x => ((sliceNode s x st.node).pairs ++ (sliceNode s x st.node).stuck).all (fun p => p.src ≠ st.sid))

/-- A write of a store stream has not been acknowledged (R149). -/
def unacked (s : State) (op : Nat) : Bool := s.reqs.any (fun q => q.edge = op && (match q.kind with
  | .portWrite _ _ _ _ _ _ => true
  | _ => false))

/-- STORE_STREAM_COMPLETE: a stream that has ended, with nothing held and every write acknowledged, deposits its entry, is freed and completes (R149). -/
def execStoreStreamComplete (slice gen : Nat) (s : State) : Res :=
  .next
    (match genStream s slice gen with
     | none => s
     | some st =>
       if !st.closing || st.paused.isSome || st.withheld.isSome || !st.behind.isEmpty || !st.held.isEmpty || unacked s st.op then s
       else
         match st.kind with
         | .store => opDone (setGen (deposit s st) slice gen none) st.op
         | .scatter =>
           if !scatterLanded s st then s
           else
             let nd := sliceNode s slice st.node
             let s1 := setNode s slice st.node { nd with sent := nd.sent.filter (fun p => p.flow ≠ st.sid) }
             opDone (setGen (deposit s1 st) slice gen none) st.op
         | _ => s)

end Sys2Proof.Machine
end

