-- ==== Sys2Proof/Machine/Copies.lean ====
section
/-! DEFINITION. Copies: smove and its tokens (R82, R84, R329), shalo and its strip tokens (R86, R328). -/

namespace Sys2Proof.Machine

/-- A command that reads its record of `n` bytes at the address in ra: it waits for the thread's earlier accesses to where the record lies and
for room on its counter, and no fence holds it (R169, R321); its checks trap precisely (R324). -/
def recordForm (a : Reg) (n : Nat) (c : Ctr) (body : Nat → State → Except (Cause × Nat) State) (s : State) : State :=
  issue { srcs := [a] } (fun s =>
    if !earlierDone s (myGrove s) (regAt a s) n || ctrFull s.me c 1 then stall s
    else
      match readRecord s (myGrove s) (regAt a s) n with
      | .error (k, bad) => trapMe s k (BitVec.ofNat 64 bad)
      | .ok v =>
        match body v s with
        | .error (k, bad) => trapMe s k (BitVec.ofNat 64 bad)
        | .ok s1 => s1) s

/-! ## smove (R84, R329) -/

/-- The site a side names, or 0x1C5. -/
def moveSite (g : Grove) (sp v : Nat) : Except Cause Nat :=
  match sp with
  | 0 =>
    match g.siteRel (v / 64) (v % 64) with
    | none => .error 0x1C5
    | some x => if siteIsSlice x then .error 0x1C5 else .ok x
  | 1 =>
    match g.sliceAt v with
    | none => .error 0x1C5
    | some x => .ok x
  | _ => .ok 0

/-- The range fault of a side (R81, R82). -/
def sideFault (g : Grove) (sp adr len : Nat) : Option Cause :=
  match sp with
  | 0 => tileRangeFault adr len
  | 1 => if 2 ^ 20 < adr + len then some 0x1C5 else none
  | 2 => if g.window.length * 2 ^ 20 < adr + len then some 0x1C5 else none
  | _ => none

/-- A range of virtual memory as chunks (first byte, bytes, PA), for reading or for writing; or the first fault. -/
def memChunks (s : State) (g : Grove) (acc : Access) : Nat → Nat → Nat → Nat → Except (Cause × Nat) (List (Nat × Nat × Nat))
  | 0, _, _, _ => .ok []
  | fuel + 1, at_, va, n =>
    if n = 0 then .ok []
    else
      match s.walkG g va with
      | .error c => .error (c, va)
      | .ok e =>
        match accessFault s acc e with
        | some c => .error (c, va)
        | none =>
          let k := Nat.min n (e.va + e.size - va)
          match memChunks s g acc fuel (at_ + k) (va + k) (n - k) with
          | .error x => .error x
          | .ok rest => .ok ((at_, k, e.at_ va) :: rest)

/-- The chunks of a side that is main memory. -/
def sideChunks (s : State) (g : Grove) (side sp adr len : Nat) : Except (Cause × Nat) (List (Nat × Nat × Nat × Nat)) :=
  if sp ≠ 3 then .ok []
  else
    match memChunks s g (if side = 0 then .load else .store) (len / 4096 + 2) 0 adr len with
    | .error e => .error e
    | .ok l => .ok (l.map (fun c => (side, c)))

/-- A move record with a bit set that R329 keeps zero: the reserved ones, or of a site field (R347). -/
def moveBits (v ssp dsp : Nat) : Bool :=
  let site := fun (sp f : Nat) => if sp = 0 then 0 else if sp = 1 then f / 128 else f
  field v 224 4 ≠ 0 || field v 0 64 ≠ 0 || site ssp (field v 240 12) ≠ 0 || site dsp (field v 228 12) ≠ 0

/-- The checks of smove, and the copy begun. DESIGN CHOICE (log entry 106): of several faults a record shows, the order is the record's own bits, the
sites, the alignment, the source's range before the destination's, and then the translations; R82 and R329 give none. -/
def smoveBegin (v : Nat) (s : State) : Except (Cause × Nat) State :=
  let g := myGrove s
  let ssp := field v 254 2
  let dsp := field v 252 2
  let len := field v 192 32
  let sadr := field v 128 64
  let dadr := field v 64 64
  if moveBits v ssp dsp then .error (0x251, 0) else
  match moveSite g ssp (field v 240 12), moveSite g dsp (field v 228 12) with
  | .error c, _ => .error (c, 0)
  | .ok _, .error c => .error (c, 0)
  | .ok x, .ok y =>
    if sadr % 32 ≠ 0 || dadr % 32 ≠ 0 || len % 32 ≠ 0 then .error (0x1C6, 0)
    else
      match (sideFault g ssp sadr len).or (sideFault g dsp dadr len) with
      | some c => .error (c, 0)
      | none =>
        match sideChunks s g 0 ssp sadr len, sideChunks s g 1 dsp dadr len with
        | .error e, _ => .error e
        | .ok _, .error e => .error e
        | .ok a, .ok b =>
          let id := s.nextId
          let s1 := startOp s .cp 1 none
          if len = 0 then .ok (opDone s1 id)
          else
            .ok { s1 with smoves := s1.smoves ++ [{ op := id, thread := s.focus, grove := myGroveId s, ssp := ssp, dsp := dsp, ssite := x, dsite := y,
                                                    sadr := sadr, dadr := dadr, len := len, segs := a ++ b }] }

def execSmove (a : Reg) (s : State) : Res := .next (recordForm a 32 .cp smoveBegin s)

/-- The physical address of a byte of a memory side. -/
def Smove.pa (m : Smove) (side off : Nat) : Nat :=
  match m.segs.find? (fun c => c.1 = side && decide (c.2.1 ≤ off ∧ off < c.2.1 + c.2.2.1)) with
  | some c => c.2.2.2 + (off - c.2.1)
  | none => 0

/-- A token read at its source: its value and whether it is poisoned (R89, R93). -/
def smoveRead (s : State) (m : Smove) : Except Cause (Nat × Bool) :=
  let g := s.grove m.grove
  let at_ := m.sadr + m.done
  let got : Except Cause Nat :=
    match m.ssp with
    | 0 => ((s.tile m.ssite).before s.now).read at_ 32
    | 1 => ((s.slice m.ssite).before s.now).read at_ 32
    | 2 => ((s.die g.die).before s.now).word ((g.windowAt at_).getD 0)
    | _ => if s.badAt (m.pa 0 m.done) 32 then .error 0x1C3 else .ok (s.numAt g.key (m.pa 0 m.done) 32)
  match got with
  | .ok v => .ok (v, false)
  | .error c => if c = 0x1C3 then .ok (0, true) else .error c

/-- The span of 32 bytes with an address is poisoned (R93). -/
def poisonSpan (s : State) (pa : Nat) : State :=
  { s with badLine := if s.badLine.contains (pa / 32) then s.badLine else pa / 32 :: s.badLine }

/-- A token written at its destination, or poisoned there (R93). -/
def smoveWrite (s : State) (m : Smove) (v : Nat) (bad : Bool) : State :=
  let g := s.grove m.grove
  let at_ := m.dadr + m.done
  match m.dsp with
  | 0 => s.setTile m.dsite ((s.tile m.dsite).put s.now rankSmove at_ 32 v bad)
  | 1 => s.setSlice m.dsite ((s.slice m.dsite).put s.now rankSmove at_ 32 v bad)
  | 2 => s.setDie g.die ((s.die g.die).put s.now ((g.windowAt at_).getD 0) 32 v bad)
  | _ =>
    let pa := m.pa 1 m.done
    if bad then poisonSpan s pa else (s.writeNum g.key pa 32 v).clearBad pa 32

/-- The point of a side's token (R166). -/
def Smove.point (s : State) (m : Smove) (side : Nat) : Point :=
  match if side = 0 then m.ssp else m.dsp with
  | 0 => .tile (if side = 0 then m.ssite else m.dsite)
  | 1 => .slice (if side = 0 then m.ssite else m.dsite)
  | 2 => .dieStore (s.grove m.grove).die
  | _ => pointOf s.dev (m.pa side m.done)

/-- A token's read waits a cycle where the granule has just been written (R83), by the copy itself (R84), or by what it follows (R169). -/
def Smove.early (s : State) (m : Smove) : Bool :=
  decide (s.now < m.due) || (m.ssp = 1 && (s.slice m.ssite).fresh s.now (m.sadr + m.done))

/-- The copy's access to main memory of another device is domain traffic (R344). -/
def Smove.note (s : State) (m : Smove) (side : Nat) : State :=
  if (if side = 0 then m.ssp else m.dsp) = 3 then s.noteDomain (some m.grove) (m.pa side m.done) else s

/-- SMOVE_TOKEN: one token is read, and then written (R84), each once the thread's earlier accesses to that point have been performed (R169). A
fault ends the copy, which completes, and its record goes out (R154). -/
def execSmoveToken (id : Nat) (s : State) : Res :=
  .next
    (match s.smoves.find? (fun m => m.op = id) with
     | none => s
     | some m =>
       let rest := s.smoves.filter (fun q => q.op ≠ id)
       let put := fun (s : State) (m : Smove) => { s with smoves := s.smoves.map (fun q => if q.op = id then m else q) }
       match m.fly with
       | none =>
         if !forkReady s m.thread id (m.point s 0) || m.early s then s
         else
           (match smoveRead s m with
            | .error c =>
              (opDone { m.note s 0 with smoves := rest } id).sendRecord m.grove
                { cause := c, src := 1, clu := cluCode (m.thread / 8), ep := loaderEp }
            | .ok r => put (m.note s 0) { m with fly := some r })
       | some (v, bad) =>
         if !forkReady s m.thread id (m.point s 1) then s
         else
           let s1 := smoveWrite (m.note s 1) m v bad
           if m.len ≤ m.done + 32 then opDone { s1 with smoves := rest } id
           else put s1 { m with done := m.done + 32, fly := none, due := s.now + 1 })

/-! ## shalo (R86, R328) -/

/-- A strip of a halo record. -/
structure Strip where
  src   : Nat
  dst   : Nat
  nr    : Nat
  rb    : Nat
  pitch : Nat

/-- The strip of a side, N E S W. -/
def stripOf (v side : Nat) : Strip :=
  let f := field v (400 - 80 * side) 80
  { src := field f 63 17, dst := field f 46 17, nr := field f 34 12, rb := field f 22 12, pitch := field f 5 17 }

def Strip.empty (p : Strip) : Bool := p.nr = 0 || p.rb = 0

/-- The offsets of a strip's tokens, ascending: (source, destination). -/
def Strip.tokens (p : Strip) : List (Nat × Nat) :=
  (List.range p.nr).flatMap (fun j => (List.range p.rb).map (fun i => (p.src + j * p.pitch + 32 * i, p.dst + j * p.pitch + 32 * i)))

/-- The fault of a strip: alignment, then the store's end, then the state area. -/
def stripFault (p : Strip) : Option Cause :=
  if p.empty then none
  else if p.src % 32 ≠ 0 || p.dst % 32 ≠ 0 || p.pitch % 32 ≠ 0 then some 0x1C6
  else moveRange p.src p.dst ((p.nr - 1) * p.pitch + 32 * p.rb)

/-- The tiles of a halo's rectangle, or none where a site is no tile of the grove. -/
def haloTiles (g : Grove) (v : Nat) : Option (List Nat) :=
  let wd := field v 494 6
  let ht := field v 488 6
  let l := (List.range (wd * ht)).map (fun i => g.siteRel (field v 506 6 + i % Nat.max 1 wd) (field v 500 6 + i / Nat.max 1 wd))
  if l.isEmpty || l.any (fun x => (x.map siteIsSlice).getD true) then none else some (l.filterMap id)

/-- The neighbour of a tile on a side inside the rectangle. -/
def haloNeighbour (tiles : List Nat) (x side : Nat) : Option Nat := (neighbour x side 1).filter (fun y => tiles.contains y)

/-- Every adjacent pair is bound both ways (R328). -/
def haloBound (s : State) (tiles : List Nat) : Bool :=
  tiles.all (fun x => (List.range 4).all (fun side =>
    match haloNeighbour tiles x side with
    | none => true
    | some y => moveTarget s x side = some y))

/-- What one tile sends: (source offset, receiver, destination offset), in order. -/
def haloSends (v : Nat) (tiles : List Nat) (x : Nat) : List (Nat × Nat × Nat) :=
  (List.range 4).flatMap (fun side =>
    match haloNeighbour tiles x side with
    | none => []
    | some y => (stripOf v side).tokens.map (fun k => (k.1, y, k.2)))

/-- The halo byte counter of a tile (R86); one of an earlier allocation reads zero. -/
def Tile.halo (t : Tile) : Nat := stamped t.hbGen t.gen t.hb

/-- The earlier accesses of a halo's thread to a tile have been performed (R169). -/
def haloReady (s : State) (h : HaloTok) (x : Nat) : Bool :=
  ((s.ops.find? (fun o => o.id = h.op)).map (fun o => forkReady s o.thread h.op (.tile x))).getD true

/-- A tmove that was issued before a strip token's shalo has the one token a cycle of their tile (R328). -/
def moverFirst (t : Tile) (h : HaloTok) : Bool := (t.mover.map (fun m => !m.idle || decide (m.since ≤ h.id))).getD false

/-- The next token of a sender is read and sent, where it may be: it lands one cycle later. A faulting read leaves the token without a value. -/
def haloSend (s : State) (x : Nat) : State :=
  match s.halos.find? (fun h => h.from_ = x) with
  | none => s
  | some h =>
    if h.sent || moverFirst (s.tile x) h || !haloReady s h x then s
    else
      let fly := match moveRead ((s.tile x).before s.now) h.src with
        | .ok v => some v
        | .error _ => none
      { s with halos := s.halos.map (fun q => if q.id = h.id then { q with sent := true, fly := fly, due := s.now + 1 } else q) }

/-- The tokens of a halo queued behind those of earlier ones, the counters set, the first token of each idle sender read. -/
def haloQueue (s : State) (id cin : Nat) (sends : List (Nat × Nat × Nat × Nat)) : State :=
  let toks := sends.zipIdx.map (fun q =>
    ({ id := s.nextId + q.2, op := id, from_ := q.1.1, src := q.1.2.1, site := q.1.2.2.1, off := q.1.2.2.2, cin := cin } : HaloTok))
  let s1 := { s with halos := s.halos ++ toks, nextId := s.nextId + sends.length }
  let s2 := (sends.map (fun q => q.2.2.1)).foldl (fun s y =>
    let t := s.tile y
    s.setTile y { t with hb := t.halo + 32, hbGen := t.gen }) s1
  let froms : List Nat := (sends.map Prod.fst).eraseDups
  froms.foldl haloSend s2

/-- A halo record with a reserved bit set, or a rectangle that is empty or higher than 60 tiles (R328, R347). -/
def haloBits (v : Nat) : Bool :=
  field v 480 6 ≠ 0 || field v 0 160 ≠ 0 || (List.range 4).any (fun i => field v (400 - 80 * i) 5 ≠ 0) || field v 494 6 = 0 || field v 488 6 = 0
    || decide (60 < field v 488 6)

/-- The checks of shalo, and the exchange begun; it waits while a tile it names still receives. -/
def shaloBegin (v : Nat) (s : State) : Except (Cause × Nat) State :=
  let g := myGrove s
  if haloBits v then .error (0x251, 0) else
  match haloTiles g v with
  | none => .error (0x1C4, 0)
  | some tiles =>
    if !haloBound s tiles then .error (0x1C4, 0)
    else
      match (List.range 4).findSome? (fun i => stripFault (stripOf v i)) with
      | some c => .error (c, 0)
      | none =>
        if tiles.any (fun x => (s.tile x).halo ≠ 0) then .ok (stall s)
        else
          let sends := tiles.flatMap (fun x => (haloSends v tiles x).map (fun k => (x, k)))
          let id := s.nextId
          let s1 := startOp s .cp 1 none
          if sends.isEmpty then .ok (opDone s1 id) else .ok (haloQueue s1 id (field v 486 2) sends)

def execShalo (a : Reg) (s : State) : Res := .next (recordForm a 64 .cp shaloBegin s)

/-- A token has landed: hb falls, and at zero the control token is queued (R86). -/
def haloLower (s : State) (x cin : Nat) : State :=
  let t := s.tile x
  let n := t.halo - 32
  let s1 := s.setTile x { t with hb := n, hbGen := t.gen }
  if n = 0 then pushCtl s1 x cin true else s1

/-- The side of a tile that a strip token comes in by. -/
def HaloTok.side (h : HaloTok) : Nat := ((List.range 4).find? (fun d => neighbour h.site d 1 = some h.from_)).getD 0

/-- HALO_TOKEN_LAND: the token in flight is written at its receiver, and its sender reads its next one; one not sent yet is sent where it may be.
DESIGN CHOICE (log entry 106): where a sender's granule is stale under STRICT, nothing of that token is written, hb falls all the same, a record with
0x1C0 and SRC 1 goes out and the exchange goes on; R86 does not say. -/
def execHaloTokenLand (id : Nat) (s : State) : Res :=
  .next
    (match s.halos.find? (fun h => h.id = id) with
     | none => s
     | some h =>
       if ((s.halos.find? (fun q => q.from_ = h.from_)).map (·.id)) ≠ some id || decide (s.now < h.due) then s
       else if !h.sent then haloSend s h.from_
       else if !haloReady s h h.site then s
       else
         let t := s.tile h.site
         let s1 := match h.fly with
           | some (v, bad) => haloLower (s.setTile h.site (t.put s.now (rankSide h.side) h.off 32 v bad)) h.site h.cin
           | none =>
             (haloLower s h.site h.cin).sendRecord ((s.groveOfSite h.from_).getD 0)
               { cause := 0x1C0, src := 1, clu := cluCode (siteCluster h.from_), ep := epOf h.from_ 0 }
         let rest := s1.halos.filter (fun q => q.id ≠ id)
         let s2 := haloSend { s1 with halos := rest } h.from_
         if rest.any (fun q => q.op = h.op) then s2 else opDone s2 h.op)

end Sys2Proof.Machine
end

