-- ==== Sys2Proof/Machine/Firing.lean ====
section
/-! DEFINITION. The tile's own steps (R98-R126): arrivals at its ports, the start and the end of a firing, ash steps, returns from
spill, and the markers that leave. -/

namespace Sys2Proof.Machine

/-! ## Reports (R53, R221) -/

/-- A consumed-count report of a port (R53): class 14, lane 3, the cumulative count, to the engine its frame names. The packet tables (R71) give branch
and count no place: the branch stands in ADDR, the count in the low 32 bits of one payload flit (DESIGN CHOICE, log entry 106). -/
def sendReport (s : State) (x : Nat) (p : Fin 4) (c : InCfg) (count : Nat) : State :=
  let g := siteGrove s x
  match g.sliceAt c.rsl with
  | none => s
  | some y =>
    s.send { ddev := s.dev, sdev := s.dev, vl := 3, cls := 14, type := 7, len := 1, olen := 1, dclu := cluCode (siteCluster y),
             dep := epOf y (1 + c.reng), sclu := cluCode (siteCluster x), sep := epOf x p, addr := c.rbr, val := count % 2 ^ 32,
             pay := [BitVec.ofNat 256 (count % 2 ^ 32)], grove := (s.groveOfSite x).getD 0 }

/-- A report when RPI tokens have been consumed since the last one, or at end-of-run (R53, R221). -/
def reportPort (s : State) (x : Nat) (p : Fin 4) (atEnd : Bool) : State :=
  let t := s.tile x
  match t.cfg.ins[p] with
  | none => s
  | some c =>
    let q := t.ins[p]
    if c.rv && (atEnd || (c.rpi ≠ 0 && decide (c.rpi ≤ q.unreported))) then
      sendReport (s.setTile x { t with ins := t.ins.set p { q with unreported := if atEnd then 0 else q.unreported % c.rpi } }) x p c q.consumed
    else s

/-- Every input of a tile. -/
def reportAll (s : State) (x : Nat) : State := allPorts.foldl (fun s (p : Fin 4) => reportPort s x p false) s

/-! ## Spill and deferral areas (R98, R103) -/

/-- The offset of token `i` of a record in tile store, and in the deferral area's slice. -/
def spillOff (c : InCfg) (r : Rec) (i : Nat) : Nat := 32 * c.spo + (r.slot * c.rl + i) * 32
def deferOff (c : InCfg) (r : Rec) (i : Nat) : Nat := 32 * c.dof + (r.slot * c.rl + i) * 32

/-- Token `i` of a record that stands in an area, written there. -/
def parkTok (s : State) (x : Nat) (c : InCfg) (r : Rec) (at_ : Place) (i : Nat) : State :=
  match at_, r.toks[i]? with
  | .spill, some k => s.setTile x ((s.tile x).put s.now rankSpill (spillOff c r i) 32 k.pay.toNat false)
  | .defer, some k =>
    (match (siteGrove s x).sliceAt c.dsl with
     | none => s
     | some y => s.setSlice y ((s.slice y).put s.now rankSpill (deferOff c r i) 32 k.pay.toNat false))
  | _, _ => s

/-- The bytes of an area, as they stood before the writes of the cycle (R83). -/
def areaWord (s : State) (x : Nat) (c : InCfg) (r : Rec) (at_ : Place) (i : Nat) : Except Cause Nat :=
  match at_ with
  | .spill => ((s.tile x).before s.now).read (spillOff c r i) 32
  | _ =>
    match (siteGrove s x).sliceAt c.dsl with
    | some y => ((s.slice y).before s.now).read (deferOff c r i) 32
    | none => .ok 0

/-- A token as it comes back from an area: its payload read there; an uncorrectable word makes it poisoned (R93). -/
def unparkTok (read : Nat → Except Cause Nat) (k : Tok) (i : Nat) : Tok :=
  match read i with
  | .ok v => { k with pay := BitVec.ofNat 256 v }
  | .error _ => { k with kind := 7 }

/-- A record as it comes back: what the area holds now is what returns (R81); a recorded one is as it was (R197). -/
def unparkRec (s : State) (x : Nat) (c : InCfg) (r : Rec) (at_ : Place) : Rec :=
  if at_ = .spill || at_ = .defer then
    (let toks := r.toks.zipIdx.map (fun k => unparkTok (areaWord s x c r at_) k.1 k.2)
     { r with toks := toks, kind := if toks.any (fun k => k.kind = 7) then 7 else r.kind })
  else r

/-- The oldest record that waits. -/
def oldestParked (l : List Item) : Option (Rec × Place) :=
  l.findSome? (fun i =>
    match i with
    | .record r a _ _ => if parked a then some (r, a) else none
    | _ => none)

/-- The record that returns in this cycle (R98, R104): the oldest that waits, one per cycle, complete, when an entry is free, and before the port judges a
token or steps ash in the cycle. -/
def returning (now : Nat) (t : Tile) (p : Fin 4) : Option (InCfg × Rec × Place) :=
  let q := t.ins[p]
  match t.cfg.ins[p], oldestParked q.items with
  | some c, some (r, at_) =>
    if c.cap ≤ q.occ || r.toks.length < c.rl || t.ember = .saved || q.backAt = some now || q.actedAt = some now then none else some (c, r, at_)
  | _, _ => none

/-- Items of a port that came out of an area in this cycle, with what the area holds. -/
def reread (s : State) (x : Nat) (c : InCfg) (old : List Item) (l : List Item) : List Item :=
  l.map (fun i =>
    match i with
    | .record r .queue h n =>
      (match old.find? (fun j => j.hasId r.id) with
       | some (.record _ a _ _) => .record (unparkRec s x c r a) .queue h n
       | _ => i)
    | i => i)

/-- A record returns to the queue now. -/
def returnDue (s : State) (x : Nat) (p : Fin 4) : Bool := !endDue s.now (s.tile x) && (returning s.now (s.tile x) p).isSome

/-- SPILL_RETURN: after the firings that end in the cycle, the oldest record that waits returns to the queue (R98, R104). -/
def execSpillReturn (site : Nat) (p : Fin 4) (s : State) : Res :=
  .next
    (let t := s.tile site
     let q := t.ins[p]
     match (if endDue s.now t then none else returning s.now t p) with
     | none => s
     | some (c, _, _) =>
       let q1 : InPort := { q with items := reread s site c q.items (unparkFirst q.items), backAt := some s.now }
       s.setTile site { t with ins := t.ins.set p q1 })

/-! ## Arrivals (R96-R106, R196) -/

/-- The sideband of a token (R95). -/
def Tok.sband (k : Tok) : Nat := k.kind * 2 ^ 20 + k.weight % 65536 * 2 ^ 4 + k.first.toNat * 2 ^ 3 + k.last.toNat * 2 ^ 2

/-- The draw NARROW takes at a port (R359). -/
def narrowDraw (g : Grove) (x p rl q pos l : Nat) : Word32 :=
  drawLane 0 (BitVec.ofNat 64 (8 * (64 * g.relRow x + g.relCol x) + p)) (8 * (rl * q + pos) + l)

/-- An ash token at a port (R97, R99): its sequences advance the port's count and it joins the slot. -/
def ashArrives (p : InPort) (k : Tok) : InPort :=
  let a := ashOf k.pay
  { p with seq := (p.seq + a.cnt) % 2 ^ 32, items := ashInto (fun b =>
      let c := b.join a
      if a.cnt = 0 ∧ !b.lost ∧ b.arr.isNone then { c with fseq := a.fseq, lseq := a.lseq } else c) p.items }

/-- One token at a connected port. -/
def portToken (g : Grove) (x pn : Nat) (k : Tok) (e : PortEnv) (p : InPort) : InPort × Option Cause :=
  match k.kind with
  | 0 | 6 | 7 =>
    dataToken e (fun q pos v =>
      let d := (g.image.fmts[e.cfg.parm]?).getD 0
      narrowVec e.cfg.parm d (fun l => narrowDraw g x pn e.cfg.rl q pos l) v) p k
  | 1 => (ashArrives p k, none)
  | 2 | 4 | 5 => markerArrives p k.kind
  | 3 => ({ p with emberSeen := true, emberCyc := e.now }, none)
  | _ => (p, some 0x0C2)

/-- The verdict on a token as Huash prints it (R349): where its record stands; 6 ash, 7 a marker, 8 dropped, 9 merged, 10 sampled out, 11 no room in the
deferral area, 12 escalated, 13 faulted (DESIGN CHOICE, log entry 81). -/
def verdictCode (kind : Nat) (p1 : InPort) : Nat :=
  if kind = 1 then 6
  else if 2 ≤ kind ∧ kind ≤ 5 then 7
  else
    match p1.last with
    | .kept q => ((p1.recOf q).map (fun k => placeCode k.2.1)).getD 8
    | .merged _ => 9
    | .lost .dropped => 8
    | .lost .sampled => 10
    | .lost .areaFull => 11
    | .lost .escalated => 12
    | .faulted => 13

/-- The newest record that MERGE may take, or the one it took, with what its area holds now (R81, R103). -/
def freshTarget (s : State) (x : Nat) (c : InCfg) (exact saved : Bool) (p : InPort) : InPort :=
  let want : Option Nat :=
    match p.asm with
    | some a => (match a.verdict with
      | .merged q => some q
      | _ => none)
    | none => (p.items.reverse.find? (if exact then isPortHeld else isFree saved)).bind (fun i =>
      match i with
      | .record r _ _ _ => some r.id
      | _ => none)
  if c.pol ≠ 4 then p
  else { p with items := p.items.map (fun i =>
    match i with
    | .record r a h n => if want = some r.id then .record (unparkRec s x c r a) a h n else i
    | i => i) }

/-- The tokens that an arrival changed in records that stand in an area, written there (R98, R103). -/
def parkChanges (s : State) (x : Nat) (c : InCfg) (old p : InPort) : State :=
  p.items.foldl (fun s i =>
    match i with
    | .record r a _ _ =>
      let was := ((old.recOf r.id).map (fun k => k.1.toks)).getD []
      r.toks.zipIdx.foldl (fun s k => if was[k.2]? = some k.1 then s else parkTok s x c r a k.2) s
    | _ => s) s

/-- A token is due at an input port. -/
def arrivalDue (s : State) (x : Nat) (p : Fin 4) : Bool := s.flights.any (fun f => f.sink = sinkNo x (0x40 + p) && decide (f.due ≤ s.now))

/-- An ember marker is present at a data input of a tile (R355). -/
def emberPresent (s : State) (x : Nat) : Bool :=
  allPorts.any (fun (p : Fin 4) => s.flights.any (fun f => f.sink = sinkNo x (0x40 + p) && f.tok.kind = 3 && decide (f.due ≤ s.now)))

/-- The sequence that a fault record names (R191): that of the record concerned; a marker, or a token of a kind that no rule names, concerns none. -/
def recordSeq (p : InPort) (k : Tok) : Nat := if k.kind = 0 || k.kind = 6 || k.kind = 7 then (p.asm.map (·.seq)).getD p.seq else 0

/-- INPUT_PORT_ARRIVAL: the token due at the port is judged, once the firings that end in the cycle have ended and the record that returns in it
has returned (R104). -/
def execInputPortArrival (site : Nat) (port : Fin 4) (s : State) : Res :=
  .next
    (if endDue s.now (s.tile site) || (returning s.now (s.tile site) port).isSome then s
     else
       match takeFlight s (sinkNo site (0x40 + port)) with
       | none => s
       | some (fl, s1) =>
         let t := s1.tile site
         match t.cfg.ins[port] with
         | none => s1
         | some c =>
           let g := siteGrove s1 site
           let p := t.ins[port]
           let saved := t.ember = .saved && !p.emberSeen
           let e : PortEnv := { cfg := c, exact := g.exact, now := s1.now, saved := saved }
           let p0 := freshTarget s1 site c g.exact saved p
           let y := portToken g site port fl.tok e p0
           let p1 : InPort := { y.1 with items := stampAsh s1.now (reread s1 site c p.items y.1.items), actedAt := some s1.now }
           let mark := if fl.tok.kind = 3 && t.ember = .no then EmberAt.marked s1.now else t.ember
           let ended := if t.readFrom = s1.now + 1 then s1.now else 0
           let log := if mark = t.ember then t.emberLog else (s1.now, ended, 0)
           let s2 := s1.setTile site { t with ins := t.ins.set port p1, ember := mark, emberLog := log }
           let s3 := parkChanges s2 site c p0 p1
           let seq := (p.asm.map (·.seq)).getD p.seq
           let s4 := traceAdd s3 (.inPort site port)
             [s1.now, fl.tok.kind, fl.tok.weight, seq, (laneAt fl.tok.pay 0).toNat, p.occ, verdictCode fl.tok.kind p1]
           reportPort (portFault s4 site port (ownerOf t (·.ownI) port) (recordSeq p fl.tok) fl.tok.sband y.2) site port false)

/-- CONTROL_TOKEN_ARRIVAL: a control token joins its run queue; one that would need a ninth entry is recorded in a fault record
and not queued (R69). -/
def execControlTokenArrival (site : Nat) (c : Fin 4) (s : State) : Res :=
  .next
    (match takeBit s (sinkNo site (0xC0 + c)) with
     | none => s
     | some (b, s1) => pushCtl s1 site c b.bit)

/-! ## Readiness (R121, R124, R283) -/

/-- What a firing would hold at an input: its records, or the ash at the head of an ash-fire port (R107, R121). -/
def holding (exact : Bool) (now : Nat) (t : Tile) (n : Nat) (p : Fin 4) : Option (List Item) :=
  match n, t.cfg.ins[p] with
  | 0, _ => some []
  | _, none => none
  | n, some c =>
    let q := t.ins[p]
    match (if c.fire then headAsh q exact now else none) with
    | some a => some [.ash a false true]
    | none =>
      let r := readyRecs c.rl now q.items
      if n ≤ r.length then some (r.take n) else none

/-- Control tokens of an input that no firing holds and that came before a cycle (R348). -/
def ctlFree (now : Nat) (t : Tile) (c : Fin 4) : Nat :=
  runLen t.cin[c] - t.cinHeld[c] - (if (t.cinNew[c]).1 = now then (t.cinNew[c]).2 else 0)

/-- The first cycle in which an actor's minimum interval has passed (R121). -/
def restedFrom (a : ActorCfg) (st : ActorSt) : Nat :=
  match st.last with
  | none => 0
  | some b => b + a.mint

/-- An actor has what its readiness asks but for its interval (R121). -/
def fedActor (exact : Bool) (now : Nat) (t : Tile) (i : Nat) (a : ActorCfg) : Bool :=
  (t.firing.map (·.actor)) ≠ some i
    && allPorts.all (fun (p : Fin 4) => (holding exact now t a.ci[p] p).isSome)
    && allPorts.all (fun (c : Fin 4) => decide (a.cc[c] ≤ ctlFree now t c))

/-- The tokens a control output holds in staging: those still leaving or held there, and those of firings that have not ended. -/
def ctlStaged (now : Nat) (t : Tile) (q : Fin 4) : Nat :=
  t.qbusy[q] - now + (t.qwait[q]).length + t.ending.foldl (fun n f => n + (f.qout[q]).length) 0

/-- Its ports have the staging a firing may need (R124, R283). -/
def roomFor (now : Nat) (t : Tile) (a : ActorCfg) : Bool :=
  allPorts.all (fun (p : Fin 4) => decide (a.po[p] * outRl t p ≤ freeStaging now t p) || a.po[p] = 0)
    && allPorts.all (fun (q : Fin 4) => !a.ownQ.getLsbD q || decide (ctlStaged now t q ≤ 32))

/-- The markers at the heads of the connected inputs; none if one has something else there. -/
def headMarkers (t : Tile) : Option (List Nat) :=
  (allPorts.filter (fun p => (t.cfg.ins[p]).isSome)).mapM (fun p => headMarker t.ins[p])

/-- A marker of a kind is ready to leave: every connected input has it, or one of the kinds that stand for its end (R111). -/
def markerReady (t : Tile) (kind : Nat) (others : List Nat) : Bool :=
  match headMarkers t with
  | some l => l.contains kind && l.all (fun k => k = kind || others.contains k)
  | none => false

def roundReady (t : Tile) : Bool := markerReady t 2 [4, 5]

/-- A marker is ready to leave (R111, R119): each connected input has one at its head. -/
def leaveReady (t : Tile) : Bool :=
  match headMarkers t with
  | some l => !l.isEmpty
  | none => false

/-- Commands of the queue that count against its 24 entries (R131): follow-ons have entries of their own. -/
def queueUsed (t : Tile) : Nat := (t.commands.filter (fun c => c.follow.isNone)).length

/-- The tile may begin a firing (R119, R122, R131, R191, R195, R198, R355). -/
def mayFire (s : State) (x : Nat) (t : Tile) : Bool :=
  t.firing.isNone && decide (t.nextAt ≤ s.now) && !t.stopped && t.ember = .no && !emberPresent s x && unitsRun s x && !leaveReady t
    && decide (queueUsed t ≤ 16)

/-- The actors, with their frames. -/
def actorsOf (t : Tile) : List (Nat × ActorCfg) :=
  (List.range 8).filterMap (fun i => ((t.cfg.actors[i]?).getD none).map (fun a => (i, a)))

/-- The actors that are ready and may start. -/
def readyActors (s : State) (x : Nat) (t : Tile) : List (Nat × ActorCfg) :=
  (actorsOf t).filter (fun k =>
    fedActor (siteExact s x) s.now t k.1 k.2 && decide (restedFrom k.2 (actorSt t k.1) ≤ s.now) && roomFor s.now t k.2)

/-- The rank of a ready actor (R122): aged first, then by role, then by index. -/
def actorRank (t : Tile) (k : Nat × ActorCfg) : Nat := if t.cfg.ageM ≤ (actorSt t k.1).age then k.1 else 8 * (1 + k.2.role) + k.1

/-- The actor the tile picks. -/
def pickActor (s : State) (x : Nat) (t : Tile) : Option (Nat × ActorCfg) :=
  (readyActors s x t).foldl (fun best k =>
    match best with
    | none => some k
    | some b => if actorRank t k < actorRank t b then some k else some b) none

/-! ## Starting a firing (R115, R117, R121, R122) -/

/-- Items marked as held: the records of these sequences, or the ash at the head. -/
def holdItems (held : List Item) (l : List Item) : List Item :=
  match held with
  | [] => l
  | .ash _ _ _ :: _ =>
    let y := takeFirst (fun i => !i.isHeld) l
    (l.takeWhile (fun i => i.isHeld)) ++ (match y.1 with
      | some (.ash a _ _) => [Item.ash a false true]
      | some i => [i]
      | none => []) ++ (l.dropWhile (fun i => i.isHeld)).drop 1
  | _ =>
    l.map (fun i =>
      match i with
      | .record r a h n => if held.any (fun k => k.hasId r.id) then .record r a true n else .record r a h n
      | i => i)

/-- The firing that an actor begins in a cycle: its inputs held, its counters reloaded, its bypass file zero. -/
def newFiring (exact : Bool) (now : Nat) (t : Tile) (i : Nat) (a : ActorCfg) : Firing :=
  { actor := i, gen := t.gen, start := now, pc := a.entry, busyTo := now, k := a.k,
    held := Vector.ofFn (fun p => (holding exact now t a.ci[p] p).getD []),
    ctl := Vector.ofFn (fun c => (runTake a.cc[c] (runTake t.cinHeld[c] t.cin[c]).2).1) }

/-- The tile once a firing has begun. -/
def beginFiring (exact : Bool) (now : Nat) (t : Tile) (i : Nat) (a : ActorCfg) : Tile :=
  let f := newFiring exact now t i a
  { t with
    firing := some f,
    ins := Vector.ofFn (fun p => { t.ins[p] with items := holdItems f.held[p] (t.ins[p]).items }),
    cinHeld := Vector.ofFn (fun c => t.cinHeld[c] + (f.ctl[c]).length),
    actors := at_ t.actors i (fun x => { x with age := 0, last := some now, count := x.count + 1 }) }

/-- FIRING_START: the tile picks among its ready actors and a firing begins (R122). -/
def execFiringStart (site : Nat) (s : State) : Res :=
  .next
    (let t := s.tile site
     if !mayFire s site t then s
     else
       match pickActor s site t with
       | none => s
       | some (i, a) => s.setTile site (beginFiring (siteExact s site) s.now t i a))

/-! ## The end cycle (R124) -/

/-- The items a firing held leave the port (R104 step 1); what was joined to them stands in the entry (R98). -/
def leaveHeld (held l : List Item) : List Item :=
  held.foldl (fun l k =>
    match takeFirst (fun i => i.isHeld && i.same k) l with
    | (some (.record r _ _ _), rest) => unjoin r.id .queue rest
    | (_, rest) => rest) l

/-- Tokens of the records of a list. -/
def toksIn (l : List Item) : Nat := l.foldl (fun a i => a + (match i with
  | .record r _ _ _ => r.toks.length
  | _ => 0)) 0

/-- The weight of the data records of a list, and the counts of its ash (R109). -/
def weightIn (l : List Item) : Nat := l.foldl (fun a i => a + (match i with
  | .record r _ _ _ => if r.kind = 6 then 0 else r.weight
  | _ => 0)) 0
def lostIn (l : List Item) : Nat := l.foldl (fun a i => a + (match i with
  | .ash x _ _ => x.cnt
  | _ => 0)) 0

def InPort.leave (p : InPort) (held : List Item) : InPort :=
  { p with items := leaveHeld held p.items, consumed := p.consumed + toksIn held, unreported := p.unreported + toksIn held }

/-- State lanes committed to the state area (R89, R118). -/
def commitLanes (t : Tile) (w : Tab Word32) : Tile := w.foldl (fun t k => t.write (stateBase + 4 * k.1) 4 k.2.toNat) t

/-- Own writes join the pending set; in live mode the set is applied at once (R118). -/
def joinState (exact : Bool) (t : Tile) (f : Firing) : Tile :=
  let pend := f.writes.foldl (fun p k => tabPut p k.1 k.2) (actorSt t f.actor).pend
  if exact then { t with actors := at_ t.actors f.actor (fun a => { a with pend := pend }) }
  else commitLanes { t with actors := at_ t.actors f.actor (fun a => { a with pend := [] }) } pend

/-- Draw state, WC and WL take their new values (R109, R124, R275). -/
def countFiring (f : Firing) (a : ActorSt) : ActorSt :=
  let w := allPorts.foldl (fun n (p : Fin 4) => n + weightIn f.held[p]) 0
  let l := allPorts.foldl (fun n (p : Fin 4) => n + lostIn f.held[p]) 0
  { a with ctr := f.ctr.getD a.ctr, wc := sat48 ((if f.wcc then 0 else a.wc) + w), wl := sat32 ((if f.wcc then 0 else a.wl) + l) }

/-- A staged ash token with its sequences counted from the port's (R97, R272). -/
def rebase (base : Nat) (k : Tok) : Tok :=
  if k.kind = 1 then
    (let n := k.pay.toNat
     let f := (field n 224 32 + base) % 2 ^ 32
     let l := (field n 192 32 + base) % 2 ^ 32
     { k with pay := BitVec.ofNat 256 (f * 2 ^ 224 + l * 2 ^ 192 + n % 2 ^ 192) })
  else k

/-- Staged outputs and control tokens begin to leave (R124, R348), or stay in staging while the grove is frozen or halted (R198, R213). -/
def sendStaged (s : State) (x : Nat) (f : Firing) : State :=
  let s1 := allPorts.foldl (fun s (p : Fin 4) =>
    let g := f.stage[p]
    leavePort s x p (g.toks.map (rebase ((s.tile x).outs[p]).seq)) g.next) s
  allPorts.foldl (fun s (q : Fin 4) => leaveControl s x q f.qout[q]) s1

/-- The flags of a running command that are already set stand in MS before a clear (R293, R301). -/
def settleFlags (now : Nat) (t : Tile) : Tile :=
  match t.run with
  | some r => if r.flagsAt ≤ now then { t with ms := t.ms.join r.flags, run := some { r with flags := {} } } else t
  | none => t

/-- The effects of a firing in its end cycle, in the order of R124. -/
def endEffects (s : State) (x : Nat) (t : Tile) (f : Firing) (rest : List Firing) : State :=
  let t1 : Tile := { t with
    ending := rest, readFrom := s.now + 1,
    ins := Vector.ofFn (fun p => (t.ins[p]).leave f.held[p]),
    cin := Vector.ofFn (fun c => (runTake (f.ctl[c]).length t.cin[c]).2),
    cinHeld := Vector.ofFn (fun c => t.cinHeld[c] - (f.ctl[c]).length) }
  let t2 := joinState (siteExact s x) t1 f
  let t3 : Tile := { settleFlags s.now t2 with actors := at_ t2.actors f.actor (countFiring f) }
  let log := match t.ember with
    | .marked m => (m, if t.emberLog.2.1 = 0 then s.now else t.emberLog.2.1, 0)
    | _ => t.emberLog
  let t4 : Tile := { t3 with ms := t3.ms.clear f.msClr f.clMax, emberLog := log }
  let s1 := sendStaged (s.setTile x t4) x f
  let s2 := traceAdd s1 (.actor x f.actor) ([f.start, s.now] ++ allPorts.flatMap (fun (p : Fin 4) => (f.held[p]).length :: (f.held[p]).flatMap itemVals)
    ++ allPorts.flatMap (fun (p : Fin 4) => (f.stage[p]).toks.flatMap (fun k => (List.range 8).map (fun l => (laneAt k.pay l).toNat))))
  reportAll s2 x

/-- The firings undone when one faults in its end cycle: it and those after it, latest first (R126). -/
def undoFrom (t : Tile) (l : List Firing) : Tile :=
  let t1 := t.undoRunning
  { l.reverse.foldl (fun t f => t.undo f) t1 with ending := [] }

/-- FIRING_END: the first ended firing whose end cycle has come. Its staged commands are checked as they enter the queue; a
fault there undoes it (R290); else its effects stand (R124). A frozen or halted grove holds what it staged (R198, R213). -/
def execFiringEnd (site : Nat) (s : State) : Res :=
  .next
    (let t := s.tile site
     match t.ending with
     | [] => s
     | f :: rest =>
       if s.now < f.endAt.getD 0 then s
       else
         match enterAll s.now t f.cmds with
         | .error k =>
           tileRecord (s.setTile site { undoFrom t (f :: rest) with stopped := true }) site
             { cause := k, ep := epOf site 0, act := f.actor, pc := f.pc - 1, fcnt := (actorSt t f.actor).count }
         | .ok t1 => endEffects s site t1 f rest)

/-! ## Ash steps (R108) -/

/-- The inputs of an actor that it consumes from. -/
def stepInputs (a : ActorCfg) : List (Fin 4) := allPorts.filter (fun p => a.ci[p] ≠ 0)

def ashPass (t : Tile) (p : Fin 4) : Bool := ((t.cfg.ins[p]).map (fun c => !c.fire)).getD false

/-- The head ash of a port replaced, or gone when nothing of it is left. -/
def setHeadAsh (a : Option Ash) (p : InPort) : InPort :=
  let y := takeFirst (fun i => !i.isHeld) p.items
  let before := p.items.takeWhile (fun i => i.isHeld)
  let after := (p.items.dropWhile (fun i => i.isHeld)).drop 1
  match y.1, a with
  | some (.ash _ o h), some b => { p with items := before ++ [.ash b o h] ++ after }
  | _, _ => { p with items := before ++ after }

/-- A record that no firing holds. -/
def isFreeRec : Item → Bool
  | .record _ _ h _ => !h
  | _ => false

/-- The first `n` free records of a port taken, with the product of their weights (R108). -/
def takeFree : Nat → InPort → InPort × Nat
  | 0, p => (p, 1)
  | n + 1, p =>
    match takeFirst isFreeRec p.items with
    | (some (.record r _ _ _), rest) =>
      let p1 : InPort := { p with items := unjoin r.id .queue rest, consumed := p.consumed + r.toks.length,
                                  unreported := p.unreported + r.toks.length }
      let y := takeFree n p1
      (y.1, y.2 * (if r.kind = 6 then 1 else r.weight))
    | _ => (p, 1)

/-- An ash emitted on an output of an actor (R97, R108): its sequences are the output's next, as many as its CNT counts. -/
def emitAsh (s : State) (x : Nat) (p : Fin 4) (cnt dw uw : Nat) : State :=
  let base := ((s.tile x).outs[p]).seq
  let a : Ash := { fseq := base, lseq := if cnt = 0 then base else (base + sat32 cnt - 1) % 2 ^ 32, cnt := sat32 cnt, dw := sat48 dw,
                   uw := sat48 uw, org := orgArrived,
                   sat := decide (0xFFFFFFFF < cnt) || decide (0xFFFFFFFFFFFF < dw) || decide (0xFFFFFFFFFFFF < uw) }
  leavePort s x p [{ pay := a.bits, kind := 1 }] (sat32 cnt)

def emitAshes (s : State) (x : Nat) (a : ActorCfg) (f : Nat → Nat × Nat × Nat) : State :=
  allPorts.foldl (fun s (p : Fin 4) =>
    if a.po[p] = 0 then s
    else
      let v := f a.po[p]
      emitAsh s x p v.1 v.2.1 v.2.2) s

/-- WL of an actor goes on. -/
def addLost (t : Tile) (i n : Nat) : Tile := { t with actors := at_ t.actors i (fun a => { a with wl := sat32 (a.wl + n) }) }

/-- A step on one input takes the whole ash (R108). -/
def stepWhole (s : State) (x i : Nat) (a : ActorCfg) (p : Fin 4) (h : Ash) : State :=
  let t := s.tile x
  let c := a.ci[p]
  let s1 := s.setTile x (addLost { t with ins := t.ins.set p (setHeadAsh none t.ins[p]) } i h.cnt)
  if h.cnt = 0 then emitAshes s1 x a (fun po => (0, po * h.dw, po * h.uw))
  else emitAshes s1 x a (fun po => (po * ((h.cnt + c - 1) / c), po * h.dw, po * h.dw))

/-- One input's part in a step of several (R108): the port, its factor, and what WL gains. -/
def stepPart (exact : Bool) (now : Nat) (c : Nat) (p : InPort) : InPort × Nat × Nat :=
  match headAsh p exact now with
  | some h =>
    let n := Nat.min c h.cnt
    let dw := h.dw * n / h.cnt
    let uw := h.uw * n / h.cnt
    let b : Ash := { h with cnt := h.cnt - n, dw := h.dw - dw, uw := h.uw - uw }
    (setHeadAsh (if b.cnt = 0 then none else some b) p, Nat.max 1 (dw / n), n)
  | none =>
    let y := takeFree c p
    (y.1, y.2, c)

/-- A step of an actor with several inputs. -/
def stepJoin (s : State) (x i : Nat) (a : ActorCfg) : State :=
  let t := s.tile x
  let y := (stepInputs a).foldl (fun (acc : Tile × Nat × Nat) (p : Fin 4) =>
    let r := stepPart (siteExact s x) (s.now + 1) a.ci[p] (acc.1.ins[p])
    ({ acc.1 with ins := acc.1.ins.set p r.1 }, acc.2.1 * r.2.1, acc.2.2 + r.2.2)) (t, 1, 0)
  emitAshes (s.setTile x (addLost y.1 i y.2.2)) x a (fun po => (po, po * y.2.1, po * y.2.1))

/-- An input is ready for a step of several: ash that stands for records at its head, or its records (log entry 19). -/
def stepReady (exact : Bool) (now : Nat) (t : Tile) (a : ActorCfg) (p : Fin 4) : Bool :=
  match headAsh t.ins[p] exact now, t.cfg.ins[p] with
  | some h, _ => h.cnt ≠ 0
  | none, some c => decide (a.ci[p] ≤ (readyRecs c.rl now (t.ins[p]).items).length)
  | none, none => false

/-- An actor's ash step may run in this cycle (R104, R108): the actor is not firing, what ends, returns or arrives in the cycle has done so, and
an actor of several inputs has not stepped in it. -/
def mayStep (s : State) (x i : Nat) (a : ActorCfg) : Bool :=
  let t := s.tile x
  (t.firing.map (·.actor)) ≠ some i && !endDue s.now t && !t.ending.any (fun f => f.actor = i) && !t.stopped && t.ember = .no && unitsRun s x
    && (stepInputs a).all (fun p => (returning s.now t p).isNone && !arrivalDue s x p)
    && ((stepInputs a).length = 1 || (actorSt t i).stepAt ≠ some s.now)

/-- An actor's step noted, at the actor and at its inputs (R104). -/
def noteStep (s : State) (x i : Nat) (a : ActorCfg) : State :=
  let t := s.tile x
  s.setTile x { t with
    actors := at_ t.actors i (fun st => { st with stepAt := some s.now }),
    ins := (stepInputs a).foldl (fun v (p : Fin 4) => v.set p { v[p] with actedAt := some s.now }) t.ins }

/-- The step that an actor's ash takes now, if one may run (R108). -/
def ashStepOf (s : State) (site actor : Nat) (a : ActorCfg) : Option State :=
  let t := s.tile site
  let exact := siteExact s site
  let heads := (stepInputs a).filterMap (fun p => if ashPass t p then (headAsh t.ins[p] exact (s.now + 1)).map (fun h => (p, h)) else none)
  if !mayStep s site actor a then none
  else
    match heads.find? (fun k => k.2.cnt = 0), heads with
    | some (p, h), _ => some (stepWhole (noteStep s site actor a) site actor a p h)
    | none, [] => none
    | none, (p, h) :: _ =>
      if (stepInputs a).length = 1 then some (stepWhole (noteStep s site actor a) site actor a p h)
      else if (stepInputs a).all (fun p => stepReady exact (s.now + 1) t a p) then
        some (reportAll (stepJoin (noteStep s site actor a) site actor a) site)
      else none

/-- ASH_STEP: port logic consumes ash at an ash-pass input of an actor that is not firing (R108). -/
def execAshStep (site actor : Nat) (s : State) : Res :=
  .next
    (match (((s.tile site).cfg.actors[actor]?).getD none).bind (ashStepOf s site actor) with
     | none => s
     | some s1 => s1)

/-! ## Markers that leave (R111, R118, R119) -/

/-- The markers of a kind taken from the heads of the inputs. -/
def takeMarkers (t : Tile) (kind : Nat) : Tile :=
  { t with ins := Vector.ofFn (fun p =>
      if headMarker t.ins[p] = some kind then { t.ins[p] with items := (t.ins[p]).items.drop 1 } else t.ins[p]) }

/-- A marker emitted once on every connected output, after what the outputs still hold. -/
def emitMarkers (s : State) (x kind : Nat) : State :=
  allPorts.foldl (fun s (p : Fin 4) => if ((s.tile x).cfg.outs[p]).isSome then leavePort s x p [markTok kind] 0 else s) s

/-- The pending sets applied, actors 0 to 7 (R118). -/
def commitPending (t : Tile) : Tile :=
  (List.range 8).foldl (fun t i =>
    let t1 := commitLanes t (actorSt t i).pend
    { t1 with actors := at_ t1.actors i (fun a => { a with pend := [] }) }) t

/-- No firing runs or is ending, and the cycle after the last end has come (R119). -/
def betweenFirings (now : Nat) (t : Tile) : Bool := t.firing.isNone && !mustSettle now t

/-- A marker that is ready may leave (R111, R119, R191): between firings, by a tile that runs. -/
def mayLeave (s : State) (x : Nat) (t : Tile) : Bool := betweenFirings s.now t && !t.stopped && t.ember ≠ .saved && unitsRun s x

/-- ROUND_MARKER_LEAVE. -/
def execRoundMarkerLeave (site : Nat) (s : State) : Res :=
  .next
    (let t := s.tile site
     if roundReady t && mayLeave s site t then
       emitMarkers (s.setTile site { commitPending (takeMarkers t 2) with roundAt := s.now + 1 }) site 2
     else s)

/-- END_OF_RUN_LEAVE; each input that had it sends a last report (R53). -/
def execEndOfRunLeave (site : Nat) (s : State) : Res :=
  .next
    (let t := s.tile site
     if markerReady t 4 [5] && mayLeave s site t then
       let had := allPorts.filter (fun (p : Fin 4) => headMarker t.ins[p] = some 4 && (t.cfg.ins[p]).isSome)
       let s1 := had.foldl (fun s (p : Fin 4) => reportPort s site p true) (s.setTile site (takeMarkers t 4))
       emitMarkers s1 site 4
     else s)

/-- Staging is empty: nothing is leaving (R161). -/
def stagingEmpty (now : Nat) (t : Tile) : Bool :=
  allPorts.all (fun (p : Fin 4) => decide ((t.outs[p]).busyTo ≤ now) && (t.outs[p]).waiting.isEmpty)
    && allPorts.all (fun (q : Fin 4) => decide (t.qbusy[q] ≤ now) && (t.qwait[q]).isEmpty)

/-- The conditions of R161 for end-of-kernel to leave. -/
def kernelEnds (s : State) (x : Nat) (t : Tile) : Bool := markerReady t 5 [] && stagingEmpty s.now t && t.commands.isEmpty && mayLeave s x t

/-- END_OF_KERNEL_LEAVE: under the conditions of R161 the tile sends end-of-kernel, and switches next. -/
def execEndOfKernelLeave (site : Nat) (s : State) : Res :=
  .next
    (let t := s.tile site
     if kernelEnds s site t then
       (let s1 := emitMarkers (s.setTile site (takeMarkers t 5)) site 5
        s1.setTile site { s1.tile site with eok := true })
     else s)

end Sys2Proof.Machine
end

