-- ==== Sys2Proof/Machine/Crypto.lean ====
section
/-! DEFINITION. The digest and the signature that R157, R207, R208 and R211 name: SHA-512 and Ed25519. The spec names them and says no more; they are
taken from the standards of those names, FIPS 180-4 and RFC 8032 (log entry 41). -/

namespace Sys2Proof.Machine

/-! ## SHA-512 -/

/-- The first 64 bits behind the point of the cube roots of the first 80 primes, 16 to a number, the first in the lowest 64 bits. -/
def cubeRoots0 : Nat :=
  0xc19bf174cf6926949bdc06a725c7123580deb1fe3b1696b172be5d74f27b896f550c7dc3d5ffb4e2243185be4ee4b28c12835b0145706fbed807aa98a3030242ab1c5ed5da6d8118923f82a4af194f9b59f111f1b605d0193956c25bf348b538e9b5dba58189dbbcb5c0fbcfec4d3b2f7137449123ef65cd428a2f98d728ae22
def cubeRoots1 : Nat :=
  0x142929670a0e6e7006ca6351e003826fd5a79147930aa725c6e00bf33da88fc2bf597fc7beef0ee4b00327c898fb213fa831c66d2db43210983e5152ee66dfab76f988da831153b55cb0a9dcbd41fbd44a7484aa6ea6e4832de92c6f592b0275240ca1cc77ac9c650fc19dc68b8cd5b5efbe4786384f25e3e49b69c19ef14ad2
def cubeRoots2 : Nat :=
  0x106aa07032bbd1b8f40e35855771202ad69906245565a910d192e819d6ef5218c76c51a30654be30c24b8b70d0f89791a81a664bbc423001a2bfe8a14cf1036492722c851482353b81c2c92e47edaee6766a0abb3c77b2a8650a73548baf63de53380d139d95b3df4d2c6dfc5ac42aed2e1b21385c26c92627b70a8546d22ffc
def cubeRoots3 : Nat :=
  0xc67178f2e372532bbef9a3f7b2c67915a4506cebde82bde990befffa23631e288cc702081a6439ec84c87814a1f0ab7278a5636f43172f60748f82ee5defb2fc682e6ff3d6b2b8a35b9cca4f7763e3734ed8aa4ae3418acb391c0cb3c5c95a6334b0bcb5e19b48a82748774cdf8eeb991e376c085141ab5319a4c116b8d2d0c8
def cubeRoots4 : Nat :=
  0x6c44198c4a4758175fcb6fab3ad6faec597f299cfc657e2a4cc5d4becb3e42b6431d67c49c100d4c3c9ebe0a15c9bebc32caab7b40c7249328db77f523047d841b710b35131c471b113f9804bef90dae0a637dc5a2c898a606f067aa72176fbaf57d4f7fee6ed178eada7dd6cde0eb1ed186b8c721c0c207ca273eceea26619c
/-- Those of the square roots of the first eight. -/
def squareRoots : Nat :=
  0x5be0cd19137e21791f83d9abfb41bd6b9b05688c2b3e6c1f510e527fade682d1a54ff53a5f1d36f13c6ef372fe94f82bbb67ae8584caa73b6a09e667f3bcc908

/-- The words of 64 bits of a number, lowest first. -/
def wordsIn (n v : Nat) : List Nat := (List.range n).map (fun i => field v (64 * i) 64)

/-- A number handed on; an evaluation has it as a numeral. -/
def handOn {α : Type} (n : Nat) (k : Nat → α) : α :=
  match n with
  | 0 => k 0
  | m + 1 => k (m + 1)

/-- The exclusive or of a word turned right by each of some counts, with the word shifted right by one more (64 and more: nothing). -/
def mixed (turns : List Nat) (shift v : Nat) : Nat := turns.foldl (fun x n => x ^^^ (v / 2 ^ n + v % 2 ^ n * 2 ^ (64 - n))) (v / 2 ^ shift)

/-- The working words as two sequences, newest first: the four newest of the first and of the second; and the 16 newest words of the schedule,
oldest first. -/
structure ShaWork where
  up    : List Nat
  low   : List Nat
  sched : List Nat

/-- A round: both sequences and the schedule gain a word, modulo 2^64, and lose their oldest. -/
def shaRound (w : ShaWork) (k : Nat) (go : ShaWork → List Nat) : List Nat :=
  let u := fun i => w.up.getD i 0
  let v := fun i => w.low.getD i 0
  let m := fun i => w.sched.getD i 0
  let pick := (v 0 &&& v 1) ||| (v 2 &&& (v 0 ^^^ (2 ^ 64 - 1)))
  let most := (u 0 &&& (u 1 ||| u 2)) ||| (u 1 &&& u 2)
  handOn (v 3 + pick + mixed [14, 18, 41] 64 (v 0) + k + m 0) (fun t =>
  handOn ((t + most + mixed [28, 34, 39] 64 (u 0)) % 2 ^ 64) (fun a =>
  handOn ((t + u 3) % 2 ^ 64) (fun e =>
  handOn ((m 0 + m 9 + mixed [1, 8] 7 (m 1) + mixed [19, 61] 6 (m 14)) % 2 ^ 64) (fun x =>
    go { up := a :: w.up.take 3, low := e :: w.low.take 3, sched := w.sched.drop 1 ++ [x] }))))

/-- The rounds of the constants still to come; what comes out is the words in the order of the hash value. -/
def shaRounds : List Nat → ShaWork → List Nat
  | [], w => w.up ++ w.low
  | k :: rest, w => shaRound w k (shaRounds rest)

/-- A number of bytes, the first the most significant. -/
def beNat (l : List Byte) : Nat := l.foldl (fun n b => handOn (256 * n + b.toNat) id) 0
/-- Its last `n` bytes, the most significant first. -/
def beBytes (n v : Nat) : List Byte := (List.range n).map (fun i => BitVec.ofNat 8 (v / 2 ^ (8 * (n - 1 - i))))

/-- A list of words as numerals. -/
def settleWords : List Nat → (List Nat → List Nat) → List Nat
  | [], k => k []
  | x :: rest, k => handOn x (fun v => settleWords rest (fun l => k (v :: l)))

/-- The hash value after a block of 128 bytes. -/
def shaBlock (ks hash : List Nat) (block : Nat) : List Nat :=
  settleWords (wordsIn 16 block).reverse (fun m =>
    settleWords (List.zipWith (fun x y => (x + y) % 2 ^ 64) hash (shaRounds ks { up := hash.take 4, low := hash.drop 4, sched := m })) id)

/-- The hash value after the blocks of a padded message. -/
def shaBlocks (ks : List Nat) : Nat → List Nat → List Byte → List Nat
  | 0, hash, _ => hash
  | n + 1, hash, l => shaBlocks ks n (shaBlock ks hash (beNat (l.take 128))) (l.drop 128)

/-- The message padded to whole blocks: 0x80, zeros, its length in bits in 16 bytes. -/
def shaPad (l : List Byte) : List Byte :=
  l ++ 0x80 :: (List.replicate ((239 - l.length % 128) % 128) 0 ++ beBytes 16 (8 * l.length))

/-- The SHA-512 digest of a byte string, 64 bytes. -/
def sha512 (l : List Byte) : List Byte :=
  let m := shaPad l
  settleWords ([cubeRoots0, cubeRoots1, cubeRoots2, cubeRoots3, cubeRoots4].flatMap (wordsIn 16)) (fun ks =>
    shaBlocks ks (m.length / 128) (wordsIn 8 squareRoots) m) |>.flatMap (beBytes 8)

/-! ## Ed25519 (RFC 8032) -/

/-- The field, the order of the base point, the constant of the curve. -/
def edP : Nat := 2 ^ 255 - 19
def edL : Nat := 2 ^ 252 + 27742317777372353535851937790883648493
def edD : Nat := 0x52036cee2b6ffe738cc740797779e89800700a4d4141d8ab75eb4dca135978a3

def edMulF (a b : Nat) : Nat := a * b % edP
def edSub (a b : Nat) : Nat := (a + (edP - b % edP)) % edP

/-- A power in the field, over `n` bits of the exponent. -/
def edPow : Nat → Nat → Nat → Nat → Nat
  | 0, _, _, acc => acc
  | n + 1, e, b, acc =>
    handOn (if e % 2 = 1 then edMulF acc b else acc) (fun acc1 => handOn (edMulF b b) (fun b1 => handOn (e / 2) (fun e1 => edPow n e1 b1 acc1)))

/-- A point in extended coordinates. -/
structure EdPoint where
  x : Nat
  y : Nat
  z : Nat
  t : Nat

/-- Points added. -/
def edAdd {α : Type} (p q : EdPoint) (k : EdPoint → α) : α :=
  handOn (edMulF (edSub p.y p.x) (edSub q.y q.x)) (fun a => handOn (edMulF (p.y + p.x) (q.y + q.x)) (fun b =>
  handOn (edMulF (edMulF (2 * edD) p.t) q.t) (fun c => handOn (edMulF (2 * p.z) q.z) (fun d =>
  handOn (edSub b a) (fun e => handOn (edSub d c) (fun f => handOn (d + c) (fun g => handOn (b + a) (fun h =>
  handOn (edMulF e f) (fun x => handOn (edMulF g h) (fun y => handOn (edMulF f g) (fun z => handOn (edMulF e h) (fun t => k ⟨x, y, z, t⟩))))))))))))

/-- The neutral point. -/
def edZero : EdPoint := ⟨0, 1, 1, 0⟩

/-- A multiple of a point, over `n` bits of the factor, added to a point. -/
def edMul {α : Type} : Nat → Nat → EdPoint → EdPoint → (EdPoint → α) → α
  | 0, _, _, acc, r => r acc
  | n + 1, k, p, acc, r =>
    handOn (k / 2) (fun k1 => edAdd p p (fun p1 => if k % 2 = 1 then edAdd acc p (fun a => edMul n k1 p1 a r) else edMul n k1 p1 acc r))

/-- The two points are the same. -/
def edSame (p q : EdPoint) : Bool := edMulF p.x q.z = edMulF q.x p.z && edMulF p.y q.z = edMulF q.y p.z

/-- A square root of u / v, if there is one. -/
def edRoot (u v : Nat) : Option Nat :=
  handOn (edMulF v (edMulF v v)) (fun v3 =>
  handOn (edMulF (edMulF u v3) (edPow 252 ((edP - 5) / 8) (edMulF u (edMulF v3 (edMulF v3 v))) 1)) (fun r =>
  if edMulF v (edMulF r r) = u % edP then some r
  else
    handOn (edMulF r (edPow 253 ((edP - 1) / 4) 2 1)) (fun r1 => if edMulF v (edMulF r1 r1) = u % edP then some r1 else none)))

/-- A point of its 32 bytes, little-endian: y, and the lowest bit of x on top. -/
def edDecode (v : Nat) : Option EdPoint :=
  let y := v % 2 ^ 255
  let sign := v / 2 ^ 255 % 2
  if edP ≤ y then none
  else
    match edRoot (edSub (edMulF y y) 1) (edMulF edD (edMulF y y) + 1) with
    | none => none
    | some x =>
      if x = 0 && sign = 1 then none
      else handOn (if x % 2 = sign then x else edP - x) (fun x1 => handOn (edMulF x1 y) (fun t => some ⟨x1, y, 1, t⟩))

/-- The base point. -/
def edBase : EdPoint :=
  let x := 0x216936d3cd6e53fec0a4e231fdd6dc5c692cc7609525a7b2c9562d608f25d51a
  let y := 0x6666666666666666666666666666666666666666666666666666666666666658
  ⟨x, y, 1, edMulF x y⟩

/-- A signature of 64 bytes over a message holds under a public key: 8·S·B = 8·R + 8·k·A. -/
def ed25519 (key : Nat) (msg sig : List Byte) : Bool :=
  let r := ofBytes (sig.take 32)
  let sNum := ofBytes (sig.drop 32)
  if sig.length ≠ 64 || edL ≤ sNum then false
  else
    match edDecode key, edDecode r with
    | some a, some rp =>
      handOn (ofBytes (sha512 (sig.take 32 ++ bytesOf 32 key ++ msg)) % edL) (fun k =>
        edMul 256 sNum edBase edZero (fun u => edMul 256 k a rp (fun v =>
          edMul 4 8 u edZero (fun u8 => edMul 4 8 v edZero (fun v8 => edSame u8 v8)))))
    | _, _ => false

end Sys2Proof.Machine
end

