-- ==== Sys2Proof/Machine/Messages.lean ====
section
/-! DEFINITION. Messages: nsend and class messages at their receivers (R72, R74, R337), handler dispatch (R338, R340), asynchronous traps of
grove thread 0 (R338, R339), and reductions (R78, R341). -/

namespace Sys2Proof.Machine

/-! ## nsend (R337) -/

/-- The faults of a destination word. -/
def sendFault (g : Grove) (va w len : Nat) : Bool :=
  2 ^ 19 ≤ w || 14 ≤ w % 16 || decide (g.image.gw * g.image.gh ≤ field w 12 7) || 8 < len || va % 32 ≠ 0

/-- The packet of a message: it stands at its source until its payload has been read. -/
def messagePacket (s : State) (g : Grove) (w len op : Nat) : Packet :=
  let c := (g.clusters[field w 12 7]?).getD 0
  { id := s.nextId, ddev := s.dev, sdev := s.dev, vl := 3, cls := w % 16, type := 6, len := len, olen := len, dclu := cluCode c,
    dep := field w 4 8, sclu := cluCode (s.focus / 8), sep := coreEp, grove := myGroveId s, op := op, at_ := .backoff 0 }

/-- The tile that a destination word names, as a point (R168). -/
def sendPoint (s : State) (w : Nat) : List Point :=
  if field w 9 3 < 7 then [.tile (siteOfEp (((myGrove s).clusters[field w 12 7]?).getD 0) (field w 4 8))] else []

/-- nsend issued: its flits are read in order, or it leaves at once. -/
def nsendGo (s : State) (va w len : Nat) (ps : List (Nat × Nat × Nat)) : State :=
  let op := s.nextId
  let s1 := startOp s .st 1 none
  let p := messagePacket s1 (myGrove s) w len op
  if len = 0 then leaveSends { s1 with packets := s1.packets ++ [p], nextId := s1.nextId + 1 }
  else
    addReq { s1 with packets := s1.packets ++ [p], nextId := s1.nextId + 2 }
      { id := s1.nextId + 1, src := s1.focus, kind := .nsend p.id, va := va, key := myKey s1, pieces := ps, points := pointsOf s1 ps, flits := len }

def execNsend (a b : Reg) (len : BitVec 4) (s : State) : Res :=
  .next (issue { srcs := [a, b], mem := true } (fun s =>
    let va := regAt a s
    let w := regAt b s
    if ctrFull s.me .st 1 then stall s
    else if sendFault (myGrove s) va w len.toNat then trapMe s 0x285 0
    else
      match translatePieces s s.focus .load va ((List.range len.toNat).map (fun i => (va + 32 * i, 32))) with
      | (.error (c, bad), s1) => trapMe s1 c (BitVec.ofNat 64 bad)
      | (.ok ps, s1) => if fenced s1 (pointsOf s1 ps ++ sendPoint s1 w) then stall s1 else nsendGo s1 va w len.toNat ps) s)

/-! ## Masks (R340) -/

/-- maskc and unmaskc: a class above 13 faults with 0x285. -/
def maskForm (a : Reg) (f : Core → Nat → Nat → Core) (s : State) : State :=
  issue { srcs := [a] } (fun s =>
    let k := regAt a s
    if 13 < k then trapMe s 0x285 0
    else
      let c := s.focus / 8
      let s1 := s.setCore c (f (s.coreOf c) k s.now)
      s1.setMe (s1.me.retireNow s1.me.next)) s

def execMaskc (a : Reg) (s : State) : Res :=
  .next (maskForm a (fun co k _ => { co with masked := if co.masked.contains k then co.masked else k :: co.masked }) s)

/-- unmaskc: dispatch resumes from the next cycle. -/
def execUnmaskc (a : Reg) (s : State) : Res :=
  .next (maskForm a (fun co k now => { co with masked := co.masked.filter (fun c => c ≠ k), openAt := tabPut co.openAt k (now + 1) }) s)

/-! ## Receipt (R72, R74, R338) -/

/-- A core has room in a class's queue. -/
def classRoom (co : Core) (cls : Nat) : Bool := decide ((co.inbox.filter (fun p => p.cls = cls)).length < 16)

/-- A message joins the queue of its class at a core, and its sender's operation completes. It may be dispatched from the next cycle: one that comes in
the cycle of a maskc is held (R340). -/
def takeAtCore (s : State) (c : Nat) (p : Packet) : State :=
  let co := s.coreOf c
  if classRoom co p.cls then opDone ((s.dropPacket p.id).setCore c { co with inbox := co.inbox ++ [{ p with due := s.now + 1 }] }) p.op else s

/-- A message joins its class's queue at a tile, of 16 packets; its flits go into the port one a cycle, behind those of earlier messages (R72,
R338). -/
def takeAtPort (s : State) (x port : Nat) (p : Packet) : State :=
  let t := s.tile x
  let q := t.msgq.filter (fun e => decide (s.now < e.2.2))
  if 16 ≤ (q.filter (fun e => e.1 = p.cls)).length then s
  else
    let rl := Nat.max 1 (((t.cfg.ins.toList[port]?).join.map (·.rl)).getD 1)
    let start := q.foldl (fun a e => if e.2.1 = port then Nat.max a e.2.2 else a) s.now
    let toks := p.pay.zipIdx.map (fun k =>
      ({ sink := sinkNo x (0x40 + port), due := start + 1 + k.2,
         tok := { pay := k.1, first := decide (k.2 % rl = 0), last := decide (k.2 % rl + 1 = rl) } } : Flight))
    let s1 := (s.dropPacket p.id).setTile x { t with msgq := q ++ [(p.cls, port, start + toks.length)] }
    opDone { s1 with flights := s1.flights ++ toks } p.op

/-- The receiver of a class message: a handler thread on its core, a bound port of its tile, or nobody (R74). -/
def classReceipt (s : State) (p : Packet) : State :=
  let c := cluDecode p.dclu
  let g := s.grove p.grove
  match tabFind g.image.handlers p.cls with
  | some (.thread cl _ _) =>
    if p.dep ≠ coreEp || g.indexOf c ≠ cl then discardMessage s p 0x281
    else if 1 < p.len then discardMessage s p 0x284
    else takeAtCore s c p
  | some (.port col row port) =>
    if g.siteRel col row = some (siteOfEp c p.dep) && p.dep % 8 = port then takeAtPort s (siteOfEp c p.dep) port p
    else discardMessage s p 0x281
  | none => discardMessage s p 0x281

/-- A message is the first of its class at its receiver: what one source sends arrives in order (R74). -/
def firstOfClass (s : State) (p : Packet) : Bool :=
  ((s.packets.filter (fun q => q.type = 6 && q.at_ = .delivered && q.dclu = p.dclu && q.dep = p.dep && q.cls = p.cls)).head?.map (·.id)) = some p.id

/-- ROUTE_CLASS_MESSAGE_RECEIPT: a class message is taken where its handler is; fault records and slow-path messages go to the core of
grove thread 0. While the class's queue is full the packet waits. -/
def execRouteClassMessageReceipt (pkt : Nat) (s : State) : Res :=
  .next
    (match s.packet pkt with
     | none => s
     | some p =>
       if p.type ≠ 6 || p.at_ ≠ .delivered || !firstOfClass s p then s
       else if !(s.grove p.grove).live then s.dropPacket pkt
       else if 14 ≤ p.cls then takeAtCore s (cluDecode p.dclu) p
       else classReceipt s p)

/-! ## Dispatch (R338-R340) -/

/-- Threads of a grove may be dispatched: it runs. -/
def groveRuns (g : Grove) : Bool := g.run = .running || g.run = .splicing

/-- A thread is Halted or has executed idle. -/
def Thread.dispatchable (th : Thread) : Bool := th.status = .halted || th.status = .waiting .idle

/-- A message that a thread's handler takes, and the handler's entry word. -/
def handlerEntry (g : Grove) (co : Core) (now t : Nat) (p : Packet) : Option Nat :=
  match tabFind g.image.handlers p.cls with
  | some (.thread cl thr entry) =>
    if p.cls < 14 && g.indexOf (t / 8) = cl && t % 8 = thr && !co.masked.contains p.cls && decide (tabGet co.openAt p.cls 0 ≤ now) && decide (p.due ≤ now) then some entry
    else none
  | _ => none

/-- The registers a dispatch sets. -/
def Thread.dispatched (th : Thread) (now g1 len g3 flit entry : Nat) : Thread :=
  let put := fun (th : Thread) (r : Reg) (v : Nat) => th.setReg r (BitVec.ofNat 64 v) now
  let th := put (put (put th 1 g1) 2 len) 3 g3
  let th := put (put (put (put th 4 (field flit 0 64)) 5 (field flit 64 64)) 6 (field flit 128 64)) 7 (field flit 192 64)
  { th.endGroup with pc := 4 * entry, status := .ready, hasRun := true, since := now }

/-- HANDLER_DISPATCH: an idle or halted thread takes the oldest message of a class it handles. -/
def execHandlerDispatch (thread : Nat) (s : State) : Res :=
  .next
    (match s.groveOfThread thread with
     | none => s
     | some gid =>
       let g := s.grove gid
       let c := thread / 8
       let co := s.coreOf c
       let th := s.thr thread
       if !th.dispatchable || !groveRuns g then s
       else
         match co.inbox.find? (fun p => (handlerEntry g co s.now thread p).isSome) with
         | none => s
         | some p =>
           let g1 := g.indexOf (cluDecode p.sclu) * 2 ^ 12 + p.sep * 2 ^ 4 + p.cls
           let g3 := if th.status = .halted then 0 else th.pc
           let flit := (p.pay.head?.map (·.toNat)).getD 0
           let th1 := th.dispatched s.now g1 p.len g3 flit ((handlerEntry g co s.now thread p).getD 0)
           (s.setCore c { co with inbox := co.inbox.filter (fun q => q.id ≠ p.id) }).setThr thread th1)

/-- The cause a record or a slow-path message traps with. -/
def asyncCause (p : Packet) : Cause :=
  if p.cls = 14 then 0x253 else BitVec.ofNat 10 (field ((p.pay.head?.map (·.toNat)).getD 0) 246 10)

/-- The wait of a thread withdrawn (R311, R338): the address it goes on from, or none while its request has been performed and its answer is
on its way. -/
def withdrawWait (s : State) (t : Nat) : Option (State × Nat) :=
  let th := s.thr t
  match th.status with
  | .free => none
  | .halted | .ready => some (s, th.pc)
  | .waiting .again => some (s, th.issuePc)
  | .waiting .idle => some (s, th.pc - 4)
  | .waiting (.word q) =>
    if s.reqs.any (fun r => r.id = q && !r.pieces.isEmpty) then
      some ((withdraw s (fun r => r.id = q)).setThr t (th.subCtr .ld 1), th.issuePc)
    else none
  | .waiting .nred =>
    let co := s.coreOf (t / 8)
    some (s.setCore (t / 8) { co with redWait := co.redWait.map (fun w => if w.thread = t then { w with away := true } else w) }, th.issuePc)

/-- A record or a slow-path message traps thread 0. -/
def asyncTrap (s : State) (t vec : Nat) (p : Packet) : Option State :=
  (withdrawWait s t).map (fun y =>
    let th := y.1.thr t
    let v := (p.pay.head?.map (·.toNat)).getD 0
    let th1 := { th.enterTrap vec (asyncCause p) y.2 0 with
      frsrc := if p.cls = 14 then 2 else 1, hasRun := true, since := th.readySince s.now,
      frec := Vector.ofFn (fun i => BitVec.ofNat 64 (field v (64 * i.val) 64)) }
    y.1.setThr t th1)

/-- ASYNC_TRAP_DISPATCH: the oldest record or slow-path message of a grove traps its thread 0 at an instruction boundary; without a trap
vector the hearth copies it to the event ring. -/
def execAsyncTrapDispatch (grove : Nat) (s : State) : Res :=
  .next
    (let g := s.grove grove
     let c := g.cluster0
     let co := s.coreOf c
     let t := 8 * c
     let th := s.thr t
     if !g.live || !groveRuns g then s
     else
       match co.inbox.find? (fun p => 14 ≤ p.cls) with
       | none => s
       | some p =>
         let s1 := s.setCore c { co with inbox := co.inbox.filter (fun q => q.id ≠ p.id) }
         let v := (p.pay.head?.map (·.toNat)).getD 0
         match g.tvec with
         | none =>
           let arg := if p.cls = 14 then 0 else field v 199 16 * 2 ^ 48 + field v 119 48
           s1.logEvent (asyncCause p) grove 0 arg
         | some vec => if th.trapActive || (th.group.isSome && th.status = .ready) || !th.specs.isEmpty then s else (asyncTrap s1 t vec p).getD s)

/-! ## Reductions (R78, R341) -/

/-- The participants of a reduction of a grove that is not over: (cluster, participant). -/
def redWaits (s : State) (g : Grove) (tag : Nat) : List (Nat × RedWait) :=
  g.clusters.flatMap (fun c => ((s.coreOf c).redWait.filter (fun w => w.tag = tag && !w.done && w.bad.isNone)).map (fun w => (c, w)))

/-- A participant changed. -/
def setWait (s : State) (c t : Nat) (f : RedWait → RedWait) : State :=
  s.setCore c { s.coreOf c with redWait := (s.coreOf c).redWait.map (fun w => if w.thread = t && !w.done && w.bad.isNone then f w else w) }

/-- A participant that waits at its nred goes on with the result; one that a trap has taken away finds it when it issues again. -/
def giveResult (s : State) (c tag n : Nat) (v : Word32) : State :=
  match (s.coreOf c).redWait.find? (fun w => w.tag = tag && w.n = n && w.done && w.result.isNone) with
  | none => s
  | some w =>
    let co := s.coreOf c
    if w.away then
      s.setCore c { co with redWait := co.redWait.map (fun q => if q = w then { q with result := some v } else q) }
    else
      let s1 := s.setCore c { co with redWait := co.redWait.filter (fun q => q ≠ w) }
      let th := s1.thr w.thread
      s1.setThr w.thread { (th.setReg w.rd (v.setWidth 64) (s.now + 1)).retireNow th.next with since := s.now }

/-- The payload flit of a reduction partial or of a result: value, n, tag, level, index, and whether it is the result. The spec gives no bits: DESIGN
CHOICE (log entry 106). -/
def redFlit (r : RedNode) (result : Bool) : Vec :=
  BitVec.ofNat 256 (r.val.toNat + r.n % 2 ^ 16 * 2 ^ 32 + r.tag % 2 ^ 16 * 2 ^ 48 + r.level % 2 ^ 16 * 2 ^ 64 + r.index % 2 ^ 16 * 2 ^ 80 + result.toNat * 2 ^ 96)

/-- What a reduction packet carries. -/
def Packet.red (p : Packet) : RedNode × Bool :=
  let v := (p.pay.head?.map (·.toNat)).getD 0
  ({ val := BitVec.ofNat 32 v, n := field v 32 16, tag := field v 48 16, level := field v 64 16, index := field v 80 16 }, flag v 96)

/-- A thread that waited in nred traps; it is ready from this cycle on (R152). -/
def trapWaiter (s : State) (t : Nat) (k : Cause) : State :=
  let s1 := takeTrap s t k 0
  s1.setThr t { s1.thr t with since := s.now }

/-- Every participant of a tag traps precisely at its nred (0x302, 0x303); what it has of nodes and of partials on their way is gone. -/
def failWaits (s : State) (gid tag : Nat) (k : Cause) : State :=
  let g := s.grove gid
  let s1 := (redWaits s g tag).foldl (fun s q =>
    let co := s.coreOf q.1
    if q.2.away then setWait s q.1 q.2.thread (fun w => { w with bad := some k })
    else trapWaiter (s.setCore q.1 { co with redWait := co.redWait.filter (fun w => w ≠ q.2) }) q.2.thread k) s
  let s2 : State := { s1 with packets := s1.packets.filter (fun p => !(p.type = 8 && p.grove = gid && p.red.1.tag = tag && !p.red.2)) }
  g.clusters.foldl (fun s c => s.setCore c { s.coreOf c with reds := (s.coreOf c).reds.filter (fun r => r.tag ≠ tag) }) s2

/-- A reduction partial or a result on its way: class 14, TYPE 8, lane 3, one flit. -/
def redPacket (s : State) (g c d : Nat) (r : RedNode) (result : Bool) : State :=
  s.send { ddev := s.dev, sdev := s.dev, vl := 3, cls := 14, type := 8, len := 1, olen := 1, dclu := cluCode d, dep := coreEp, sclu := cluCode c, sep := coreEp,
           grove := g, pay := [redFlit r result] }

/-- The root is formed at rank 0's cluster: its accumulator is added last, and the result goes to every participant. -/
def redRoot (s : State) (gid c tag n : Nat) (v : Word32) : State :=
  let g := s.grove gid
  let l := redWaits s g tag
  let acc := ((l.find? (fun q => q.1 = c)).map (fun q => q.2.acc)).getD 0
  let r := add32 acc v
  let s1 := l.foldl (fun s q => setWait s q.1 q.2.thread (fun w => { w with done := true })) s
  let s2 := l.foldl (fun s q => if q.1 = c then s else redPacket s gid c q.1 { tag := tag, n := n, val := r } true) s1
  giveResult s2 c tag n r

/-- A node kept at a cluster until its sibling, or the cluster it goes to, is there. -/
def keepNode (s : State) (c : Nat) (r : RedNode) : State := s.setCore c { s.coreOf c with reds := (s.coreOf c).reds ++ [r] }

/-- A node at a cluster: a right child goes to the cluster of its sibling's rank; a left child is combined once its sibling is there; an
unpaired one passes up; the root ends the reduction (R42, R341). -/
def redClimb (s : State) (gid c tag n : Nat) : Nat → Nat → Nat → Word32 → State
  | 0, _, _, _ => s
  | fuel + 1, lv, i, v =>
    if rootLevel n ≤ lv then redRoot s gid c tag n v
    else if i % 2 = 1 then
      match (redWaits s (s.grove gid) tag).find? (fun q => q.2.rank = (i - 1) * 2 ^ lv) with
      | some q => redPacket s gid c q.1 { tag := tag, n := n, level := lv, index := i, val := v } false
      | none => keepNode s c { tag := tag, n := n, level := lv, index := i, val := v }
    else if levelSize n lv ≤ i + 1 then redClimb s gid c tag n fuel (lv + 1) (i / 2) v
    else
      match (s.coreOf c).reds.find? (fun r => r.tag = tag && r.level = lv && r.index = i + 1) with
      | some r =>
        redClimb (s.setCore c { s.coreOf c with reds := (s.coreOf c).reds.filter (fun q => q ≠ r) }) gid c tag n fuel (lv + 1) (i / 2)
          (add32 v r.val)
      | none => keepNode s c { tag := tag, n := n, level := lv, index := i, val := v }

/-- Right children that waited for the cluster of a rank are sent there. -/
def redRelease (s : State) (gid tag : Nat) : State :=
  (s.grove gid).clusters.foldl (fun s c =>
    ((s.coreOf c).reds.filter (fun r => r.tag = tag && r.index % 2 = 1)).foldl (fun s r =>
      match (redWaits s (s.grove gid) tag).find? (fun q => q.2.rank = (r.index - 1) * 2 ^ r.level) with
      | some q =>
        if q.1 = c then s
        else
          redPacket (s.setCore c { s.coreOf c with reds := (s.coreOf c).reds.filter (fun x => x ≠ r) }) gid c q.1 r false
      | none => s) s) s

/-- A right child that has come to its sibling's cluster: it is combined if the sibling is there. -/
def redArrive (s : State) (gid c tag n lv i : Nat) (v : Word32) : State :=
  match (s.coreOf c).reds.find? (fun r => r.tag = tag && r.level = lv && r.index + 1 = i) with
  | some r =>
    redClimb (s.setCore c { s.coreOf c with reds := (s.coreOf c).reds.filter (fun q => q ≠ r) }) gid c tag n 17 (lv + 1) (i / 2) (add32 r.val v)
  | none => keepNode s c { tag := tag, n := n, level := lv, index := i, val := v }

/-- The thread contributes and waits. -/
def contribute (s : State) (d : Reg) (tag n rank : Nat) (v acc : Word32) : State :=
  let c := s.focus / 8
  let gid := myGroveId s
  let w : RedWait := { thread := s.focus, tag := tag, n := n, rank := rank, rd := d, acc := acc }
  let s1 := (s.setMe { s.me with status := .waiting .nred }).setCore c { s.coreOf c with redWait := (s.coreOf c).redWait ++ [w] }
  redRelease (redClimb s1 gid c tag n 17 0 rank v) gid tag

/-- The thread issues again an nred that a trap had taken it from. -/
def nredAgain (s : State) (d : Reg) (w : RedWait) : State :=
  let c := s.focus / 8
  let co := s.coreOf c
  let gone := s.setCore c { co with redWait := co.redWait.filter (fun q => q ≠ w) }
  match w.bad, w.result with
  | some k, _ => trapMe gone k 0
  | none, some v => finish gone d (v.setWidth 64) 1
  | none, none =>
    (s.setCore c { co with redWait := co.redWait.map (fun q => if q = w then { q with away := false } else q) }).setMe
      { s.me with status := .waiting .nred }

/-- Every reduction of a grove that is not over ends with a fault to every waiter (R78). -/
def endAllReductions (s : State) (gid : Nat) (k : Cause) : State :=
  let g := s.grove gid
  let tags : List Nat := (g.clusters.flatMap (fun c => ((s.coreOf c).redWait.filter (fun w => !w.done && w.bad.isNone)).map (·.tag))).eraseDups
  tags.foldl (fun s t => failWaits s gid t k) s

/-- The clusters of a grove that neither an ember nor a freeze has stopped (R78). -/
def liveClusters (g : Grove) : Nat := if g.run = .frozen || g.run = .embering then 0 else g.image.gw * g.image.gh

/-- nred issued (R78, R341). -/
def nredGo (s : State) (d a b : Reg) : State :=
  let w := regAt b s
  let n := field w 0 16
  let rank := field w 16 16
  let tag := field w 32 16
  let v := (s.me.reg a).setWidth 32
  let g := myGrove s
  let c := s.focus / 8
  let l := redWaits s g tag
  match (s.coreOf c).redWait.find? (fun q => q.thread = s.focus && q.away && q.tag = tag && q.n = n && q.rank = rank) with
  | some q => nredAgain s d q
  | none =>
    if n = 0 then trapMe s 0x300 0
    else if n ≠ 1 && decide (liveClusters g < n) then trapMe s 0x301 0
    else if 2 ^ 48 ≤ w || n ≤ rank || l.any (fun q => q.2.n ≠ n || q.2.rank = rank || q.1 = c) then
      trapMe (failWaits s (myGroveId s) tag 0x303) 0x303 0
    else if n = 1 then finish s d (v.setWidth 64) 1
    else contribute s d tag n rank v ((s.me.reg d).setWidth 32)

def execNred (d a b : Reg) (s : State) : Res :=
  .next
    (let w := regAt b s
     let own := field w 16 16 = 0 && field w 0 16 ≠ 1
     issue { srcs := if own then [a, b, d] else [a, b], dst := some d } (fun s => nredGo s d a b) s)

/-- REDUCTION_PARTIAL_ARRIVAL: a partial or a result delivered to a participant's cluster. -/
def execReductionPartialArrival (pkt : Nat) (s : State) : Res :=
  .next
    (match s.packet pkt with
     | none => s
     | some p =>
       if p.type ≠ 8 || p.at_ ≠ .delivered then s
       else
         let c := cluDecode p.dclu
         let s1 := s.dropPacket pkt
         let r := p.red.1
         if p.red.2 then giveResult s1 c r.tag r.n r.val
         else redArrive s1 p.grove c r.tag r.n r.level r.index r.val)

end Sys2Proof.Machine
end

