-- ==== Sys2Proof/Machine/Images.lean ====
section
/-! DEFINITION. Images (R157-R159, R215-R230): the header, the format table, frames with their correcting code, switch bindings, port and
actor tables, the manifest; reading and checking a whole image. Multi-byte items lie little-endian, as R357 lays records. -/

namespace Sys2Proof.Machine

/-! ## The header (R157) -/

/-- The fields of an image header. -/
structure Header where
  gw     : Nat
  gh     : Nat
  exact  : Bool
  strict : Bool
  dsr    : Nat
  skey   : Nat
  nfr    : Nat
  fmto   : Nat
  mano   : Nat
  sigo   : Nat
  fro    : Nat

def headerOf (v : Nat) : Header :=
  { gw := field v 460 4, gh := field v 456 4, exact := flag v 455, strict := flag v 454, dsr := field v 445 9, skey := field v 440 5,
    nfr := field v 408 32, fmto := field v 376 32, mano := field v 344 32, sigo := field v 312 32, fro := field v 280 32 }

/-- A header that is well formed (R157, R165). -/
def headerOk (v : Nat) : Bool :=
  let h := headerOf v
  field v 480 32 = 0x4D4C4431 && field v 464 16 = 1 && 1 ≤ h.gw && h.gw ≤ 8 && 1 ≤ h.gh && h.gh ≤ 15 && decide (h.gw * h.gh ≤ 32)
    && h.dsr ≤ 256 && h.fro % 32 = 0 && field v 0 280 = 0

/-! ## Frames (R198, R215, R216) -/

/-- A frame's code agrees: bits [255:232], then [215:0]. -/
def frameOk (v : Nat) : Bool := crc16 (field v 232 24 * 2 ^ 216 + field v 0 216) 240 0 = field v 216 16

/-- A frame with one flipped bit corrected; none when its code fails otherwise. -/
def frameFix (v : Nat) : Option Nat :=
  if frameOk v then some v else ((List.range 256).map (fun i => v ^^^ 2 ^ i)).find? frameOk

/-- A frame taken apart. -/
structure Frame where
  lay  : Nat
  col  : Nat
  row  : Nat
  fidx : Nat
  pay  : Nat

def frameOf (v : Nat) : Frame := { lay := field v 252 4, col := field v 246 6, row := field v 240 6, fidx := field v 232 8, pay := field v 0 216 }

/-- Fields of a payload, most of them at their bit numbers in R217-R228. -/
def Frame.sub (f : Frame) : Nat := field f.pay 212 4
def Frame.zero (f : Frame) (lo n : Nat) : Bool := field f.pay lo n = 0

/-- Four fields of `n` bits, the first at `lo`. -/
def four (v lo n : Nat) : Vector Nat 4 := Vector.ofFn (fun i => field v (lo + n * i.val) n)

/-- A site as its frames are applied: its configuration, draw keys and counters by actor, template parts by 4 × number + part. -/
structure SiteBuild where
  cfg   : SiteCfg := {}
  keys  : Tab (Word64 × Word64) := []
  ctrs  : Tab (BitVec 128) := []
  parts : Tab Nat := []
  acts  : List Nat := []

/-- What a frame's refusal is, or the site it leaves. -/
abbrev Built := Except Cause SiteBuild

/-- The tile frame (R218). -/
def tileFrame (f : Frame) (b : SiteBuild) : Built :=
  if !f.zero 0 184 then .error 0x2CC
  else if field f.pay 200 12 < 15 then .error 0x2C3
  else
    .ok { b with cfg := { b.cfg with ageM := field f.pay 200 12 + 1, pm := Vector.ofFn (fun i => BitVec.ofNat 4 (field f.pay (184 + 4 * i.val) 4)) } }

/-- An actor of an actor frame (R219). -/
def actorOf (v : Nat) : ActorCfg :=
  { entry := field v 199 9, role := field v 197 2, ci := four v 181 4, cc := four v 173 2, po := four v 157 4, mint := field v 145 12 + 1,
    ownI := BitVec.ofNat 4 (field v 141 4), ownC := BitVec.ofNat 4 (field v 137 4), ownO := BitVec.ofNat 4 (field v 133 4),
    ownQ := BitVec.ofNat 4 (field v 129 4), k := four v 64 16, clm := BitVec.ofNat 8 (field v 56 8) }

/-- A consumption or production that an OWN mask leaves out. -/
def unowned (c : Vector Nat 4) (own : BitVec 4) : Bool := (List.range 4).any (fun i => (c.toList.getD i 0) ≠ 0 && !own.getLsbD i)

def actorFrame (f : Frame) (b : SiteBuild) : Built :=
  if !flag f.pay 208 then (if f.zero 0 208 then .ok b else .error 0x2CC)
  else
    let a := actorOf f.pay
    let i := field f.pay 209 3
    if flag f.pay 128 || !f.zero 0 56 then .error 0x2CC
    else if a.role = 3 || b.acts.contains i || unowned a.ci a.ownI || unowned a.cc a.ownC || unowned a.po a.ownO then .error 0x2C3
    else .ok { b with acts := i :: b.acts, cfg := { b.cfg with actors := at_ b.cfg.actors i (fun _ => some a) } }

/-- The draw frames (R220). -/
def drawFrame (f : Frame) (b : SiteBuild) : Built :=
  let i := field f.pay 209 3
  if !f.zero 128 81 then .error 0x2CC
  else if f.sub = 2 then .ok { b with keys := tabPut b.keys i (BitVec.ofNat 64 (field f.pay 64 64), BitVec.ofNat 64 (field f.pay 0 64)) }
  else .ok { b with ctrs := tabPut b.ctrs i (BitVec.ofNat 128 (field f.pay 0 128)) }

/-- An input port of its frame (R221). -/
def inOf (v : Nat) : InCfg :=
  { cap := field v 205 4 + 1, pol := field v 201 4, parm := field v 193 8, rl := field v 191 2 + 1, fire := flag v 190, budget := field v 174 16,
    spo := field v 162 12, spn := field v 149 13, dsl := field v 142 7, dof := field v 127 15, dsz := field v 111 16, rpi := field v 99 12,
    rsl := field v 92 7, reng := (flag v 91).toNat, rbr := field v 88 3, rv := flag v 87 }

/-- A parameter outside the table of R101. -/
def parmFault (fmts : List Word32) (c : InCfg) : Bool :=
  match c.pol with
  | 0 | 1 | 2 | 6 => c.parm ≠ 0
  | 3 => c.parm = 0
  | 4 => 6 < c.parm
  | 5 => !(c.parm = 30 || (1 ≤ c.parm && c.parm ≤ 29 && fmts.getD c.parm 0 ≠ 0))
  | _ => true

/-- A port that an exact grove may not have (R106, R221). -/
def exactPortFault (c : InCfg) : Bool := c.budget = 0 || (c.pol = 2 && decide (c.cap + c.spn < c.budget))

/-- A port configuration refused with 0x2C2 (R101, R106, R221). -/
def portRefused (fmts : List Word32) (exact : Bool) (slices : Nat) (c : InCfg) : Bool :=
  parmFault fmts c || 4096 < c.spn || (c.spn ≠ 0 && decide (stateBase < c.spo * 32 + c.spn * c.rl * 32))
    || (c.pol = 6 && c.dsz = 0) || decide (2 ^ 20 < c.dof * 32 + c.dsz * c.rl * 32) || decide (slices ≤ c.dsl)
    || (exact && exactPortFault c)

/-- A field that the port does not use holds something (R216): of a deferral area without DEFER, of a spill area without records, of reports that are
not sent. -/
def unusedSet (v : Nat) (c : InCfg) : Bool :=
  (c.pol ≠ 6 && field v 111 38 ≠ 0) || (c.spn = 0 && c.spo ≠ 0) || (!c.rv && field v 88 23 ≠ 0)

def inFrame (fmts : List Word32) (exact : Bool) (slices : Nat) (f : Frame) (b : SiteBuild) : Built :=
  let c := inOf f.pay
  let p := field f.pay 210 2
  if !f.zero 0 87 then .error 0x2CC
  else if !flag f.pay 209 && !f.zero 0 209 then .error 0x2CC
  else if !flag f.pay 209 then .ok { b with cfg := { b.cfg with ins := at_ b.cfg.ins p (fun _ => none) } }
  else if unusedSet f.pay c then .error 0x2CC
  else if portRefused fmts exact slices c then .error 0x2C2
  else .ok { b with cfg := { b.cfg with ins := at_ b.cfg.ins p (fun _ => some c) } }

/-- The output-port frame (R222). -/
def outFrame (f : Frame) (b : SiteBuild) : Built :=
  let v := if flag f.pay 209 then some (field f.pay 207 2 + 1) else none
  if !f.zero 0 207 || (v.isNone && !f.zero 207 2) then .error 0x2CC
  else .ok { b with cfg := { b.cfg with outs := at_ b.cfg.outs (field f.pay 210 2) (fun _ => v) } }

/-- Instruction words (R223). -/
def codeFrame (f : Frame) (b : SiteBuild) : Built :=
  let wa := field f.pay 203 9
  if 509 < wa || !f.zero 192 11 then .error 0x2CC
  else
    let put := fun (t : Tab Word64) i lo => tabPut t (wa + i) (BitVec.ofNat 64 (field f.pay lo 64))
    .ok { b with cfg := { b.cfg with code := put (put (put b.cfg.code 0 128) 1 64) 2 0 } }

/-- A slice node (R226). -/
def nodeOf (v : Nat) : NodeCfg :=
  { kind := field v 207 3, inp := if flag v 206 then some (field v 204 2) else none, out := if flag v 203 then some (field v 201 2) else none,
    side := if flag v 200 then some (field v 198 2) else none, op := field v 188 4, chunks := field v 180 12 + 1, trie := field v 172 20,
    fallback := field v 140 32 }

/-- Ports of a node that it does not have or use: a node that is off has none, and only a tokenizer has a side port (R216, R226). -/
def nodePorts (v : Nat) : Bool :=
  (field v 207 3 = 0 && (flag v 206 || flag v 203)) || (field v 207 3 ≠ 6 && flag v 200)
    || (!flag v 206 && field v 204 2 ≠ 0) || (!flag v 203 && field v 201 2 ≠ 0) || (!flag v 200 && field v 198 2 ≠ 0)

/-- Bits of NPAR that a kind does not use. -/
def nodeBits (v : Nat) : Bool :=
  match field v 207 3 with
  | 1 => field v 0 188 ≠ 0 || 6 < field v 188 4
  | 5 => field v 0 180 ≠ 0
  | 6 => field v 0 140 ≠ 0
  | _ => field v 0 192 ≠ 0

/-- The node and branch frames (R226, R227). -/
def memoryFrame (f : Frame) (b : SiteBuild) : Built :=
  match f.sub with
  | 0 =>
    if field f.pay 207 3 = 7 || !f.zero 192 6 || nodeBits f.pay || nodePorts f.pay then .error 0x2CC
    else .ok { b with cfg := { b.cfg with nodes := at_ b.cfg.nodes (field f.pay 210 2) (fun _ => nodeOf f.pay) } }
  | 1 =>
    let m : Vector (BitVec 8) 4 := Vector.ofFn (fun i => BitVec.ofNat 8 (field f.pay (180 + 8 * i.val) 8))
    let twice := (List.range 8).any (fun k => 1 < (m.toList.filter (fun x => x.getLsbD k)).length)
    if !f.zero 0 180 || twice then .error 0x2CC else .ok { b with cfg := { b.cfg with branch := m } }
  | _ => .error 0x2CC

/-- The switch frames (R225). -/
def switchFrame (f : Frame) (b : SiteBuild) : Built :=
  match f.sub with
  | 0 =>
    let nb := field f.pay 208 4
    if nb = 0 || 12 < nb || !f.zero 192 16 || decide (2 ^ (16 * nb) ≤ field f.pay 0 192) then .error 0x2CC
    else
      .ok { b with cfg := { b.cfg with
        binds := b.cfg.binds ++ (List.range nb).map (fun j => (field f.pay (16 * j + 8) 8, field f.pay (16 * j) 8)) } }
  | 1 => if !f.zero 0 208 then .error 0x2CC else .ok { b with cfg := { b.cfg with border := BitVec.ofNat 4 (field f.pay 208 4) } }
  | _ => .error 0x2CC

/-- The template frames (R228). -/
def templateFrame (f : Frame) (b : SiteBuild) : Built :=
  let part := field f.pay 206 2
  if f.sub ≠ 0 || part = 3 || !f.zero 192 14 || (part = 2 && !f.zero 0 64) then .error 0x2CC
  else .ok { b with parts := tabPut b.parts (4 * field f.pay 208 4 + part) (field f.pay 0 192) }

/-- One frame of a site (R216). -/
def applyFrame (fmts : List Word32) (exact : Bool) (slices : Nat) (f : Frame) (b : SiteBuild) : Built :=
  let slice := f.col % 8 = 7
  match f.lay with
  | 1 =>
    if slice then .error 0x2CC
    else
      (match f.sub with
       | 0 => tileFrame f b
       | 1 => actorFrame f b
       | 2 | 3 => drawFrame f b
       | 4 => inFrame fmts exact slices f b
       | 5 => outFrame f b
       | 6 => codeFrame f b
       | _ => .error 0x2CC)
  | 2 => if slice then memoryFrame f b else .error 0x2CC
  | 3 => switchFrame f b
  | 4 => if slice then templateFrame f b else .error 0x2CC
  | _ => .error 0x2CC

def applyFrames (fmts : List Word32) (exact : Bool) (slices : Nat) : List Frame → SiteBuild → Built
  | [], b => .ok b
  | f :: rest, b =>
    match applyFrame fmts exact slices f b with
    | .error c => .error c
    | .ok b1 => applyFrames fmts exact slices rest b1

/-- The templates of the parts, or a missing part. -/
def templatesOf (parts : Tab Nat) : Except Cause (Tab Pattern) :=
  let nums := (List.range 16).filter (fun n => (List.range 3).any (fun p => (tabFind parts (4 * n + p)).isSome))
  if nums.any (fun n => (List.range 3).any (fun p => (tabFind parts (4 * n + p)).isNone)) then .error 0x2CC
  else
    .ok (nums.map (fun n =>
      (n, patternOf (tabGet parts (4 * n) 0 * 2 ^ 320 + tabGet parts (4 * n + 1) 0 * 2 ^ 128 + tabGet parts (4 * n + 2) 0 / 2 ^ 64))))

/-! ## Bindings (R68, R224, R225) -/

/-- An id is a data or a control track end: its side and the sites it spans. -/
def trackId (id : Nat) : Option (Nat × Nat) :=
  if id < 0x40 then
    (if id % 16 < 8 then some (id / 16, 1) else if id % 16 < 12 then some (id / 16, 4) else if id % 16 < 14 then some (id / 16, 16) else none)
  else if 0x80 ≤ id ∧ id < 0xC0 then some ((id - 0x80) / 16, 1)
  else none

def isControlId (id : Nat) : Bool := 0x80 ≤ id

/-- An id that may be a source, or a sink, at a site. -/
def sourceId (slice : Bool) (id : Nat) : Bool :=
  (trackId id).isSome || (0x40 ≤ id && id < 0x44) || (!slice && (id = 0x44 || (0xC0 ≤ id && id < 0xC4)))
def sinkId (slice : Bool) (id : Nat) : Bool :=
  (trackId id).isSome || (0x40 ≤ id && id < 0x44) || (!slice && (id = 0x44 || id = 0x45 || (0xC0 ≤ id && id < 0xC4)))

/-- A track would leave by a side into a place outside the shape. -/
def leavesShape (h : Header) (col row side n : Nat) : Bool :=
  match side with
  | 0 => row < n
  | 1 => 8 * h.gw ≤ col + n
  | 2 => 4 * h.gh ≤ row + n
  | _ => col < n

/-- A site's bindings refused with 0x2C1. The border mask is N, E, S, W from its top bit. -/
def bindFault (h : Header) (col row : Nat) (c : SiteCfg) : Bool :=
  let slice := col % 8 = 7
  c.binds.any (fun b =>
    !sinkId slice b.1 || !sourceId slice b.2 || isControlId b.1 ≠ isControlId b.2
      || (match trackId b.1 with
          | some (side, n) => c.border.getLsbD (3 - side) || leavesShape h col row side n
          | none => false))
    || !(c.binds.map Prod.fst).Nodup

/-! ## Actor tables (R120, R219) -/

/-- Some bit is set in two of the masks. -/
def sharedBit {w : Nat} (l : List (BitVec w)) : Bool := (List.range w).any (fun i => 1 < (l.filter (fun m => m.getLsbD i)).length)

/-- Two actors own one item. -/
def actorsClash (c : SiteCfg) : Bool :=
  let l := c.actors.toList.filterMap id
  sharedBit (l.map (·.ownI)) || sharedBit (l.map (·.ownC)) || sharedBit (l.map (·.ownO)) || sharedBit (l.map (·.ownQ)) || sharedBit (l.map (·.clm))

/-- An ash-pass port whose consumption rate is 0 (R107): no actor takes from it. -/
def passStarved (c : SiteCfg) : Bool :=
  (List.finRange 4).any (fun p =>
    match c.ins[p] with
    | some i => !i.fire && (c.actors.toList.filterMap id).all (fun a => a.ci[p] = 0)
    | none => false)

/-- Actors with their draw state. -/
def withDraws (b : SiteBuild) : SiteCfg :=
  { b.cfg with actors := Vector.ofFn (fun i => (b.cfg.actors[i]).map (fun a =>
      let k := tabGet b.keys i.val (0, 0)
      { a with kh := k.1, kl := k.2, ctr := tabGet b.ctrs i.val 0 })) }

/-- A site from its frames in ascending FIDX (R216). -/
def buildSite (h : Header) (fmts : List Word32) (col row : Nat) (l : List Frame) : Except Cause SiteCfg :=
  if !(l.map (·.fidx)).Nodup then .error 0x2CC
  else
    match applyFrames fmts h.exact (4 * h.gh * h.gw) (sortBy (·.fidx) l) {} with
    | .error c => .error c
    | .ok b =>
      match templatesOf b.parts with
      | .error c => .error c
      | .ok ts =>
        let c := { withDraws b with temps := ts }
        if bindFault h col row c then .error 0x2C1
        else if actorsClash c then .error 0x2C3
        else if passStarved c then .error 0x2C2
        else .ok c

/-- The sites of a list of frames, each with its own. -/
def buildSites (h : Header) (fmts : List Word32) (l : List Frame) : List (Nat × Nat) → Except Cause (Tab SiteCfg)
  | [] => .ok []
  | (col, row) :: rest =>
    match buildSite h fmts col row (l.filter (fun f => f.col = col && f.row = row)), buildSites h fmts l rest with
    | .error c, _ => .error c
    | .ok _, .error c => .error c
    | .ok x, .ok t => .ok ((64 * row + col, x) :: t)

/-- The end frame (R216). -/
def isEndFrame (f : Frame) : Bool := f.lay = 15 && f.col = 0 && f.row = 0 && f.fidx = 0 && f.pay = 0

/-- All frames: the last is the one end frame, and every other is of a site of the shape. -/
def sitesOf (h : Header) (fmts : List Word32) (l : List Frame) : Except Cause (Tab SiteCfg) :=
  let body := l.dropLast
  if (l.getLast?.map isEndFrame).getD false = false || body.any (fun f => f.lay = 15 || 8 * h.gw ≤ f.col || 4 * h.gh ≤ f.row) then .error 0x2CC
  else
    buildSites h fmts body ((List.range (32 * h.gw * h.gh)).filterMap (fun i =>
      let col := i % (8 * h.gw)
      let row := i / (8 * h.gw)
      if body.any (fun f => f.col = col && f.row = row) then some (col, row) else none))

/-! ## The manifest (R229, R230) -/

/-- A number of `n` bytes of a list at an offset. -/
def numIn (l : List Byte) (off n : Nat) : Nat := ofBytes ((l.drop off).take n)

/-- A data entry: its head and word 1 are at the start of `l`. -/
def dataEntry (h : Header) (tf nw : Nat) (l : List Byte) (m : Image) : Except Cause Image :=
  let w1 := numIn l 8 8
  let off := w1 / 2 ^ 32
  let n := w1 % 2 ^ 32
  let d : DataEntry := { store := field tf 38 2, col := field tf 32 6, row := field tf 26 6, off := off, bytes := (l.drop 16).take n }
  let inGrove := d.col < 8 * h.gw && d.row < 4 * h.gh
  let room :=
    match d.store with
    | 0 => inGrove && d.col % 8 ≠ 7 && decide (off + n ≤ 0x20000)
    | 1 => inGrove && d.col % 8 = 7 && decide (off + n ≤ 2 ^ 20)
    | 2 => decide (off + n ≤ h.dsr * 2 ^ 20)
    | _ => false
  if nw ≠ 2 + (n + 7) / 8 || !room then .error 0x2CD else .ok { m with data := m.data ++ [d] }

/-- A handler of a handler entry, or a place outside the grove. -/
def handlerOf (h : Header) (tf : Nat) : Option Handler :=
  if flag tf 35 then
    (let col := field tf 29 6
     let row := field tf 23 6
     if col < 8 * h.gw && row < 4 * h.gh && col % 8 ≠ 7 then some (.port col row (field tf 21 2)) else none)
  else if field tf 30 5 < h.gw * h.gh then some (.thread (field tf 30 5) (field tf 27 3) (field tf 13 14))
  else none

/-- One entry taken into an image; `seen6` says that a grove entry has come. -/
def takeEntry (h : Header) (l : List Byte) (m : Image) (seen6 : Bool) : Except Cause (Image × Bool) :=
  let head := numIn l 0 8
  let nw := field head 40 16
  let tf := field head 0 40
  let cl := field tf 35 5
  let inside := decide (cl < h.gw * h.gh)
  match field head 56 8 with
  | 1 =>
    let t := 8 * cl + field tf 32 3
    if nw ≠ 1 || !inside || m.threads.any (fun q => q.1 = t) then .error 0x2CD
    else .ok ({ m with threads := m.threads ++ [(t, field tf 30 2, field tf 16 14)] }, seen6)
  | 2 =>
    let first := field tf 21 14
    let n := 2 * (nw - 1)
    if nw = 0 || !inside || 16384 < first + n then .error 0x2CD
    else
      let t := (List.range n).foldl (fun t i => tabPut t (first + i) (BitVec.ofNat 32 (numIn l (8 + 4 * i) 4))) (tabGet m.code cl [])
      .ok ({ m with code := tabPut m.code cl t }, seen6)
  | 3 =>
    if nw ≠ 1 || 13 < field tf 36 4 || 3 < field tf 32 4 then .error 0x2CD
    else .ok ({ m with routes := tabPut m.routes (field tf 36 4) (field tf 32 4) }, seen6)
  | 4 =>
    if nw ≠ 1 || 13 < field tf 36 4 then .error 0x2CD
    else
      match handlerOf h tf with
      | none => .error 0x2CD
      | some x => .ok ({ m with handlers := tabPut m.handlers (field tf 36 4) x }, seen6)
  | 5 =>
    match dataEntry h tf nw l m with
    | .error c => .error c
    | .ok m1 => .ok (m1, seen6)
  | 6 =>
    let d := field tf 10 16
    if nw ≠ 1 || seen6 then .error 0x2CD
    else .ok ({ m with tvec := some (4 * field tf 26 14), tdrain := if d = 0 then 200 else d }, true)
  | 7 =>
    if nw ≠ 1 || !inside then .error 0x2CD else .ok ({ m with ages := tabPut m.ages cl (field tf 23 12 + 1) }, seen6)
  | _ => .error 0x2CD

/-- The entries, packed one after another. -/
def takeEntries (h : Header) : Nat → List Byte → Image → Bool → Except Cause Image
  | 0, _, m, _ => .ok m
  | n + 1, l, m, seen6 =>
    match takeEntry h l m seen6 with
    | .error c => .error c
    | .ok (m1, s6) => takeEntries h n (l.drop (8 * Nat.max 1 (field (numIn l 0 8) 40 16))) m1 s6

/-! ## Reading an image (R157, R159) -/

/-- How an image's bytes are read: as plain data or as code-store words (R20), offset and count. -/
abbrev Fetch := Access → Nat → Nat → Except (Cause × Nat) (List Byte)

/-- The bytes of `n` manifest entries from an offset; the words of a code entry are loads of the code store (R20, R230). -/
def fetchEntries (rd : Fetch) : Nat → Nat → Except (Cause × Nat) (List Byte)
  | 0, _ => .ok []
  | n + 1, off =>
    match rd .load off 8 with
    | .error e => .error e
    | .ok hd =>
      let head := ofBytes hd
      let nw := Nat.max 1 (field head 40 16)
      match rd (if field head 56 8 = 2 then .code else .load) (off + 8) (8 * (nw - 1)), fetchEntries rd n (off + 8 * nw) with
      | .error e, _ => .error e
      | .ok _, .error e => .error e
      | .ok a, .ok b => .ok (hd ++ a ++ b)

/-- The header of an image, or 0x2C6. -/
def fetchHeader (rd : Fetch) : Except (Cause × Nat) (List Byte) :=
  match rd .load 0 64 with
  | .error e => .error e
  | .ok l => if headerOk (ofBytes l) then .ok l else .error (0x2C6, 0)

/-- The most frames a shape can have: 256 to a site, and the end frame. -/
def maxFrames (h : Header) : Nat := 256 * (32 * h.gw * h.gh) + 1

/-- The parts of an image that its digest covers, and its signature. -/
structure Parts where
  head : List Byte
  fmts : List Byte
  mani : List Byte
  frs  : List Byte
  sig  : List Byte

def Parts.covered (p : Parts) : List Byte := p.head ++ p.fmts ++ p.mani ++ p.frs

/-- The rest of an image, read once. -/
def fetchParts (rd : Fetch) (head : List Byte) : Except (Cause × Nat) Parts :=
  let h := headerOf (ofBytes head)
  if maxFrames h < h.nfr then .error (0x2CC, 0)
  else
    match rd .load h.fro (32 * h.nfr), rd .load h.fmto 116, rd .load h.mano 8, rd .load h.sigo 64 with
    | .ok frs, .ok fmts, .ok cnt, .ok sig =>
      (match fetchEntries rd (ofBytes cnt) (h.mano + 8) with
       | .error e => .error e
       | .ok es => .ok ⟨head, fmts, cnt ++ es, frs, sig⟩)
    | .error e, _, _, _ => .error e
    | _, .error e, _, _ => .error e
    | _, _, .error e, _ => .error e
    | _, _, _, .error e => .error e

/-- Frames cut from their bytes, each corrected, or none. -/
def framesOf (l : List Byte) : Nat → Option (List Nat)
  | 0 => some []
  | n + 1 =>
    match framesOf l n, frameFix (numIn l (32 * n) 32) with
    | some fs, some v => some (fs ++ [v])
    | _, _ => none

/-! ## The region signature (R198) -/

/-- CRC-64 of ECMA-182 over the low `n` bits of `v`, most significant bit first. -/
def crc64 (v : Nat) : Nat → Nat → Nat
  | 0, c => c
  | n + 1, c =>
    let top := c / 2 ^ 63 ^^^ v / 2 ^ n % 2
    handOn (c * 2 % 2 ^ 64 ^^^ (if top = 1 then 0x42F0E1EBA9EA3693 else 0)) (fun c1 => crc64 v n c1)

/-- The signature of frames: in the order of their frame index, frames of one index as the image lists them (log entry 97). -/
def regionCrc (l : List Nat) : Nat := (sortBy (fun v => (frameOf v).fidx) l).foldl (fun c v => crc64 v 256 c) 0

/-- Frames with some of their bits flipped. -/
def flipBits (l : List Nat) (e : List (Nat × Nat)) : List Nat := e.foldl (fun l k => l.modify k.1 (fun v => v ^^^ 2 ^ (k.2 % 256))) l

/-- What a look at frames finds (R198): how many were repaired, and whether one cannot be or the signature does not match. -/
def judgeFrames (seen : List Nat) (crc : Nat) : Nat × Bool :=
  let fixed := seen.map frameFix
  ((seen.zip fixed).countP (fun k => k.2.isSome && k.2 ≠ some k.1), fixed.any (·.isNone) || regionCrc (fixed.filterMap id) ≠ crc)

/-- The format table (R32, R33): slot 0 is no entry, slots 1-29 are read; an empty slot is zero. -/
def formatsOf (l : List Byte) : List Word32 := 0 :: (List.range 29).map (fun i => BitVec.ofNat 32 (numIn l (4 * i) 4))

/-- The parts of an image decoded and checked, but for the signature. -/
def decodeImage (p : Parts) : Except Cause Image :=
  let h := headerOf (ofBytes p.head)
  let fmts := formatsOf p.fmts
  match framesOf p.frs h.nfr with
  | none => .error 0x2C4
  | some fs =>
    if fmts.any (fun d => d ≠ 0 && !descOk d) then .error 0x080
    else
      match sitesOf h fmts (fs.map frameOf) with
      | .error c => .error c
      | .ok sites =>
        match takeEntries h (numIn p.mani 0 8) (p.mani.drop 8) {} false with
        | .error c => .error c
        | .ok m =>
          .ok { m with
            gw := h.gw, gh := h.gh, exact := h.exact, strict := h.strict, dsr := h.dsr, skey := h.skey, fmts := fmts, sites := sites,
            raw := p.covered, frames := fs, size := 32 * h.nfr + m.data.foldl (fun a d => a + (d.bytes.length + 7) / 8 * 8) 0 }

/-- An Ed25519 signature over the SHA-512 digest of some bytes holds (R157, R211). -/
def holdsUnder (key : BitVec 256) (covered sig : List Byte) : Bool := ed25519 key.toNat (sha512 covered) sig

/-- The signature verifies under the slot the header names, which serves the owner (R157, R212). -/
def signatureOk (s : State) (owner : Nat) (m : Image) (sig : List Byte) : Bool :=
  match (s.mgmt.keys.toList[m.skey]?).join with
  | none => false
  | some k => (m.skey = 0 || k.owner = owner) && holdsUnder k.key m.raw sig

/-- An image is of another owner than a grove's: the slot its header names serves that other (R161, R162, R212). -/
def otherOwner (s : State) (h : Header) (owner : Nat) : Bool :=
  match (s.mgmt.keys.toList[h.skey]?).join with
  | none => false
  | some k => h.skey ≠ 0 && k.owner ≠ owner

/-- The regions of die store a reload copy takes (R160). -/
def Image.copyRegions (m : Image) : Nat := (m.size + 2 ^ 20 - 1) / 2 ^ 20

end Sys2Proof.Machine
end

