-- ==== Sys2Proof/Machine/Groves.lean ====
section
/-! DEFINITION. Groves: allocation (R87-R91), placement and loading (R158-R160, R334, R335), release (R90), mode (R335), heavy slots (R164,
R209), manifests (R344, R345), tinv (R25, R343), and splicing (R161). -/

namespace Sys2Proof.Machine

/-! ## Allocation (R88, R91) -/

/-- Slots as an actor table claims them at load (R219). -/
def claimOf (c : SiteCfg) (n : Nat) : Option Nat :=
  (List.range 8).find? (fun i => (((c.actors.toList[i]?).join).map (fun a => a.clm.getLsbD n)).getD false)

/-- An actor as its frames set it up. -/
def freshActor (c : SiteCfg) (i : Nat) : ActorSt := { ctr := (((c.actors.toList[i]?).join).map (fun a => a.ctr)).getD 0 }

/-- A slot at load: what it holds stays, stamped as it was; its claim is the table's. -/
def freshSlot (c : SiteCfg) (old : Slot) (n : Nat) : Slot :=
  { old with claim := claimOf c n, pending := 0, use := 0, landed := 0, carry := [], sid := 0, follow := none }

/-- The bounds of slots that an actor table claims: no cut has written them since that claim (R134, R295). -/
def uncut (c : SiteCfg) (b : Vector Bounds 8) : Vector Bounds 8 :=
  Vector.ofFn (fun i => if (claimOf c i.val).isSome then { b[i] with cut := none } else b[i])

/-- A tile allocated: its generation rises, and nothing of the old allocation has a current stamp. -/
def Tile.allocate (t : Tile) (c : SiteCfg) (strict : Bool) : Tile :=
  let g := nextGen t.gen
  let old : Tile := if g.2 then {} else t
  { cfg := c, gen := g.1, strict := strict, store := old.store, actors := Vector.ofFn (fun i => freshActor c i.val),
    slots := Vector.ofFn (fun i => freshSlot c old.slots[i] i.val), bounds := uncut c old.bounds, accs := old.accs, hb := old.hb, hbGen := old.hbGen }

def Slice.allocate (x : Slice) (c : SiteCfg) (strict : Bool) : Slice :=
  let g := nextGen x.gen
  { cfg := c, gen := g.1, strict := strict, store := if g.2 then [] else x.store }

/-- A register that nothing is to write any more. -/
def GReg.settled (r : GReg) : GReg := { r with pend := none, poison := none, readyAt := 0 }

def Thread.allocate (th : Thread) (strict : Bool) (now : Nat) (entry : Option (Nat × Nat)) : Thread :=
  let g := nextGen th.gen
  let old : Thread := if g.2 then {} else th
  { status := if entry.isSome then .ready else .halted, pc := (entry.map (fun e => 4 * e.2)).getD 0, role := (entry.map Prod.fst).getD 0,
    entry := (entry.map (fun e => 4 * e.2)).getD 0, gen := g.1, strict := strict, since := now, regs := old.regs.map GReg.settled,
    fifos := old.fifos.map (fun f => { f with reserved := 0 }) }

/-- A die-store region allocated. -/
def Die.allocate (d : Die) (strict : Bool) (r : Nat) : Die :=
  let g := nextGen (d.gen r).1
  { d with gens := tabPut d.gens r (g.1, strict), store := if g.2 then d.store.filter (fun k => k.1 / 16384 ≠ r) else d.store }

/-- The holder of a region of a die store: 1 + grove for a window, 1000 + grove for a reload copy, 2000 + number for a save. -/
def setHolder (s : State) (die : Nat) (l : List Nat) (v : Nat) : State :=
  let d := s.die die
  s.setDie die { d with holder := l.foldl (fun t r => if v = 0 then tabDel t r else tabPut t r v) d.holder }

/-- The regions of a die store that nobody holds. -/
def freeRegions (s : State) (die : Nat) : List Nat := (List.range 256).filter (fun r => tabGet (s.die die).holder r 0 = 0)

/-! ## Placement (R158, R160, R334) -/

/-- A placement: die, cx, cy. -/
abbrev Origin := Nat × Nat × Nat

/-- The clusters of a shape at an origin. -/
def shapeClusters (gw gh : Nat) (o : Origin) : List Nat :=
  (List.range (gw * gh)).map (fun q => clusterAt o.1 (o.2.1 + q % gw) (o.2.2 + q / gw))

/-- The shape fits at an origin on clusters that no grove holds. -/
def shapeFree (s : State) (gw gh : Nat) (o : Origin) : Bool :=
  decide (o.2.1 + gw ≤ 8) && decide (o.2.2 + gh ≤ 15) && (shapeClusters gw gh o).all (fun c => (s.coreOf c).grove.isNone)

/-- Every origin, in the order of R158. -/
def origins : List Origin :=
  (List.range 4).flatMap (fun d => (List.range 15).flatMap (fun cy => (List.range 8).map (fun cx => (d, cx, cy))))

/-- The origins a placement word allows. -/
def placeOrigins (w : Nat) : List Origin := if flag w 63 then origins else [(field w 7 2, field w 4 3, field w 0 4)]

/-- The first origin where the shape is free and the die has the regions. -/
def findPlace (s : State) (w gw gh regions : Nat) : Option Origin :=
  (placeOrigins w).find? (fun o => shapeFree s gw gh o && decide (regions ≤ (freeRegions s o.1).length))

/-- The shape is free somewhere, whatever the regions. -/
def shapeSomewhere (s : State) (w gw gh : Nat) : Bool := (placeOrigins w).any (shapeFree s gw gh)

/-- The faults of a placement word (R334); the host's load command ignores KV. -/
def placeFault (priv : Bool) (w : Nat) : Option Cause :=
  if flag w 62 && !priv then some 0x065
  else if field w 9 43 ≠ 0 || (flag w 63 && field w 0 9 ≠ 0) || field w 0 4 = 15 then some 0x2CE
  else none

/-- A grove id that is free: at most 128 groves exist. -/
def freeGrove (s : State) : Option Nat := (List.range 128).find? (fun i => !(s.grove i).live)

/-- The base of heavy slots per cluster at a PLIMIT (R209). -/
def heavyBase (plimit : Nat) : Nat := Nat.min 8 (Nat.max 1 (8 * (plimit - 1000) / 1400))

/-! ## Loading (R159, R230) -/

/-- A data entry written (R230). -/
def writeData (g : Grove) (s : State) (d : DataEntry) : State :=
  let v := ofBytes d.bytes
  let n := d.bytes.length
  match d.store, g.siteRel d.col d.row with
  | 0, some x => s.setTile x ((s.tile x).write d.off n v)
  | 1, some x => s.setSlice x ((s.slice x).write d.off n v)
  | 2, _ =>
    (List.range n).foldl (fun s i =>
      match g.windowAt (d.off + i) with
      | none => s
      | some off => s.setDie g.die ((s.die g.die).write off 1 (v / 2 ^ (8 * i)))) s
  | _, _ => s

/-- A site's configuration from an image, by its grove-relative place. -/
def Image.site (m : Image) (col row : Nat) : SiteCfg := tabGet m.sites (64 * row + col) {}

/-- The sites, cores and threads of a grove allocated, with their configuration (R88, R216-R230). -/
def allocateUnits (s : State) (gid : Nat) (g : Grove) : State :=
  let m := g.image
  let s1 := g.sites.foldl (fun s x =>
    let c := m.site (g.relCol x) (g.relRow x)
    if siteIsSlice x then s.setSlice x ((s.slice x).allocate c m.strict) else s.setTile x ((s.tile x).allocate c m.strict)) s
  let s2 := g.clusters.foldl (fun s c =>
    s.setCore c { grove := some gid, code := tabGet m.code (g.indexOf c) [], ageM := tabGet m.ages (g.indexOf c) 4096 }) s1
  g.threads.foldl (fun s t =>
    s.setThr t ((s.thr t).allocate m.strict s.now ((m.threads.find? (fun q => q.1 = g.threadIndex t)).map (fun q => q.2)))) s2

/-- Window and reload copy taken from a die's free regions; the window's regions are allocated. -/
def takeRegions (s : State) (gid : Nat) (g : Grove) (dsr copies : Nat) : State × Grove :=
  let free := freeRegions s g.die
  let win := free.take dsr
  let cop := (free.drop dsr).take copies
  let s1 := setHolder (setHolder s g.die win (1 + gid)) g.die cop (1000 + gid)
  let d := win.foldl (fun d r => d.allocate g.image.strict r) (s1.die g.die)
  (s1.setDie g.die d, { g with window := win, copies := cop })

/-- A new grove of an image at an origin. Its region signature is that of the frames read, which are the frames written into its sites: the check at the
load (R198) holds for what the model writes. -/
def newGrove (s : State) (m : Image) (o : Origin) (key troot : Nat) (priv : Bool) : Grove :=
  { live := true, die := o.1, cx := o.2.1, cy := o.2.2, image := m, key := key, exact := m.exact, priv := priv, troot := troot, tvec := m.tvec,
    tdrain := m.tdrain, h := heavyBase s.mgmt.plimit * (m.gw * m.gh), digest := sha512 m.raw,
    crc := regionCrc m.frames }

/-- An image loaded: regions, allocation, frames, data, and its threads start (R159). -/
def placeGrove (s : State) (gid : Nat) (g : Grove) (copies : Nat) : State :=
  let y := takeRegions s gid g g.image.dsr copies
  let s1 := allocateUnits (y.1.setGrove gid y.2) gid y.2
  g.image.data.foldl (writeData y.2) s1

/-- An allocation whose signature failed: the units' generations have risen, and the clusters are released (R159). -/
def allocateOnly (s : State) (gid : Nat) (g : Grove) : State :=
  let s1 := allocateUnits s gid { g with image := { g.image with threads := [], sites := [], code := [] } }
  let s2 := g.threads.foldl (fun s t => s.setThr t { s.thr t with status := .free }) s1
  g.clusters.foldl (fun s c => s.setCore c {}) s2

/-- What a load comes to: a fault with its address and the state it leaves, nothing placed, or a grove. -/
inductive Loaded where
  | fault (c : Cause) (va : Nat) (s : State) | nowhere | grove (s : State) (gid : Nat)

/-- The reader of an image in a grove's virtual space: a word for a code store needs a page with X = 1 (R20). Where the thread's earlier accesses to the
points that hold the bytes are not performed (R169), it answers with cause 0, which is none of R189's: the thread waits. -/
def vaFetch (s : State) (g : Grove) (va : Nat) : Fetch := fun a off n =>
  if !earlierDone s g (va + off) n then .error (0, 0) else
  match a, vaFault s g .code (n / 4096 + 2) (va + off) n with
  | .code, some e => .error e
  | _, _ => readVa s g (n / 4096 + 2) (va + off) n

/-- An image's parts read, decoded, checked; its signature's verdict. -/
def verifyImage (s : State) (rd : Fetch) (head : List Byte) (owner : Nat) : Except (Cause × Nat) (Image × Bool) :=
  match fetchParts rd head with
  | .error e => .error e
  | .ok p =>
    match decodeImage p with
    | .error c => .error (c, 0)
    | .ok m => .ok (m, signatureOk s owner m p.sig)

/-- The steps of a load in the order of R159: header, placement, the rest, allocation, signature. -/
def loadGrove (s : State) (rd : Fetch) (w key troot : Nat) (priv : Bool) : Loaded :=
  match fetchHeader rd with
  | .error (c, va) => .fault c va s
  | .ok head =>
    let h := headerOf (ofBytes head)
    match freeGrove s, findPlace s w h.gw h.gh h.dsr with
    | some gid, some _ =>
      (match verifyImage s rd head key with
       | .error (c, va) => .fault c va s
       | .ok (m, good) =>
         match findPlace s w h.gw h.gh (h.dsr + m.copyRegions) with
         | none => .nowhere
         | some o =>
           let g := newGrove s m o key troot (priv && m.skey = 0)
           if good then .grove (placeGrove s gid g m.copyRegions) gid else .fault 0x2C5 0 (allocateOnly s gid g))
    | _, _ => .nowhere

/-! ## Commands that act on groves (R335) -/

/-- An operation of a thread that counts on a counter: it waits for room there, and no fence holds it (R321). -/
def countedForm (srcs : List Reg) (dst : Option Reg) (c : Ctr) (body : State → State) (s : State) : State :=
  issue { srcs := srcs, dst := dst } (fun s => if ctrFull s.me c 1 then stall s else body s) s

/-- The thread's earlier accesses to its die's store controller have been performed. -/
def dieReady (s : State) : Bool := ownStoresDone s s.focus || pointPerformed s s.focus (.dieStore (dieOf (s.focus / 8)))

/-- A grove operation that takes regions of a die store or gives them up: it follows the thread's earlier accesses there (R169; log entry 48). -/
def groveForm (srcs : List Reg) (dst : Option Reg) (c : Ctr) (body : State → State) (s : State) : State :=
  countedForm srcs dst c (fun s => if dieReady s then body s else stall s) s

/-- A fault of what a grove operation reads; cause 0 is none: the thread's earlier accesses there are not performed, and it waits. -/
def refuse (s : State) (c : Cause) (va : Nat) : State := if c = 0 then stall s else trapMe s c (BitVec.ofNat 64 va)

/-- A grove operation that has done its work: rd holds the value, the operation counts, and its completion follows (R324). -/
def opAtOnce (s : State) (c : Ctr) (d : Reg) (v : Nat) : State :=
  let id := s.nextId
  opDone (startOp (s.setMe (s.me.setReg d (BitVec.ofNat 64 v) (s.now + 1))) c 1 none) id

/-- A thread's load: the owner key id and translation root that the placement word gives the new grove (R334). -/
def loadFor (s : State) (w : Nat) : Nat × Nat :=
  let g := myGrove s
  if flag w 62 then (field w 52 10, g.ctroot) else (g.key, g.troot)

def gloadGo (d a b : Reg) (s : State) : State :=
  let g := myGrove s
  let w := regAt b s
  match placeFault g.priv w with
  | some c => trapMe s c 0
  | none =>
    match loadGrove s (vaFetch s g (regAt a s)) w (loadFor s w).1 (loadFor s w).2 g.priv with
    | .fault c va s1 => refuse s1 c va
    | .nowhere => opAtOnce s .mx d 0
    | .grove s1 gid => opAtOnce s1 .mx d (gid + 1)

def execGload (d a b : Reg) (s : State) : Res := .next (groveForm [a, b] (some d) .mx (gloadGo d a b) s)

/-- A grove is being embered, or an ember of it waits. -/
def beingEmbered (g : Grove) : Bool := g.run = .embering || g.emberWait.isSome

/-- The grove of a handle (R334): 0 is the issuer's own; it runs, is not being embered, and is of the issuer's owner key id unless the issuer is
privileged. -/
def handleGrove (s : State) (v : Nat) : Option Nat :=
  if v = 0 then some (myGroveId s)
  else
    let g := s.grove (v - 1)
    if v ≤ 128 && g.live && !beingEmbered g && (g.key = (myGrove s).key || (myGrove s).priv) then some (v - 1) else none

/-! ## Release (R90) -/

/-- A site lies in a grove. -/
def ofGrove (s : State) (gid x : Nat) : Bool := s.groveOfSite x = some gid

/-- A packet carries pairs that a node is still to take, or may still be asked for them again. -/
def scatterOnWay (p : Packet) : Bool := (p.type = 4 || (p.type = 5 && !p.pairs.isEmpty)) && p.at_ ≠ .hole

/-- Everything that may still write to the grove's stores has landed. Pairs and tokens that wait for a round which is not closed are held, as an
ember saves them (R195), and are not waited for. -/
def groveLanded (s : State) (gid : Nat) (threads : List Nat) : Bool :=
  s.smoves.all (fun m => m.grove ≠ gid) && s.halos.all (fun h => !ofGrove s gid h.site && !ofGrove s gid h.from_)
    && s.packets.all (fun p => p.grove ≠ gid || !scatterOnWay p)
    && (s.grove gid).slices.all (fun x => (s.slice x).commit.isNone && (scatterRound s x).isNone)
    && s.tiles.all (fun k => k.2.mover.isNone || !ofGrove s gid k.1)
    && s.reqs.all (fun r => !threads.contains r.src || r.pieces.isEmpty || r.parked)

/-- A tile that no grove holds: it keeps its store and its stamped parts. -/
def Tile.released (t : Tile) : Tile :=
  { gen := t.gen, strict := t.strict, store := t.store, slots := t.slots.map (fun x => { x with claim := none, pending := 0, use := 0, follow := none }),
    bounds := t.bounds, accs := t.accs, hb := t.hb, hbGen := t.hbGen }
def Slice.released (x : Slice) : Slice := { gen := x.gen, strict := x.strict, store := x.store }

/-- Every operation, request, packet and token of a grove is gone. -/
def purgeGrove (s : State) (gid : Nat) : State :=
  let g := s.grove gid
  let ts := g.threads
  { s with
    ops := s.ops.filter (fun o => !ts.contains o.thread), reqs := s.reqs.filter (fun r => !ts.contains r.src),
    packets := s.packets.filter (fun p => p.grove ≠ gid), flights := s.flights.filter (fun f => !ofGrove s gid (f.sink / 256)),
    ctls := s.ctls.filter (fun f => !ofGrove s gid (f.sink / 256)), tinvs := s.tinvs.filter (fun v => v.2.1 ≠ gid),
    permits := g.slices.foldl (fun t x => g.clusters.foldl (fun t c => tabDel t (slicePermit c x).1) (tabDel (tabDel t (engineKey x 0)) (engineKey x 4))) s.permits }

/-- The clusters of a grove are free: sites without configuration, threads free. -/
def freeClusters (s : State) (g : Grove) : State :=
  let s1 := g.sites.foldl (fun s x =>
    if siteIsSlice x then s.setSlice x (s.slice x).released else s.setTile x (s.tile x).released) s
  let s2 := g.clusters.foldl (fun s c => s.setCore c {}) s1
  g.threads.foldl (fun s t => s.setThr t { (s.thr t).endGroup with status := .free, specs := [], fences := [] }) s2

/-- A grove released: its window and reload copy are freed (R160). -/
def releaseDone (s : State) (gid : Nat) : State :=
  let g := s.grove gid
  let s1 := freeClusters (purgeGrove s gid) g
  (setHolder s1 g.die (g.window ++ g.copies ++ g.newCopies) 0).setGrove gid {}

def execGrelease (a : Reg) (s : State) : Res :=
  .next (issue { srcs := [a] } (fun s =>
    match handleGrove s (regAt a s) with
    | none => trapMe s 0x2CE 0
    | some gid =>
      if (s.grove gid).emberWait.isSome then trapMe s 0x2CE 0
      else if !groveLanded s gid (s.grove gid).threads then stall s
      else if gid = myGroveId s then releaseDone s gid
      else (releaseDone s gid).setMe (s.me.retireNow s.me.next)) s)

/-! ## Mode (R335)

A stream bound under a generation that is still open may be discarded, and then was never bound (R59, R174): the command, held until the grove holds the
new mode, waits for the generation to be decided. -/

/-- A marker is pending at a port of the grove. -/
def markerPending (s : State) (g : Grove) : Bool :=
  g.tiles.any (fun x => (s.tile x).ins.toList.any (fun p => p.items.any (fun i =>
    match i with
    | .marker _ => true
    | _ => false)))

/-- Some port breaks what an exact grove needs (R106, R221). -/
def exactRefused (s : State) (g : Grove) : Bool :=
  g.tiles.any (fun x => (s.tile x).cfg.ins.toList.any (fun c => (c.map exactPortFault).getD false))

def execSetMode (a b : Reg) (s : State) : Res :=
  .next (issue { srcs := [a, b] } (fun s =>
    let v := regAt b s
    match handleGrove s (regAt a s) with
    | none => trapMe s 0x2CE 0
    | some gid =>
      let g := s.grove gid
      if 2 ≤ v then trapMe s 0x061 0
      else if (groveStreams s g).any (fun l => l.2.gen.isNone) || markerPending s g then trapMe s 0x2CF 0
      else if !(groveStreams s g).isEmpty then stall s
      else if v = 1 && exactRefused s g then trapMe s 0x2C2 0
      else
        let s1 := s.setGrove gid { g with exact := decide (v = 1) }
        s1.setMe (s1.me.retireNow s1.me.next)) s)

/-! ## Heavy slots (R164, R342) -/

/-- The base grant of a grove at the PLIMIT in force. -/
def baseGrant (s : State) (g : Grove) : Nat := heavyBase s.mgmt.plimit * (g.image.gw * g.image.gh)

/-- What the package still allows a grove beyond its base: the leave that PLIMIT leaves, less what other groves hold of it. -/
def leaveLeft (s : State) (gid : Nat) : Nat :=
  Config.leaveBudget s.mgmt.plimit - s.groves.foldl (fun a k => if k.1 = gid || !k.2.live then a else a + (k.2.h - baseGrant s k.2)) 0

/-- leave.req: H rises to what the budget allows, up to the request (R164, R342). -/
def execLeaveReq (d a : Reg) (s : State) : Res :=
  .next (issue { srcs := [a], dst := some d } (fun s =>
    let n := regAt a s
    let gid := myGroveId s
    let g := myGrove s
    if 65535 < n then trapMe s 0x061 0
    else
      let h := Nat.max g.h (Nat.min n (baseGrant s g + leaveLeft s gid))
      finish (s.setGrove gid { g with h := h }) d (BitVec.ofNat 64 h) 1) s)

/-- leave.ret: H falls; more than H faults with 0x340. -/
def execLeaveRet (a : Reg) (s : State) : Res :=
  .next (issue { srcs := [a] } (fun s =>
    let n := regAt a s
    let g := myGrove s
    if g.h < n then trapMe s 0x340 0
    else
      let s1 := s.setGrove (myGroveId s) { g with h := g.h - n }
      s1.setMe (s1.me.retireNow s1.me.next)) s)

/-! ## Manifests of a run (R344, R345) -/

/-- Numbers laid one after another, `n` bytes each. -/
def packed (n : Nat) (l : List Nat) : List Byte := l.flatMap (fun v => bytesOf n v)

/-- R of every template, and every R set by round, slice by slice (R344 index 7). -/
def roundLengths (s : State) (g : Grove) : List Nat :=
  g.slices.flatMap (fun x => (s.slice x).cfg.temps.map (fun k => k.2.rlm1 + 1)
    ++ (g.roundSet.filter (fun k => sidSlice g k.1 = some x)).map (·.2))

/-- The policy fields of every input-port frame (R344 index 9). -/
def policyFields (s : State) (g : Grove) : List Nat :=
  g.tiles.flatMap (fun x => (s.tile x).cfg.ins.toList.flatMap (fun c =>
    match c with
    | none => []
    | some c => [c.cap - 1, c.pol, c.parm, c.rl - 1, c.fire.toNat, c.budget, c.spn, c.dsz]))

/-- Every actor's draw key (R344 index 10). -/
def drawKeys (s : State) (g : Grove) : List Nat :=
  g.tiles.flatMap (fun x => (s.tile x).cfg.actors.toList.flatMap (fun a =>
    match a with
    | none => []
    | some a => [a.kh.toNat, a.kl.toNat]))

/-- The device table as bytes. -/
def deviceBytes (s : State) : List Byte := s.devTable.flatMap (fun k => packed 4 (k.1 :: k.2))

/-- The fields of a manifest: (index, offset, bytes); index 0 is its first word. -/
def manifestFields (s : State) (g : Grove) : List (Nat × Nat × List Byte) :=
  let digest := fun i => ((g.stages[i]?).map (fun e => sha512 e.image.raw)).getD (bytesOf 64 0)
  [(0, 0x000, bytesOf 8 (0x4D465331 + 2 ^ 32)),
   (1, 0x008, bytesOf 8 (Config.part.toNat * 2 ^ 48 + Config.stepping.toNat * 2 ^ 40)),
   (2, 0x040, bytesOf 64 (Config.firmwareHash 0).toNat),
   (3, 0x080, bytesOf 64 (Config.firmwareHash 1).toNat),
   (4, 0x0C0, bytesOf 64 (Config.firmwareHash 2).toNat),
   (5, 0x100, g.digest),
   (6, 0x140, bytesOf 8 (g.image.gw * 256 + g.image.gh * 16 + g.exact.toNat * 8 + g.image.strict.toNat * 4)),
   (7, 0x180, sha512 (packed 4 (roundLengths s g))),
   (8, 0x1C0, sha512 (packed 4 ((g.image.fmts.drop 1).map (·.toNat)))),
   (9, 0x200, sha512 (packed 4 (policyFields s g))),
   (10, 0x240, sha512 (packed 8 (drawKeys s g))),
   (11, 0x280, bytesOf 8 (32 + 256 * 2 ^ 16)),
   (12, 0x2C0, if g.domain then bytesOf 1 s.dev ++ (sha512 (deviceBytes s)).take 63 else bytesOf 64 0),
   (13, 0x300, digest 1), (14, 0x340, digest 2), (15, 0x380, digest 3)]

/-- Bytes of a field padded with zeros to a length. -/
def padTo (n : Nat) (l : List Byte) : List Byte := (l ++ List.replicate (n - l.length) 0).take n

/-- The whole manifest, 2,048 bytes. -/
def manifestBytes (l : List (Nat × Nat × List Byte)) : List Byte :=
  (List.range 2048).map (fun i =>
    match l.find? (fun f => decide (f.2.1 ≤ i ∧ i < f.2.1 + f.2.2.length)) with
    | some f => f.2.2.getD (i - f.2.1) 0
    | none => 0)

/-- The stores of a range of chunks, each of at most 64 bytes and within a line: (offset, bytes, PA). -/
def lineStores : Nat → List (Nat × Nat) → List (Nat × Nat × Nat)
  | _, [] => []
  | off, (pa, k) :: rest =>
    (List.range (k / 64 + 2)).filterMap (fun i =>
      let lo := if i = 0 then 0 else 64 * i - pa % 64
      let hi := Nat.min k (64 * (i + 1) - pa % 64)
      if lo < hi then some (off + lo, hi - lo, pa + lo) else none) ++ lineStores (off + k) rest

/-- mfsnap: the manifest of a grove written as stores (R344), which complete on st; each follows the thread's earlier accesses to its point (R169). -/
def execMfsnap (a b : Reg) (s : State) : Res :=
  .next (countedForm [a, b] none .st (fun s =>
    let va := regAt a s
    match handleGrove s (regAt b s) with
    | none => trapMe s 0x2CE 0
    | some gid =>
      if va % 64 ≠ 0 then trapMe s 0x2CE 0
      else
        match storeChunks s (myGrove s) 3 va 2048 with
        | .error (c, bad) => trapMe s c (BitVec.ofNat 64 bad)
        | .ok l =>
          let ps := lineStores 0 l
          putReq s { kind := .manifest (ofBytes (manifestBytes (manifestFields s (s.grove gid)))), va := va, key := (myGrove s).key, pieces := ps,
                     points := pointsOf s ps, edge := s.nextId } .st) s)

/-- The first field whose stored bytes differ. -/
def firstDiff (stored : List Byte) (l : List (Nat × Nat × List Byte)) : Option (Nat × Nat × List Byte) :=
  l.find? (fun f => f.1 ≠ 0 && decide ((stored.drop f.2.1).take f.2.2.length ≠ f.2.2))

/-- A grove's manifest compared with the one stored at `va` (R345): the answer, and the report written at `out`; or a fault with its address. -/
def compareManifest (s : State) (g : Grove) (va out : Nat) : Except (Cause × Nat) (Nat × State) :=
  match readVa s g 3 va 2048 with
  | .error e => .error e
  | .ok stored =>
    if ofBytes (stored.take 6) ≠ 0x4D465331 + 2 ^ 32 then .ok (0xFFFF, s)
    else
      match firstDiff stored (manifestFields s g) with
      | none => .ok (0, s)
      | some f =>
        match storeChunks s g 3 out 128 with
        | .error e => .error e
        | .ok l => .ok (f.1, writeChunks s g.key l (padTo 64 ((stored.drop f.2.1).take f.2.2.length) ++ padTo 64 f.2.2))

/-- mfcmp: the own grove's manifest compared with a stored one (R345). Where the thread's earlier accesses to what it touches are not performed, its
faults are judged and the comparison follows them (R169); the thread goes on (R323). -/
def mfcmpGo (d a b : Reg) (s : State) : State :=
  let g := myGrove s
  let va := regAt a s
  let out := regAt b s
  if va % 64 ≠ 0 || out % 64 ≠ 0 then trapMe s 0x2CE 0
  else
    match compareManifest s g va out with
    | .error (c, bad) => trapMe s c (BitVec.ofNat 64 bad)
    | .ok (n, s1) =>
      if earlierDone s g va 2048 && earlierDone s g out 128 then opAtOnce s1 .ld d n
      else
        let s2 := startOp s .ld 1 (some d)
        { s2 with ops := s2.ops.map (fun o => if o.id = s.nextId then { o with todo := some (va, out) } else o) }

def execMfcmp (d a b : Reg) (s : State) : Res := .next (countedForm [a, b] (some d) .ld (mfcmpGo d a b) s)

/-- The points of a range have been left by the accesses of a thread from before a command (R169). -/
def forkRange (s : State) (g : Grove) (t id va n : Nat) : Bool := (rangePoints s g va n).all (forkReady s t id)

/-- A comparison that has waited is made: its result is there. A range that no longer translates compares as no manifest (log entry 48). -/
def compareNow (s : State) (o : Op) (va out : Nat) : State :=
  let g := s.grove ((s.groveOfThread o.thread).getD 0)
  if !(forkRange s g o.thread o.id va 2048 && forkRange s g o.thread o.id out 128) then s
  else
    let y := match compareManifest s g va out with
      | .error _ => (0xFFFF, s)
      | .ok y => y
    { y.2 with ops := y.2.ops.map (fun q => if q.id = o.id then { q with res := BitVec.ofNat 64 y.1, done := true, todo := none } else q) }

/-- OPERATION_COMPLETE: an operation that has reached its stated end (R154, R324); a comparison that waits is made first. -/
def execOperationComplete (id : Nat) (s : State) : Res :=
  .next
    (match s.ops.find? (fun o => o.id = id) with
     | none => s
     | some o =>
       match o.todo with
       | some (va, out) => compareNow s o va out
       | none => if o.done then endOp s o else s)

/-! ## tinv (R25, R343) -/

/-- tinv: the generators whose extents meet the range pause, and its operation waits for TINV_COMPLETE; a length of 0 completes at once. -/
def execTinv (a b : Reg) (s : State) : Res :=
  .next (countedForm [a, b] none .mx (fun s =>
    let lo := regAt a s
    let n := regAt b s
    if n ≠ 0 && 2 ^ 48 < lo + n then trapMe s 0x201 (BitVec.ofNat 64 lo)
    else if n = 0 then opAtOnce s .mx 0 0
    else
      let id := s.nextId
      let s1 := startOp s .mx 1 none
      { s1 with tinvs := s1.tinvs ++ [(id, myGroveId s, lo / 4096 * 4096, (lo + n + 4095) / 4096 * 4096)] }) s)

/-- The translations of a range given up: entries of the buffers of the grove's cores are discarded, and the generators whose extents meet the
range are patched from the current table; a walk that faults leaves a faulting extent (R22, R25). -/
def invalidate (s : State) (gid lo hi : Nat) : State :=
  let g := s.grove gid
  let s1 := g.clusters.foldl (fun s c =>
    let co := s.coreOf c
    s.setCore c { co with tlb := co.tlb.filter (fun e => !meets e.va e.size lo hi) }) s
  (groveStreams s1 g).foldl (fun s l =>
    if (l.2.ext ++ l.2.nextExt).any (fun x => meets x.va x.len lo hi) then putStream s l.1 (l.2.rewalk s) else s) s1

/-- The walks of a tinv read the tables once the issuing thread's earlier accesses to their points are performed (R169): the tables of the pages of the
sets that meet the range. -/
def tinvReady (s : State) (id gid lo hi : Nat) : Bool :=
  let g := s.grove gid
  match s.ops.find? (fun o => o.id = id) with
  | none => true
  | some o => ownStoresDone s o.thread || (groveStreams s g).all (fun l => (l.2.ext ++ l.2.nextExt).all (fun x => !meets x.va x.len lo hi ||
      (List.range (x.len / 4096)).all (fun i => (walkReads s g.key (x.va + 4096 * i) 4 g.troot).all (fun pa => forkReady s o.thread id (pointOf s.dev pa)))))

/-- TINV_COMPLETE: the buffers are purged, the generators patched and resumed (R25). -/
def execTinvComplete (id : Nat) (s : State) : Res :=
  .next
    (match s.tinvs.find? (fun v => v.1 = id) with
     | none => s
     | some (_, gid, lo, hi) => if !tinvReady s id gid lo hi then s else opDone { invalidate s gid lo hi with tinvs := s.tinvs.filter (fun v => v.1 ≠ id) } id)

/-! ## Splicing (R161) -/

/-- A core's predecessor threads have all halted. -/
def coreHalted (s : State) (c : Nat) : Bool := (List.range 8).all (fun n => (s.thr (8 * c + n)).status = .halted || (s.thr (8 * c + n)).status = .free)

/-- Every predecessor thread of a grove has halted. -/
def predHalted (s : State) (g : Grove) : Bool := g.clusters.all (fun c => !(s.coreOf c).next || coreHalted s c)

/-- The splice begins: every site, box and core awaits its turn. -/
def beginSplice (s : State) (gid : Nat) (g : Grove) (m : Image) (op : Nat) (cop : List Nat) : State :=
  let s1 := s.setGrove gid { g with run := .splicing, succ := some (m, op), newCopies := cop }
  let s2 := g.sites.foldl (fun s x =>
    let c := m.site (g.relCol x) (g.relRow x)
    if siteIsSlice x then s.setSlice x { s.slice x with next := some c, box := some (c.binds, c.border), eok := false }
    else s.setTile x { s.tile x with next := some c, box := some (c.binds, c.border), eok := false }) s1
  g.clusters.foldl (fun s c => s.setCore c { s.coreOf c with next := true }) s2

/-- gsplice: the successor has the grove's shape, owner and mode, else 0x2C7; its copy needs regions, else 0x2D1. -/
def gspliceGo (a b : Reg) (s : State) : State :=
  match handleGrove s (regAt a s) with
  | none => trapMe s 0x2CE 0
  | some gid =>
    let g := s.grove gid
    let rd := vaFetch s (myGrove s) (regAt b s)
    if g.emberWait.isSome then trapMe s 0x2CE 0
    else if g.run ≠ .running then stall s
    else
      match fetchHeader rd with
      | .error (c, va) => refuse s c va
      | .ok head =>
        let h := headerOf (ofBytes head)
        if h.gw ≠ g.image.gw || h.gh ≠ g.image.gh || h.exact ≠ g.exact || otherOwner s h g.key then trapMe s 0x2C7 0
        else
          match verifyImage s rd head g.key with
          | .error (c, va) => refuse s c va
          | .ok (m, good) =>
            let free := freeRegions s g.die
            if !good then trapMe s 0x2C5 0
            else if free.length < m.copyRegions then trapMe s 0x2D1 0
            else
              let cop := free.take m.copyRegions
              let id := s.nextId
              beginSplice (setHolder (startOp s .mx 1 none) g.die cop (1000 + gid)) gid g m id cop

def execGsplice (a b : Reg) (s : State) : Res := .next (groveForm [a, b] none .mx (gspliceGo a b) s)

/-- A successor's threads on a core start once the predecessor's there have halted. -/
def startCore (s : State) (g : Grove) (m : Image) (c : Nat) : State :=
  if !(s.coreOf c).next || !coreHalted s c then s
  else
    let q := g.indexOf c
    let s1 := s.setCore c { s.coreOf c with next := false, code := tabGet m.code q [], badCode := [], ageM := tabGet m.ages q 4096 }
    (List.range 8).foldl (fun s n =>
      let t := 8 * c + n
      match m.threads.find? (fun e => e.1 = 8 * q + n) with
      | none => s.setThr t { s.thr t with entry := 0, hasRun := false, pc := 0 }
      | some e => s.setThr t { (s.thr t).endGroup with status := .ready, pc := 4 * e.2.2, entry := 4 * e.2.2, role := e.2.1, hasRun := false, since := s.now }) s1

/-- The splice has passed every site: the successor is the grove's image, and the predecessor's copy is freed. -/
def spliceEnd (s : State) (gid : Nat) : State :=
  let g := s.grove gid
  match g.succ with
  | none => s
  | some (m, op) =>
    let done := g.sites.all (fun x =>
      if siteIsSlice x then (s.slice x).next.isNone && (s.slice x).box.isNone else (s.tile x).next.isNone && (s.tile x).box.isNone)
    if !done || !g.clusters.all (fun c => !(s.coreOf c).next) then s
    else
      let g1 : Grove := { g with
        image := { m with dsr := g.image.dsr }, succ := none, run := .running, copies := g.newCopies, newCopies := [],
        tvec := m.tvec.or g.tvec, tdrain := if m.tvec.isSome then m.tdrain else g.tdrain, roundSet := [], digest := sha512 m.raw,
        crc := regionCrc m.frames }
      let s1 := (setHolder s g.die g.copies 0).setGrove gid g1
      let s2 := (m.data.filter (fun d => d.store = 2)).foldl (writeData g1) s1
      opDone s2 op

/-- A tile's frames are the successor's: its bindings wait for the box. -/
def Tile.switched (t : Tile) (c : SiteCfg) : Tile :=
  { t with cfg := { c with binds := t.cfg.binds, border := t.cfg.border }, next := none, eok := true,
           actors := Vector.ofFn (fun i => freshActor c i.val), firing := none, ending := [],
           ins := Vector.replicate 4 {}, outs := t.outs.map (fun o => { o with seq := 0 }),
           cin := Vector.replicate 4 [], cinHeld := Vector.replicate 4 0, cinNew := Vector.replicate 4 (0, 0),
           slots := Vector.ofFn (fun i => { t.slots[i] with claim := claimOf c i.val }), bounds := uncut c t.bounds }

/-- The data entries of one site. -/
def siteData (s : State) (g : Grove) (m : Image) (x : Nat) : State :=
  (m.data.filter (fun d => d.store ≠ 2 && g.siteRel d.col d.row = some x)).foldl (writeData g) s

/-- TILE_SPLICE_SWITCH: a tile that end-of-kernel has left, or one without a connected input once the last predecessor thread has halted, takes
the successor's frames. -/
def execTileSpliceSwitch (site : Nat) (s : State) : Res :=
  .next
    (match s.groveOfSite site with
     | none => s
     | some gid =>
       let g := s.grove gid
       match g.succ, (s.tile site).next with
       | some (m, _), some c =>
         let s0 := startCore s g m (siteCluster site)
         let t := s0.tile site
         let alone := t.cfg.ins.toList.all (·.isNone)
         let may := if alone then predHalted s0 g && betweenFirings s.now t && stagingEmpty s.now t && t.commands.isEmpty && !t.stopped else t.eok
         if !may then s0
         else
           let s1 := if t.eok then s0 else emitMarkers s0 site 5
           spliceEnd (siteData (s1.setTile site ((s1.tile site).switched c)) g m site) gid
       | _, _ => s)

/-- The box of a site has switched, or is of no splice. -/
def boxDone (s : State) (x : Nat) : Bool := if siteIsSlice x then (s.slice x).box.isNone else (s.tile x).box.isNone
/-- End-of-kernel has left a site's own sources. -/
def siteEok (s : State) (x : Nat) : Bool := if siteIsSlice x then (s.slice x).eok else (s.tile x).eok

/-- End-of-kernel has passed on what a source id of a box brings: it has left the source's site, or the box before it has switched. -/
def trackPassed (s : State) : Nat → Nat → Nat → Bool
  | 0, _, _ => true
  | fuel + 1, x, src =>
    match trackId src with
    | none => siteEok s x
    | some (side, n) =>
      match neighbour x side n with
      | none => true
      | some y =>
        let base := src / 64 * 64
        let out := base + (side + 2) % 4 * 16 + src % 16
        if boxDone s y then true
        else
          match (cfgOf s y).binds.find? (fun b => b.1 = out) with
          | some b => trackPassed s fuel y b.2
          | none => true

/-- The first cycle in which a circuit output of a slice is free: the tokens of its nodes are ahead. -/
def outFree (s : State) (x p : Nat) : Nat :=
  (((s.slice x).cfg.nodes.toList.zip (s.slice x).nodes.toList).filter (fun n => n.1.out = some p || n.1.side = some p)).foldl
    (fun t n => Nat.max t n.2.outTo) s.now

/-- End-of-kernel put on every circuit output of a slice that reaches a sink, but for one that a node fed by a circuit drives. -/
def sliceMarkers (s : State) (x kind : Nat) : State :=
  (List.range 4).foldl (fun s p =>
    if (s.slice x).cfg.nodes.toList.any (fun n => 4 ≤ n.kind && n.inp.isSome && (n.out = some p || n.side = some p)) then s
    else sendTok s x (0x40 + p) (markTok kind) (outFree s x p) 0 32 0) s

/-- The streams of a slice, bound or queued. -/
def streamsOf (s : State) (x : Nat) : List (Loc × Stream) :=
  sliceStreams s x ++ (queuedStreams s (siteGrove s x)).filter (fun l => sidSlice (siteGrove s x) l.2.sid = some x)

/-- Every stream of a slice closed, as sclose closes it (R149, R330). -/
def closeSlice (s : State) (x : Nat) : State :=
  (streamsOf s x).foldl (fun s l =>
    match findStream s (siteGrove s x) l.2.sid with
    | some (at_, st) => if st.closing then s else closeStream s at_ st false
    | none => s) s

/-- A slice in a splice: once the predecessor's threads have halted it closes its streams, and it sends end-of-kernel when its reads are at
their end; it switches once its store streams have ended and end-of-kernel has passed its box. -/
def sliceSplice (s : State) (g : Grove) (m : Image) (x : Nat) (c : SiteCfg) : State :=
  let y := s.slice x
  if !y.eok then
    (if !predHalted s g then s
     else
       let s1 := closeSlice s x
       if (streamsOf s1 x).all (fun l => l.2.kind = .store || l.2.kind = .scatter) then
         (let s2 := sliceMarkers s1 x 5
          s2.setSlice x { s2.slice x with eok := true })
       else s1)
  else if (sliceStreams s x).isEmpty && y.cfg.binds.all (fun b => trackPassed s allOutputs x b.2) then
    siteData (s.setSlice x { y with cfg := c, nodes := Vector.replicate 4 {}, next := none, box := none }) g m x
  else s

/-- SWITCH_BOX_SPLICE: a box takes the successor's bindings once end-of-kernel has passed on every track it binds. -/
def execSwitchBoxSplice (site : Nat) (s : State) : Res :=
  .next
    (match s.groveOfSite site with
     | none => s
     | some gid =>
       let g := s.grove gid
       match g.succ with
       | none => s
       | some (m, _) =>
         let s0 := startCore s g m (siteCluster site)
         if siteIsSlice site then
           (match (s0.slice site).next with
            | some c => spliceEnd (sliceSplice s0 g m site c) gid
            | none => spliceEnd s0 gid)
         else
           let t := s0.tile site
           (match t.box with
            | some (b, e) =>
              if t.next.isNone && t.cfg.binds.all (fun k => trackPassed s0 allOutputs site k.2) then
                spliceEnd (s0.setTile site { t with cfg := { t.cfg with binds := b, border := e }, box := none }) gid
              else s0
            | none => spliceEnd s0 gid))

end Sys2Proof.Machine
end

