-- ==== Sys2Proof/Machine/Stages.lean ====
section
/-! DEFINITION. Stages (R162, R163): the stage list, quiescence, and the swap of stages through the save areas of the grove's window. -/

namespace Sys2Proof.Machine

/-! ## The stage list (R162) -/

/-- A queue header's place in the window of the stages' grove: QVA is a VA, and no VA names die store, where a header may lie too; bit 63 marks an
offset in [27:0] (DESIGN CHOICE, log entry 99). -/
def queueOffset (q : Nat) : Option Nat := if q / 2 ^ 28 = 2 ^ 35 then some (q % 2 ^ 28) else none

/-- An entry of a stage list, or none where it is invalid; a VA is of the table the stages' grove will have. -/
def stageOf (s : State) (g : Grove) (v : Nat) : Option (Nat × StageEnt) :=
  let q := field v 128 64
  let thr := field v 96 32
  let there := match s.walkG g q with
    | .ok e => decide (regionOf s.dev (e.at_ q) = .lpddr)
    | .error _ => false
  if field v 0 96 ≠ 0 || thr = 0 || q % 16 ≠ 0 || ((queueOffset q).isNone && !there) then none else some (field v 192 64, { qva := q, thr := thr })

/-- The images of a stage list, verified in order. -/
def stageImages (s : State) (g : Grove) (owner : Nat) : List (Nat × StageEnt) → Except (Cause × Nat) (List StageEnt)
  | [] => .ok []
  | (va, e) :: rest =>
    let rd := vaFetch s g va
    match fetchHeader rd with
    | .error x => .error x
    | .ok head =>
      if otherOwner s (headerOf (ofBytes head)) owner then .error (0x2C8, 0)
      else
        match verifyImage s rd head owner with
        | .error x => .error x
        | .ok (m, good) =>
          if !good then .error (0x2C5, 0)
          else
            match stageImages s g owner rest with
            | .error x => .error x
            | .ok l => .ok ({ e with image := m } :: l)

/-- The stages share shape and mode (stageImages has judged the owner), and their window holds the save areas and the queue headers in it. -/
def stagesAgree (l : List StageEnt) : Bool :=
  match l with
  | [] => false
  | a :: _ =>
    l.all (fun e => e.image.gw = a.image.gw && e.image.gh = a.image.gh && e.image.exact = a.image.exact
      && decide (l.length * (e.image.gw * e.image.gh) * 2 ^ 18 ≤ e.image.dsr * 2 ^ 20)
      && (queueOffset e.qva).all (fun o => decide (o + 16 ≤ a.image.dsr * 2 ^ 20)))

/-- gstage: the list, placement as gload judges it, the images, and stage 0 loaded. -/
def gstageGo (d a b : Reg) (n : Nat) (s : State) : State :=
  let g := myGrove s
  let w := regAt b s
  match placeFault g.priv w with
  | some c => trapMe s c 0
  | none =>
    match (if earlierDone s g (regAt a s) (32 * n) then readRecord s g (regAt a s) (32 * n) else .error (0, 0)) with
    | .error (c, bad) => refuse s c bad
    | .ok v =>
      let mine := { g with key := (loadFor s w).1, troot := (loadFor s w).2 }
      let ents := (List.range n).map (fun i => stageOf s mine (field v (256 * i) 256))
      match ents.head? with
      | some (some (va, _)) =>
        if ents.any (·.isNone) then trapMe s 0x2C8 0
        else
          (match fetchHeader (vaFetch s g va) with
           | .error (c, bad) => refuse s c bad
           | .ok head =>
             let h := headerOf (ofBytes head)
             let key := (loadFor s w).1
             match freeGrove s, findPlace s w h.gw h.gh h.dsr with
             | some gid, some _ =>
               (match stageImages s g key (ents.filterMap id) with
                | .error (c, bad) => refuse s c bad
                | .ok l =>
                  if !stagesAgree l then trapMe s 0x2C8 0
                  else
                    let cop := l.foldl (fun k e => k + e.image.copyRegions) 0
                    match findPlace s w h.gw h.gh (h.dsr + cop), l with
                    | some o, e :: _ =>
                      let ng := { newGrove s e.image o key (loadFor s w).2 (g.priv && e.image.skey = 0) with stages := l }
                      opAtOnce (placeGrove s gid ng cop) .mx d (gid + 1)
                    | _, _ => opAtOnce s .mx d 0)
             | _, _ => opAtOnce s .mx d 0)
      | _ => trapMe s 0x2C8 0

def execGstage (d a b : Reg) (nm1 : BitVec 2) (s : State) : Res :=
  .next (groveForm [a, b] (some d) .mx (gstageGo d a b (nm1.toNat + 1)) s)

/-! ## Save areas (R163)

The rule gives the places of tiles and threads; the places of the items within them are the model's (log entry 98). -/

/-- Items at byte offsets of a record, as one number. -/
def laid (l : List (Nat × Nat)) : Nat := l.foldl (fun a k => a + k.2 * 2 ^ (8 * k.1)) 0

/-- `n` bytes of a record. -/
def itemAt (v off n : Nat) : Nat := field v (8 * off) (8 * n)

/-- The parts of a tile's record: state area at 0, accumulators at 256, pending values at 4352, pending masks at 6400, accumulator tags at 6464, for
each granule of the state area whether it is current and its uncorrectable words at 6496. -/
def tileSave (t : Tile) : Nat :=
  laid ((List.range 4).flatMap (fun i =>
      let x := tabGet t.store (stateBase / 64 + i) {}
      [(64 * i, stamped x.gen t.gen x.val.toNat), (6496 + i, if x.gen = t.gen then 1 + 2 * x.bad.toNat else 0)])
    ++ (List.finRange 4).flatMap (fun i =>
      let a := t.accs[i]
      let tag := match a.tag with
        | .plain => 1
        | .part level index => 2 + 4 * level + 2 ^ 32 * index
      (6464 + 8 * i.val, stamped a.gen t.gen tag) :: a.v.toList.zipIdx.map (fun k => (256 + 1024 * i.val + 4 * k.2, stamped a.gen t.gen k.1.toNat)))
    ++ (List.finRange 8).flatMap (fun i =>
      let p := t.actors[i].pend
      (6400 + 8 * i.val, p.foldl (fun m k => m + 2 ^ k.1) 0) :: p.map (fun k => (4352 + 256 * i.val + 4 * k.1, k.2.toNat))))

/-- An accumulator of a record; one that was stale stays stale. -/
def accSaved (v gen i : Nat) : Acc :=
  let tag := itemAt v (6464 + 8 * i) 8
  if tag = 0 then {}
  else
    { v := Vector.ofFn (fun k => BitVec.ofNat 32 (itemAt v (256 + 1024 * i + 4 * k.val) 4)), gen := gen,
      tag := if tag = 1 then .plain else .part (tag / 4 % 2 ^ 30) (tag / 2 ^ 32) }

/-- A pending set of a record. -/
def pendSaved (v i : Nat) : Tab Word32 :=
  let m := itemAt v (6400 + 8 * i) 8
  ((List.range 64).filter (fun k => m.testBit k)).map (fun k => (k, BitVec.ofNat 32 (itemAt v (4352 + 256 * i + 4 * k) 4)))

/-- The state area of a record put into a store. -/
def stateSaved (v gen : Nat) (store : Tab Gran) : Tab Gran :=
  (List.range 4).foldl (fun t i =>
    let f := itemAt v (6496 + i) 1
    let q := stateBase / 64 + i
    if f % 2 = 0 then tabDel t q else tabPut t q { gen := gen, val := BitVec.ofNat 512 (itemAt v (64 * i) 64), bad := BitVec.ofNat 2 (f / 2) }) store

/-- The parts of a thread's record: registers at 0, pc, cause, epc, tval, trap_active, role from 256, the fault record's registers from 304, the
counters from 344, which registers are current at 376 and which hold no data at 384; the grove's trap vector and drain limit, the core's ageing
bound, the grove's dirty-range log and root for others, from 392; whether the thread has not halted, at 440. -/
def threadSave (g : Grove) (ageM : Nat) (th : Thread) : Nat :=
  laid ((List.finRange 32).map (fun i => (8 * i.val, (th.regs[i].poison).getD (stamped th.regs[i].gen th.gen th.regs[i].val.toNat)))
    ++ [(256, th.issuePc), (264, th.cause.toNat), (272, th.epc), (280, th.tval.toNat), (288, th.trapActive.toNat), (296, th.role), (304, th.frsrc.toNat)]
    ++ (List.finRange 4).map (fun i => (312 + 8 * i.val, th.frec[i].toNat))
    ++ [(344, th.ld), (352, th.st), (360, th.cp), (368, th.mx),
        (376, (List.finRange 32).foldl (fun m i => m + (decide (th.regs[i].gen = th.gen)).toNat * 2 ^ i.val) 0),
        (384, (List.finRange 32).foldl (fun m i => m + (th.regs[i].poison.isSome).toNat * 2 ^ i.val) 0),
        (392, (g.tvec.map (· + 1)).getD 0), (400, g.tdrain), (408, ageM), (416, g.dlbase), (424, g.dlsize), (432, g.ctroot),
        (440, (decide (th.status ≠ .halted ∧ th.status ≠ .free)).toNat)])

/-- A thread as its record has it; one that had not halted goes on (R163, R320). -/
def Thread.fromSave (th : Thread) (v : Nat) : Thread :=
  { th with
    regs := Vector.ofFn (fun i =>
      let n := itemAt v (8 * i.val) 8
      { val := BitVec.ofNat 64 n, gen := if (itemAt v 376 8).testBit i.val then th.gen else 0,
        poison := if (itemAt v 384 8).testBit i.val then some n else none }),
    pc := itemAt v 256 8, cause := BitVec.ofNat 10 (itemAt v 264 8), epc := itemAt v 272 8, tval := BitVec.ofNat 64 (itemAt v 280 8),
    trapActive := (itemAt v 288 8).testBit 0, role := itemAt v 296 8, frsrc := BitVec.ofNat 64 (itemAt v 304 8),
    frec := Vector.ofFn (fun i => BitVec.ofNat 64 (itemAt v (312 + 8 * i.val) 8)),
    ld := itemAt v 344 8, st := itemAt v 352 8, cp := itemAt v 360 8, mx := itemAt v 368 8,
    status := if itemAt v 440 8 = 0 then .halted else .ready }

/-- The window offset of the save area of a stage, and within it of a tile and of a thread, by their numbers in the grove. -/
def saveBase (g : Grove) (stage : Nat) : Nat := g.window.length * 2 ^ 20 - (stage + 1) * (g.image.gw * g.image.gh * 2 ^ 18)
def tileSlot (g : Grove) (stage x : Nat) : Nat :=
  saveBase g stage + g.indexOf (siteCluster x) * 2 ^ 18 + (siteRow x % 4 * 7 + siteCol x % 8) * 8192
def threadSlot (g : Grove) (stage t : Nat) : Nat := saveBase g stage + g.indexOf (t / 8) * 2 ^ 18 + 224 * 1024 + t % 8 * 512

/-- `n` bytes of a window, within a region. -/
def readWindow (s : State) (g : Grove) (off n : Nat) : Except Cause Nat :=
  match g.windowAt off with
  | none => .error 0x1C5
  | some at_ => storeRead (s.die g.die).store ((s.die g.die).gen (at_ / 2 ^ 20)).1 false (n + 1) at_ n

/-- `n` bytes of the window written, and read word by word: a word that cannot be corrected reads as zero. -/
def windowPut (s : State) (g : Grove) (off n v : Nat) : State :=
  match g.windowAt off with
  | none => s
  | some at_ => s.setDie g.die ((s.die g.die).write at_ n v)
def windowGet (s : State) (g : Grove) (off n : Nat) : Nat :=
  (List.range (n / 32)).foldl (fun a i => a + ((readWindow s g (off + 32 * i) 32).toOption.getD 0) * 2 ^ (256 * i)) 0

/-! ## Quiescence (R163) -/

/-- A stage's occupancy: TAIL − HEAD of its queue header. -/
def occupancy (s : State) (g : Grove) (e : StageEnt) : Nat :=
  let header :=
    match queueOffset e.qva with
    | some o => (readWindow s g o 16).toOption
    | none => (readRecord s g e.qva 16).toOption
  match header with
  | none => 0
  | some v => (BitVec.ofNat 64 (field v 64 64) - BitVec.ofNat 64 (field v 0 64)).toNat

/-- A tile's ports, staging and matrix queue are empty. -/
def tileEmpty (now : Nat) (t : Tile) : Bool :=
  t.ins.toList.all (fun p => p.items.isEmpty && p.asm.isNone) && stagingEmpty now t && t.commands.isEmpty && t.firing.isNone && t.ending.isEmpty

/-- The current stage is quiescent (R163). -/
def quiescent (s : State) (g : Grove) (e : StageEnt) : Bool :=
  occupancy s g e = 0 && (groveStreams s g).isEmpty && g.tiles.all (fun x => tileEmpty s.now (s.tile x))
    && g.image.threads.all (fun q => (g.threads[q.1]?).any (fun t => (s.thr t).status = .waiting .idle))

/-- The stage the sequencer would load: the first after the current one, in cyclic order, whose occupancy is at its threshold. -/
def nextStage (s : State) (g : Grove) : Option Nat :=
  ((List.range (g.stages.length - 1)).map (fun i => (g.stage + 1 + i) % g.stages.length)).find? (fun k =>
    match g.stages[k]? with
    | some e => decide (e.thr ≤ occupancy s g e)
    | none => false)

/-! ## The swap (R163) -/

/-- Step 1: the outgoing stage's tiles and threads are saved. -/
def saveStage (s : State) (g : Grove) : State :=
  let s1 := g.tiles.foldl (fun s x => windowPut s g (tileSlot g g.stage x) 8192 (tileSave (s.tile x))) s
  g.threads.foldl (fun s t => windowPut s g (threadSlot g g.stage t) 512 (threadSave g (s.coreOf (t / 8)).ageM (s.thr t))) s1

/-- A tile with the frames of an incoming stage: its ports are empty, its state area stale, its pending sets empty. Tile store outside the state
area and the operand slots are shared. -/
def Tile.staged (t : Tile) (c : SiteCfg) : Tile :=
  { t with cfg := c, store := t.store.filter (fun k => k.1 < stateBase / 64), accs := Vector.replicate 4 {},
           actors := Vector.ofFn (fun i => freshActor c i.val),
           ins := Vector.replicate 4 {}, outs := t.outs.map (fun o => { o with seq := 0 }),
           cin := Vector.replicate 4 [], cinHeld := Vector.replicate 4 0, cinNew := Vector.replicate 4 (0, 0),
           slots := Vector.ofFn (fun i => { t.slots[i] with claim := claimOf c i.val }), bounds := uncut c t.bounds }

/-- A tile with what its record holds. -/
def Tile.fromSave (t : Tile) (v : Nat) : Tile :=
  { t with store := stateSaved v t.gen t.store, accs := Vector.ofFn (fun i => accSaved v t.gen i.val),
           actors := Vector.ofFn (fun i => { t.actors[i] with pend := pendSaved v i.val }) }

/-- A thread as a stage that was never loaded finds it: at its declared entry, its registers stale. -/
def Thread.staged (th : Thread) (entry : Option (Nat × Nat)) : Thread :=
  { gen := th.gen, strict := th.strict, fifos := th.fifos, fifoGen := th.fifoGen, gives := th.gives, status := .halted, pc := (entry.map (fun e => 4 * e.2)).getD 0,
    entry := (entry.map (fun e => 4 * e.2)).getD 0, role := (entry.map Prod.fst).getD 0 }

/-- The declared thread of an image at a grove's thread: its role and its entry. -/
def declared (g : Grove) (m : Image) (t : Nat) : Option (Nat × Nat) := (m.threads.find? (fun q => q.1 = g.threadIndex t)).map (·.2)

/-- Step 2: the frames, code and ageing bounds of an incoming stage. -/
def loadFrames (s : State) (g : Grove) (m : Image) : State :=
  let s1 := g.sites.foldl (fun s x =>
    let c := m.site (g.relCol x) (g.relRow x)
    if siteIsSlice x then s.setSlice x { s.slice x with cfg := c, nodes := Vector.replicate 4 {}, outSeq := Vector.replicate 4 0 }
    else s.setTile x ((s.tile x).staged c)) s
  let s2 := g.clusters.foldl (fun s c =>
    s.setCore c { s.coreOf c with code := tabGet m.code (g.indexOf c) [], badCode := [], ageM := tabGet m.ages (g.indexOf c) 4096 }) s1
  g.threads.foldl (fun s t => s.setThr t ((s.thr t).staged (declared g m t))) s2

/-- Step 3: what the save area of a stage holds. -/
def restoreStage (s : State) (g : Grove) (k : Nat) : State :=
  let s1 := g.tiles.foldl (fun s x => s.setTile x ((s.tile x).fromSave (windowGet s g (tileSlot g k x) 8192))) s
  let s2 := g.threads.foldl (fun s t => s.setThr t ((s.thr t).fromSave (windowGet s g (threadSlot g k t) 512))) s1
  g.clusters.foldl (fun s c => s.setCore c { s.coreOf c with ageM := itemAt (windowGet s g (threadSlot g k (8 * c)) 512) 408 8 }) s2

/-- The grove of an incoming stage: its image; its trap vector and drain limit are those of the manifest the first time, its dirty-range log and root
for others those of a reset, and then those saved (log entry 98). -/
def stagedGrove (s : State) (g : Grove) (k : Nat) (e : StageEnt) : Grove :=
  let v := windowGet s g (threadSlot g k (8 * g.cluster0)) 512
  let ents := (g.stages.modify g.stage (fun x => { x with loaded := true })).modify k (fun x => { x with loaded := true })
  { g with
    image := { e.image with dsr := g.image.dsr }, stages := ents, stage := k, crc := regionCrc e.image.frames, roundSet := [],
    tvec := if e.loaded then (if itemAt v 392 8 = 0 then none else some (itemAt v 392 8 - 1)) else e.image.tvec,
    tdrain := if e.loaded then itemAt v 400 8 else e.image.tdrain,
    dlbase := if e.loaded then itemAt v 416 8 else 0, dlsize := if e.loaded then itemAt v 424 8 else 0, ctroot := if e.loaded then itemAt v 432 8 else 0 }

/-- The swap of stages: the outgoing stage is saved, the incoming one's frames are loaded, its data entries the first time or else what its save
area holds, and its threads wake. -/
def swapStage (s : State) (gid k : Nat) : State :=
  let g := s.grove gid
  match g.stages[k]? with
  | none => s
  | some e =>
    let s1 := saveStage s g
    let g1 := stagedGrove s1 g k e
    let s2 := loadFrames s1 g1 e.image
    let s3 := if e.loaded then restoreStage s2 g1 k else e.image.data.foldl (writeData g1) s2
    let s4 := g1.threads.foldl (fun s t =>
      if (declared g1 e.image t).isSome || (s.thr t).status = .ready then s.setThr t { s.thr t with status := .ready, since := s.now } else s) s3
    s4.setGrove gid g1

/-- STAGE_QUIESCENCE_CHECK: at quiescence and every 4,096 cycles while it lasts, the sequencer looks for a stage to load. -/
def execStageQuiescenceCheck (grove : Nat) (s : State) : Res :=
  .next
    (let g := s.grove grove
     match g.stages[g.stage]? with
     | none => s
     | some e =>
       if !g.live || g.run ≠ .running then s
       else if !quiescent s g e then s.setGrove grove { g with quietAt := none }
       else if (g.quietAt.map (fun q => decide (s.now < q + 4096))).getD false then s
       else
         match nextStage s g with
         | none => s.setGrove grove { g with quietAt := some s.now }
         | some k => swapStage (s.setGrove grove { g with quietAt := none }) grove k)

end Sys2Proof.Machine
end

