-- ==== Sys2Proof/Machine/Embers.lean ====
section
/-! DEFINITION. Ember and rekindle (R192, R195-R197, R336, R355), freezes and configuration scrub (R198, R199). -/

namespace Sys2Proof.Machine

/-! ## The ember begins (R160, R195) -/

/-- Bytes that the items of R195 take, of which the rule names the kinds and not the sizes (DESIGN CHOICE, log entry 100). Of a port: queue entries
and recorded list at 16 bytes and the tokens of a record each, spill and deferral areas, and 64 for ash slot, markers, index and counts. -/
def portBytes (c : InCfg) : Nat := (2 * c.cap + c.spn) * (32 * c.rl + 16) + (c.spn + c.dsz) * c.rl * 32 + 64

/-- Of a tile: state area, pending sets, actors, slots with their scales, bounds, accumulators, matrix queue, control queues, fault records, and its
ports. -/
def tileBytes (c : SiteCfg) : Nat :=
  256 + 8 * 264 + 8 * 88 + 8 * 8704 + 8 * 24 + 4 * 1032 + 32 * 16 + 4 * 64 + 128 + (c.ins.toList.filterMap id).foldl (fun n p => n + portBytes p) 0

/-- Of a slice: engines with their streams, the commit buffer, the nodes; of a thread: registers and FIFO entries; of a core: its queues. -/
def sliceBytes : Nat := 2 * (4 * 256 + 128) + 1024 * 40 + 4 * (256 * 24 + 512)
def threadBytes : Nat := 512 + 8 * 64 * 2
def coreBytes : Nat := 8192

/-- The regions a save needs beyond window and reload copy (R160); of a grove that is being spliced the successor is saved (R346). -/
def saveNeed (g : Grove) : Nat :=
  let m := (g.succ.map (·.1)).getD g.image
  let n := g.tiles.foldl (fun n x => n + tileBytes (m.site (g.relCol x) (g.relRow x))) 0 + g.slices.length * sliceBytes
    + g.threads.length * threadBytes + g.clusters.length * coreBytes
  (n + 2 ^ 20 - 1) / 2 ^ 20

/-- The regions a save would take, if the die has them. -/
def saveFree (s : State) (g : Grove) : Option (List Nat) :=
  let free := freeRegions s g.die
  if free.length < saveNeed g then none else some (free.take (saveNeed g))

/-- Every circuit output of a slice puts an ember marker on its track, behind the tokens that leave it. -/
def emberMarkers (s : State) (x : Nat) : State :=
  (List.range 4).foldl (fun s p => sendTok s x (0x40 + p) (markTok 3) (outFree s x p) 0 32 0) s

/-- A circuit feeds an input of a site: some site of the grove drives it. -/
def circuitFeeds (s : State) (g : Grove) (x p : Nat) : Bool :=
  g.sites.any (fun y => (List.range 4).any (fun q => (sinksOf s y (0x40 + q)).any (fun k => k.1 = x && k.2.1 = 0x40 + p)))

/-- The inputs of a slice that no circuit feeds: what stands behind them saves at once (R195, R355). -/
def emberUnfed (g : Grove) (s : State) (x : Nat) : State :=
  s.setSlice x { s.slice x with emberIn := Vector.ofFn (fun (p : Fin 4) => if circuitFeeds s g x p then none else some s.now) }

/-- A grove is embered from now on: its threads and engines stop, and its slices emit their markers. -/
def emberStart (s : State) (gid : Nat) (regs : List Nat) (op : Option Nat) (self : Bool) : State :=
  let g := s.grove gid
  let s1 := (setHolder s g.die regs (2000 + s.saveCount)).setGrove gid
    { g with run := .embering, emberOp := op, emberSelf := self, emberAt := s.now, emberWait := none, emberLast := none, saveRegs := regs }
  g.slices.foldl emberMarkers (g.slices.foldl (emberUnfed g) s1)

/-- ember: the die store has room, else 0x2D1, precisely (R160, R336). The grove runs, or its ember waits until it does, with its regions (R346): the
thread is not held (R323). -/
def execEmber (d a : Reg) (s : State) : Res :=
  .next (countedForm [a] (some d) .mx (fun s =>
    match handleGrove s (regAt a s) with
    | none => trapMe s 0x2CE 0
    | some gid =>
      let g := s.grove gid
      if beingEmbered g then trapMe s 0x2CE 0
      else
        match saveFree s g with
        | none => trapMe s 0x2D1 0
        | some regs =>
          let id := s.nextId
          let self := decide (gid = myGroveId s)
          let s1 := startOp s .mx 1 (some d)
          if g.run = .running then emberStart s1 gid regs (some id) self
          else (setHolder s1 g.die regs (2000 + s.saveCount)).setGrove gid { g with emberWait := some (regs, id, self) }) s)

/-! ## A tile saves (R195, R355) -/

/-- The tiles that a token leaving a set of sites reaches next. -/
def reachedFrom (s : State) (l : List Nat) : List Nat :=
  l.flatMap (fun x => (List.range 4).flatMap (fun p =>
    (sinksOf s x (0x40 + p)).filterMap (fun k => if siteIsSlice k.1 then none else some k.1)))

/-- The tiles of a grove that an output of its slices reaches through circuits and tiles. -/
def emberReach (s : State) (g : Grove) : List Nat :=
  let go := fun (l : List Nat) => (l ++ reachedFrom s l).eraseDups
  (List.range g.tiles.length).foldl (fun l _ => go l) (reachedFrom s g.slices).eraseDups

/-- The cycle from which a tile fires nothing more: its first ember marker's, or that of the hearth's ember. -/
def emberMark (s : State) (x : Nat) : State :=
  let t := s.tile x
  match s.groveOfSite x with
  | none => s
  | some gid =>
    if (s.grove gid).run = .embering && !(emberReach s (s.grove gid)).contains x then
      s.setTile x { t with ember := .marked s.now, emberLog := (s.now, if t.readFrom = s.now + 1 then s.now else 0, 0) }
    else s

/-- A tile marked in cycle `m` saves now: no firing runs, nothing is staged, and a round marker that is ready has left in an earlier cycle (R355). -/
def tileSaves (s : State) (x m : Nat) (t : Tile) : Bool :=
  decide (m < s.now) && unitsRun s x && t.firing.isNone && t.ending.isEmpty && stagingEmpty s.now t && !(roundReady t && !t.stopped) && decide (t.roundAt ≤ s.now)

/-- TILE_EMBER_SAVE: in the first cycle after its marker in which no firing runs and nothing is staged, behind a round marker that is ready,
the tile saves and sends the marker on. A tile that no marker reaches is marked by the hearth first. -/
def execTileEmberSave (site : Nat) (s : State) : Res :=
  .next
    (let t := s.tile site
     match t.ember with
     | .saved => s
     | .no => emberMark s site
     | .marked m =>
       if !tileSaves s site m t then s
       else emitMarkers (s.setTile site { t with ember := .saved, emberLog := (m, t.emberLog.2.1, s.now) }) site 3)

/-! ## What is saved, and the close (R195 steps 1, 6, 7; R196) -/

/-- A load, fill, gather or cut stream as it is saved: what it read and did not emit is read again. -/
def savedLoad (st : Stream) : Stream :=
  { st with issue := st.emit, part := 0, win := [], skipTo := none, ext := [], nextExt := [], paused := none,
            cut := st.cut.map (fun c => { c with need := c.asked ++ c.need, asked := [] }) }

/-- A stream as it is saved: a withheld token stays with it, and is tried again. -/
def savedStream (st : Stream) : Stream :=
  if st.kind = .store || st.kind = .scatter then { st with paused := none, ext := [], nextExt := [] } else savedLoad st

/-- The waits for full words withdrawn; the instruction issues again (R311). -/
def withdrawWords (s : State) (g : Grove) : State :=
  g.threads.foldl (fun s t =>
    match (s.thr t).status with
    | .waiting (.word _) =>
      (match withdrawWait s t with
       | some (s1, pc) => s1.setThr t { (s1.thr t).endGroup with status := .waiting .again, pc := pc }
       | none => s)
    | _ => s) s

/-- A thread stands at an instruction boundary, its own accesses complete and no generation open; an instruction that waits has not issued. -/
def threadStopped (s : State) (t : Nat) : Bool :=
  let th := s.thr t
  th.specs.isEmpty && (th.group.isNone || th.status ≠ .ready) && ownDone s t
    && (match th.status with
        | .waiting (.word _) => false
        | _ => true)

/-- Messages and records of a grove on their way. -/
def onTheWay (s : State) (gid : Nat) : List Packet := s.packets.filter (fun p => p.grove = gid && p.type = 6)

/-- A record that a stream or a slice node sent: it is not saved (R195, R197). -/
def streamRecord (p : Packet) : Bool := p.cls = 15 && field ((p.pay.head?.map (·.toNat)).getD 0) 244 2 = 1

/-- The operations of a grove that an ember does not wait for: its streams', its messages', its own ember's. -/
def openOps (s : State) (gid : Nat) : List Nat :=
  (groveStreams s (s.grove gid)).map (fun l => l.2.op) ++ (onTheWay s gid).map (·.op) ++ (s.grove gid).emberOp.toList

/-- A write of a store port or of a manifest that has not been acknowledged, or a read of a gather node that has not been answered. -/
def writeOpen (r : MemReq) : Bool :=
  match r.kind with
  | .portWrite _ _ _ _ _ _ | .manifest _ | .gatherRead _ _ _ _ _ => true
  | _ => false

/-- Every site has saved, every marker has arrived, and nothing that touches the grove is under way. -/
def emberQuiet (s : State) (gid : Nat) : Bool :=
  let g := s.grove gid
  let ts := g.threads
  ts.all (threadStopped s) && g.tiles.all (fun x => (s.tile x).ember = .saved && (s.tile x).run.isNone)
    && groveLanded s gid ts && s.reqs.all (fun r => !ts.contains r.src || !writeOpen r) && s.flights.all (fun f => !ofGrove s gid (f.sink / 256)) && s.ctls.all (fun f => !ofGrove s gid (f.sink / 256))
    && s.ops.all (fun o => !ts.contains o.thread || (openOps s gid).contains o.id)

/-- The engines of a slice with their streams as they are saved. -/
def savedSlice (x : Slice) : Slice :=
  { x with engines := x.engines.map (fun e => { e with gens := e.gens.map (fun o => o.map savedStream), heavy := false, run := 0 }),
           nodes := x.nodes.map (fun n => { n with sent := [] }) }

/-- A thread as it is saved: an instruction that waits issues again from its first word. -/
def savedThread (th : Thread) : Thread := { th.endGroup with pc := th.issuePc }

/-- A core as it is saved: the command queue, the messages it holds but for streams' records, its masks. -/
def savedCore (c : Core) : Core :=
  { cmdq := c.cmdq.map (fun q => { q with stream := savedStream q.stream }), inbox := c.inbox.filter (fun p => !streamRecord p),
    masked := c.masked, openAt := c.openAt, ageM := c.ageM }

/-- A place a trace names lies in a grove. -/
def traceIn (s : State) (gid : Nat) : TraceOf → Bool
  | .inPort x _ | .outPort x _ | .actor x _ => ofGrove s gid x

/-- The save of a grove. -/
def makeSave (s : State) (gid : Nat) (handle : Word64) : Save :=
  let g := s.grove gid
  { handle := handle, grove := g, tiles := g.tiles.map (fun x => (x, s.tile x)), slices := g.slices.map (fun x => (x, savedSlice (s.slice x))),
    threads := g.threads.map (fun t => (t, savedThread (s.thr t))), cores := g.clusters.map (fun c => (c, savedCore (s.coreOf c))),
    packets := (onTheWay s gid).filter (fun p => !streamRecord p), ops := s.ops.filter (fun o => g.threads.contains o.thread),
    regions := g.saveRegs, breaks := (s.huash.breaks.filter (fun b => b.1 = gid)).map (·.2),
    traces := s.huash.traces.filter (fun k => traceIn s gid k.2) }

/-- The handle of the next save (R336): nonzero, its number in the low half (log entry 4). -/
def nextHandle (s : State) : Word64 := BitVec.ofNat 64 ((Config.saveHandleHigh s.saveCount).toNat * 2 ^ 32 + s.saveCount + 1)

/-- An operation ends with a value for its register. -/
def opResult (s : State) (id : Nat) (v : Word64) : State :=
  { s with ops := s.ops.map (fun o => if o.id = id then { o with res := v, done := true } else o) }

/-- A pause that began then has lasted for longer than T_drain. -/
def drained (s : State) (g : Grove) (t : Nat) : Bool := decide (t + 2400 * g.tdrain < s.now)

/-- The id of a stream of a grove that has been paused for longer than T_drain, or of one whose token a node has withheld so long. -/
def drainedStream (s : State) (g : Grove) : Option Nat :=
  let paused := (groveStreams s g).find? (fun l => l.2.paused.isSome && drained s g l.2.pausedAt)
  let kept := (g.slices.flatMap (fun x => (s.slice x).nodes.toList)).findSome? (fun n => n.withheld.bind (fun w => if drained s g w.2 then some w.1.sid else none))
  (paused.map (·.2.sid)).or kept

/-- Who learns of the save: the operation of another grove, or the event ring (0x2D0 for an ember of its own grove, 0x250 for the hearth's, with the stream's id). -/
def emberTell (s : State) (gid : Nat) (g : Grove) (h : Word64) (arg : Nat) : State :=
  match g.emberOp with
  | none => s.logEvent 0x250 gid h.toNat arg
  | some op => if g.emberSelf then s.logEvent 0x2D0 gid h.toNat 0 else opResult s op h

/-- The save is made and the clusters are released; window, reload copy and the save's regions pass to it. -/
def emberEnd (s : State) (gid : Nat) : State :=
  let g := s.grove gid
  let h := nextHandle s
  let v := makeSave s gid h
  let s1 := freeClusters (purgeGrove s gid) g
  let s2 := (setHolder s1 g.die (g.window ++ g.copies ++ g.saveRegs) (2000 + s.saveCount)).setGrove gid {}
  let s3 := { s2 with saves := s2.saves ++ [v], saveCount := s2.saveCount + 1,
                      huash := { s2.huash with traces := s2.huash.traces.filter (fun k => !v.traces.contains k),
                                               breaks := s2.huash.breaks.filter (fun b => b.1 ≠ gid) } }
  emberTell s3 gid g h ((drainedStream s g).getD 0)

/-- An ember that waited for its grove to run begins (R346). -/
def emberBegins (s : State) (gid : Nat) : State :=
  match (s.grove gid).emberWait with
  | some (regs, op, self) => if (s.grove gid).run = .running then emberStart s gid regs (some op) self else s
  | none => s

/-- EMBER_CLOSE: an ember that waited begins; of one that has begun, waits for full words are withdrawn; once all is quiet the hearth waits 64
cycles, then closes. -/
def execEmberClose (grove : Nat) (s : State) : Res :=
  .next
    (if (s.grove grove).run ≠ .embering then emberBegins s grove
     else
       let s1 := withdrawWords s (s.grove grove)
       if !emberQuiet s1 grove then s1
       else
         match (s1.grove grove).emberLast with
         | none => s1.setGrove grove { s1.grove grove with emberLast := some s1.now }
         | some at_ => if s1.now < at_ + 64 then s1 else emberEnd s1 grove)

/-! ## The drain limit (R192) -/

/-- DRAIN_LIMIT_EXPIRY: the hearth embers the grove; without room for the save it releases it, once its writes have landed. -/
def execDrainLimitExpiry (grove : Nat) (s : State) : Res :=
  .next
    (let g := s.grove grove
     match (if g.live && g.run = .running && g.emberWait.isNone then drainedStream s g else none) with
     | none => s
     | some sid =>
       match saveFree s g with
       | some regs => emberStart s grove regs none false
       | none => if groveLanded s grove g.threads then (releaseDone s grove).logEvent 0x2D1 grove 0 sid else s)

/-! ## Rekindle (R197, R336) -/

/-- The grove a save had, and the grove it goes to. -/
structure Move where
  old : Grove
  new : Grove
  gid : Nat

/-- A site, a cluster, a thread moved. -/
def Move.site (m : Move) (x : Nat) : Nat := siteAt m.new.die (8 * m.new.cx + m.old.relCol x) (4 * m.new.cy + m.old.relRow x)
def Move.cluster (m : Move) (c : Nat) : Nat := clusterAt m.new.die (m.new.cx + (cxOf c - m.old.cx)) (m.new.cy + (cyOf c - m.old.cy))
def Move.thread (m : Move) (t : Nat) : Nat := 8 * m.cluster (t / 8) + t % 8

/-- A stream moved. -/
def Move.stream (m : Move) (st : Stream) : Stream :=
  { st with thread := m.thread st.thread, grove := m.gid, node := if st.kind = .cut then m.site st.node else st.node }

/-- The cluster in the record of a payload moved. -/
def Move.record (m : Move) (v : Vec) : Vec :=
  let c := field v.toNat 235 9
  BitVec.ofNat 256 (v.toNat - c * 2 ^ 235 + cluCode (m.cluster (cluDecode c)) * 2 ^ 235)

/-- A message or a record moved; it is sent again from its source. -/
def Move.packet (m : Move) (p : Packet) : Packet :=
  { p with dclu := cluCode (m.cluster (cluDecode p.dclu)), sclu := cluCode (m.cluster (cluDecode p.sclu)), grove := m.gid,
           pay := if p.cls = 15 then p.pay.map m.record else p.pay }

/-- A stamped thing of an old allocation, stamped for the new one if it was current. -/
def restamp (was now x : Nat) : Nat := if x = was then now else 0

/-- Recorded records join the queue behind what was saved, then the spill area while it has room; the rest go on waiting and return in
order as entries free (R98, R197). -/
def joinRecorded (c : InCfg) (p : InPort) : InPort :=
  p.items.foldl (fun (q : InPort) i =>
    match i with
    | .record r .recorded _ n => (takeIn { cfg := c, exact := false, now := 0 } q r n).getD (q.put r .recorded n)
    | i => { q with items := q.items ++ [i] }) { p with items := [] }

/-- An input port restored: no fault of its last life makes it drop (R113). -/
def restoredIn (c : Option InCfg) (p : InPort) : InPort :=
  { (match c with
     | some c => joinRecorded c p
     | none => p) with emberSeen := false, emberCyc := 0, failed := false, backAt := none, actedAt := none }

/-- The records that a rekindle moved into a spill area, written there. -/
def parkRestored (c : InCfg) (old p : InPort) (t : Tile) : Tile :=
  p.items.foldl (fun t i =>
    match i with
    | .record r .spill _ _ =>
      if ((old.recOf r.id).map (fun k => k.2.1)) = some .recorded then
        r.toks.zipIdx.foldl (fun t k => t.write (spillOff c r k.2) 32 k.1.pay.toNat) t
      else t
    | _ => t) t

/-- A granule of a tile's store is saved: state area, or a port's spill area. -/
def tileKept (c : SiteCfg) (k : Nat) : Bool :=
  stateBase / 64 ≤ k || c.ins.toList.any (fun o =>
    match o with
    | none => false
    | some p => decide (32 * p.spo < 64 * k + 64) && decide (64 * k < 32 * p.spo + p.spn * p.rl * 32))

/-- Granules saved of a store put over what is there, stamped for the new allocation. -/
def restoreGrans (was now : Nat) (keep : Nat → Bool) (saved store : Tab Gran) : Tab Gran :=
  (saved.filter (fun k => k.2.gen = was && keep k.1)).foldl (fun st k => tabPut st k.1 { k.2 with gen := now }) store

def Move.slot (m : Move) (was now : Nat) (x : Slot) : Slot :=
  { x with gen := restamp was now x.gen, follow := x.follow.map (fun f => (f.1, m.thread f.2)) }

def Move.command (m : Move) (c : MatCmd) : MatCmd := { c with follow := c.follow.map (fun f => (m.thread f.1, f.2)) }

/-- A tile restored over its fresh allocation (R195, R197). -/
def Move.tile (m : Move) (t o : Tile) : Tile :=
  let ins : Vector InPort 4 := Vector.ofFn (fun i => restoredIn t.cfg.ins[i] o.ins[i])
  let r : Tile := { o with
           cfg := t.cfg, gen := t.gen, strict := t.strict, store := restoreGrans o.gen t.gen (tileKept t.cfg) o.store t.store,
           ins := ins,
           log := {}, slots := o.slots.map (m.slot o.gen t.gen), bounds := o.bounds.map (fun b => { b with gen := restamp o.gen t.gen b.gen }),
           accs := o.accs.map (fun a => { a with gen := restamp o.gen t.gen a.gen }), mq := o.mq.map m.command,
           hbGen := restamp o.gen t.gen o.hbGen, ember := .no, mover := none, run := none, firing := none, ending := [] }
  allPorts.foldl (fun t (p : Fin 4) =>
    match t.cfg.ins[p] with
    | some c => parkRestored c o.ins[p] ins[p] t
    | none => t) r

/-- The deferral areas of a grove's ports in one slice. -/
def sliceKept (g : Grove) (index k : Nat) : Bool :=
  g.image.sites.any (fun x => x.2.ins.toList.any (fun o =>
    match o with
    | none => false
    | some p => p.dsl = index && decide (32 * p.dof < 64 * k + 64) && decide (64 * k < 32 * p.dof + p.dsz * p.rl * 32)))

/-- A slice restored; a token that a node withheld stands at its input again. -/
def Move.slice (m : Move) (index : Nat) (x o : Slice) : Slice :=
  { o with cfg := x.cfg, gen := x.gen, strict := x.strict, log := {}, emberIn := Vector.replicate 4 none, nodes := o.nodes.map (fun n => { n with withheld := none }), store := restoreGrans o.gen x.gen (sliceKept m.new index) o.store x.store,
           engines := o.engines.map (fun e => { e with gens := e.gens.map (fun st => st.map m.stream) }) }

/-- A thread restored: its registers and FIFO entries stamped again. -/
def Move.threadState (_ : Move) (now : Nat) (t o : Thread) : Thread :=
  { o with gen := t.gen, strict := t.strict, regs := o.regs.map (fun r => { r with gen := restamp o.gen t.gen r.gen }),
           fifos := o.fifos.map (fun f => { f with entries := (f.entries.filter (fun g => g = o.gen)).map (fun _ => t.gen) }),
           fifoGen := t.gen, specs := [], fences := [], since := now }

/-- A core restored over its fresh allocation. -/
def Move.core (m : Move) (c o : Core) : Core :=
  { c with cmdq := o.cmdq.map (fun q => { q with slice := m.site q.slice, stream := m.stream q.stream }), inbox := o.inbox.map m.packet,
           masked := o.masked, openAt := o.openAt, ageM := o.ageM }

/-- The live granules of a window region: number within the region and granule. -/
def liveGranules (d : Die) (r : Nat) : Tab Gran :=
  (d.store.filter (fun k => k.1 / 16384 = r && k.2.gen = (d.gen r).1)).map (fun k => (k.1 % 16384, k.2))

/-- A region allocated, with contents put back under its new generation. -/
def refillRegion (strict : Bool) (d : Die) (r : Nat) (l : Tab Gran) : Die :=
  let d1 := d.allocate strict r
  { d1 with store := l.foldl (fun st k => tabPut st (r * 16384 + k.1) { k.2 with gen := (d1.gen r).1 }) d1.store }

/-- The window of a save in the regions of its new grove (R160). -/
def moveWindow (s : State) (v : Save) (new : Grove) : State :=
  let from_ := s.die v.grove.die
  let parts := v.grove.window.map (liveGranules from_)
  (new.window.zip parts).foldl (fun s k => s.setDie new.die (refillRegion v.grove.image.strict (s.die new.die) k.1 k.2)) s

/-- The regions a rekindle takes on a die: the save's own, or free ones. -/
def rekindleRegions (s : State) (v : Save) (die : Nat) : List Nat × List Nat :=
  if die = v.grove.die then (v.grove.window, v.grove.copies)
  else
    let free := freeRegions s die
    (free.take v.grove.window.length, (free.drop v.grove.window.length).take v.grove.copies.length)

/-- The origin a rekindle takes (R158, R160). -/
def rekindlePlace (s : State) (w : Nat) (v : Save) : Option Origin :=
  (placeOrigins w).find? (fun o => shapeFree s v.grove.image.gw v.grove.image.gh o
    && (o.1 = v.grove.die || decide (v.grove.window.length + v.grove.copies.length ≤ (freeRegions s o.1).length)))

/-- The grove a save comes back as. -/
def rekindledGrove (s : State) (v : Save) (o : Origin) (r : List Nat × List Nat) (priv : Bool) : Grove :=
  { v.grove with die := o.1, cx := o.2.1, cy := o.2.2, run := .running, priv := v.grove.priv && priv, window := r.1, copies := r.2,
                 h := heavyBase s.mgmt.plimit * (v.grove.image.gw * v.grove.image.gh), groups := Vector.replicate 64 [], quietAt := none,
                 emberOp := none, emberSelf := false, emberWait := none, emberLast := none, saveRegs := [], haltedAt := none }

/-- The tokens that the nodes of a slice withheld, at the inputs of the slice that a save comes back to. -/
def Move.withheld (m : Move) (now : Nat) (k : Nat × Slice) : List Flight :=
  (k.2.nodes.toList.zip k.2.cfg.nodes.toList).filterMap (fun n =>
    match n.1.withheld, n.2.inp with
    | some (f, _), some p => some { f with sink := sinkNo (m.site k.1) (0x40 + p), due := now }
    | _, _ => none)

/-- The sites of a save restored. -/
def restoreSites (m : Move) (v : Save) (s : State) : State :=
  let s1 := v.tiles.foldl (fun s k => s.setTile (m.site k.1) (m.tile (s.tile (m.site k.1)) k.2)) s
  let s2 := v.slices.foldl (fun s k => s.setSlice (m.site k.1) (m.slice (m.old.sliceIndex k.1) (s.slice (m.site k.1)) k.2)) s1
  { s2 with flights := s2.flights ++ v.slices.flatMap (m.withheld s.now) }

/-- The threads and cores of a save restored. -/
def restoreThreads (m : Move) (v : Save) (s : State) : State :=
  let s1 := v.threads.foldl (fun s k => s.setThr (m.thread k.1) (m.threadState s.now (s.thr (m.thread k.1)) k.2)) s
  v.cores.foldl (fun s k => s.setCore (m.cluster k.1) (m.core (s.coreOf (m.cluster k.1)) k.2)) s1

/-- Operations outstanding at the cut, and the messages on their way, which are sent again. An ember of the own grove ends with its handle. -/
def restoreWork (m : Move) (v : Save) (s : State) : State :=
  let ops := v.ops.map (fun o =>
    let o1 := { o with thread := m.thread o.thread }
    if v.grove.emberSelf && v.grove.emberOp = some o.id then { o1 with res := v.handle, done := true } else o1)
  v.packets.foldl (fun s p => s.send (m.packet p)) { s with ops := s.ops ++ ops }

/-- Threads that waited in a reduction receive 0x302 (R78, R196). -/
def endReductions (m : Move) (s : State) : State :=
  m.new.threads.foldl (fun s t => if (s.thr t).status = .waiting .nred then takeTrap s t 0x302 0 else s) s

/-- Breakpoints and traces that go with the grove (R356). -/
def moveTrace (m : Move) : TraceOf → TraceOf
  | .inPort x p => .inPort (m.site x) p
  | .outPort x p => .outPort (m.site x) p
  | .actor x a => .actor (m.site x) a

def restoreWatch (m : Move) (v : Save) (s : State) : State :=
  { s with huash := { s.huash with breaks := s.huash.breaks ++ v.breaks.map (fun b => (m.gid, b)),
                                   traces := s.huash.traces ++ v.traces.map (fun k => (k.1, moveTrace m k.2)) } }

/-- A save placed: fresh allocation, the data entries again, then what was saved over them; the rest of the save area is freed. -/
def rekindleAt (s : State) (v : Save) (gid : Nat) (o : Origin) (priv : Bool) : State :=
  let r := rekindleRegions s v o.1
  let new := rekindledGrove s v o r priv
  let m : Move := { old := v.grove, new := new, gid := gid }
  let s1 := setHolder s v.grove.die (v.grove.window ++ v.grove.copies ++ v.regions) 0
  let s2 := setHolder (setHolder s1 o.1 r.1 (1 + gid)) o.1 r.2 (1000 + gid)
  let s3 := allocateUnits ((moveWindow s2 v new).setGrove gid new) gid new
  let s4 := (new.image.data.filter (fun d => d.store ≠ 2)).foldl (writeData new) s3
  let s5 := restoreWork m v (restoreThreads m v (restoreSites m v s4))
  restoreWatch m v (endReductions m { s5 with saves := s5.saves.filter (fun q => q.handle ≠ v.handle) })

/-- The faults of a rekindle once its handle names a save (R197, R336). -/
def rekindleFault (g : Grove) (w : Nat) (v : Save) : Option Cause :=
  if flag w 62 && field w 52 10 ≠ v.grove.key then some 0x2C9
  else if !flag w 62 && v.grove.key ≠ g.key then some 0x2CE
  else if !flag w 63 && (decide (8 < field w 4 3 + v.grove.image.gw) || decide (15 < field w 0 4 + v.grove.image.gh)) then some 0x2C9
  else none

/-- rekindle: the save, its owner and place; its correcting codes (a free value decides, log entry 4); then the restore. -/
def rekindleGo (d a b : Reg) (s : State) : State :=
  let g := myGrove s
  let w := regAt b s
  match placeFault g.priv w, s.saves.find? (fun v => v.handle.toNat = regAt a s) with
  | some c, _ => trapMe s c 0
  | none, none => trapMe s 0x2CE 0
  | none, some v =>
    match rekindleFault g w v with
    | some c => trapMe s c 0
    | none =>
      match freeGrove s, rekindlePlace s w v with
      | some gid, some o =>
        if 2 ≤ Config.errorMet s.fresh then trapMe { s with fresh := s.fresh + 1 } 0x2CA 0
        else opAtOnce (rekindleAt { s with fresh := s.fresh + 1 } v gid o g.priv) .mx d (gid + 1)
      | _, _ => opAtOnce s .mx d 0

def execRekindle (d a b : Reg) (s : State) : Res := .next (groveForm [a, b] (some d) .mx (rekindleGo d a b) s)

/-! ## Freezes (R198, R199) -/

/-- A grove frozen; `stay`: nothing resumes it. -/
def freezeGrove (s : State) (gid : Nat) (stay : Bool) : State :=
  let g := s.grove gid
  s.setGrove gid { g with run := .frozen, was := g.run, unfixed := stay }

/-- A grove that could freeze: it runs, or is being spliced. -/
def mayFreeze (g : Grove) : Bool := g.live && (g.run = .running || g.run = .splicing)

/-- A word of a code store of the grove is found uncorrectable, and counted: which one is a free value (R194). -/
def spoilCode (s : State) (g : Grove) : State :=
  let n := Config.freeIndex s.fresh
  let s1 := { s with fresh := s.fresh + 1, mgmt := { s.mgmt with uncorrected := s.mgmt.uncorrected + 1 } }
  match g.clusters[n % g.clusters.length]? with
  | none => s1
  | some c => s1.setCore c { s.coreOf c with badCode := n / g.clusters.length % 16384 :: (s.coreOf c).badCode }

/-- What a scrub finds in the frames of a grove: errors repaired are counted; a frame that cannot be repaired, or a signature that does not match,
freezes the grove, and its integrity count rises, saturating. -/
def scrubFrames (s : State) (gid : Nat) : State :=
  let g := s.grove gid
  let r := judgeFrames (flipBits g.image.frames (Config.frameErrors s.fresh)) g.crc
  let s1 := { s with fresh := s.fresh + 1, mgmt := { s.mgmt with corrected := s.mgmt.corrected + r.1 } }
  if r.2 then freezeGrove (s1.setGrove gid { g with integrity := Nat.min 0xFFFFFFFF (g.integrity + 1) }) gid false else s1

/-- CONFIGURATION_SCRUB: the frames of a grove, instruction stores among them, are looked at, and its code stores. What has flipped is a free value
(log entry 4). -/
def execConfigurationScrub (grove : Nat) (s : State) : Res :=
  .next
    (let g := s.grove grove
     if !mayFreeze g then s
     else
       let s1 := { s with fresh := s.fresh + 1 }
       match Config.errorMet s.fresh with
       | 0 => scrubFrames s1 grove
       | 1 => scrubFrames { s1 with mgmt := { s1.mgmt with corrected := s1.mgmt.corrected + 1 } } grove
       | _ => scrubFrames (spoilCode s1 g) grove)

/-- The frames of a grove as its reload copy has them. -/
def rewriteFrames (s : State) (g : Grove) : State :=
  g.sites.foldl (fun s x =>
    let c := g.image.site (g.relCol x) (g.relRow x)
    if siteIsSlice x then s.setSlice x { s.slice x with cfg := c } else s.setTile x { s.tile x with cfg := c }) s

/-- A grove frozen until it is released, whatever it was doing (R199): its clusters are stopped by a fault, so its reductions end with 0x302
(R78). -/
def freezeForGood (s : State) (gid : Nat) : State :=
  let g := s.grove gid
  let s1 := if g.run = .frozen || g.run = .halted then s.setGrove gid { g with run := .frozen, unfixed := true } else freezeGrove s gid true
  endAllReductions s1 gid 0x302

/-- FREEZE_RESUME: the configuration is rewritten from the reload copy, whose frames and signature are checked, and the grove goes on; an uncorrectable copy leaves it frozen until it is
released, with an event record 0x2CB. -/
def execFreezeResume (grove : Nat) (s : State) : Res :=
  .next
    (let g := s.grove grove
     if !g.live || g.run ≠ .frozen || g.unfixed then s
     else
       let r := judgeFrames (flipBits g.image.frames (Config.frameErrors s.fresh)) g.crc
       let s1 := { s with fresh := s.fresh + 1, mgmt := { s.mgmt with corrected := s.mgmt.corrected + r.1 } }
       if r.2 then (freezeForGood s1 grove).logEvent 0x2CB grove 0 0
       else
         let s2 := if g.succ.isNone then rewriteFrames s1 g else s1
         goOn (s2.setGrove grove { g with run := g.was }) g)

/-- HEARTH_INTERNAL_ERROR: the device's groves are frozen, with an event record (R199). -/
def execHearthInternalError (s : State) : Res :=
  .next
    (((s.groves.map Prod.fst).foldl (fun s gid => if (s.grove gid).live then freezeForGood s gid else s) s).logEvent 0x3C2 0 0 0)

end Sys2Proof.Machine
end

