-- ==== Sys2Proof/Machine/Host.lean ====
section
/-! DEFINITION. The host's side (R200-R212): the management window and its commands, host windows, migrations (R28, R29), background activities
(R93, R210), reset (R207), and the links of the domain (R206). -/

namespace Sys2Proof.Machine

/-- The management window changed. -/
def State.setMgmt (s : State) (m : Mgmt) : State := { s with mgmt := m }

/-- What a scrub meets is a free value (log entry 4): an error that can be corrected is, and is counted; one that cannot be is counted, and stands from
then on (R93, R194, R210). -/
def scrubbed (s : State) (strike : Nat → State → State) : State :=
  let s1 := { s with fresh := s.fresh + 1 }
  match Config.errorMet s.fresh with
  | 0 => s1
  | 1 => s1.setMgmt { s1.mgmt with corrected := s1.mgmt.corrected + 1 }
  | n => strike n (s1.setMgmt { s1.mgmt with uncorrected := s1.mgmt.uncorrected + 1 })

/-! ## Background (R93, R210) -/

/-- The sites of the package; a number from there on names the store of a die. -/
def siteCount : Nat := 4 * 3840

/-- A granule of a tile, of a slice, or of a die's store struck by an error that cannot be corrected. -/
def strikeGranule (site q n : Nat) (s : State) : State :=
  if siteCount ≤ site then
    (if q < 2 ^ 22 then s.setDie (site - siteCount) { s.die (site - siteCount) with store := storeStrike (s.die (site - siteCount)).store q n } else s)
  else if siteIsSlice site then
    (if q < 2 ^ 14 then s.setSlice site { s.slice site with store := storeStrike (s.slice site).store q n } else s)
  else if q < 2 ^ 11 then s.setTile site { s.tile site with store := storeStrike (s.tile site).store q n }
  else s

/-- SRAM_PATROL_SCRUB: a granule is looked at. -/
def execSramPatrolScrub (site granule : Nat) (s : State) : Res :=
  .next (if site < siteCount + 4 then scrubbed s (strikeGranule site granule) else s)

/-- LPDDR_PATROL_SCRUB: a line of local memory is looked at. -/
def execLpddrPatrolScrub (line : Nat) (s : State) : Res :=
  .next (if 256 * line < 0x018000000000 then scrubbed s (fun _ s => poisonLine s (256 * line)) else s)

/-- LPDDR_RECALIBRATION: a read waiting in the window completes after it; nothing visible changes. -/
def execLpddrRecalibration (_channel : Nat) (s : State) : Res := .next s

/-- Integrity events of the groves that run. -/
def integrityEvents (s : State) : Nat := s.groves.foldl (fun n k => n + k.2.integrity) 0

/-- TELEMETRY: the block is written, its cycle count first. -/
def execTelemetry (s : State) : Res :=
  .next (s.setMgmt { s.mgmt with tele := bytesOf 8 s.now ++ Config.telemetry s.now s.mgmt.corrected s.mgmt.uncorrected (integrityEvents s) })

/-! ## Host windows (R201) -/

/-- A window in use. -/
def windowOn (w : Word64 × Word64) : Bool :=
  let a := w.1.toNat
  let b := w.2.toNat
  flag a 0 && field a 1 17 = 0 && field b 0 31 = 0 && field b 31 13 ≠ 0 && decide (field b 44 20 + field b 31 13 ≤ 6144)

/-- The device address and the key of a host address: the lowest window that holds it. -/
def windowAt (m : Mgmt) (h : Nat) : Option (Nat × Nat) :=
  (m.hwin.toList.find? (fun w =>
    windowOn w && decide (field w.1.toNat 28 36 * 2 ^ 28 ≤ h) && decide (h < (field w.1.toNat 28 36 + field w.2.toNat 31 13) * 2 ^ 28))).map
    (fun w => (field w.2.toNat 44 20 * 2 ^ 28 + (h - field w.1.toNat 28 36 * 2 ^ 28), field w.1.toNat 18 10))

/-- A host write: 8 aligned bytes act on a word as stfo does, a narrower one writes data only (R21, R173). DESIGN CHOICE (log entry 101): no page is
known to the host's path, so the word's presence bit fills also where no full-empty page maps it; and a write of more than 8 bytes, of which R21 says
nothing, writes data only, whatever words it covers. -/
def hostWrite (s : State) (key pa : Nat) (bs : List Byte) : State :=
  let s1 := s.clearBad pa bs.length
  if bs.length = 8 ∧ pa % 8 = 0 then fillWord s1 key pa bs else s1.writeBytes key pa bs

/-- The points of `n` bytes from a physical address: one for each 64 bytes, and that of the last. -/
def hostPoints (s : State) (pa n : Nat) : List Point :=
  (List.range (n / 64 + 2)).map (fun i => pointOf s.dev (Nat.min (pa + 64 * i) (pa + n - 1)))

/-- A host access must still wait: the CXL port counts last (R313). -/
def hostWaits (s : State) (pa n : Nat) : Bool := (hostPoints s pa n).any (fun p => behindAt s p hostRank)

/-- HOST_MEMORY_ACCESS: an access of some bytes of one window, once it need wait no longer; outside every window a read brings ones and a write is
discarded, with an event record. -/
def execHostMemoryAccess (addr : Nat) (wr : Bool) (data : List Byte) (s : State) : Res :=
  .next
    (if !s.mgmt.ready then s
     else
       match windowAt s.mgmt addr with
       | none =>
         let s1 := if wr then s else s.setMgmt { s.mgmt with hostRead := data.map (fun _ => 0xFF) }
         s1.logEvent 0x380 0 0 addr
       | some (pa, key) =>
         if hostWaits s pa data.length then s
         else if wr then hostWrite s key pa data else s.setMgmt { s.mgmt with hostRead := s.bytesAt key pa data.length })

/-! ## Registers (R202) -/

/-- A command argument. -/
def cArg (s : State) (n : Nat) : Nat := ((s.mgmt.carg.toList[n]?).getD 0).toNat

/-- A command argument that is a physical address: one that names this device by its id is the local address (R12). -/
def paArg (s : State) (n : Nat) : Nat := localPa s.dev (cArg s n)

/-- A window register written. -/
def writeWindow (m : Mgmt) (off : Nat) (v : Word64) : Mgmt :=
  let n := off % 0x1000 / 16
  { m with hwin := at_ m.hwin n (fun w => if off % 16 = 0 then (v, w.2) else (w.1, v)) }

/-- What a write of a register without behaviour of its own leaves; an offset without a register, or a read-only one, discards it. -/
def writeRegister (m : Mgmt) (off : Nat) (v : Word64) : Mgmt :=
  if 0x40 ≤ off ∧ off ≤ 0x68 then { m with carg := at_ m.carg ((off - 0x40) / 8) (fun _ => v) }
  else if off = 0x100 then { m with evBase := v }
  else if off = 0x108 then { m with evSize := v }
  else if off = 0x118 then { m with evTail := v.toNat }
  else if 0x1000 ≤ off ∧ off < 0x1100 then writeWindow m off v
  else m

/-- PLIMIT: 1,200-3,600 W; other values are ignored. Standing grants stay (R209). -/
def setPlimit (s : State) (v : Word64) : State :=
  if s.mgmt.ready && decide (1200 ≤ v.toNat) && decide (v.toNat ≤ 3600) then s.setMgmt { s.mgmt with plimit := v.toNat } else s

def execPlimitWrite (v : Word64) (s : State) : Res := .next (setPlimit s v)

/-- The ID register (R202). -/
def idRegister (s : State) : Nat := Config.part.toNat * 2 ^ 48 + Config.stepping.toNat * 2 ^ 40 + s.dev

/-- A register as an aligned read of 8 bytes brings it; before ready only ID and STATUS respond (R202, R207). -/
def readRegister (s : State) (off : Nat) : Nat :=
  let m := s.mgmt
  if off = 0 then idRegister s
  else if off = 8 then m.stage % 16 + m.fail % 256 * 2 ^ 8 + m.ready.toNat * 2 ^ 16
  else if !m.ready then 0
  else if off = 0x10 then m.plimit
  else if 0x40 ≤ off ∧ off ≤ 0x68 then cArg s ((off - 0x40) / 8)
  else if off = 0x70 then m.cmd.toNat
  else if off = 0x78 then m.busy.toNat * 2 ^ 63 + m.result.toNat
  else if off = 0x100 then m.evBase.toNat
  else if off = 0x108 then m.evSize.toNat
  else if off = 0x110 then m.evHead % 2 ^ 64
  else if off = 0x118 then m.evTail
  else if 0x1000 ≤ off ∧ off < 0x1100 then
    (let w := (m.hwin.toList[(off - 0x1000) / 16]?).getD (0, 0)
     (if off % 16 = 0 then w.1 else w.2).toNat)
  else if 0x10000 ≤ off ∧ off < 0x80000 then ofBytes ((m.tele.drop (off - 0x10000)).take 8)
  else 0

/-! ## Commands (R203) -/

/-- A command completes at once without effect, with a cause; vector 1 fires. -/
def commandOver (s : State) (c : Cause) : State := s.setMgmt { s.mgmt with result := c, busy := false, vec1 := s.mgmt.vec1 + 1 }

/-- A command starts: refused while another runs, over at once if an argument is out of range, else busy while it has its effect. -/
def command (code : Nat) (bad : State → Bool) (body : State → State) (s : State) : State :=
  if !s.mgmt.ready then s
  else if s.mgmt.busy then s.setMgmt { s.mgmt with result := 0x381 }
  else
    let s1 := s.setMgmt { s.mgmt with cmd := BitVec.ofNat 64 code, next := 0, next5 := none, job := none }
    if bad s1 then commandOver s1 0x387 else body (s1.setMgmt { s1.mgmt with busy := true })

/-- What a running command will leave. -/
def willLeave (s : State) (c : Cause) (v : Option Word64) : State := s.setMgmt { s.mgmt with next := c, next5 := v }

/-- The end of local LPDDR (R12). -/
def lpddrEnd : Nat := 0x018000000000

/-- An argument that is no translation root: a level-1 table page is aligned to 4 KiB and in local LPDDR (R317). -/
def badRoot (s : State) (n : Nat) : Bool := paArg s n % 4096 ≠ 0 || decide (lpddrEnd ≤ paArg s n)

/-- FRAME_CLEAR: a frame is zeroed and its presence bits emptied (R21). -/
def frameClear (s : State) : State :=
  command 1 (fun s => paArg s 0 % 4096 ≠ 0 || decide (lpddrEnd ≤ paArg s 0) || decide (1023 < cArg s 1)) (fun s =>
    let pa := paArg s 0
    let s1 := (s.clearBad pa 4096).writeBytes (cArg s 1) pa (List.replicate 4096 0)
    { s1 with full := s1.full.filter (fun w => !(decide (pa ≤ 8 * w) && decide (8 * w < pa + 4096))) }) s

/-- REGISTER_SIGNING_KEY: a slot holds a key, and the owner it serves (R212). -/
def registerKey (s : State) : State :=
  command 3 (fun s => decide (31 < cArg s 0) || (decide (cArg s 0 ≠ 0) && decide (1023 < cArg s 5))) (fun s =>
    let key := cArg s 1 + cArg s 2 * 2 ^ 64 + cArg s 3 * 2 ^ 128 + cArg s 4 * 2 ^ 192
    let k : KeySlot := { owner := cArg s 5 % 1024, key := BitVec.ofNat 256 key }
    s.setMgmt { s.mgmt with keys := at_ s.mgmt.keys (cArg s 0) (fun _ => some k) }) s

/-- CLEAR_TRIM_COUNTERS: the counters of a router's outputs (R76). -/
def clearTrims (s : State) : State :=
  command 4 (fun s => decide (3 < cArg s 0) || decide (119 < cArg s 1)) (fun s =>
    let r := cArg s 0 * 120 + cArg s 1
    { s with trims := s.trims.filter (fun k => !(decide (r * 8 ≤ k.1) && decide (k.1 < r * 8 + 8))) }) s

/-- A host address lies in host memory. -/
def inHost (s : State) (pa : Nat) : Bool := regionOf s.dev pa = .host

/-- Bytes 0-191 of a quote (R208). -/
def quoteBody (s : State) (nonce : List Byte) : List Byte :=
  nonce ++ bytesOf 64 (Config.firmwareHash 1).toNat ++ bytesOf 64 (Config.firmwareHash 2).toNat ++ bytesOf 8 (idRegister s)
    ++ bytesOf 8 (s.mgmt.quotes + 1) ++ List.replicate 16 0

/-- QUOTE: the nonce is read and the quote written behind it (R208). -/
def quoteCommand (s : State) : State :=
  command 5 (fun s => !inHost s (paArg s 0)) (fun s =>
    let body := quoteBody s (s.bytesAt 0 (paArg s 0) 32)
    let s1 := s.writeBytes 0 (paArg s 0 + 32) (body ++ bytesOf 64 (Config.quoteSignature body).toNat)
    s1.setMgmt { s1.mgmt with quotes := s1.mgmt.quotes + 1 }) s

/-- A capability verifies under a slot that serves its owner (R211). -/
def capSigned (s : State) (owner : Nat) (bs : List Byte) : Bool :=
  s.mgmt.keys.toList.zipIdx.any (fun k =>
    match k.1 with
    | none => false
    | some q => (k.2 = 0 || q.owner = owner) && holdsUnder q.key (bs.take 32) (bs.drop 32))

/-- The owner and the expiry of a capability that holds, or none. -/
def capOf (s : State) (bs : List Byte) : Option (Nat × Nat) :=
  let v := ofBytes bs
  let owner := field v 0 10
  if field v 10 6 = 0 && field v 16 8 = s.dev && field v 24 40 = 0 && field v 128 128 = 0 && decide (s.now ≤ field v 64 64) && capSigned s owner bs then
    some (owner, field v 64 64)
  else none

/-- DEBUG_ATTACH: the privileged path opens for one owner's groves, or the command returns 0x385 (R211). -/
def debugAttach (s : State) : State :=
  command 6 (fun s => !inHost s (paArg s 0)) (fun s =>
    match capOf s (s.bytesAt 0 (paArg s 0) 96) with
    | none => willLeave s 0x385 none
    | some c => { s with huash := { s.huash with attached := true, caps := s.huash.caps ++ [c] } }) s

/-- The reader of an image at a physical address. -/
def paFetch (s : State) (key pa : Nat) : Fetch := fun _ off n => .ok (s.bytesAt key (localPa s.dev pa + off) n)

/-- Why nothing was placed: 0x2D1 where the shape is free on a die that cannot supply the regions, else 0 (R204). -/
def nowhereCause (s : State) (rd : Fetch) (w : Nat) : Cause :=
  match fetchHeader rd with
  | .error _ => 0
  | .ok head =>
    let h := headerOf (ofBytes head)
    if (freeGrove s).isSome && shapeSomewhere s w h.gw h.gh then 0x2D1 else 0

/-- The placement word of a load command: KV is ignored. -/
def loadWord (s : State) : Nat := cArg s 2 - field (cArg s 2) 52 11 * 2 ^ 52

/-- LOAD_IMAGE (R204). -/
def loadImage (s : State) : State :=
  command 7 (fun s =>
    decide (1023 < cArg s 1) || badRoot s 3 || (placeFault true (loadWord s)).isSome
      || !(regionOf s.dev (cArg s 0) = .lpddr || inHost s (cArg s 0))) (fun s =>
    let rd := paFetch s (cArg s 1) (cArg s 0)
    match loadGrove s rd (loadWord s) (cArg s 1) (paArg s 3) true with
    | .fault c _ s1 => willLeave s1 c (some 0)
    | .nowhere => willLeave s (nowhereCause s rd (loadWord s)) (some 0)
    | .grove s1 gid => willLeave s1 0 (some (BitVec.ofNat 64 (gid + 1)))) s

/-- The running grove that a release command names. -/
def namedGrove (s : State) (v : Nat) : Option Nat :=
  let g := s.grove (v - 1)
  if 1 ≤ v && v ≤ 128 && g.live && !beingEmbered g then some (v - 1) else none

/-- RELEASE_GROVE: the grove is released once its writes have landed; a handle of no running grove returns 0x386 at once (R204). -/
def releaseCommand (s : State) : State :=
  command 8 (fun _ => false) (fun s =>
    match namedGrove s (cArg s 0) with
    | none => commandOver s 0x386
    | some gid => s.setMgmt { s.mgmt with job := some gid }) s

/-- The running command has done its work: a release has released, a migration has ended. -/
def commandWork (s : State) : Option State :=
  match s.mgmt.job with
  | some gid =>
    if !(s.grove gid).live then some s
    else if groveLanded s gid (s.grove gid).threads then some (releaseDone s gid) else none
  | none => if s.mgmt.cmd = 2 && s.migs.any (fun m => m.byHost) then none else some s

/-- HOST_COMMAND_COMPLETE: busy clears, the result stands, vector 1 fires (R203). -/
def execHostCommandComplete (s : State) : Res :=
  .next
    (if !s.mgmt.busy then s
     else
       match commandWork s with
       | none => s
       | some s1 =>
         let m := s1.mgmt
         let carg := match m.next5 with
           | some v => at_ m.carg 5 (fun _ => v)
           | none => m.carg
         commandOver (s1.setMgmt { m with carg := carg, job := none, next5 := none }) m.next)

/-! ## Migrations (R28, R29) -/

/-- A number in memory as the key its line was last written under gives it (log entry 38). -/
def ownNum (s : State) (pa n : Nat) : Nat := s.numAt (tabGet s.blockKey (pa / 16) 0) pa n
def ownWrite (s : State) (pa n v : Nat) : State := s.writeNum (tabGet s.blockKey (pa / 16) 0) pa n v

/-- The leaf of an address: the address of its group's first entry, the entries of the group, and the bytes one maps. An address of 48 bits or more
has none, and a level-1 entry is none (R16, R18). -/
def findLeaf (s : State) (va : Nat) : Nat → Nat → Option (Nat × Nat × Nat)
  | 0, _ => none
  | left + 1, table0 =>
    let table := localPa s.dev table0
    let level := 4 - left
    let idx := vaIndex va level
    let e := ownNum s (table + 8 * idx) 8
    if !pteV e || regionOf s.dev table ≠ .lpddr || decide (2 ^ 48 ≤ va) || (level = 1 && pteLeaf e) then none
    else if pteLeaf e then
      (let n := if grpAllowed level (pteGrp e) then 4 ^ pteGrp e else 1
       some (table + 8 * (idx - idx % n), n, leafSize level))
    else findLeaf s va left (pteFrame e * 4096)

/-- Every entry of a leaf rewritten. -/
def mapLeaf (s : State) (l : Nat × Nat × Nat) (f : Nat → Nat → Nat) : State :=
  (List.range l.2.1).foldl (fun s i => ownWrite s (l.1 + 8 * i) 8 (f i (ownNum s (l.1 + 8 * i) 8))) s

/-- An entry with another migration state, and with another frame, of this device. -/
def withMig (e v : Nat) : Nat := e - pteMig e * 2 ^ 36 + v * 2 ^ 36
def withFrame (e f : Nat) : Nat := e - pteFrame e - (pteRmt e).toNat * 2 ^ 56 + f % 2 ^ 36

/-- The tinv of a page, for every grove of its table (R25, R28). -/
def pageTinv (s : State) (root va size : Nat) : State :=
  s.groves.foldl (fun s k => if k.2.live && localPa s.dev k.2.troot = localPa s.dev root then invalidate s k.1 (va / size * size) (va / size * size + size) else s) s

/-- A migration is over. -/
def dropMig (s : State) (id : Nat) : State := { s with migs := s.migs.filter (fun m => m.id ≠ id) }

/-- A migration is over, and its requester is told: the host's command ends with the cause, a device's handler has it under its request's number. -/
def endMig (s : State) (m : Migration) (c : Cause) : State :=
  let s1 := dropMig s m.id
  if m.byHost then willLeave s1 c none else { s1 with migDone := tabPut s1.migDone m.id c }

/-- A migration that stands first for its page: without a move towards where the page is; refused for a pinned page; once the page may move it is in
transit. DESIGN CHOICE (log entry 94): a request for an address without a leaf, or with a remote one, ends without a move and without a refusal, and
a pinned page that is where the request wants it is no refusal. -/
def startMig (s : State) (m : Migration) : State :=
  match findLeaf s m.va 4 m.root with
  | none => endMig s m 0
  | some l =>
    let e := ownNum s l.1 8
    let same := s.migs.takeWhile (fun q => q.id ≠ m.id)
    if same.any (fun q => (findLeaf s q.va 4 q.root).map (·.1) = some l.1) then s
    else if 2 ^ 56 ≤ ptePa s.dev e || inHost s (ptePa s.dev e) = m.toHost then endMig s m 0
    else if pteMig e = 2 then endMig s m 0x382
    else if (tabFind s.floors l.1).any (fun t => decide (s.now < t)) then s
    else
      let s1 := mapLeaf s l (fun _ e => withMig e 1)
      let s2 := pageTinv s1 m.root m.va (l.2.1 * l.2.2)
      { s2 with migs := s2.migs.map (fun q => if q.id = m.id then { q with active := true } else q) }

/-- Two requests are for one page. -/
def samePage (s : State) (a b : Migration) : Bool :=
  match findLeaf s a.va 4 a.root, findLeaf s b.va 4 b.root with
  | some x, some y => x.1 = y.1
  | _, _ => false

/-- A request joins the queue. A host's towards host memory stands before a device's of the same cycle towards device memory for the same page,
where that has not started (R29). -/
def queueMig (s : State) (m : Migration) : State :=
  let late := fun (q : Migration) => m.byHost && m.toHost && !q.byHost && !q.toHost && !q.active && q.since = s.now && samePage s q m
  let n := s.migs.findIdx late
  { s with migs := s.migs.take n ++ [m] ++ s.migs.drop n, nextId := s.nextId + 1 }

/-- MIGRATE: the host's request (R203); its root and its address are in the ranges of R317 and R16. -/
def migrateCommand (s : State) : State :=
  command 2 (fun s => decide (1 < cArg s 2) || badRoot s 0 || decide (2 ^ 48 ≤ cArg s 1)) (fun s =>
    let m : Migration := { id := s.nextId, root := paArg s 0, va := cArg s 1, toHost := cArg s 2 = 1, byHost := true, since := s.now }
    startMig (queueMig s m) m) s

/-- MIGRATION_REQUEST: a device fault handler's request for a page of its grove; it starts in a later cycle (RESIDENCE_FLOOR_EXPIRY). -/
def execMigrationRequest (grove va : Nat) (toHost : Bool) (s : State) : Res :=
  .next
    (if !(s.grove grove).live then s
     else queueMig s { id := s.nextId, root := (s.grove grove).troot, va := va, toHost := toHost, since := s.now })

/-- RESIDENCE_FLOOR_EXPIRY: a waiting request runs, once its page's floor is over and no earlier request for the page stands before it. -/
def execResidenceFloorExpiry (id : Nat) (s : State) : Res :=
  .next
    (match s.migs.find? (fun m => m.id = id) with
     | none => s
     | some m => if m.active || s.now ≤ m.since then s else startMig s m)

/-- The address a page moves to: a free value within local LPDDR or host memory (log entry 4). -/
def newPage (s : State) (toHost : Bool) (size : Nat) : Nat :=
  let f := Config.newFrame s.fresh
  if toHost then 0x800000000000 + f % (2 ^ 47 / size) * size else f % (lpddrEnd / size) * size

/-- A page copied, under its owner's key; an uncorrectable span stays one. -/
def copyPage (s : State) (key old new size : Nat) : State :=
  let bad := s.badLine.filter (fun q => decide (old ≤ 32 * q) && decide (32 * q < old + size))
  let s1 := (s.clearBad new size).writeBytes key new (s.bytesAt key old size)
  { s1 with badLine := bad.map (fun q => q - old / 32 + new / 32) ++ s1.badLine }

/-- MIGRATION_COMPLETE: the page is copied, its entries name the new frame, settled, and its floor begins (R28, R29). -/
def execMigrationComplete (id : Nat) (s : State) : Res :=
  .next
    (match s.migs.find? (fun m => m.id = id && m.active) with
     | none => s
     | some m =>
       match findLeaf s m.va 4 m.root with
       | none => endMig s m 0
       | some l =>
         let size := l.2.1 * l.2.2
         let e := ownNum s l.1 8
         let new := newPage s m.toHost size
         let s1 := copyPage { s with fresh := s.fresh + 1 } (pteKey e) (ptePa s.dev e) new size
         let s2 := mapLeaf s1 l (fun i e => withMig (withFrame e (new / 4096 + i * (l.2.2 / 4096))) 0)
         let s3 := pageTinv s2 m.root m.va size
         endMig { s3 with floors := tabPut s3.floors l.1 (s3.now + 120000) } m 0)

/-! ## Commands started (R202, R203) -/

def execFrameClear (s : State) : Res := .next (frameClear s)
def execRegisterSigningKey (s : State) : Res := .next (registerKey s)
def execClearTrimCounters (s : State) : Res := .next (clearTrims s)
def execQuote (s : State) : Res := .next (quoteCommand s)
def execDebugAttach (s : State) : Res := .next (debugAttach s)
def execLoadImage (s : State) : Res := .next (loadImage s)
def execReleaseGrove (s : State) : Res := .next (releaseCommand s)
def execMigrate (s : State) : Res := .next (migrateCommand s)

/-- A write to CMD starts the command of its code; a code without a command is kept, with no effect. -/
def writeCommand (s : State) (v : Word64) : State :=
  match v.toNat with
  | 1 => frameClear s
  | 2 => migrateCommand s
  | 3 => registerKey s
  | 4 => clearTrims s
  | 5 => quoteCommand s
  | 6 => debugAttach s
  | 7 => loadImage s
  | 8 => releaseCommand s
  | _ => s.setMgmt (if s.mgmt.busy then { s.mgmt with result := 0x381 } else { s.mgmt with cmd := v })

/-- REGISTER_WRITE: a misaligned access, or one that is not of 8 bytes, reads zero and writes nothing. Before ready only ID and STATUS respond. -/
def execRegisterWrite (off : Nat) (v : RegAccess) (s : State) : Res :=
  .next
    (let n := v.bytes
     match v.value with
     | none => s.setMgmt { s.mgmt with hostRead := bytesOf n (if n = 8 ∧ off % 8 = 0 then readRegister s off else 0) }
     | some v =>
       if !s.mgmt.ready || n ≠ 8 || off % 8 ≠ 0 then s
       else if off = 0x10 then setPlimit s v
       else if off = 0x70 then writeCommand s v
       else s.setMgmt (writeRegister s.mgmt off v))

/-! ## Reset (R207) -/

/-- The part as after reset: what stands in main memory and the schedule stay. -/
def afterReset (s : State) : State :=
  { now := s.now, agenda := s.agenda, fresh := s.fresh, nextId := s.nextId, mem := s.mem, blockKey := s.blockKey, full := s.full, badLine := s.badLine, }

/-- A device table: which of the part's 18 links lead to each of 256 devices (R6, R206). -/
def linkTable (l : List (Nat × List Nat)) : Tab (List Nat) :=
  l.foldl (fun t k => if k.1 < 256 then tabPut t k.1 (k.2.filter (fun n => decide (n < 18))) else t) []

/-- RESET: while the part comes up, its next stage ends, well or not (a free value decides, log entry 4); link training assigns the device id and
the device table (R206); after stage 4 it is ready. Otherwise the
part is reset and its first stage begins. -/
def execResetPart (s : State) : Res :=
  .next
    (if s.mgmt.ready || s.mgmt.fail ≠ 0 then afterReset s
     else
       let stage := s.mgmt.stage + 1
       let s1 := { s with fresh := s.fresh + 1 }
       if 2 ≤ Config.errorMet s.fresh then s1.setMgmt { s1.mgmt with stage := stage, fail := stage }
       else if stage = 2 then
         { s1 with mgmt := { s1.mgmt with stage := 2, devId := (Config.trained s.fresh).1.toNat }, devTable := linkTable (Config.trained s.fresh).2 }
       else s1.setMgmt { s1.mgmt with stage := stage, ready := decide (stage = 4) })

/-! ## Links (R206) -/

/-- A millisecond, in cycles. -/
def msCycles : Nat := 2400000

/-- LINK_DOWN: one of the 18 links goes down (R6), for good or for some cycles. -/
def execLinkDown (link : LinkLoss) (s : State) : Res :=
  .next
    (if 18 ≤ link.link || linkIsDown s link.link then s
     else { s with linkDown := tabPut s.linkDown link.link (s.now, link.back.map (· + s.now)) })

/-- LINK_REMOVAL: a link that has been down for 1 ms leaves the device table, with an event record. -/
def execLinkRemoval (link : Nat) (s : State) : Res :=
  .next
    (match tabFind s.linkDown link with
     | none => s
     | some (t, back) =>
       if s.now < t + msCycles || back.any (fun b => decide (b < t + msCycles)) || !s.devTable.any (fun k => k.2.contains link) then s
       else ({ s with devTable := s.devTable.map (fun k => (k.1, k.2.filter (fun l => l ≠ link))) } : State).logEvent 0x383 0 0 link)

end Sys2Proof.Machine
end

