-- ==== Sys2Proof/Machine/Huash.lean ====
section
/-! DEFINITION. Huash, the debugger (R92, R211, R213, R349, R351, R354, R356, R358): breakpoints, go, traces, and what its commands print, as
lines of numbers. Sites of its commands are 64 × row + column within the selected grove, threads are grove thread indexes. -/

namespace Sys2Proof.Machine

/-! ## The session -/

/-- The selected grove. -/
def selGrove (s : State) : Grove := s.grove s.huash.sel

/-- A site, a thread of the selected grove. -/
def selSite (s : State) (x : Nat) : Option Nat := (selGrove s).siteRel (x % 64) (x / 64)
def selThread (s : State) (t : Nat) : Option Nat := (selGrove s).threads[t]?

/-- A command of a session: the debugger is attached (log entry 16). Before ready nothing but ID and STATUS responds (R207). -/
def attachedNow (s : State) : State := if s.mgmt.ready then { s with huash := { s.huash with attached := true } } else s

/-- What a command does once the part is ready. -/
def huashCmd (f : State → State) (s : State) : Res := .next (if s.mgmt.ready then f (attachedNow s) else s)

/-- A line printed. -/
def printLine (s : State) (cmd : String) (vals : List Nat) : State :=
  let s1 := attachedNow s
  if s.mgmt.ready then { s1 with huash := { s1.huash with lines := s1.huash.lines ++ [{ cmd := cmd, vals := vals }] } } else s

/-- A line about a site of the selected grove; a site it does not have prints nothing. -/
def printSite (cmd : String) (x : Nat) (f : Nat → List Nat) (s : State) : Res :=
  .next (match selSite s x with
    | some y => printLine s cmd (f y)
    | none => printLine s cmd [])

/-- A capability of the selected grove's owner is in force (R92, R211). -/
def privPath (s : State) : Bool := s.huash.caps.any (fun c => c.1 = (selGrove s).key && decide (s.now ≤ c.2))

/-- A stamped value as the debugger prints it: as the tenant sees it, or under a capability its raw contents and its stamp (R92). -/
def shown (s : State) (gen cur v : Nat) : List Nat := if privPath s then [v, gen] else [stamped gen cur v]

/-- GROVE: later commands apply to this grove. -/
def execGroveSelect (id : Nat) (s : State) : Res := huashCmd (fun s => { s with huash := { s.huash with sel := id } }) s

/-! ## Breakpoints (R213, R351, R354, R356) -/

/-- The key of the trim counter a command names (R76, R354). -/
def trimOfKey (g : Nat) : TrimOf → Nat
  | .flow id => flowKey g id
  | .router r dir => r * 8 + dir
  | .hearth die cx up => if up then placeKey (.hearth die cx) else placeKey (.router (clusterAt die cx 7) 5)

/-- The prunes at every output of a router. -/
def routerTrims (s : State) (r : Nat) : Nat := (List.range 6).foldl (fun a d => a + tabGet s.trims (r * 8 + d) 0) 0

/-- What a breakpoint's counter stands at: prunes are counted from there, fault records from the ids given so far, precise traps from the cycle. -/
def breakBase (s : State) (gid : Nat) : BreakOn → Nat
  | .pruneRouter r => routerTrims s r
  | .pruneFlow f => tabGet s.trims (flowKey gid f) 0
  | .fault _ => s.nextId + 2 ^ 64 * s.now
  | _ => 0

/-- The grove a breakpoint is for: the selected one, or the one that `break ember` names. -/
def breakGrove (s : State) : BreakOn → Nat
  | .ember (some g) => g
  | _ => s.huash.sel

/-- BREAK: the breakpoint stands for every grove that receives the id (R358; log entry 44). -/
def execBreakOn (on : BreakOn) (s : State) : Res :=
  huashCmd (fun s =>
    let gid := breakGrove s on
    { s with huash := { s.huash with breaks := s.huash.breaks ++ [(gid, on, breakBase s gid on)] } }) s

/-- The class of a cause. -/
def causeClass (c : Nat) : Nat := c / 64

/-- The fault records of a grove since an id, whose cause is of a class: cause; the unit as R191 names it, by SRC, CLU and EP; stream; address. -/
def newFaults (s : State) (gid cls since : Nat) : List (List Nat) :=
  let g := s.grove gid
  (s.packets ++ g.clusters.flatMap (fun c => (s.coreOf c).inbox)).filterMap (fun p =>
    let v := (p.pay.head?.map (·.toNat)).getD 0
    if p.grove = gid && p.cls = 15 && decide (since ≤ p.id) && causeClass (field v 246 10) = cls then
      some [field v 246 10, field v 244 2, field v 235 9, field v 227 8, field v 199 16, field v 119 48]
    else none)

/-- The threads of a grove that have taken a precise trap of a class since a cycle, into a handler or, without a trap vector, into a halt: cause;
a control thread as unit, by the cluster and its number there; no stream; tval. -/
def trappedThreads (s : State) (g : Grove) (cls since : Nat) : List (List Nat) :=
  (g.threads.filter (fun t => decide (since < (s.thr t).trapAt) && causeClass (s.thr t).cause.toNat = cls)).map (fun t =>
    [(s.thr t).cause.toNat, 2, cluCode (t / 8), t % 8, 0, (s.thr t).tval.toNat])

/-- Every input of a grove that a circuit feeds has had its ember marker (R195, R356). -/
def markersIn (s : State) (g : Grove) : Bool :=
  g.tiles.all (fun x => allPorts.all (fun p =>
    ((s.tile x).cfg.ins[p]).isNone || !circuitFeeds s g x p || ((s.tile x).ins[p]).emberSeen))
    && g.slices.all (fun x => (s.slice x).emberIn.toList.all Option.isSome)

/-- What a breakpoint that holds now prints. -/
def breakHit (s : State) (gid : Nat) (b : BreakOn × Nat) : Option (List Nat) :=
  let g := s.grove gid
  let when_ := fun (c : Bool) (l : List Nat) => if c then some l else none
  match b.1 with
  | .fire x a n =>
    (g.siteRel (x % 64) (x / 64)).bind (fun y => when_ (decide (n ≤ (actorSt (s.tile y) a).count)) [0, x, a, (actorSt (s.tile y) a).count])
  | .round n => when_ (g.slices.any (fun y => decide (n ≤ (s.slice y).committed))) [1, n]
  | .ember _ => when_ (g.run = .embering && markersIn s g) [2, gid]
  | .ash x p =>
    (g.siteRel (x % 64) (x / 64)).bind (fun y =>
      when_ ((((s.tile y).ins.toList[p]?).getD {}).items.any (fun i =>
        match i with
        | .ash _ _ _ => true
        | _ => false)) [3, x, p])
  | .pruneRouter r => when_ (decide (b.2 < routerTrims s r)) [4, r]
  | .pruneFlow f => when_ (decide (b.2 < tabGet s.trims (flowKey gid f) 0)) [5, f]
  | .pc t a => (g.threads[t]?).bind (fun th => when_ (decide ((s.thr th).pc = a)) [6, t, a])
  | .fault c => ((newFaults s gid c (b.2 % 2 ^ 64) ++ trappedThreads s g c (b.2 / 2 ^ 64)).head?).map (fun l => 7 :: l)
  | .cycle n => when_ (decide (n = s.now)) [8, n]

/-- The breakpoint of a running grove that stops it now: one that holds and has not stopped the grove already while it held. -/
def breakDue (s : State) (gid : Nat) : Option (Nat × BreakOn × Nat) :=
  if !(s.grove gid).live || (s.grove gid).run = .halted then none
  else s.huash.breaks.find? (fun b => b.1 = gid && !s.huash.hot.contains (gid, b.2.1) && (breakHit s gid b.2).isSome)

/-- BREAKPOINT_HALT: a breakpoint of a grove holds: the grove halts (R213). The breakpoint stands, and stops the grove again when it holds anew
(R358; log entry 44). -/
def execBreakpointHalt (grove : Nat) (s : State) : Res :=
  .next
    (match breakDue s grove with
     | none => s
     | some b =>
       let s1 := haltGrove s grove { cmd := "stopped", vals := s.now :: grove :: (breakHit s grove b.2).getD [] }
       let again : Nat × BreakOn × Nat := (grove, b.2.1, breakBase s grove b.2.1)
       { s1 with huash := { s1.huash with breaks := s1.huash.breaks.map (fun k => if k = b then again else k),
                                          hot := (grove, b.2.1) :: s1.huash.hot } })

/-- A breakpoint that has stopped its grove still holds: the grove stands halted, or what it stopped at is still so. -/
def stillHot (s : State) (h : Nat × BreakOn) : Bool :=
  (s.grove h.1).live && ((s.grove h.1).run = .halted || s.huash.breaks.any (fun b => b.1 = h.1 && b.2.1 = h.2 && (breakHit s h.1 b.2).isSome))

/-- The breakpoints that may stop their groves again. -/
def coolBreaks (s : State) : State := { s with huash := { s.huash with hot := s.huash.hot.filter (stillHot s) } }

/-- The pauses of a grove's streams and nodes, with the time of theirs in which it stood halted left out (R213). -/
def shiftPauses (s : State) (g : Grove) (since : Nat) : State :=
  let later := fun (t : Nat) => t + (s.now - Nat.max t since)
  let s1 := (groveStreams s g).foldl (fun s l => if l.2.paused.isSome then putStream s l.1 { l.2 with pausedAt := later l.2.pausedAt } else s) s
  g.slices.foldl (fun s x =>
    s.setSlice x { s.slice x with nodes := (s.slice x).nodes.map (fun n => { n with withheld := n.withheld.map (fun w => (w.1, later w.2)) }) }) s1

/-- A halted grove goes on as it stood. -/
def resumeHalted (s : State) (gid : Nat) : State :=
  let g := s.grove gid
  if !g.live || g.run ≠ .halted then s
  else goOn ((shiftPauses s g (g.haltedAt.getD s.now)).setGrove gid { g with run := g.was, haltedAt := none }) g

/-- GO: every halted grove goes on, whichever is selected (R213, R358; log entry 44). -/
def execGo (s : State) : Res := huashCmd (fun s => (s.groves.map Prod.fst).foldl resumeHalted s) s

/-! ## Traces (R349) -/

/-- What a trace names, by its absolute site. -/
def traceSite (s : State) : TraceOf → Option TraceOf
  | .inPort x p => (selSite s x).map (fun y => .inPort y p)
  | .outPort x p => (selSite s x).map (fun y => .outPort y p)
  | .actor x a => (selSite s x).map (fun y => .actor y a)

/-- TRACE: recording from the next cycle. -/
def execTraceArm (of : TraceOf) (s : State) : Res :=
  huashCmd (fun s =>
    match traceSite s of with
    | none => s
    | some k => { s with huash := { s.huash with traces := s.huash.traces ++ [(s.now + 1, k)] } }) s

/-- TRACE_SHOW: what was recorded. -/
def execTraceShow (of : TraceOf) (s : State) : Res :=
  .next (printLine s "trace" (((traceSite s of).map (fun k => (s.huash.recs.filter (fun r => r.of = k)).flatMap (·.vals))).getD []))

/-! ## Ports, tiles, registers, memory (R213, R349) -/

/-- Q: a port's items in delivery order; those at the end of an earlier cycle if the port was traced then. -/
def execPortShow (site port : Nat) (cyc : Option Nat) (s : State) : Res :=
  printSite "q" site (fun x =>
    match cyc with
    | none => (((s.tile x).ins.toList[port]?).getD {}).items.flatMap itemVals
    | some c =>
      ((s.huash.snaps.find? (fun k => k.site = x && k.port = port && k.cycle = c)).map (fun k => k.items.flatMap itemVals)).getD []) s

/-- TILE: of each actor its firing count, WC and WL; the stop state; and the integrity-event counter of the grove, which R198 has Huash print
(DESIGN CHOICE where, log entry 81). -/
def execTileShow (site : Nat) (s : State) : Res :=
  printSite "tile" site (fun x =>
    let t := s.tile x
    (actorsOf t).flatMap (fun k => [k.1, (actorSt t k.1).count, (actorSt t k.1).wc, (actorSt t k.1).wl]) ++ [t.stopped.toNat, (selGrove s).integrity]) s

/-- REGS: registers of a thread. -/
def execRegsShow (thread : Nat) (names : List Nat) (s : State) : Res :=
  .next (printLine s "regs" (((selThread s thread).map (fun t =>
    let th := s.thr t
    names.flatMap (fun n => ((th.regs.toList[n]?).map (fun r => if n = 0 then [0] else shown s r.gen th.gen r.val.toNat)).getD []))).getD []))

/-- The lanes of a word, or one of them. -/
def wordLanes (lane : Option Nat) (v : Nat) : List Nat :=
  match lane with
  | some l => [field v (32 * l) 32]
  | none => (List.range 8).map (fun l => field v (32 * l) 32)

/-- A word of the selected grove's memory, and of a full-empty page its presence bits. -/
def memWord (s : State) (lane : Option Nat) (va : Nat) : List Nat :=
  let g := selGrove s
  match s.walkG g va with
  | .error _ => []
  | .ok e =>
    let pa := e.at_ va
    wordLanes lane (s.numAt g.key pa 32)
      ++ (if pteFe e.leaf.toNat && lane.isNone then (List.range 4).map (fun i => (s.isFull (pa + 8 * i)).toNat) else [])

/-- MEM. -/
def execMemShow (va count : Nat) (lane : Option Nat) (s : State) : Res :=
  .next (printLine s "mem" ((List.range count).flatMap (fun i => memWord s lane (va + 32 * i))))

/-! ## Engines and nodes (R213, R354) -/

/-- WIN: of a branch of an engine the tokens sent and reported, the window count, the window of the stream that has the branch, and whether it
is paced. -/
def execWinShow (slice : Nat) (eng : Fin 2) (branch : Nat) (s : State) : Res :=
  printSite "win" slice (fun x =>
    let e := engineOf s x eng.val
    let sent := (e.sent.toList[branch]?).getD 0
    let rep := reportedAt e s.now branch
    let w := ((List.range 4).findSome? (fun k => (genStream s x (4 * eng.val + k)).bind (fun st => tabFind st.branches branch))).getD 0
    let n := windowCount e s.now branch
    [branch, sent, rep, n.toNat, w, (w ≠ 0 && decide ((w : Int) ≤ n) : Bool).toNat]) s

/-- What a place of the reorder window holds, as `rw` prints it: nothing of a place that is only asked for; else the SEQ of its record, the token within it,
and its state: 1 held, 2 a hole, with the cycle of its prune, the cycle of its re-request (0: none sent yet) and the prunes of the stream, 3 lost, 4 faulted
(R354). -/
def placeVals (st : Stream) (r : RoTok) : List Nat :=
  let head := [r.idx / (st.pat.rlen + 1), r.idx % (st.pat.rlen + 1)]
  match r.st with
  | .asked => []
  | .data _ => head ++ [1, 0, 0, 0]
  | .hole pruned again => head ++ [2, pruned, again.getD 0, st.prunes]
  | .gone _ => head ++ [3, 0, 0, 0]
  | .fault _ _ => head ++ [4, 0, 0, 0]

/-- RW: of each flow of an engine its id, whether it is lossy, the next SEQ to emit, and each held response or hole; and the space reserved, of 256. -/
def execRwShow (slice : Nat) (eng : Fin 2) (s : State) : Res :=
  printSite "rw" slice (fun x =>
    (List.range 4).flatMap (fun k =>
      match genStream s x (4 * eng.val + k) with
      | none => []
      | some st => [st.sid, st.lossy.toNat, st.emit / (st.pat.rlen + 1)] ++ st.win.flatMap (placeVals st))
    ++ [windowUsed s x eng.val false, 256]) s

/-- TRIM. -/
def execTrimShow (of : TrimOf) (s : State) : Res := .next (printLine s "trim" [tabGet s.trims (trimOfKey s.huash.sel of) 0])

/-! ## The matrix unit (R351, R354) -/

/-- The format of a slot, as a number. -/
def fmtCode : SlotFmt → Nat
  | .none => 0 | .bf16 => 1 | .desc d => 2 + d.toNat

/-- Lines about slots of tiles of the selected grove. -/
def printSlots (cmd : String) (l : List (Nat × Nat)) (f : Tile → Nat → List Nat) (s : State) : Res :=
  .next (printLine s cmd (l.flatMap (fun k => ((selSite s k.1).map (fun x => f (s.tile x) k.2)).getD [])))

/-- SLOT: the owner, the bytes pending, the use count, the element format. -/
def execSlotShow (slots : List (Nat × Nat)) (s : State) : Res :=
  printSlots "slot" slots (fun t n =>
    match t.slots.toList[n]? with
    | none => []
    | some x => [(x.claim.map (· + 1)).getD 0, x.pending, x.use] ++ shown s x.gen t.gen (fmtCode x.fmt)) s

/-- BOUNDS. -/
def execBoundsShow (slots : List (Nat × Nat)) (s : State) : Res :=
  printSlots "bounds" slots (fun t n =>
    match t.bounds.toList[n]? with
    | none => []
    | some b => [b.lo, b.hi, b.n].flatMap (shown s b.gen t.gen)) s

/-- MS. -/
def execMsShow (site : Nat) (s : State) : Res :=
  printSite "ms" site (fun x =>
    let m := (s.tile x).ms
    [m.cl, m.snan.toNat, m.inf.toNat, m.nan.toNat, m.psp.toNat]) s

/-- `n` bytes of a store within a granule, as the debugger reads them (R92): as the tenant sees them, stale bytes as zero and never trapping, or
under a capability their raw contents and the stamp. -/
def storeShown (s : State) (tab : Tab Gran) (gen off n : Nat) : Nat × List Nat :=
  if privPath s then
    (let x := tabGet tab (off / 64) {}
     (field x.val.toNat (8 * (off % 64)) (8 * n), [x.gen]))
  else ((storeRead tab gen false (n + 1) off n).toOption.getD 0, [])

/-- BAR: a barrier object. -/
def execBarShow (slice off : Nat) (s : State) : Res :=
  printSite "bar" slice (fun x =>
    let v := storeShown s (s.slice x).store (s.slice x).gen off 16
    [(barrierOf v.1).part, (barrierOf v.1).pend, (barrierOf v.1).phase] ++ v.2) s

/-! ## Saves, state, tile store, draws (R356, R358) -/

/-- Of an input: the items queued, the items recorded, each with its arrival cycle and record's values, and the cycle that closed the recording. -/
def portSaveVals (p : InPort) : List Nat :=
  let of := fun (f : Item → Bool) => p.items.filter f
  let arrived : Item → Nat := fun i => (match i with
    | .record r _ _ _ => r.arr
    | .ash a _ _ => a.arr.getD 0
    | .marker _ => 0)
  let list := fun (l : List Item) => l.length :: l.flatMap (fun i => arrived i :: itemVals i)
  list (of (fun i => i.place ≠ some .recorded)) ++ list (of (fun i => i.place = some .recorded)) ++ [p.emberCyc]

/-- Of a tile: the cycles of its first ember marker, of the end of a firing that ran then, and of its save; and its inputs. -/
def tileSaveVals (t : Tile) : List Nat :=
  [t.emberLog.1, t.emberLog.2.1, t.emberLog.2.2] ++ (allPorts.filter (fun p => (t.cfg.ins[p]).isSome)).flatMap (fun p => portSaveVals t.ins[p])

/-- Of a store port: the cycle of its marker, which is that of its save, where its walk stands, and the commit tokens it holds. -/
def portStreamVals (s : State) (x : Nat) (st : Stream) : List Nat :=
  let saved := (((s.slice x).emberIn.toList[st.cp]?).join).getD 0
  [st.sid, saved, st.wpos, st.held.length] ++ st.held.flatMap (fun h => [h.pos, h.round, h.tok.kind, h.tok.weight, (laneAt h.tok.pay 0).toNat])

/-- Of a slice: its store ports; of an engine's streams the walk position and the cycle of the save, in which the ember began. -/
def sliceSaveVals (s : State) (x : Nat) : List Nat :=
  (sliceStreams s x).flatMap (fun l =>
    if l.2.kind = .store then portStreamVals s x l.2 else [l.2.sid, (siteGrove s x).emberAt, l.2.emit])

/-- SAVES: of each site of the selected grove, halted as it embers, what it saves (R356). -/
def execSavesShow (s : State) : Res :=
  .next (printLine s "saves" ((selGrove s).sites.flatMap (fun x => if siteIsSlice x then sliceSaveVals s x else tileSaveVals (s.tile x))))

/-- A word of a tile's store. -/
def tileShown (s : State) (t : Tile) (off : Nat) : Nat × List Nat := storeShown s t.store t.gen off 32

/-- SV: of each lane that is not zero the committed value and each actor's pending one. -/
def execSvShow (site n : Nat) (s : State) : Res :=
  printSite "sv" site (fun x =>
    let t := s.tile x
    let w := tileShown s t (svOffset n)
    (List.range 8).flatMap (fun l =>
      let v := field w.1 (32 * l) 32
      let ps := (actorsOf t).filterMap (fun k => (tabFind (actorSt t k.1).pend (8 * n + l)).map (fun w => (k.1, w.toNat)))
      if v = 0 && ps.isEmpty then [] else [l, v] ++ ps.flatMap (fun p => [p.1, p.2])) ++ w.2) s

/-- TS: words of a tile's store as lanes. -/
def execTsShow (site off count : Nat) (s : State) : Res :=
  printSite "ts" site (fun x => (List.range count).flatMap (fun i =>
    let w := tileShown s (s.tile x) (off + 32 * i)
    wordLanes none w.1 ++ w.2)) s

/-- DSTATE: an actor's draw key and its committed counter. -/
def execDstateShow (site actor : Nat) (s : State) : Res :=
  printSite "dstate" site (fun x =>
    let t := s.tile x
    match (t.cfg.actors.toList[actor]?).join with
    | none => []
    | some a => [a.kh.toNat, a.kl.toNat, (actorSt t actor).ctr.toNat / 2 ^ 64, (actorSt t actor).ctr.toNat % 2 ^ 64]) s

end Sys2Proof.Machine
end

