-- ==== Sys2Proof/Machine/Dispatch.lean ====
section
/-! DEFINITION. The meaning of every instruction and event: one direct call for each constructor of Instr. -/

namespace Sys2Proof.Machine

def exec (i : Instr) (s : State) : Host.Outcome State Fault Refusal :=
  match i with
  | .add d a b => Sys2Proof.Machine.execAdd d a b s
  | .sub d a b => Sys2Proof.Machine.execSub d a b s
  | .and d a b => Sys2Proof.Machine.execAnd d a b s
  | .or d a b => Sys2Proof.Machine.execOr d a b s
  | .xor d a b => Sys2Proof.Machine.execXor d a b s
  | .sll d a b => Sys2Proof.Machine.execSll d a b s
  | .srl d a b => Sys2Proof.Machine.execSrl d a b s
  | .sra d a b => Sys2Proof.Machine.execSra d a b s
  | .slt d a b => Sys2Proof.Machine.execSlt d a b s
  | .sltu d a b => Sys2Proof.Machine.execSltu d a b s
  | .mul d a b => Sys2Proof.Machine.execMul d a b s
  | .mulh d a b => Sys2Proof.Machine.execMulh d a b s
  | .mulhu d a b => Sys2Proof.Machine.execMulhu d a b s
  | .div d a b => Sys2Proof.Machine.execDiv d a b s
  | .divu d a b => Sys2Proof.Machine.execDivu d a b s
  | .rem d a b => Sys2Proof.Machine.execRem d a b s
  | .remu d a b => Sys2Proof.Machine.execRemu d a b s
  | .addc d a b => Sys2Proof.Machine.execAddc d a b s
  | .subc d a b => Sys2Proof.Machine.execSubc d a b s
  | .min d a b => Sys2Proof.Machine.execMin d a b s
  | .max d a b => Sys2Proof.Machine.execMax d a b s
  | .minu d a b => Sys2Proof.Machine.execMinu d a b s
  | .maxu d a b => Sys2Proof.Machine.execMaxu d a b s
  | .slli d a sh => Sys2Proof.Machine.execSlli d a sh s
  | .srli d a sh => Sys2Proof.Machine.execSrli d a sh s
  | .srai d a sh => Sys2Proof.Machine.execSrai d a sh s
  | .addi d a imm => Sys2Proof.Machine.execAddi d a imm s
  | .andi d a imm => Sys2Proof.Machine.execAndi d a imm s
  | .ori d a imm => Sys2Proof.Machine.execOri d a imm s
  | .xori d a imm => Sys2Proof.Machine.execXori d a imm s
  | .slti d a imm => Sys2Proof.Machine.execSlti d a imm s
  | .sltiu d a imm => Sys2Proof.Machine.execSltiu d a imm s
  | .li d imm => Sys2Proof.Machine.execLi d imm s
  | .ldB d a imm => Sys2Proof.Machine.execLdB d a imm s
  | .ldBu d a imm => Sys2Proof.Machine.execLdBu d a imm s
  | .ldH d a imm => Sys2Proof.Machine.execLdH d a imm s
  | .ldHu d a imm => Sys2Proof.Machine.execLdHu d a imm s
  | .ldW d a imm => Sys2Proof.Machine.execLdW d a imm s
  | .ldWu d a imm => Sys2Proof.Machine.execLdWu d a imm s
  | .ldD d a imm => Sys2Proof.Machine.execLdD d a imm s
  | .stB r a imm => Sys2Proof.Machine.execStB r a imm s
  | .stH r a imm => Sys2Proof.Machine.execStH r a imm s
  | .stW r a imm => Sys2Proof.Machine.execStW r a imm s
  | .stD r a imm => Sys2Proof.Machine.execStD r a imm s
  | .ldf d a imm => Sys2Proof.Machine.execLdf d a imm s
  | .ldt d a imm => Sys2Proof.Machine.execLdt d a imm s
  | .stf r a imm => Sys2Proof.Machine.execStf r a imm s
  | .stfo r a imm => Sys2Proof.Machine.execStfo r a imm s
  | .amoAdd d a b sz => Sys2Proof.Machine.execAmoAdd d a b sz s
  | .amoMin d a b sz => Sys2Proof.Machine.execAmoMin d a b sz s
  | .amoMax d a b sz => Sys2Proof.Machine.execAmoMax d a b sz s
  | .amoSwap d a b sz => Sys2Proof.Machine.execAmoSwap d a b sz s
  | .amoCas d a b sz => Sys2Proof.Machine.execAmoCas d a b sz s
  | .beq a b h off => Sys2Proof.Machine.execBeq a b h off s
  | .bne a b h off => Sys2Proof.Machine.execBne a b h off s
  | .blt a b h off => Sys2Proof.Machine.execBlt a b h off s
  | .bge a b h off => Sys2Proof.Machine.execBge a b h off s
  | .bltu a b h off => Sys2Proof.Machine.execBltu a b h off s
  | .bgeu a b h off => Sys2Proof.Machine.execBgeu a b h off s
  | .jal d off => Sys2Proof.Machine.execJal d off s
  | .jr d a => Sys2Proof.Machine.execJr d a s
  | .sysr d n => Sys2Proof.Machine.execSysr d n s
  | .sysw a n => Sys2Proof.Machine.execSysw a n s
  | .trap code => Sys2Proof.Machine.execTrap code s
  | .eret => Sys2Proof.Machine.execEret s
  | .halt => Sys2Proof.Machine.execHalt s
  | .idle => Sys2Proof.Machine.execIdle s
  | .fence sc => Sys2Proof.Machine.execFence sc s
  | .wait l t c m => Sys2Proof.Machine.execWait l t c m s
  | .barInit a b => Sys2Proof.Machine.execBarInit a b s
  | .arrive d a => Sys2Proof.Machine.execArrive d a s
  | .await a b => Sys2Proof.Machine.execAwait a b s
  | .gjoin a => Sys2Proof.Machine.execGjoin a s
  | .gleave a => Sys2Proof.Machine.execGleave a s
  | .gsize d a => Sys2Proof.Machine.execGsize d a s
  | .sbind d a b => Sys2Proof.Machine.execSbind d a b s
  | .sfill d a b => Sys2Proof.Machine.execSfill d a b s
  | .sstore d a b => Sys2Proof.Machine.execSstore d a b s
  | .sgather d a b => Sys2Proof.Machine.execSgather d a b s
  | .sscatter d b => Sys2Proof.Machine.execSscatter d b s
  | .scut d a b => Sys2Proof.Machine.execScut d a b s
  | .shalo a => Sys2Proof.Machine.execShalo a s
  | .smove a => Sys2Proof.Machine.execSmove a s
  | .swin a b => Sys2Proof.Machine.execSwin a b s
  | .sclose a => Sys2Proof.Machine.execSclose a s
  | .sresume a => Sys2Proof.Machine.execSresume a s
  | .sresumeT a => Sys2Proof.Machine.execSresumeT a s
  | .sflush a => Sys2Proof.Machine.execSflush a s
  | .gload d a b => Sys2Proof.Machine.execGload d a b s
  | .gsplice a b => Sys2Proof.Machine.execGsplice a b s
  | .gstage d a b nm1 => Sys2Proof.Machine.execGstage d a b nm1 s
  | .grelease a => Sys2Proof.Machine.execGrelease a s
  | .setMode a b => Sys2Proof.Machine.execSetMode a b s
  | .setRound a b => Sys2Proof.Machine.execSetRound a b s
  | .ember d a => Sys2Proof.Machine.execEmber d a s
  | .rekindle d a b => Sys2Proof.Machine.execRekindle d a b s
  | .nsend a b len => Sys2Proof.Machine.execNsend a b len s
  | .maskc a => Sys2Proof.Machine.execMaskc a s
  | .unmaskc a => Sys2Proof.Machine.execUnmaskc a s
  | .nred d a b => Sys2Proof.Machine.execNred d a b s
  | .leaveReq d a => Sys2Proof.Machine.execLeaveReq d a s
  | .leaveRet a => Sys2Proof.Machine.execLeaveRet a s
  | .mfsnap a b => Sys2Proof.Machine.execMfsnap a b s
  | .mfcmp d a b => Sys2Proof.Machine.execMfcmp d a b s
  | .tinv a b => Sys2Proof.Machine.execTinv a b s
  | .markGive f => Sys2Proof.Machine.execMarkGive f s
  | .markTake f => Sys2Proof.Machine.execMarkTake f s
  | .prefixWord => Sys2Proof.Machine.execPrefixWord s
  | .loadDataReturn id => Sys2Proof.Machine.execLoadDataReturn id s
  | .storeAcknowledgement id => Sys2Proof.Machine.execStoreAcknowledgement id s
  | .operationComplete id => Sys2Proof.Machine.execOperationComplete id s
  | .tinvComplete id => Sys2Proof.Machine.execTinvComplete id s
  | .tileAdd o => Sys2Proof.Machine.execTileAdd o s
  | .tileSub o => Sys2Proof.Machine.execTileSub o s
  | .tileMul o => Sys2Proof.Machine.execTileMul o s
  | .tileMulh o => Sys2Proof.Machine.execTileMulh o s
  | .tileMin o => Sys2Proof.Machine.execTileMin o s
  | .tileMax o => Sys2Proof.Machine.execTileMax o s
  | .abs o => Sys2Proof.Machine.execAbs o s
  | .neg o => Sys2Proof.Machine.execNeg o s
  | .tileAnd o => Sys2Proof.Machine.execTileAnd o s
  | .tileOr o => Sys2Proof.Machine.execTileOr o s
  | .tileXor o => Sys2Proof.Machine.execTileXor o s
  | .notLane o => Sys2Proof.Machine.execNotLane o s
  | .shl o => Sys2Proof.Machine.execShl o s
  | .shr o => Sys2Proof.Machine.execShr o s
  | .sar o => Sys2Proof.Machine.execSar o s
  | .popc o => Sys2Proof.Machine.execPopc o s
  | .clz o => Sys2Proof.Machine.execClz o s
  | .ceq o => Sys2Proof.Machine.execCeq o s
  | .cne o => Sys2Proof.Machine.execCne o s
  | .clt o => Sys2Proof.Machine.execClt o s
  | .cle o => Sys2Proof.Machine.execCle o s
  | .sel o => Sys2Proof.Machine.execSel o s
  | .fadd o => Sys2Proof.Machine.execFadd o s
  | .fsub o => Sys2Proof.Machine.execFsub o s
  | .fmul o => Sys2Proof.Machine.execFmul o s
  | .fma o => Sys2Proof.Machine.execFma o s
  | .fmin o => Sys2Proof.Machine.execFmin o s
  | .fmax o => Sys2Proof.Machine.execFmax o s
  | .fabs o => Sys2Proof.Machine.execFabs o s
  | .fneg o => Sys2Proof.Machine.execFneg o s
  | .frcp o => Sys2Proof.Machine.execFrcp o s
  | .frsq o => Sys2Proof.Machine.execFrsq o s
  | .fexp2 o => Sys2Proof.Machine.execFexp2 o s
  | .flog2 o => Sys2Proof.Machine.execFlog2 o s
  | .cvt o => Sys2Proof.Machine.execCvt o s
  | .pkn o => Sys2Proof.Machine.execPkn o s
  | .upn o => Sys2Proof.Machine.execUpn o s
  | .bcast o => Sys2Proof.Machine.execBcast o s
  | .perm o => Sys2Proof.Machine.execPerm o s
  | .lrot o => Sys2Proof.Machine.execLrot o s
  | .radd o => Sys2Proof.Machine.execRadd o s
  | .rmax o => Sys2Proof.Machine.execRmax o s
  | .rmin o => Sys2Proof.Machine.execRmin o s
  | .constLane omsk v => Sys2Proof.Machine.execConstLane omsk v s
  | .draw o => Sys2Proof.Machine.execDraw o s
  | .emit a b omsk imm => Sys2Proof.Machine.execEmit a b omsk imm s
  | .emitP a b omsk imm => Sys2Proof.Machine.execEmitP a b omsk imm s
  | .wgt p out => Sys2Proof.Machine.execWgt p out s
  | .setw p a imm => Sys2Proof.Machine.execSetw p a imm s
  | .ash a omsk => Sys2Proof.Machine.execAsh a omsk s
  | .kind p out => Sys2Proof.Machine.execKind p out s
  | .wcr out => Sys2Proof.Machine.execWcr out s
  | .wcc out => Sys2Proof.Machine.execWcc out s
  | .svr a out => Sys2Proof.Machine.execSvr a out s
  | .svw a n mask => Sys2Proof.Machine.execSvw a n mask s
  | .tld a st out => Sys2Proof.Machine.execTld a st out s
  | .tst a b st => Sys2Proof.Machine.execTst a b st s
  | .tldx a st out => Sys2Proof.Machine.execTldx a st out s
  | .tmove o => Sys2Proof.Machine.execTmove o s
  | .tmoveTokenLand site => Sys2Proof.Machine.execTmoveTokenLand site s
  | .treeadd o => Sys2Proof.Machine.execTreeadd o s
  | .ctok q a imm => Sys2Proof.Machine.execCtok q a imm s
  | .br t => Sys2Proof.Machine.execBr t s
  | .bc c v t => Sys2Proof.Machine.execBc c v t s
  | .bany n t => Sys2Proof.Machine.execBany n t s
  | .ball n t => Sys2Proof.Machine.execBall n t s
  | .loop n m t => Sys2Proof.Machine.execLoop n m t s
  | .endFiring => Sys2Proof.Machine.execEndFiring s
  | .tileTrap code => Sys2Proof.Machine.execTileTrap code s
  | .brk code => Sys2Proof.Machine.execBrk code s
  | .nop => Sys2Proof.Machine.execNop s
  | .claim n => Sys2Proof.Machine.execClaim n s
  | .releaseSlot n => Sys2Proof.Machine.execReleaseSlot n s
  | .mma o => Sys2Proof.Machine.execMma o s
  | .mmaC o => Sys2Proof.Machine.execMmaC o s
  | .mmas acc x y => Sys2Proof.Machine.execMmas acc x y s
  | .azero acc => Sys2Proof.Machine.execAzero acc s
  | .aload acc off => Sys2Proof.Machine.execAload acc off s
  | .drain acc omsk => Sys2Proof.Machine.execDrain acc omsk s
  | .drainSteer acc => Sys2Proof.Machine.execDrainSteer acc s
  | .steer f g => Sys2Proof.Machine.execSteer f g s
  | .cutb n out => Sys2Proof.Machine.execCutb n out s
  | .mstat clr out => Sys2Proof.Machine.execMstat clr out s
  | .mwait o => Sys2Proof.Machine.execMwait o s
  | .matrixCommandStart site => Sys2Proof.Machine.execMatrixCommandStart site s
  | .matrixCommandComplete site => Sys2Proof.Machine.execMatrixCommandComplete site s
  | .firingStart site => Sys2Proof.Machine.execFiringStart site s
  | .firingEnd site => Sys2Proof.Machine.execFiringEnd site s
  | .ashStep site actor => Sys2Proof.Machine.execAshStep site actor s
  | .inputPortArrival site port => Sys2Proof.Machine.execInputPortArrival site port s
  | .spillReturn site port => Sys2Proof.Machine.execSpillReturn site port s
  | .roundMarkerLeave site => Sys2Proof.Machine.execRoundMarkerLeave site s
  | .endOfRunLeave site => Sys2Proof.Machine.execEndOfRunLeave site s
  | .endOfKernelLeave site => Sys2Proof.Machine.execEndOfKernelLeave site s
  | .controlTokenArrival site c => Sys2Proof.Machine.execControlTokenArrival site c s
  | .streamCommandDequeue cluster => Sys2Proof.Machine.execStreamCommandDequeue cluster s
  | .extentSetBuild slice gen => Sys2Proof.Machine.execExtentSetBuild slice gen s
  | .engineIssueRead slice gen => Sys2Proof.Machine.execEngineIssueRead slice gen s
  | .readResponseArrival pkt => Sys2Proof.Machine.execReadResponseArrival pkt s
  | .engineEmitToken slice gen => Sys2Proof.Machine.execEngineEmitToken slice gen s
  | .consumedCountReport pkt => Sys2Proof.Machine.execConsumedCountReport pkt s
  | .fillTokenLand site => Sys2Proof.Machine.execFillTokenLand site s
  | .fillSinkEndOfRun site => Sys2Proof.Machine.execFillSinkEndOfRun site s
  | .cutDecide slice gen => Sys2Proof.Machine.execCutDecide slice gen s
  | .scatterTokenArrival slice node => Sys2Proof.Machine.execScatterTokenArrival slice node s
  | .scatterWriteApply pkt => Sys2Proof.Machine.execScatterWriteApply pkt s
  | .gatherOffsetArrival slice node => Sys2Proof.Machine.execGatherOffsetArrival slice node s
  | .cornerTurnTokenArrival slice node => Sys2Proof.Machine.execCornerTurnTokenArrival slice node s
  | .treeReducePartialArrival slice node => Sys2Proof.Machine.execTreeReducePartialArrival slice node s
  | .tokenizerTokenArrival slice node => Sys2Proof.Machine.execTokenizerTokenArrival slice node s
  | .routerHeaderArrival pkt => Sys2Proof.Machine.execRouterHeaderArrival pkt s
  | .prunedHeaderReceipt pkt => Sys2Proof.Machine.execPrunedHeaderReceipt pkt s
  | .reRequest id => Sys2Proof.Machine.execReRequest id s
  | .reRequestReceipt pkt => Sys2Proof.Machine.execReRequestReceipt pkt s
  | .memoryRequestPerform id => Sys2Proof.Machine.execMemoryRequestPerform id s
  | .routeClassMessageReceipt pkt => Sys2Proof.Machine.execRouteClassMessageReceipt pkt s
  | .handlerDispatch thread => Sys2Proof.Machine.execHandlerDispatch thread s
  | .asyncTrapDispatch grove => Sys2Proof.Machine.execAsyncTrapDispatch grove s
  | .reductionPartialArrival pkt => Sys2Proof.Machine.execReductionPartialArrival pkt s
  | .haloTokenLand id => Sys2Proof.Machine.execHaloTokenLand id s
  | .smoveToken id => Sys2Proof.Machine.execSmoveToken id s
  | .storePortTokenArrival slice port => Sys2Proof.Machine.execStorePortTokenArrival slice port s
  | .storeStreamComplete slice gen => Sys2Proof.Machine.execStoreStreamComplete slice gen s
  | .roundCommit slice => Sys2Proof.Machine.execRoundCommit slice s
  | .tileSpliceSwitch site => Sys2Proof.Machine.execTileSpliceSwitch site s
  | .switchBoxSplice site => Sys2Proof.Machine.execSwitchBoxSplice site s
  | .stageQuiescenceCheck grove => Sys2Proof.Machine.execStageQuiescenceCheck grove s
  | .engineIdleGap slice eng => Sys2Proof.Machine.execEngineIdleGap slice eng s
  | .drainLimitExpiry grove => Sys2Proof.Machine.execDrainLimitExpiry grove s
  | .tileEmberSave site => Sys2Proof.Machine.execTileEmberSave site s
  | .emberClose grove => Sys2Proof.Machine.execEmberClose grove s
  | .freezeResume grove => Sys2Proof.Machine.execFreezeResume grove s
  | .configurationScrub grove => Sys2Proof.Machine.execConfigurationScrub grove s
  | .sramPatrolScrub site granule => Sys2Proof.Machine.execSramPatrolScrub site granule s
  | .lpddrPatrolScrub line => Sys2Proof.Machine.execLpddrPatrolScrub line s
  | .lpddrRecalibration channel => Sys2Proof.Machine.execLpddrRecalibration channel s
  | .telemetry => Sys2Proof.Machine.execTelemetry s
  | .hearthInternalError => Sys2Proof.Machine.execHearthInternalError s
  | .migrationRequest grove va toHost => Sys2Proof.Machine.execMigrationRequest grove va toHost s
  | .migrationComplete id => Sys2Proof.Machine.execMigrationComplete id s
  | .residenceFloorExpiry id => Sys2Proof.Machine.execResidenceFloorExpiry id s
  | .hostMemoryAccess addr wr data => Sys2Proof.Machine.execHostMemoryAccess addr wr data s
  | .plimitWrite v => Sys2Proof.Machine.execPlimitWrite v s
  | .registerWrite off v => Sys2Proof.Machine.execRegisterWrite off v s
  | .frameClear => Sys2Proof.Machine.execFrameClear s
  | .migrate => Sys2Proof.Machine.execMigrate s
  | .registerSigningKey => Sys2Proof.Machine.execRegisterSigningKey s
  | .clearTrimCounters => Sys2Proof.Machine.execClearTrimCounters s
  | .quote => Sys2Proof.Machine.execQuote s
  | .debugAttach => Sys2Proof.Machine.execDebugAttach s
  | .loadImage => Sys2Proof.Machine.execLoadImage s
  | .releaseGrove => Sys2Proof.Machine.execReleaseGrove s
  | .hostCommandComplete => Sys2Proof.Machine.execHostCommandComplete s
  | .resetPart => Sys2Proof.Machine.execResetPart s
  | .linkRemoval link => Sys2Proof.Machine.execLinkRemoval link s
  | .breakpointHalt grove => Sys2Proof.Machine.execBreakpointHalt grove s
  | .go => Sys2Proof.Machine.execGo s
  | .breakOn on => Sys2Proof.Machine.execBreakOn on s
  | .traceArm of => Sys2Proof.Machine.execTraceArm of s
  | .traceShow of => Sys2Proof.Machine.execTraceShow of s
  | .portShow site port cyc => Sys2Proof.Machine.execPortShow site port cyc s
  | .tileShow site => Sys2Proof.Machine.execTileShow site s
  | .regsShow thread names => Sys2Proof.Machine.execRegsShow thread names s
  | .memShow va count lane => Sys2Proof.Machine.execMemShow va count lane s
  | .winShow slice eng branch => Sys2Proof.Machine.execWinShow slice eng branch s
  | .slotShow slots => Sys2Proof.Machine.execSlotShow slots s
  | .barShow slice off => Sys2Proof.Machine.execBarShow slice off s
  | .boundsShow slots => Sys2Proof.Machine.execBoundsShow slots s
  | .msShow site => Sys2Proof.Machine.execMsShow site s
  | .trimShow of => Sys2Proof.Machine.execTrimShow of s
  | .rwShow slice eng => Sys2Proof.Machine.execRwShow slice eng s
  | .savesShow => Sys2Proof.Machine.execSavesShow s
  | .svShow site n => Sys2Proof.Machine.execSvShow site n s
  | .tsShow site off count => Sys2Proof.Machine.execTsShow site off count s
  | .groveSelect id => Sys2Proof.Machine.execGroveSelect id s
  | .dstateShow site actor => Sys2Proof.Machine.execDstateShow site actor s
  | .mwaitLimitExpiry site => Sys2Proof.Machine.execMwaitLimitExpiry site s
  | .linkDown link => Sys2Proof.Machine.execLinkDown link s
  | .unassignedControlOpcode => Sys2Proof.Machine.execUnassignedControlOpcode s
  | .unassignedTileOpcode => Sys2Proof.Machine.execUnassignedTileOpcode s

end Sys2Proof.Machine
end

