-- ==== Sys2Proof/WellFormed.lean ====
section
/-! DEFINITION. Well-formed instructions: the terms of Instr that a word encodes (R232, R233, R259, R267, R278, R285,
R289). A control instruction's types already keep its fields in range; a tile instruction is checked against its shape. -/

namespace Sys2Proof

/-- A lane instruction's fields pass the checks of its opcode (R233, R235). -/
def laneWf (opc : Nat) (l : Lane) : Bool :=
  match laneRow opc with
  | some (sh, _) =>
    (match laneChecks sh l.sa.code l.sb.code l.sc.code l.omsk.toNat l.lt.code l.rnd.code l.fmtx l.xa.toNat l.imm.toNat
        l.keep l.sat with
     | .ok _ => true
     | .error _ => false)
  | none => false

/-- An immediate field may be nonzero only where a source selects it (R231). -/
def immWf (srcs : List Sel) (imm : BitVec 21) : Bool := srcs.contains .imm || imm = 0

/-- The checks of the other tile words. -/
def otherWf : Instr → Bool
  | .emit a b om imm => om ≠ 0 && immWf [a, b] imm
  | .emitP a b om imm => om ≠ 0 && immWf [a, b] imm
  | .setw _ a imm => immWf [a] imm
  | .ash _ om => om ≠ 0
  | .ctok _ a imm => immWf [a] imm
  | .tmove o => [o.src, o.dst, o.len].contains .imm || (o.immHi = 0 && (o.notify || o.cin = 0))
  | .loop n m _ => n ≤ m
  | _ => true

/-- Whether some word encodes the instruction. -/
def Instr.wf (i : Instr) : Bool :=
  match encodeControl i with
  | some _ => true
  | none =>
    match laneOf i with
    | some (opc, l) => laneWf opc l
    | none => (encodeOther i).isSome && otherWf i

/-- Whether the row is an event: a step with no word (spec/95_what_each_step_holds.md). The two unassigned-opcode rows are
steps of an issuing unit and are no events. -/
def Instr.isEvent (i : Instr) : Bool :=
  (encodeControl i).isNone && (encodeTile i).isNone && i ≠ .unassignedControlOpcode && i ≠ .unassignedTileOpcode

end Sys2Proof
end

