-- ==== Sys2Proof/Machine/Issue.lean ====
section
/-! DEFINITION. Whose turn it is and what it issues: fetching a control word and a tile word (R114, R236), the choice of a
thread (R152), the passing of cycles (R102, R122), and the placing of a word. -/

namespace Sys2Proof.Machine

/-! ## Control cores -/

/-- The code word at a byte address of a cluster's code store; a word that no entry writes is zero (R230, R236). -/
def codeWord (s : State) (c pc : Nat) : Word32 := tabGet (s.coreOf c).code (pc / 4) 0

/-- A thread issues the word at its pc, with the gives of what has retired in its FIFOs (R155): past the code store it traps with 0x064 (R236); a word that does not decode traps
with its cause (R240), and an opcode no row names with 0x060; an uncorrectable word traps with 0x3C1 (R194); otherwise the instruction runs. -/
def runThread (s : State) (t : Nat) : Res :=
  let th := (s.thr t).ripen s.now
  let s1 := { s.setThr t th with focus := t }
  if 0x10000 ≤ th.pc then .next (trapMe s1 0x064 0)
  else if (s.coreOf (t / 8)).badCode.contains (th.pc / 4) then .next (trapMe s1 0x3C1 0)
  else
    match decodeControl (codeWord s (t / 8) th.pc) with
    | .ok i => exec i s1
    | .error c => .next (trapMe s1 c 0)

/-- The thread could issue now: its turn would not leave it waiting to try again. -/
def canIssue (s : State) (t : Nat) : Bool :=
  match runThread s t with
  | .next s1 => (s1.thr t).status ≠ .waiting .again
  | _ => true

/-- The grove of a thread lets its threads issue: it is not halted at a breakpoint or embering (R195, R213); a thread inside
a group finishes it, since no instruction boundary lies there (R237). -/
def mayRun (s : State) (t : Nat) : Bool :=
  match s.groveOfThread t with
  | none => true
  | some g => ((s.grove g).run ≠ .halted && (s.grove g).run ≠ .embering) || (s.thr t).group.isSome

/-- The threads of a core that are ready, those whose wait has ended among them (R151). -/
def readyThreads (s : State) (c : Nat) : List Nat :=
  ((List.range 8).map (fun n => 8 * c + n)).filter (fun t =>
    ((s.thr t).status = .ready || (s.thr t).status = .waiting .again) && mayRun s t && canIssue s t)

/-- The rank of a ready thread in the pick (R122, R152): aged threads first, then by role, then by number. -/
def pickRank (s : State) (c t : Nat) : Nat :=
  let th := s.thr t
  let age := if th.status = .ready then s.now - th.since else 0
  if (s.coreOf c).ageM ≤ age then t % 8 else 8 * (1 + th.role) + t % 8

/-- The thread R152 picks. -/
def pickThread (s : State) (c : Nat) : Option Nat :=
  (readyThreads s c).foldl (fun best t =>
    match best with
    | none => some t
    | some b => if pickRank s c t < pickRank s c b then some t else some b) none

/-- A thread that is not picked: it counts as ready from the cycle in which its wait has ended, and waits from the cycle in which it cannot
issue (R151, R152). -/
def settleThread (s : State) (s1 : State) (t : Nat) : State :=
  let th := s1.thr t
  if !((th.status = .ready || th.status = .waiting .again) && mayRun s t) then s1
  else if canIssue s t then (if th.status = .ready then s1 else s1.setThr t { th with status := .ready, since := s.now })
  else s1.setThr t { th with status := .waiting .again }

/-- A core's threads but the picked one. -/
def settleThreads (s : State) (c : Nat) (picked : Option Nat) : State :=
  (((List.range 8).map (fun n => 8 * c + n)).filter (fun t => some t ≠ picked)).foldl (settleThread s) s

/-- A core's turn: at most one instruction per cycle, from the thread R152 picks. -/
def coreTurn (s : State) (c : Nat) : Res :=
  if (s.coreOf c).issuedAt = some s.now then .next s
  else
    let p := pickThread s c
    let s1 := settleThreads s c p
    match p with
    | none => .next s1
    | some t =>
      let s2 := s1.setThr t { s1.thr t with status := .ready, since := s.now + 1 }
      runThread (s2.setCore c { s2.coreOf c with issuedAt := some s.now }) t

/-! ## Tiles -/

/-- The firing stands behind a brk while its grove is halted (R287). -/
def atBrk (s : State) (x : Nat) (t : Tile) (f : Firing) : Bool :=
  ((s.groveOfSite x).map (fun g => decide ((s.grove g).run = .halted))).getD false &&
    (match decodeTile (tileWord t (f.pc - 1)) with
     | .ok (.brk _) => f.pc ≠ 0
     | _ => false)

/-- A tile's turn: its firing issues the word at its pc (R114, R116): past word 511 it faults with 0x041 (R123), a word that
does not decode faults with its cause (R235). -/
def tileTurn (s : State) (x : Nat) : Res :=
  let t := s.tile x
  match t.firing with
  | none => .next s
  | some f =>
    if s.now < f.busyTo || atBrk s x t f then .next s
    else if 512 ≤ f.pc then .next (firingFault s x t f 0x041 0 0)
    else
      match decodeTile (tileWord t f.pc) with
      | .ok i => exec i { s with site := x }
      | .error c => .next (firingFault s x t f c 0 0)

/-! ## What is owed in a cycle (log entry 1)

Nothing of a tile may slip to a later cycle: a token that is present is judged in its cycle (R104, R348), a firing ends in its end cycle (R124),
a ready actor is picked and its first word issues in the cycle in which the firing begins (R122, R348), and a marker leaves and a tile saves in the
first cycle in which they may (R119, R355). -/

/-- The first firing of the list of those that are ending ends now. -/
def endsNow (s : State) (x : Nat) : Bool :=
  match (s.tile x).ending with
  | f :: _ => (f.endAt.map (fun e => decide (e ≤ s.now))).getD false
  | [] => false

/-- A control bit is due at a control input. -/
def bitDue (s : State) (x : Nat) (c : Fin 4) : Bool := s.ctls.any (fun f => f.sink = sinkNo x (0xC0 + c) && decide (f.due ≤ s.now))

/-- The firing of a tile issues a word now: its turn takes it on. -/
def issuesNow (s : State) (x : Nat) : Bool :=
  match (s.tile x).firing with
  | none => false
  | some f =>
    if s.now < f.busyTo then false
    else
      match tileTurn s x with
      | .next s1 => (s1.tile x).firing ≠ some f
      | _ => true

/-- A tile marked for ember saves now. -/
def savesNow (s : State) (x : Nat) : Bool :=
  match (s.tile x).ember with
  | .marked m => tileSaves s x m (s.tile x)
  | _ => false

/-- The agent that a tile owes a turn, in the order of R104. -/
def owedAt (s : State) (x : Nat) : Option Agent :=
  let t := s.tile x
  if endsNow s x then some (.event (.firingEnd x))
  else
    ((allPorts.find? (fun p => returnDue s x p)).map (fun p => Agent.event (.spillReturn x p))).or
    (((allPorts.find? (fun p => arrivalDue s x p)).map (fun p => Agent.event (.inputPortArrival x p))).or
    (((allPorts.find? (fun c => bitDue s x c)).map (fun c => Agent.event (.controlTokenArrival x c))).or
    ((((actorsOf t).find? (fun k => (ashStepOf s x k.1 k.2).isSome)).map (fun k => Agent.event (.ashStep x k.1))).or
     (if mayLeave s x t && roundReady t then some (.event (.roundMarkerLeave x))
      else if mayLeave s x t && markerReady t 4 [5] then some (.event (.endOfRunLeave x))
      else if kernelEnds s x t then some (.event (.endOfKernelLeave x))
      else if savesNow s x then some (.event (.tileEmberSave x))
      else if mayFire s x t && (pickActor s x t).isSome then some (.event (.firingStart x))
      else if issuesNow s x then some (.tile x)
      else none))))

/-- The agent that is owed a turn before the cycle may end, the lowest tile first. -/
def owed (s : State) : Option Agent := s.tiles.findSome? (fun k => owedAt s k.1)

/-- A turn of an agent. -/
def turn (s : State) : Agent → Host.Outcome State Fault Refusal
  | .core c => if 480 ≤ c then .fault .noSuchAgent else coreTurn s c
  | .tile x => tileTurn s x
  | .event i => if i.isEvent then exec i s else .next s

/-- What must still happen in the present cycle: a turn that is owed; behind the tiles, the halt of a grove at a breakpoint that holds (R213). -/
def forced (s : State) : Option Res :=
  ((owed s).map (turn s)).or ((s.groves.find? (fun k => (breakDue s k.1).isSome)).map (fun k => execBreakpointHalt k.1 s))

/-! ## A cycle passes -/

/-- The age of an actor as a cycle ends (R122): the cycles in which it was ready and not picked. Its firing's own last cycle is none of them, and
what came in the cycle counts from the next one (R348). -/
def ageAfter (exact : Bool) (now : Nat) (t : Tile) (i : Nat) (a : ActorCfg) (st : ActorSt) : ActorSt :=
  let ends := t.ending.any (fun f => f.actor = i && f.endAt = some (now + 5))
  { st with age := if fedActor exact now t i a && !ends && decide (restedFrom a st ≤ now) then st.age + 1 else 0 }

/-- A tile as a cycle ends: what has left its outputs is gone. -/
def tileAfter (s : State) (x : Nat) (t : Tile) : Tile :=
  let exact := siteExact s x
  let t1 : Tile := { t with
    ins := Vector.ofFn (fun p =>
      match t.cfg.ins[p] with
      | some c => checkEngaged { cfg := c, exact := exact, now := s.now, saved := t.ember = .saved && !(t.ins[p]).emberSeen } t.ins[p]
      | none => t.ins[p]),
    outs := Vector.ofFn (fun p => { t.outs[p] with leaving := (t.outs[p]).leaving.filter (fun k => decide (s.now < k.1)) }),
    actors := (actorsOf t).foldl (fun v k => at_ v k.1 (ageAfter exact s.now t k.1 k.2)) t.actors }
  match t.run with
  | some r => { t1 with run := some (aloadRead t (s.now + 1) 32 r) }
  | none => t1

/-- What the traced input ports hold as the cycle ends (R349). -/
def snapsNow (s : State) : List Snap :=
  s.huash.traces.filterMap (fun k =>
    match k.2 with
    | .inPort x p => if k.1 ≤ s.now then some { cycle := s.now, site := x, port := p, items := (((s.tile x).ins.toList[p]?).getD {}).items } else none
    | _ => none)

/-- A token that leaves, as `trace` records it: cycle, kind, weight, sequence, lane 0 (R349). -/
def leftVals (k : Nat × Nat × Tok) : List Nat := [k.1, k.2.2.kind, k.2.2.weight, k.2.1, (laneAt k.2.2.pay 0).toNat]

/-- What leaves the traced output ports in the cycle (R349). -/
def leftNow (s : State) : List TraceRec :=
  s.huash.traces.flatMap (fun k =>
    match k.2 with
    | .outPort x p =>
      if k.1 ≤ s.now then
        ((((s.tile x).outs.toList[p]?).getD {}).leaving.filter (fun l => l.1 = s.now)).map (fun l => { of := k.2, vals := leftVals l })
      else []
    | _ => [])

/-- A cycle passes (log entry 1). -/
def advance (s0 : State) : State :=
  let s := coolBreaks s0
  let s1 : State :=
    { s with now := s.now + 1, tiles := tabMap s.tiles (tileAfter s),
             huash := { s.huash with snaps := s.huash.snaps ++ snapsNow s, recs := s.huash.recs ++ leftNow s } }
  (s1.tiles.filter (fun k => (k.2.run.map (fun r => decide (r.mask ≠ 0))).getD false)).foldl (fun s k => drainTo s k.1 s.now) s1

/-- Who acts when the schedule lists no turn (log entry 1): the lowest core that has a thread to issue, else the lowest tile
whose firing issues, else the bring-up while the part is not ready, else nobody. -/
def defaultAgent (s : State) : Agent :=
  match (s.threads.map (fun k => k.1 / 8)).find? (fun c => c < 480 && (pickThread s c).isSome) with
  | some c => .core c
  | none =>
    match s.tiles.find? (fun k => (k.2.firing.map (fun f => decide (f.busyTo ≤ s.now))).getD false) with
    | some k => .tile k.1
    | none => if !s.mgmt.ready && s.mgmt.fail = 0 then .event .resetPart else .core 0

/-! ## Placing a word (log entry 9) -/

/-- An actor that owns every port of its tile. -/
def ownerOfAll : ActorCfg := { ownI := 15, ownC := 15, ownO := 15, ownQ := 15 }

/-- The word that the next step issues. -/
def placeWord (s : State) (nbits w : Nat) : State :=
  let g : Grove := { live := true }
  let th : Thread := { status := .ready, gen := 1 }
  if nbits ≤ 32 then
    { s with
      groves := tabPut s.groves 0 g,
      cores := tabPut s.cores 0 { grove := some 0, code := [(0, BitVec.ofNat 32 w)] },
      threads := tabPut (s.threads.filter (fun k => 8 ≤ k.1)) 0 th,
      agenda := [{ dt := 0, who := .core 0 }] }
  else
    let cfg : SiteCfg := { code := [(0, BitVec.ofNat 64 w)], actors := at_ (Vector.replicate 8 none) 0 (fun _ => some ownerOfAll) }
    { s with
      groves := tabPut s.groves 0 g,
      cores := tabPut s.cores 0 { grove := some 0 },
      tiles := tabPut s.tiles 0 { cfg := cfg, gen := 1, firing := some { gen := 1, start := s.now, busyTo := s.now } },
      agenda := [{ dt := 0, who := .tile 0 }] }

end Sys2Proof.Machine
end

