-- ==== Sys2Proof/Machine/Step.lean ====
section
/-! DEFINITION. One step: the next turn of the schedule (log entry 1), and how a word is placed for the host's question
which instruction a step runs (log entry 9). -/

namespace Sys2Proof.Machine

/-- One step. A turn listed for the present cycle is taken; before the cycle ends what must still happen in it happens; else a cycle passes, and
the agent whose turn has come acts. With no turn listed, the default agent acts after the cycle. -/
def step (s : State) : Host.Outcome State Fault Refusal :=
  match s.agenda with
  | { dt := 0, who } :: rest => turn { s with agenda := rest } who
  | { dt := n + 1, who } :: rest =>
    match forced s with
    | some r => r
    | none =>
      match n with
      | 0 => turn (advance { s with agenda := rest }) who
      | m + 1 => .next (advance { s with agenda := { dt := m + 1, who := who } :: rest })
  | [] =>
    match forced s with
    | some r => r
    | none => turn (advance s) (defaultAgent (advance s))

/-- A state whose next step issues the word `w`: a control word at address 0 of cluster 0, in a running grove of that cluster
whose thread 0 is ready there; a tile word as the running firing of the tile at site 0. -/
def State.withFetchWord (s : State) (nbits w : Nat) : State := placeWord s nbits w

end Sys2Proof.Machine
end

