-- ==== Sys2Proof/Safety.lean ====
section
/-! DEFINITION. What counts as a safe run, in the terms statements use: a step goes on; what the machine's own invariant asks of a state; when
a control instruction issues; and what the commonest effects leave of a thread and of the rest of the part. -/

namespace Sys2Proof.Machine

/-- A step answers a next state: no fault and no refusal ends the run. -/
def goesOn (s : State) : Prop := ∃ t, step s = .next t

/-- What every step keeps: main memory is in its canonical form. -/
def Inv (s : State) : Prop := Memory.wf s.mem = true

/-- An instruction or an event answers a next state, of which `P` holds. -/
def Runs (i : Instr) (s : State) (P : State → Prop) : Prop := ∃ t, exec i s = .next t ∧ P t

/-- The issuing thread's instruction issues now: nothing it needs is still to be written, no awaited full-empty word, open generation or token FIFO
holds it, and no source is stale under STRICT or poisoned (R155, R171, R304, R310, R316). A fence holds the accesses that reach into its scope. -/
def Issues (s : State) (n : Needs) : Prop := mustWait s n = false ∧ sourceFault s.me n.srcs = none

/-- A counter of the issuing thread has room for another operation (R154). -/
def HasRoom (s : State) (c : Ctr) : Prop := ctrFull s.me c 1 = false

/-- Main memory reads at every address, under every key, as before, and so do presence bits. -/
def SameMemory (s t : State) : Prop := (∀ key a, t.byteAt key a = s.byteAt key a) ∧ ∀ a, t.isFull a = s.isFull a

/-- Only the issuing thread has changed: every other thread, the tiles, the slices, die store, main memory and the part's records are as before. -/
def OnlyMe (s t : State) : Prop := t = s.setMe t.me ∧ (∀ q, q ≠ s.focus → t.thr q = s.thr q) ∧ SameMemory s t

/-- A thread's exception registers, system registers, stamps and open generations are as before. -/
def SameSystem (a b : Thread) : Prop :=
  b.cause = a.cause ∧ b.epc = a.epc ∧ b.tval = a.tval ∧ b.trapActive = a.trapActive ∧ b.role = a.role ∧ b.gen = a.gen ∧ b.strict = a.strict ∧
    b.specs = a.specs ∧ b.frsrc = a.frsrc ∧ b.frec = a.frec ∧ b.fences = a.fences

/-- A thread's outstanding counters are as before. -/
def SameCounters (a b : Thread) : Prop := b.ld = a.ld ∧ b.st = a.st ∧ b.cp = a.cp ∧ b.mx = a.mx

/-- Every general register but `d` reads as before. -/
def OtherRegs (a b : Thread) (d : Reg) : Prop := ∀ r, r ≠ d → b.reg r = a.reg r

/-- The instruction has retired: its group is over, the thread is ready at `pc`, and without a mark its token FIFOs are as before. -/
def RetiredAt (a b : Thread) (pc : Nat) : Prop :=
  b.pc = pc ∧ b.status = .ready ∧ b.mark = none ∧ b.imm = none ∧ b.group = none ∧ (a.mark = none → b.fifos = a.fifos ∧ b.gives = a.gives)

/-- The instruction has written `v` to register `d` (g0 ignores it), readable after `lat` cycles, and goes on at `pc`; nothing else of the part has
changed. -/
def Wrote (s : State) (d : Reg) (v : Word64) (lat pc : Nat) (t : State) : Prop :=
  OnlyMe s t ∧ t.me.reg d = (if d = 0 then 0 else v) ∧ OtherRegs s.me t.me d ∧ (d ≠ 0 → (t.me.regs[d]).readyAt = s.now + lat) ∧
    RetiredAt s.me t.me pc ∧ SameSystem s.me t.me ∧ SameCounters s.me t.me

/-- The instruction goes on at `pc` and has changed no register. -/
def WentOn (s : State) (pc : Nat) (t : State) : Prop :=
  OnlyMe s t ∧ (∀ r, t.me.reg r = s.me.reg r) ∧ RetiredAt s.me t.me pc ∧ SameSystem s.me t.me ∧ SameCounters s.me t.me

/-- The issuing thread takes the exception `c` with `tval` precisely at its instruction, in a grove with a trap vector (R190). -/
def Trapped (s : State) (c : Cause) (tval : Word64) (vec : Nat) (t : State) : Prop :=
  OnlyMe s t ∧ t.me.cause = c ∧ t.me.epc = s.me.issuePc ∧ t.me.tval = tval ∧ t.me.trapActive = true ∧ t.me.pc = vec ∧ t.me.status = .ready ∧
    ∀ r, t.me.reg r = s.me.reg r

/-- The issuing thread's grove has the trap vector `vec`, and the thread is in no handler and under no open generation. -/
def CanTrap (s : State) (vec : Nat) : Prop :=
  (∃ g, s.groveOfThread s.focus = some g ∧ (s.grove g).tvec = some vec) ∧ s.me.trapActive = false ∧ s.me.specs = []

/-- The immediate an I-format instruction uses, sign-extended or zero-extended: that of a prefix before it, else its own (R237, R307). -/
def signedImm (th : Thread) (imm : BitVec 15) : Word64 := (th.imm.map (fun p => p.signExtend 64)).getD (imm.signExtend 64)
def zeroImm (th : Thread) (imm : BitVec 15) : Word64 := (th.imm.map (fun p => p.setWidth 64)).getD (imm.setWidth 64)

/-- The instruction has put one request on its way to memory: `s1` is the part after its translations, `r` the request, `c` the counter it
counts on; `addReq` sends it under its permit (R75). Its thread has retired it; no register but a pending destination has changed, no byte of
memory has. -/
def Asked (s s1 : State) (r : MemReq) (c : Ctr) (t : State) : Prop :=
  t = addReq { s1.setMe t.me with nextId := s1.nextId + 1 } r ∧ r.id = s1.nextId ∧ r.src = s.focus ∧ t.focus = s.focus ∧
    (r.pieces ≠ [] → ∃ sent arr, t.reqs = s1.reqs ++ [{ r with ans := 0, sent := sent, arr := arr }]) ∧
    SameMemory s t ∧ (∀ q, q ≠ s.focus → t.thr q = s.thr q) ∧
    (∀ k, t.me.reg k = s.me.reg k) ∧ (∀ d, r.dst = some d → d ≠ 0 → (t.me.regs[d]).pend = some r.id) ∧
    t.me.ctr c = s.me.ctr c + 1 ∧ (∀ k, k ≠ c → t.me.ctr k = s.me.ctr k) ∧
    RetiredAt s.me t.me s.me.next ∧ SameSystem s.me t.me

/-- What a stalled instruction leaves: the thread waits with its pc where it was, and issues again at a later turn (R151). -/
def Stalled (s t : State) : Prop := OnlyMe s t ∧ t.me = { s.me with status := .waiting .again }

/-! ## Tile instructions -/

/-- The tile whose firing issues, and that firing. -/
def onTile (s : State) : Tile := s.tile s.site
def Fires (s : State) (f : Firing) : Prop := (onTile s).firing = some f

/-- A tile instruction's sources are read: its actor owns the ports it names (R235), it need not wait for an ending firing (R126), and reading
its selectors in order gives `vs` and leaves the firing `f1` (R232). -/
def Reads (s : State) (sels : List Sel) (imm : BitVec 21) (omsk : BitVec 4) (settle : Bool) (f1 : Firing) (vs : List Vec) : Prop :=
  ∃ f, Fires s f ∧ ownsAll (actorCfg (onTile s) f) sels omsk = true ∧
    ((settle || sels.any selWaits) = true → mustSettle s.now (onTile s) = false) ∧ readSels s.now (onTile s) imm f sels = .ok (f1, vs)

/-- Each port of a mask has room for one more token of weight 1: it is inside a record that closes without excess ash, or may open another
(R268, R270). -/
def RoomOn (t : Tile) (f : Firing) (omsk : BitVec 4) : Prop :=
  ∀ p : Fin 4, omsk.getLsbD p = true →
    (f.stage[p].pos = 0 ∧ f.stage[p].recs < (actorCfg t f).po[p] ∧ 1 ≤ outRl t p) ∨ (f.stage[p].pos ≠ 0 ∧ f.stage[p].req ≤ 65535)

/-- The firing that an instruction leaves running, its issue cycles spent: nothing but the tile's firing has changed. -/
def FiringLeft (s : State) (f : Firing) (cycles : Nat) (t : State) : Prop :=
  t = s.setTile s.site { onTile s with firing := some { f with busyTo := s.now + cycles } }

/-- A result `v` given out by the firing `f1` (R115, R231, R249): the next word is next; the bypass file has moved up by one unless KEEP; each
port of the mask has one more token that carries `v`, and the other ports' staging is as it was; nothing else of the firing, and nothing else of the
part, has changed. -/
def GaveOut (s : State) (f1 : Firing) (out : Push) (cycles : Nat) (v : Vec) (t : State) : Prop :=
  ∃ f3, FiringLeft s f3 cycles t ∧
    f3 = { f1 with pc := f1.pc + 1, stage := f3.stage, byp := if out.keep then f1.byp else #v[v, f1.byp[0], f1.byp[1], f1.byp[2], f1.byp[3], f1.byp[4]] } ∧
    (∀ p : Fin 4, out.omsk.getLsbD p = false → f3.stage[p] = f1.stage[p]) ∧
    (∀ p : Fin 4, out.omsk.getLsbD p = true → ∃ k : Tok, f3.stage[p].toks = f1.stage[p].toks ++ [k] ∧ k.pay = v ∧
      k.first = decide (f1.stage[p].pos = 0) ∧ k.last = decide (f1.stage[p].pos + 1 = outRl (onTile s) p) ∧ (f1.stage[p].pos = 0 → k.kind = 0 ∧ k.weight = 1))

/-- The firing of a lane word once its draws are spent: under rsr its counter has gone on by 8 (R256). -/
def spendDraws (s : State) (o : Lane) (f : Firing) : Firing :=
  { f with ctr := if o.rnd = .rsr then some (drawCtr (onTile s) f + 8) else f.ctr }

/-- The draw of an element under rsr: that of its lane, rotated by 16 bits for the upper half of a bf16x2 lane (R256). -/
def elemDraw (s : State) (o : Lane) (f : Firing) (l h : Nat) : Nat :=
  if o.rnd = .rsr then
    (let w := drawAt (onTile s) f (drawCtr (onTile s) f + BitVec.ofNat 128 l)
     if h = 0 ∨ o.lt ≠ .bf16x2 then w.toNat else (w.rotateLeft 16).toNat)
  else 0

/-- A lane word computes its result element by element: with its sources read as `a`, `b`, `c` and room on its ports, each element of the result
it gives out is `val`, in the width of the lane type. -/
def LaneResult (i : Instr) (s : State) (o : Lane) (arity cycles : Nat) (val : (draw : Nat → Nat → Nat) → (a b c : Vec) → Nat → Nat → Nat) : Prop :=
  ∀ f1 vs, Reads s (laneSels o arity) o.imm o.omsk (o.rnd = .rsr) f1 vs → RoomOn (onTile s) f1 o.omsk →
    Runs i s (fun t => ∃ v, GaveOut s (spendDraws s o f1) ⟨o.omsk, o.keep⟩ cycles v t ∧
      ∀ l h, l < 8 → h < (if o.lt.half then 2 else 1) →
        elem o.lt v l h = val (elemDraw s o f1) (vs.getD 0 0) (vs.getD 1 0) (vs.getD 2 0) l h % 2 ^ laneW o.lt)

/-- The same of a word whose result is computed as a whole vector. -/
def VecResult (i : Instr) (s : State) (o : Lane) (arity cycles : Nat) (val : (draw : Nat → Nat → Nat) → (a b c : Vec) → Vec) : Prop :=
  ∀ f1 vs, Reads s (laneSels o arity) o.imm o.omsk (o.rnd = .rsr) f1 vs → RoomOn (onTile s) f1 o.omsk →
    Runs i s (GaveOut s (spendDraws s o f1) ⟨o.omsk, o.keep⟩ cycles (val (elemDraw s o f1) (vs.getD 0 0) (vs.getD 1 0) (vs.getD 2 0)))

/-- The running firing faults (R125, R191): it is undone, the tile stops, and of a grove's tile one record leaves for the fault vector. -/
def TileFaulted (s : State) (f : Firing) (c : Cause) (seq sband : Nat) (t : State) : Prop :=
  t.tile s.site = { (onTile s).undoRunning with stopped := true } ∧ SameMemory s t ∧ t.threads = s.threads ∧
    (∀ g, s.groveOfSite s.site = some g → ∃ p r, t.packets = s.packets ++ [p] ∧ p.type = 6 ∧ p.cls = 15 ∧ p.dclu = cluCode (s.grove g).cluster0 ∧
      p.pay = [FaultRec.bits r] ∧ r.cause = c ∧ r.src = 0 ∧ r.clu = cluCode (siteCluster s.site) ∧ r.act = f.actor ∧ r.pc = f.pc ∧ r.seq = seq ∧
      r.sband = sband)

end Sys2Proof.Machine
end

