-- ==== Sys2Proof/Certificates/Slice0/Obligations.lean ====
section
/-! DEFINITION. The statements for the provers. -/

open Sys2Proof Sys2Proof.Machine

/-- R306: the results of the ALU group other than divide, each readable after its cycles (R304), in a step that changes nothing else of the part. g0
ignores its result (R304). R306, R304: the four divides, with their results by zero; the core's divider is taken for 34 cycles, and a second divide
waits for it. R306: the words of the ALU group: 0x01 in [31:25], then rd, ra, rb and the function. -/
def Obligations.AluGroupComputes : Prop :=
 (∀ (s : State) (d a b : Reg), Issues s { srcs := [a, b], dst := some d, spec := true } →
    let x := s.me.reg a
    let y := s.me.reg b
    let k := y.toNat % 64
    let w := fun v => Wrote s d v 1 s.me.next
    Runs (.add d a b) s (w (x + y)) ∧
    Runs (.sub d a b) s (w (x - y)) ∧
    Runs (.and d a b) s (w (x &&& y)) ∧
    Runs (.or d a b) s (w (x ||| y)) ∧
    Runs (.xor d a b) s (w (x ^^^ y)) ∧
    Runs (.sll d a b) s (w (BitVec.ofNat 64 (x.toNat * 2 ^ k))) ∧
    Runs (.srl d a b) s (w (BitVec.ofNat 64 (x.toNat / 2 ^ k))) ∧
    Runs (.sra d a b) s (w (BitVec.ofInt 64 (x.toInt / 2 ^ k))) ∧
    Runs (.slt d a b) s (w (if x.toInt < y.toInt then 1 else 0)) ∧
    Runs (.sltu d a b) s (w (if x.toNat < y.toNat then 1 else 0)) ∧
    Runs (.addc d a b) s (w (if 2 ^ 64 ≤ x.toNat + y.toNat then 1 else 0)) ∧
    Runs (.subc d a b) s (w (if x.toNat < y.toNat then 1 else 0)) ∧
    Runs (.min d a b) s (w (BitVec.ofInt 64 (Min.min x.toInt y.toInt))) ∧
    Runs (.max d a b) s (w (BitVec.ofInt 64 (Max.max x.toInt y.toInt))) ∧
    Runs (.minu d a b) s (w (BitVec.ofNat 64 (Min.min x.toNat y.toNat))) ∧
    Runs (.maxu d a b) s (w (BitVec.ofNat 64 (Max.max x.toNat y.toNat))) ∧
    Runs (.mul d a b) s (Wrote s d (x * y) 4 s.me.next) ∧
    Runs (.mulh d a b) s (Wrote s d (BitVec.ofInt 64 (x.toInt * y.toInt / 2 ^ 64)) 4 s.me.next) ∧
    Runs (.mulhu d a b) s (Wrote s d (BitVec.ofNat 64 (x.toNat * y.toNat / 2 ^ 64)) 4 s.me.next)) ∧
 (∀ (s : State) (d a b : Reg), Issues s { srcs := [a, b], dst := some d, spec := true } →
    let x := s.me.reg a
    let y := s.me.reg b
    let c := s.focus / 8
    let w := fun (v : Word64) (t : State) =>
      Wrote s d v 34 s.me.next { t with cores := s.cores } ∧ t.cores = tabPut s.cores c { s.coreOf c with divTo := s.now + 34 }
    ((s.coreOf c).divTo ≤ s.now →
      Runs (.div d a b) s (w (if y = 0 then -1 else BitVec.ofInt 64 (x.toInt.tdiv y.toInt))) ∧
      Runs (.divu d a b) s (w (if y = 0 then -1 else BitVec.ofNat 64 (x.toNat / y.toNat))) ∧
      Runs (.rem d a b) s (w (if y = 0 then x else BitVec.ofInt 64 (x.toInt.tmod y.toInt))) ∧
      Runs (.remu d a b) s (w (if y = 0 then x else BitVec.ofNat 64 (x.toNat % y.toNat)))) ∧
    (s.now < (s.coreOf c).divTo →
      Runs (.div d a b) s (Stalled s) ∧ Runs (.divu d a b) s (Stalled s) ∧ Runs (.rem d a b) s (Stalled s) ∧ Runs (.remu d a b) s (Stalled s))) ∧
 (∀ (d a b : Reg), ∀ p ∈ [(0, Instr.add d a b), (1, .sub d a b), (2, .and d a b), (3, .or d a b), (4, .xor d a b), (5, .sll d a b), (6, .srl d a b), (7, .sra d a b),
      (8, .slt d a b), (9, .sltu d a b), (10, .mul d a b), (11, .mulh d a b), (12, .mulhu d a b), (13, .div d a b), (14, .divu d a b), (15, .rem d a b), (16, .remu d a b),
      (17, .addc d a b), (18, .subc d a b), (19, .min d a b), (20, .max d a b), (21, .minu d a b), (22, .maxu d a b)],
    decodeControl (BitVec.ofNat 32 (0x01 * 2 ^ 25 + d * 2 ^ 20 + a * 2 ^ 15 + b * 2 ^ 10 + p.1)) = .ok p.2)

/-- R307, R237: the immediate forms, with the extension of imm15 or of a prefix immediate, and the shifts by an immediate. R307: the words of the
immediate forms and shifts; li with ra other than 0, and a shift with rb or [7:6] other than 0, fault with 0x063. -/
def Obligations.ImmediatesCompute : Prop :=
 (∀ (s : State) (d a : Reg) (imm : BitVec 15) (sh : BitVec 6), Issues s { srcs := [a], dst := some d, spec := true } →
    let x := s.me.reg a
    let si := signedImm s.me imm
    let zi := zeroImm s.me imm
    let w := fun v => Wrote s d v 1 s.me.next
    Runs (.addi d a imm) s (w (x + si)) ∧
    Runs (.andi d a imm) s (w (x &&& zi)) ∧
    Runs (.ori d a imm) s (w (x ||| zi)) ∧
    Runs (.xori d a imm) s (w (x ^^^ zi)) ∧
    Runs (.slti d a imm) s (w (if x.toInt < si.toInt then 1 else 0)) ∧
    Runs (.sltiu d a imm) s (w (if x.toNat < si.toNat then 1 else 0)) ∧
    Runs (.li d imm) s (w si) ∧
    Runs (.slli d a sh) s (w (BitVec.ofNat 64 (x.toNat * 2 ^ sh.toNat))) ∧
    Runs (.srli d a sh) s (w (BitVec.ofNat 64 (x.toNat / 2 ^ sh.toNat))) ∧
    Runs (.srai d a sh) s (w (BitVec.ofInt 64 (x.toInt / 2 ^ sh.toNat)))) ∧
 (∀ (d a b : Reg) (imm : BitVec 15) (sh : BitVec 6),
    (∀ p ∈ [(0x02, Instr.addi d a imm), (0x03, .andi d a imm), (0x04, .ori d a imm), (0x05, .xori d a imm), (0x07, .slti d a imm), (0x08, .sltiu d a imm)],
      decodeControl (BitVec.ofNat 32 (p.1 * 2 ^ 25 + d * 2 ^ 20 + a * 2 ^ 15 + imm.toNat)) = .ok p.2) ∧
    decodeControl (BitVec.ofNat 32 (0x09 * 2 ^ 25 + d * 2 ^ 20 + a * 2 ^ 15 + imm.toNat)) = (if a = 0 then .ok (.li d imm) else .error 0x063) ∧
    (∀ p ∈ [(0, Instr.slli d a sh), (1, .srli d a sh), (2, .srai d a sh)], ∀ z, z < 4 →
      decodeControl (BitVec.ofNat 32 (0x06 * 2 ^ 25 + d * 2 ^ 20 + a * 2 ^ 15 + b * 2 ^ 10 + p.1 * 2 ^ 8 + z * 2 ^ 6 + sh.toNat)) =
        (if b = 0 ∧ z = 0 then .ok p.2 else .error 0x063)))

/-- R304, R310: a source that is stale under STRICT traps with 0x1C0; else a poisoned one traps with 0x1C3 and the VA of its load; precisely, with no
register and no byte of memory changed. -/
def Obligations.SourcesTrapPrecisely : Prop :=
  ∀ (s : State) (d a b : Reg) (imm : BitVec 15) (vec : Nat) (c : Cause) (va : Nat),
    CanTrap s vec → sourceFault s.me [a, b] = some (c, va) →
    (mustWait s { srcs := [a, b], dst := some d, spec := true } = false → Runs (.add d a b) s (Trapped s c (BitVec.ofNat 64 va) vec)) ∧
    (mustWait s { srcs := [a, b], mem := true } = false → HasRoom s .st → Runs (.stD b a imm) s (Trapped s c (BitVec.ofNat 64 va) vec)) ∧
    ((c = 0x1C0 ∧ va = 0 ∧ (s.me.staleReg a = true ∨ s.me.staleReg b = true)) ∨
      (c = 0x1C3 ∧ s.me.staleReg a = false ∧ s.me.staleReg b = false ∧ (s.me.poisonReg a = some va ∨ s.me.poisonReg b = some va)))

/-- R314, R315: branches, jal and jr with their operands there; offsets count words from the instruction itself; the link is the address of the next
word; jr reads its source before the link is written. -/
def Obligations.BranchesGo : Prop :=
  ∀ (s : State) (d a b : Reg) (h : Hint) (off : BitVec 13) (joff : BitVec 20),
    let x := s.me.reg a
    let y := s.me.reg b
    let target : Int := (s.me.pc : Int) + 4 * off.toInt
    let jt : Int := (s.me.pc : Int) + 4 * joff.toInt
    let inStore := fun (n : Int) => 0 ≤ n ∧ n ≤ 0xFFFC ∧ n % 4 = 0
    let link : Word64 := BitVec.ofNat 64 (s.me.pc + 4)
    let goes := fun (c : Prop) [Decidable c] => WentOn s (if c then target.toNat else s.me.next)
    (Issues s { srcs := [a, b], spec := true } → inStore target →
      Runs (.beq a b h off) s (goes (x = y)) ∧
      Runs (.bne a b h off) s (goes (x ≠ y)) ∧
      Runs (.blt a b h off) s (goes (x.toInt < y.toInt)) ∧
      Runs (.bge a b h off) s (goes (y.toInt ≤ x.toInt)) ∧
      Runs (.bltu a b h off) s (goes (x.toNat < y.toNat)) ∧
      Runs (.bgeu a b h off) s (goes (y.toNat ≤ x.toNat))) ∧
    (Issues s { dst := some d, spec := true } → inStore jt → Runs (.jal d joff) s (Wrote s d link 1 jt.toNat)) ∧
    (Issues s { srcs := [a], dst := some d, spec := true } → inStore (x.toNat : Int) → Runs (.jr d a) s (Wrote s d link 1 x.toNat))

/-- R314, R315: a taken branch or a jump out of the code store traps with 0x064, epc at the instruction, and writes no link; a branch that is not taken
never faults on its target. R316, R58: a hinted branch whose operand awaits a load opens a generation and goes on along the hinted path; it keeps
the registers of the branch and changes none. -/
def Obligations.JumpsOutTrapAndHintsRunAhead : Prop :=
 (∀ (s : State) (d a b : Reg) (h : Hint) (off : BitVec 13) (vec : Nat), CanTrap s vec →
    let target : Int := (s.me.pc : Int) + 4 * off.toInt
    (Issues s { srcs := [a, b], spec := true } → ¬(0 ≤ target ∧ target ≤ 0xFFFC ∧ target % 4 = 0) →
      (s.me.reg a = s.me.reg b → Runs (.beq a b h off) s (Trapped s 0x064 0 vec) ∧ Runs (.bne a b h off) s (WentOn s s.me.next)) ∧
      (s.me.reg a ≠ s.me.reg b → Runs (.bne a b h off) s (Trapped s 0x064 0 vec) ∧ Runs (.beq a b h off) s (WentOn s s.me.next))) ∧
    (Issues s { srcs := [a], dst := some d, spec := true } → (s.me.reg a).toNat % 4 ≠ 0 ∨ 0x10000 ≤ (s.me.reg a).toNat →
      Runs (.jr d a) s (Trapped s 0x064 0 vec))) ∧
 (∀ (s : State) (a b : Reg) (off : BitVec 13) (n id : Nat),
    let target : Int := (s.me.pc : Int) + 4 * off.toInt
    (s.me.busyReg s.now a = true ∨ s.me.busyReg s.now b = true) → freeGenNum s.me = some n →
    (awaitedLoad s s.me a).or (awaitedLoad s s.me b) = some id → s.me.mark = none → 0 ≤ target → target ≤ 0xFFFC →
    speculable s s.me a = true → speculable s s.me b = true →
    let opened := fun (op : Nat) (hinted : Bool) (t : State) =>
      OnlyMe s t ∧ t.me.regs = s.me.regs ∧ t.me.status = .ready ∧ t.me.pc = (if hinted then target.toNat else s.me.next) ∧
        t.me.specs = s.me.specs ++ [{ num := n, req := id, pcAt := s.me.pc, other := if hinted then s.me.next else target.toNat,
                                      hinted := hinted, op := op, ra := a, rb := b, regs := s.me.regs, group := s.me.group }]
    Runs (.beq a b .taken off) s (opened 0 true) ∧ Runs (.beq a b .fall off) s (opened 0 false) ∧ Runs (.beq a b .none off) s (Stalled s) ∧
    Runs (.bgeu a b .taken off) s (opened 5 true) ∧ Runs (.bgeu a b .fall off) s (opened 5 false) ∧ Runs (.bgeu a b .none off) s (Stalled s))

/-- R317: what sysr reads of the thread's and the part's own registers, and of the privileged ones in a privileged grove. R317: sysw writes cause, epc
(without its two low bits), tval, tvec, role and the core's ageing bound, and of a privileged grove its drain limit and translation roots. R317: a
privileged register from a thread that is not privileged, and a register that is read-only, trap with 0x065; a value out of range traps with 0x061;
no register has changed. -/
def Obligations.SystemRegisters : Prop :=
 (∀ (s : State) (d : Reg), Issues s { dst := some d } →
    let g := s.grove ((s.groveOfThread s.focus).getD 0)
    let r := fun (n : BitVec 10) (v : Nat) => Runs (.sysr d n) s (Wrote s d (BitVec.ofNat 64 v) 1 s.me.next)
    r 0x000 s.me.cause.toNat ∧ r 0x001 s.me.epc ∧ r 0x002 s.me.tval.toNat ∧
    r 0x003 ((if s.me.trapActive then 1 else 0) + 2 * s.me.specs.length) ∧ r 0x004 (g.tvec.getD 0) ∧ r 0x005 s.me.role ∧
    r 0x006 (s.coreOf (s.focus / 8)).ageM ∧ r 0x007 (s.me.gen + 2 ^ 12 * (if s.me.strict then 1 else 0)) ∧ r 0x008 (g.threadIndex s.focus) ∧
    r 0x009 (2 ^ 14 * dieOf (s.focus / 8) + 2 ^ 11 * cxOf (s.focus / 8) + 2 ^ 7 * cyOf (s.focus / 8) + g.indexOf (s.focus / 8)) ∧ r 0x00A s.mgmt.devId ∧ r 0x00B s.now ∧ r 0x00C (if g.exact then 1 else 0) ∧
    r 0x00D (s.me.ld + 2 ^ 10 * s.me.st + 2 ^ 20 * s.me.cp + 2 ^ 30 * s.me.mx) ∧
    (g.priv = true → r 0x100 g.troot ∧ r 0x101 g.key ∧ r 0x102 g.tdrain ∧ r 0x103 g.dlbase ∧ r 0x104 g.dlsize ∧ r 0x105 g.ctroot)) ∧
 (∀ (s : State) (a : Reg), Issues s { srcs := [a] } →
    let v := (s.me.reg a).toNat
    let gid := (s.groveOfThread s.focus).getD 0
    (v < 1024 → Runs (.sysw a 0x000) s (fun t => t.me.cause.toNat = v ∧ t.me.epc = s.me.epc ∧ t.me.pc = s.me.next)) ∧
    Runs (.sysw a 0x001) s (fun t => t.me.epc = v - v % 4 ∧ t.me.cause = s.me.cause ∧ t.me.pc = s.me.next) ∧
    Runs (.sysw a 0x002) s (fun t => t.me.tval = s.me.reg a ∧ t.me.pc = s.me.next) ∧
    (v % 4 = 0 → v < 0x10000 → Runs (.sysw a 0x004) s (fun t => (t.grove gid).tvec = some v ∧ t.me.pc = s.me.next)) ∧
    (v ≤ 2 → Runs (.sysw a 0x005) s (fun t => t.me.role = v ∧ t.me.pc = s.me.next)) ∧
    (16 ≤ v → v ≤ 4096 → Runs (.sysw a 0x006) s (fun t => (t.coreOf (s.focus / 8)).ageM = v ∧ t.me.pc = s.me.next)) ∧
    ((s.grove gid).priv = true →
      (1 ≤ v → v ≤ 65535 → Runs (.sysw a 0x102) s (fun t => (t.grove gid).tdrain = v ∧ t.me.pc = s.me.next)) ∧
      (v % 4096 = 0 → v < 0x018000000000 →
        Runs (.sysw a 0x100) s (fun t => (t.grove gid).troot = v ∧ t.me.pc = s.me.next) ∧
        Runs (.sysw a 0x105) s (fun t => (t.grove gid).ctroot = v ∧ t.me.pc = s.me.next)))) ∧
 (∀ (s : State) (d a : Reg) (n : BitVec 10) (vec : Nat), CanTrap s vec →
    ((s.grove ((s.groveOfThread s.focus).getD 0)).priv = false → 0x100 ≤ n.toNat → n.toNat ≤ 0x105 →
      (Issues s { dst := some d } → Runs (.sysr d n) s (Trapped s 0x065 0 vec)) ∧
      (Issues s { srcs := [a] } → Runs (.sysw a n) s (Trapped s 0x065 0 vec))) ∧
    (Issues s { srcs := [a] } → (n = 3 ∨ n = 7 ∨ n = 8 ∨ n = 9 ∨ n = 10 ∨ n = 11 ∨ n = 12 ∨ n = 13) →
      Runs (.sysw a n) s (Trapped s 0x065 0 vec)) ∧
    (Issues s { srcs := [a] } → 3 ≤ (s.me.reg a).toNat → Runs (.sysw a 0x005) s (Trapped s 0x061 0 vec)))

/-- R319, R190: trap takes the exception 0x0E1 with its code in tval; eret goes back to epc and leaves trap_active clear, cause, epc and tval as they
were. R190: a fault inside a handler halts the thread, which keeps cause, epc and tval, and sends a fault record with DBL on route class 15 to the
grove's cluster 0; a fault in a grove without a trap vector writes cause, epc and tval and halts the thread, and writes an event record, or counts
it as lost: so also while the event ring is not set up, which is the model's choice (log entry 7). -/
def Obligations.TrapsAndReturns : Prop :=
 (∀ (s : State) (code : BitVec 10) (vec : Nat), Issues s {} →
    (CanTrap s vec → Runs (.trap code) s (Trapped s 0x0E1 (code.setWidth 64) vec)) ∧
    Runs .eret s (fun t => OnlyMe s t ∧ t.me.pc = s.me.epc ∧ t.me.trapActive = false ∧ t.me.cause = s.me.cause ∧ t.me.epc = s.me.epc ∧
      t.me.tval = s.me.tval ∧ t.me.status = .ready ∧ ∀ r, t.me.reg r = s.me.reg r)) ∧
 (∀ (s : State) (code : BitVec 10) (g : Nat), Issues s {} → s.groveOfThread s.focus = some g → s.me.specs = [] →
    (s.me.trapActive = true → Runs (.trap code) s (fun t =>
      t.me.status = .halted ∧ t.me.cause = s.me.cause ∧ t.me.epc = s.me.epc ∧ t.me.tval = s.me.tval ∧
      ∃ p, t.packets = s.packets ++ [p] ∧ p.type = 6 ∧ p.cls = 15 ∧ p.dclu = cluCode (s.grove g).cluster0 ∧
        p.pay = [({ cause := 0x0E1, src := 2, clu := cluCode (s.focus / 8), ep := coreEp, dbl := true } : FaultRec).bits])) ∧
    (s.me.trapActive = false → (s.grove g).tvec = none → Runs (.trap code) s (fun t =>
      t.me.status = .halted ∧ t.me.cause = 0x0E1 ∧ t.me.epc = s.me.issuePc ∧ t.me.tval = code.setWidth 64 ∧ t.packets = s.packets ∧
      t.mgmt.evHead + t.mgmt.evLost = (if s.mgmt.ringReady && decide (s.mgmt.evHead - s.mgmt.evTail < 2 ^ s.mgmt.evSize.toNat)
        then s.mgmt.evHead + 1 else s.mgmt.evHead + s.mgmt.evLost + 1))))

/-- R320, R321, R331, R154: halt and idle once the thread's own accesses have completed, waiting until then; a fence notes, for the accesses within its
scope that it holds, the requests outstanding in that scope and the messages to tiles of its cluster not yet received; wait goes on at its limits.
R237, R240: a mark and a prefix are kept for the instruction after them, which starts at their address; misplaced ones trap with 0x062; an opcode
that no row names traps with 0x060. A prefix reads the two words after it: an uncorrectable one of them traps with 0x3C1 (R194). -/
def Obligations.HaltsWaitsGroupWords : Prop :=
 (∀ (s : State) (sc : Scope) (l c p m : BitVec 5), Issues s {} →
    (ownDone s s.focus = true →
      Runs .halt s (fun t => OnlyMe s t ∧ t.me.status = .halted ∧ t.me.pc = s.me.next ∧ SameSystem s.me t.me ∧ ∀ r, t.me.reg r = s.me.reg r) ∧
      Runs .idle s (fun t => OnlyMe s t ∧ t.me.status = .waiting .idle ∧ t.me.pc = s.me.next ∧ SameSystem s.me t.me ∧
        ∀ r, t.me.reg r = s.me.reg r)) ∧
    (ownDone s s.focus = false → Runs .halt s (Stalled s) ∧ Runs .idle s (Stalled s)) ∧
    Runs (.fence sc) s (fun t => OnlyMe s t ∧ t.me.pc = s.me.next ∧ (∀ r, t.me.reg r = s.me.reg r) ∧
      (∀ q ∈ s.reqs, q.src = s.focus → q.ofEngine = false → q.points.any (scopeHas sc (s.focus / 8)) = true → (q.id, some sc) ∈ t.me.fences) ∧
      ∀ p ∈ tileSends s s.focus, (p, some sc) ∈ t.me.fences) ∧
    (let limit := fun (n : Nat) (k : BitVec 5) => k = 31 ∨ n ≤ k.toNat
     (limit s.me.ld l ∧ limit s.me.st c ∧ limit s.me.cp p ∧ limit s.me.mx m → Runs (.wait l c p m) s (WentOn s s.me.next)) ∧
     (¬(limit s.me.ld l ∧ limit s.me.st c ∧ limit s.me.cp p ∧ limit s.me.mx m) → Runs (.wait l c p m) s (Stalled s)))) ∧
 (∀ (s : State) (f : Fin 8) (vec : Nat),
    let code := fun (pc : Nat) => (tabGet (s.coreOf (s.focus / 8)).code (pc / 4) 0).toNat
    let bad := fun (pc : Nat) => (s.coreOf (s.focus / 8)).badCode.contains (pc / 4)
    let legible := bad (s.me.pc + 4) = false ∧ bad (s.me.pc + 8) = false
    let kept := fun (mark : Option (Bool × Fin 8)) (imm : Option Word32) (pc : Nat) (t : State) =>
      OnlyMe s t ∧ t.me = { s.me with mark := mark, imm := imm, group := some s.me.issuePc, pc := pc, status := .ready }
    (s.me.specs = [] → s.me.mark = none → s.me.imm = none → s.me.pc < 0xFFFC →
      Runs (.markGive f) s (kept (some (false, f)) none (s.me.pc + 4)) ∧ Runs (.markTake f) s (kept (some (true, f)) none (s.me.pc + 4))) ∧
    (legible → s.me.imm = none → s.me.pc < 0xFFF8 → prefixable (field (code (s.me.pc + 8)) 25 7) = true → field (code (s.me.pc + 8)) 0 15 = 0 →
      Runs .prefixWord s (kept s.me.mark (some (BitVec.ofNat 32 (code (s.me.pc + 4)))) (s.me.pc + 8))) ∧
    (CanTrap s vec →
      (s.me.mark.isSome = true → Runs (.markGive f) s (Trapped s 0x062 0 vec) ∧ Runs (.markTake f) s (Trapped s 0x062 0 vec)) ∧
      (legible → field (code (s.me.pc + 8)) 0 15 ≠ 0 → Runs .prefixWord s (Trapped s 0x062 0 vec)) ∧
      (¬legible → Runs .prefixWord s (Trapped s 0x3C1 0 vec)) ∧
      Runs .unassignedControlOpcode s (Trapped s 0x060 0 vec)))

/-- R309: the pieces of an access are one when it is aligned; otherwise they are 1, 2 or 4 bytes, each naturally aligned, and follow one another from
the lowest byte to the last with no gap. R309, R154, R324: a load or a store whose pieces all translate puts one request on its way, with the bytes
and the extension of its form, counts it, and retires; the register of a load awaits it. No byte of memory has changed. An access whose point lies
in the scope of a fence that still waits is held at issue (R168, R321). -/
def Obligations.LoadsAndStoresAsk : Prop :=
 (∀ (va n : Nat), (n = 1 ∨ n = 2 ∨ n = 4 ∨ n = 8) →
    (va % n = 0 → piecesOf va n = [(va, n)]) ∧
    (va % n ≠ 0 → ∀ p ∈ piecesOf va n, (p.2 = 1 ∨ p.2 = 2 ∨ p.2 = 4) ∧ p.1 % p.2 = 0) ∧
    (piecesOf va n).flatMap (fun p => (List.range p.2).map (p.1 + ·)) = (List.range n).map (va + ·)) ∧
 (∀ (s : State) (d a : Reg) (imm : BitVec 15),
    let va := (s.me.reg a + signedImm s.me imm).toNat
    let key := myKey s
    let load := fun (i : Instr) (n : Nat) (signed : Bool) => ∀ ps s1,
      translatePieces s s.focus .load va (piecesOf va n) = (.ok ps, s1) →
        (fenced s1 (pointsOf s1 ps) = true → Runs i s (Stalled s1)) ∧ (fenced s1 (pointsOf s1 ps) = false →
        Runs i s (fun t => ∃ r, Asked s s1 r .ld t ∧ r.kind = .load n signed ∧ r.va = va ∧ r.pieces = ps ∧ r.dst = some d ∧ r.key = key ∧ r.res = 0))
    let store := fun (i : Instr) (n : Nat) => ∀ ps s1,
      translatePieces s s.focus .store va (piecesOf va n) = (.ok ps, s1) →
        (fenced s1 (pointsOf s1 ps) = true → Runs i s (Stalled s1)) ∧ (fenced s1 (pointsOf s1 ps) = false →
        Runs i s (fun t => ∃ r, Asked s s1 r .st t ∧ r.kind = .store n ((s.me.reg d).toNat % 2 ^ (8 * n)) ∧ r.va = va ∧ r.pieces = ps ∧
          r.dst = none ∧ r.key = key))
    (HasRoom s .ld → Issues s { srcs := [a], dst := some d, mem := true } →
      load (.ldB d a imm) 1 true ∧ load (.ldBu d a imm) 1 false ∧ load (.ldH d a imm) 2 true ∧ load (.ldHu d a imm) 2 false ∧
      load (.ldW d a imm) 4 true ∧ load (.ldWu d a imm) 4 false ∧ load (.ldD d a imm) 8 false) ∧
    (HasRoom s .st → Issues s { srcs := [a, d], mem := true } →
      store (.stB d a imm) 1 ∧ store (.stH d a imm) 2 ∧ store (.stW d a imm) 4 ∧ store (.stD d a imm) 8))

/-- R309, R190: a piece that does not translate, or whose page refuses the access, traps precisely with its cause and its address: no register, no byte
of memory, no counter and no request has changed. R16, R20, R30: what stops a translation: bits above 48 (0x201), an entry that is not valid
(0x200), a store to a page without W (0x202), a full-empty form on a page without FE (0x20E), an atomic on a page without W (0x202), an atomic that
reaches host memory (0x210), a word of an image for a code store in a page without X (0x203). -/
def Obligations.AccessesFault : Prop :=
 (∀ (s : State) (d a : Reg) (imm : BitVec 15) (vec : Nat) (c : Cause) (bad : Nat) (s1 : State), CanTrap s vec →
    let va := (s.me.reg a + signedImm s.me imm).toNat
    let kept := fun (t : State) => Trapped s1 c (BitVec.ofNat 64 bad) vec t ∧ SameMemory s t ∧ t.reqs = s.reqs ∧ SameCounters s.me t.me ∧
      ∀ r, t.me.reg r = s.me.reg r
    (HasRoom s .ld → Issues s { srcs := [a], dst := some d, mem := true } →
      translatePieces s s.focus .load va (piecesOf va 8) = (.error (c, bad), s1) → Runs (.ldD d a imm) s kept) ∧
    (HasRoom s .st → Issues s { srcs := [a, d], mem := true } →
      translatePieces s s.focus .store va (piecesOf va 8) = (.error (c, bad), s1) → Runs (.stD d a imm) s kept)) ∧
 (∀ (s : State) (root key va : Nat) (e : TlbEntry),
    (2 ^ 48 ≤ va → walk s root key va = .error 0x201) ∧
    (va < 2 ^ 48 → root % 4096 = 0 → regionOf s.dev root = .lpddr → s.numAt key (localPa s.dev root + 8 * (va / 2 ^ 39 % 512)) 8 < 2 ^ 63 →
      walk s root key va = .error 0x200) ∧
    (regionOf s.dev e.pa = .lpddr ∨ regionOf s.dev e.pa = .host →
      accessFault s .load e = none ∧
      (accessFault s .store e = none ↔ pteW e.leaf.toNat = true) ∧ (pteW e.leaf.toNat = false → accessFault s .store e = some 0x202) ∧
      (accessFault s .fe e = none ↔ pteFe e.leaf.toNat = true) ∧ (pteFe e.leaf.toNat = false → accessFault s .feStore e = some 0x20E) ∧
      (pteW e.leaf.toNat = false → accessFault s .amo e = some 0x202) ∧
      (pteW e.leaf.toNat = true → regionOf s.dev e.pa = .host → accessFault s .amo e = some 0x210) ∧
      (pteW e.leaf.toNat = true → regionOf s.dev e.pa = .lpddr → accessFault s .amo e = none) ∧
      (accessFault s .code e = none ↔ pteX e.leaf.toNat = true) ∧
      (∀ g base off n, s.walkG g (base + off) = .ok e → pteX e.leaf.toNat = false → 0 < n → vaFetch s g base .code off n = .error (0x203, base + off))))

/-- R166, R167, R170, R309, R312: a memory node performs the next event of a request. A load's reads its bytes, little-endian, and changes no byte; a
store's writes the bytes of its piece and no other, as the requester's key reads memory; an atomic reads the old value and writes the new one in one
event. The request goes on with the pieces that are left, and what has been performed whole is answered. -/
def Obligations.RequestsArePerformed : Prop :=
  (∀ (s : State) (r : MemReq) (p : Point) (off n pa : Nat) (rest : List (Nat × Nat × Nat)), Inv s →
    s.reqs.find? (fun q => q.id = r.id) = some r → r.pieces = (off, n, pa) :: rest → r.nextPoint s = some p → r.parked = false →
    mayPerform s r p = true →
    let after := fun (r1 : MemReq) (t : State) => t.threads = s.threads ∧
      ∃ t0, t = answerAll t0 ∧ t0.reqs = s.reqs.map (fun q => if q.id = r.id then r1 else q)
    (∀ size signed, r.kind = .load size signed → Runs (.memoryRequestPerform r.id) s (fun t => SameMemory s t ∧
      after { r with pieces := rest, res := r.res + ofBytes (s.bytesAt r.key pa n) * 2 ^ (8 * off), bad := r.bad || s.badAt pa n } t)) ∧
    (∀ size v, r.kind = .store size v → Runs (.memoryRequestPerform r.id) s (fun t => after { r with pieces := rest } t ∧
      (∀ i, i < n → t.byteAt r.key (pa + i) = BitVec.ofNat 8 (v / 2 ^ (8 * (off + i)))) ∧
      (∀ x, x < pa ∨ pa + n ≤ x → t.byteAt r.key x = s.byteAt r.key x) ∧ (∀ x, t.isFull x = s.isFull x))) ∧
    (∀ op size b e, r.kind = .amo op size b e → (size = 4 ∨ size = 8) → op < 5 → Runs (.memoryRequestPerform r.id) s (fun t =>
      let m := s.numAt r.key pa size
      let signed := fun (v : Nat) => (BitVec.ofNat (8 * size) v).toInt
      after { r with pieces := rest, res := m, bad := s.badAt pa n } t ∧
      (∀ x, x < pa ∨ pa + size ≤ x → t.byteAt r.key x = s.byteAt r.key x) ∧ (∀ x, t.isFull x = s.isFull x) ∧
      (b < 2 ^ (8 * size) → t.numAt r.key pa size =
        (if op = 0 then (m + b) % 2 ^ (8 * size)
         else if op = 1 then (if signed b < signed m then b else m)
         else if op = 2 then (if signed m < signed b then b else m)
         else if op = 3 then b
         else if m = e then b else m))))) ∧
  (∀ (s : State), (∃ q p n, answerAll s = { s with reqs := q, packets := p, nextId := n }) ∧
    ∀ r ∈ (answerAll s).reqs, r.pieces = [] → r.ans = 0 → ∃ x g, r.kind = .engineRead x g)

/-- R309, R154, R310: the data of a load, once its answer has come, whose thread has no open generation reach their register: sign-extended or
zero-extended from the load's bytes, or with the register poisoned by the load's VA; ld falls by 1; a register that something else has written since
keeps its value. R154: a store, an atomic, a fill, a bar.init or a group command that has been performed is acknowledged once its answer has come:
its request is gone and st falls by 1; an atomic's register receives the old value, sign-extended (R312). R154, R324, R155: an operation that has
reached its end is gone; its counter falls by 1, the register that awaited it takes its result, and a give is pushed. One that has not reached it
stays. -/
def Obligations.DataAndAcknowledgementsReturn : Prop :=
 (∀ (s : State) (r : MemReq) (n : Nat) (signed : Bool) (d : Reg),
    s.reqs.find? (fun q => q.id = r.id) = some r → r.pieces = [] → r.kind = .load n signed → (n = 1 ∨ n = 2 ∨ n = 4 ∨ n = 8) →
    r.ans = 2 → r.res < 2 ^ (8 * n) → r.give = none → (s.thr r.src).specs = [] →
    Runs (.loadDataReturn r.id) s (fun t =>
      t.reqs = s.reqs.filter (fun q => q.id ≠ r.id) ∧ (t.thr r.src).ld = (s.thr r.src).ld - 1 ∧ (t.thr r.src).pc = (s.thr r.src).pc ∧ SameMemory s t ∧
      (∀ q, q ≠ r.src → t.thr q = s.thr q) ∧
      ((s.thr r.src).regs[d].pend = some r.id → d ≠ 0 →
        (t.thr r.src).reg d = (if signed then BitVec.ofInt 64 (BitVec.ofNat (8 * n) r.res).toInt else BitVec.ofNat 64 r.res) ∧
        (t.thr r.src).poisonReg d = (if r.bad then some r.va else none)) ∧
      ((s.thr r.src).regs[d].pend ≠ some r.id → (t.thr r.src).regs[d] = (s.thr r.src).regs[d]))) ∧
 (∀ (s : State) (r : MemReq), s.reqs.find? (fun q => q.id = r.id) = some r → r.pieces = [] → r.ans = 2 → r.give = none →
    (match r.kind with
     | .store _ _ | .amo _ _ _ _ | .fill _ | .fillAck | .barInit _ _ _ | .gjoin _ _ | .gleave _ _ => True
     | _ => False) →
    Runs (.storeAcknowledgement r.id) s (fun t =>
      t.reqs = s.reqs.filter (fun q => q.id ≠ r.id) ∧ (t.thr r.src).st = (s.thr r.src).st - 1 ∧ (t.thr r.src).pc = (s.thr r.src).pc ∧
      SameMemory s t ∧ (∀ q, q ≠ r.src → t.thr q = s.thr q) ∧
      ∀ op n b e d, r.kind = .amo op n b e → (n = 4 ∨ n = 8) → r.res < 2 ^ (8 * n) → (s.thr r.src).regs[d].pend = some r.id → d ≠ 0 →
        (t.thr r.src).reg d = BitVec.ofInt 64 (BitVec.ofNat (8 * n) r.res).toInt)) ∧
 (∀ (s : State) (o : Op) (c : Ctr), s.ops.find? (fun q => q.id = o.id) = some o → o.ctr = some c → o.todo = none →
    let a := s.thr o.thread
    (o.done = false → Runs (.operationComplete o.id) s (· = s)) ∧
    (o.done = true → Runs (.operationComplete o.id) s (fun t =>
      let b := t.thr o.thread
      t.ops = s.ops.filter (fun q => q.id ≠ o.id) ∧ b.ctr c = a.ctr c - 1 ∧ (∀ k, k ≠ c → b.ctr k = a.ctr k) ∧ b.pc = a.pc ∧ b.status = a.status ∧
      (∀ q, q ≠ o.thread → t.thr q = s.thr q) ∧ SameMemory s t ∧
      (o.give = none → b.fifos = a.fifos) ∧
      (∀ f, o.give = some f → (b.fifos[f]).reserved = (a.fifos[f]).reserved - 1 ∧ b.fifoLive f = a.fifoLive f + 1) ∧
      ∀ d : Reg, d ≠ 0 → (a.regs[d].pend = some o.id → b.reg d = o.res) ∧ (a.regs[d].pend ≠ some o.id → b.regs[d] = a.regs[d]))))

/-- R312: an atomic that no fence holds asks its node for one event on its aligned address; a misaligned address traps with 0x20F. Only cas reads rd. -/
def Obligations.AtomicsAsk : Prop :=
  ∀ (s : State) (d a b : Reg) (sz : AmoSize) (vec : Nat),
    let n := match sz with
      | .w => 4
      | .d => 8
    let va := (s.me.reg a).toNat
    let v := (s.me.reg b).toNat % 2 ^ (8 * n)
    let ask := fun (i : Instr) (op : Nat) => Issues s { srcs := if op = 4 then [a, b, d] else [a, b], dst := some d, mem := true } →
      (∀ ps s1, va % n = 0 → translatePieces s s.focus .amo va [(va, n)] = (.ok ps, s1) → fenced s1 (pointsOf s1 ps) = false →
        Runs i s (fun t => ∃ r, Asked s s1 r .st t ∧ r.kind = .amo op n v ((s.me.reg d).toNat % 2 ^ (8 * n)) ∧ r.pieces = ps ∧ r.dst = some d)) ∧
      (va % n ≠ 0 → CanTrap s vec → Runs i s (Trapped s 0x20F (s.me.reg a) vec))
    HasRoom s .st →
      ask (.amoAdd d a b sz) 0 ∧ ask (.amoMin d a b sz) 1 ∧ ask (.amoMax d a b sz) 2 ∧ ask (.amoSwap d a b sz) 3 ∧ ask (.amoCas d a b sz) 4

/-- R21, R311, R151, R313: on a word of an FE page, where no fence holds the access, ldf and ldt ask their node and hold the thread with its pc at the
instruction, also for a full word (the model's reading, log entry 86); stf, once every earlier access of its thread within package scope, and an
earlier source's request of the cycle before, is performed, fills an empty word and traps with 0x20C on a full one, and waits at issue until then
(the model's reading, log entry 11); the word holds the register and is full, unless a waiting ldt takes it; stfo asks its node to fill or
overwrite. R21, R171, R311: the node serves an ldf or ldt: at a full word it reads it, a take empties it, the answer is set out, and the thread that
waited goes on with its register awaiting the data and its later accesses held; at an empty word the request waits. Data and every other presence
bit stay. A fill writes its word and leaves it full, unless a waiting request takes it. -/
def Obligations.FullEmptyWords : Prop :=
 (∀ (s : State) (d a : Reg) (imm : BitVec 15) (pa vec : Nat) (s1 : State), Inv s → (∀ k, s.me.status ≠ .waiting (.word k)) →
    let va := (s.me.reg a + signedImm s.me imm).toNat
    let waits := fun (k : MemKind) (t : State) => t.me.status = .waiting (.word s1.nextId) ∧ t.me.pc = s.me.pc ∧ t.me.ld = s.me.ld + 1 ∧
      (∀ r, t.me.reg r = s.me.reg r) ∧ SameMemory s1 t ∧
      ∃ r, t.reqs = s1.reqs ++ [r] ∧ r.id = s1.nextId ∧ r.kind = k ∧ r.pieces = [(0, 8, pa)] ∧ r.dst = some d
    let filled := fun (t : State) => t.me.pc = s.me.next ∧ t.me.st = s.me.st + 1 ∧ (∀ r, t.me.reg r = s.me.reg r) ∧
      (∀ i, i < 8 → t.byteAt (myKey s) (pa + i) = BitVec.ofNat 8 ((s.me.reg d).toNat / 2 ^ (8 * i))) ∧
      (∀ x, x < pa ∨ pa + 8 ≤ x → t.byteAt (myKey s) x = s.byteAt (myKey s) x) ∧
      (∀ x, x / 8 ≠ pa / 8 → t.isFull x = s.isFull x) ∧
      ((∀ r ∈ s.reqs, r.parked = false ∨ r.pieces ≠ [(0, 8, pa)]) → t.isFull pa = true)
    (HasRoom s .ld → Issues s { srcs := [a], dst := some d, mem := true } → feAddress s .fe va = (.ok pa, s1) →
      fenced s1 (pointsOf s1 [(0, 8, pa)]) = false →
      Runs (.ldf d a imm) s (waits .ldf) ∧ Runs (.ldt d a imm) s (waits .ldt)) ∧
    (HasRoom s .st → Issues s { srcs := [a, d], mem := true } → feAddress s .feStore va = (.ok pa, s1) →
      fenced s1 (pointsOf s1 [(0, 8, pa)]) = false →
      (packagePerformed s s.focus = true → behindAt s (pointOf s.dev pa) (threadRank s.focus) = false →
        (s.isFull pa = false → Runs (.stf d a imm) s filled) ∧
        (s.isFull pa = true → CanTrap s vec → Runs (.stf d a imm) s (Trapped s1 0x20C (BitVec.ofNat 64 va) vec))) ∧
      (packagePerformed s s.focus = false ∨ behindAt s (pointOf s.dev pa) (threadRank s.focus) = true → Runs (.stf d a imm) s (Stalled s1)) ∧
      Runs (.stfo d a imm) s (fun t => ∃ r, Asked s s1 r .st t ∧ r.kind = .fill (s.me.reg d).toNat ∧ r.pieces = [(0, 8, pa)] ∧ r.dst = none ∧
        r.key = myKey s))) ∧
 (∀ (s : State) (r : MemReq) (p : Point) (pa : Nat),
    s.reqs.find? (fun q => q.id = r.id) = some r → r.pieces = [(0, 8, pa)] → r.nextPoint s = some p → r.parked = false → mayPerform s r p = true →
    ((r.kind = .ldf ∨ r.kind = .ldt) →
      (s.isFull pa = true → Runs (.memoryRequestPerform r.id) s (fun t =>
        (∀ key x, t.byteAt key x = s.byteAt key x) ∧ t.isFull pa = decide (r.kind = .ldf) ∧ (∀ x, x / 8 ≠ pa / 8 → t.isFull x = s.isFull x) ∧
        (∃ q ∈ t.reqs, q.id = r.id ∧ q.pieces = [] ∧ q.res = s.numAt r.key pa 8 ∧ q.parked = false ∧ q.ans ≠ 0) ∧
        ((s.thr r.src).status = .waiting (.word r.id) → (t.thr r.src).status = .ready ∧ (t.thr r.src).pc = (s.thr r.src).next ∧
          (r.id, none) ∈ (t.thr r.src).fences ∧ ∀ d, r.dst = some d → d ≠ 0 → ((t.thr r.src).regs[d]).pend = some r.id))) ∧
      (s.isFull pa = false → Runs (.memoryRequestPerform r.id) s (fun t => SameMemory s t ∧ t.threads = s.threads ∧
        { r with parked := true } ∈ t.reqs))) ∧
    (∀ v, r.kind = .fill v → Inv s → Runs (.memoryRequestPerform r.id) s (fun t =>
      (∀ i, i < 8 → t.byteAt r.key (pa + i) = BitVec.ofNat 8 (v / 2 ^ (8 * i))) ∧
      (∀ x, x < pa ∨ pa + 8 ≤ x → t.byteAt r.key x = s.byteAt r.key x) ∧ (∀ x, x / 8 ≠ pa / 8 → t.isFull x = s.isFull x) ∧
      ((∀ q ∈ s.reqs, q.parked = false ∨ q.pieces ≠ [(0, 8, pa)]) → t.isFull pa = true) ∧ ∃ q ∈ t.reqs, q.id = r.id ∧ q.pieces = [])))

/-- R156, R332, R171, R75, R83, R313: bar.init, where no fence holds it, asks its slice for the object n, n, 0 and traps with 0x304; arrive takes one of
the arrivals and returns the phase, and the last one of a phase starts the next, traps with 0x305 on an object without participants, and is held at
issue until its thread's earlier accesses within package scope and an earlier source's request of the cycle before are performed, a permit for the
slice is free and no copy has written the object in the cycle: that it is performed as it issues is the model's reading (log entry 11); await goes
on once the phase differs. R153, R333: a group command with an id of 0 to 63 that no fence holds asks its grove's record, which takes the thread in
or out, or counts the members; another id traps with 0x306. R153, R156, R166: a slice performs a bar.init on its store; the grove's hearth record
performs the group commands: a join puts the thread's index in, a leave takes it out, and gsize reads the number of members. -/
def Obligations.BarriersAndGroups : Prop :=
 (∀ (s : State) (d a b : Reg) (x off vec : Nat),
    let g := s.grove ((s.groveOfThread s.focus).getD 0)
    let n := (s.me.reg b).toNat
    barrierAt g (s.me.reg a).toNat = .ok (x, off) →
    let held := fenced s [.slice x] = true
    let waits := held ∨ packagePerformed s s.focus = false ∨ permitFree s (slicePermit (s.focus / 8) x) = false ∨
      (s.slice x).taken s.now off = true ∨ behindAt s (.slice x) (threadRank s.focus) = true
    let looksLater := held ∨ pointPerformed s s.focus (.slice x) = false ∨ (s.slice x).fresh s.now off = true
    (HasRoom s .st → Issues s { srcs := [a, b], mem := true } →
      (1 ≤ n → n ≤ 65535 → held → Runs (.barInit a b) s (Stalled s)) ∧
      (1 ≤ n → n ≤ 65535 → ¬held → Runs (.barInit a b) s (fun t => ∃ r, Asked s s r .st t ∧ r.kind = .barInit x off n ∧ r.points = [.slice x])) ∧
      (n = 0 ∨ 65535 < n → CanTrap s vec → Runs (.barInit a b) s (Trapped s 0x304 0 vec))) ∧
    (∀ v, (s.slice x).read off 16 = .ok v →
      (HasRoom s .ld → Issues s { srcs := [a], dst := some d, mem := true } → ¬waits →
        (field v 96 32 ≠ 0 → Runs (.arrive d a) s (fun t =>
          let left := (field v 64 32 + 2 ^ 32 - 1) % 2 ^ 32
          let s1 := s.setSlice x ((s.slice x).put s.now rankNode off 16 ((⟨field v 96 32, if left = 0 then field v 96 32 else left,
            if left = 0 then (field v 32 32 + 1) % 2 ^ 32 else field v 32 32⟩ : Barrier).bits) false)
          ∃ r, Asked s s1 r .ld t ∧ r.kind = .barArrive x off ∧ r.pieces = [] ∧ r.dst = some d ∧ r.value = BitVec.ofNat 64 (field v 32 32))) ∧
        (field v 96 32 = 0 → CanTrap s vec → Runs (.arrive d a) s (Trapped s 0x305 0 vec))) ∧
      (HasRoom s .ld → Issues s { srcs := [a], dst := some d, mem := true } → waits → Runs (.arrive d a) s (Stalled s)) ∧
      (Issues s { srcs := [a, b], mem := true } → looksLater → Runs (.await a b) s (Stalled s)) ∧
      (Issues s { srcs := [a, b], mem := true } → ¬looksLater →
        (field v 32 32 ≠ n % 2 ^ 32 → Runs (.await a b) s (WentOn s s.me.next)) ∧
        (field v 32 32 = n % 2 ^ 32 → Runs (.await a b) s (Stalled s))))) ∧
 (∀ (s : State) (d a : Reg) (vec : Nat),
    let gid := (s.groveOfThread s.focus).getD 0
    let k := (s.me.reg a).toNat
    let asks := fun (kind : MemKind) (dst : Option Reg) (c : Ctr) (t : State) => ∃ r, Asked s s r c t ∧ r.kind = kind ∧ r.dst = dst ∧ r.points = [.record gid]
    (HasRoom s .st → Issues s { srcs := [a], mem := true } →
      (k ≤ 63 → fenced s [.record gid] = false → Runs (.gjoin a) s (asks (.gjoin gid k) none .st) ∧ Runs (.gleave a) s (asks (.gleave gid k) none .st)) ∧
      (63 < k → CanTrap s vec → Runs (.gjoin a) s (Trapped s 0x306 0 vec) ∧ Runs (.gleave a) s (Trapped s 0x306 0 vec))) ∧
    (HasRoom s .ld → Issues s { srcs := [a], dst := some d, mem := true } →
      (k ≤ 63 → fenced s [.record gid] = false → Runs (.gsize d a) s (asks (.gsize gid k) (some d) .ld)) ∧
      (63 < k → CanTrap s vec → Runs (.gsize d a) s (Trapped s 0x306 0 vec)))) ∧
 (∀ (s : State) (r : MemReq) (p : Point), s.reqs.find? (fun q => q.id = r.id) = some r → r.pieces = [(0, 0, 0)] → r.nextPoint s = some p →
    r.parked = false → mayPerform s r p = true →
    (∀ x off n, r.kind = .barInit x off n → Runs (.memoryRequestPerform r.id) s (fun t =>
      t.slice x = (s.slice x).put s.now rankNode off 16 (({ part := n, pend := n, phase := 0 } : Barrier).bits) false ∧ SameMemory s t ∧ t.threads = s.threads)) ∧
    (∀ g k, k < 64 →
      let i := (s.grove g).threadIndex r.src
      let old := ((s.grove g).groups[k]?).getD []
      (r.kind = .gjoin g k → Runs (.memoryRequestPerform r.id) s (fun t => SameMemory s t ∧ t.threads = s.threads ∧
        ∃ l, (t.grove g).groups[k]? = some l ∧ ∀ j, j ∈ l ↔ j ∈ old ∨ j = i)) ∧
      (r.kind = .gleave g k → Runs (.memoryRequestPerform r.id) s (fun t => SameMemory s t ∧ t.threads = s.threads ∧
        ∃ l, (t.grove g).groups[k]? = some l ∧ ∀ j, j ∈ l ↔ j ∈ old ∧ j ≠ i)) ∧
      (r.kind = .gsize g k → Runs (.memoryRequestPerform r.id) s (fun t => SameMemory s t ∧ t.groves = s.groves ∧ t.threads = s.threads ∧
        ∃ q ∈ t.reqs, q.id = r.id ∧ q.pieces = [] ∧ q.res = old.length))))

/-- R251, R252, R254: integer lanes. Each element is the exact result under the lane type, clamped under SAT or wrapped; shift amounts are taken modulo
the width; a compare gives all ones or zero. -/
def Obligations.IntegerLanes : Prop :=
  ∀ (s : State) (o : Lane),
    let w := laneW o.lt
    let out := fun (x : Int) => ((if o.sat then max (intLo o.lt) (min (intHi o.lt) x) else x) % 2 ^ w).toNat
    let val := fun (v : Vec) (l h : Nat) => intVal o.lt (elem o.lt v l h)
    let mask := fun (b : Prop) [Decidable b] => if b then 2 ^ w - 1 else 0
    LaneResult (.tileAdd o) s o 2 1 (fun _ a b _ l h => out (val a l h + val b l h)) ∧
    LaneResult (.tileSub o) s o 2 1 (fun _ a b _ l h => out (val a l h - val b l h)) ∧
    LaneResult (.tileMul o) s o 2 1 (fun _ a b _ l h => out (val a l h * val b l h)) ∧
    LaneResult (.tileMulh o) s o 2 1 (fun _ a b _ l h => out (val a l h * val b l h / 2 ^ w)) ∧
    LaneResult (.tileMin o) s o 2 1 (fun _ a b _ l h => out (min (val a l h) (val b l h))) ∧
    LaneResult (.tileMax o) s o 2 1 (fun _ a b _ l h => out (max (val a l h) (val b l h))) ∧
    LaneResult (.abs o) s o 1 1 (fun _ a _ _ l h => out (max (val a l h) (-val a l h))) ∧
    LaneResult (.neg o) s o 1 1 (fun _ a _ _ l h => out (-val a l h)) ∧
    LaneResult (.shl o) s o 2 1 (fun _ a b _ l h => out (val a l h * 2 ^ (elem o.lt b l h % w))) ∧
    LaneResult (.shr o) s o 2 1 (fun _ a b _ l h => elem o.lt a l h / 2 ^ (elem o.lt b l h % w)) ∧
    LaneResult (.sar o) s o 2 1 (fun _ a b _ l h => ((BitVec.ofNat w (elem o.lt a l h)).toInt / 2 ^ (elem o.lt b l h % w) % 2 ^ w).toNat) ∧
    LaneResult (.ceq o) s o 2 1 (fun _ a b _ l h => mask (val a l h = val b l h)) ∧
    LaneResult (.cne o) s o 2 1 (fun _ a b _ l h => mask (val a l h ≠ val b l h)) ∧
    LaneResult (.clt o) s o 2 1 (fun _ a b _ l h => mask (val a l h < val b l h)) ∧
    LaneResult (.cle o) s o 2 1 (fun _ a b _ l h => mask (val a l h ≤ val b l h))

/-- R253, R254: bit lanes: and, or, xor, not and sel act on every bit; popc counts the ones of a lane and clz its leading zeros. R261-R264, R282: lane
moves, the reductions over the fixed tree, constants, draws, and the sum of two partials. -/
def Obligations.BitAndMoveLanes : Prop :=
 (∀ (s : State) (o : Lane),
    VecResult (.tileAnd o) s o 2 1 (fun _ a b _ => a &&& b) ∧
    VecResult (.tileOr o) s o 2 1 (fun _ a b _ => a ||| b) ∧
    VecResult (.tileXor o) s o 2 1 (fun _ a b _ => a ^^^ b) ∧
    VecResult (.notLane o) s o 1 1 (fun _ a _ _ => ~~~a) ∧
    VecResult (.sel o) s o 3 1 (fun _ a b c => (a &&& c) ||| (b &&& ~~~c)) ∧
    VecResult (.popc o) s o 1 1 (fun _ a _ _ => ofLanes (fun l =>
      BitVec.ofNat 32 ((List.range 32).filter (fun i => (laneAt a l).getLsbD i)).length)) ∧
    VecResult (.clz o) s o 1 1 (fun _ a _ _ => ofLanes (fun l =>
      if laneAt a l = 0 then 32 else BitVec.ofNat 32 (31 - Nat.log2 (laneAt a l).toNat)))) ∧
 (∀ (s : State) (o : Lane) (omsk : BitVec 4) (k : Word32),
    let lane := fun (v : Vec) (l : Nat) => laneAt v l
    let no := fun (v : Vec) (l : Nat) => (laneAt v l).toNat % 8
    let tree := fun (op : Nat → Word32 → Word32 → Word32) (a : Vec) =>
      ofLanes (fun _ => op 6 (op 4 (op 0 (lane a 0) (lane a 1)) (op 1 (lane a 2) (lane a 3))) (op 5 (op 2 (lane a 4) (lane a 5)) (op 3 (lane a 6) (lane a 7))))
    VecResult (.bcast o) s o 2 1 (fun _ a b _ => ofLanes (fun _ => lane a (no b 0))) ∧
    VecResult (.perm o) s o 2 1 (fun _ a b _ => ofLanes (fun l => lane a (no b l))) ∧
    VecResult (.lrot o) s o 2 1 (fun _ a b _ => ofLanes (fun l => lane a ((l + no b 0) % 8))) ∧
    (o.lt ≠ .f32 → VecResult (.radd o) s o 1 2 (fun _ a _ _ => tree (fun _ x y => x + y) a)) ∧
    (o.lt = .f32 → VecResult (.radd o) s o 1 2 (fun d a _ _ => tree (fun i x y => to32 o.rnd (d i 0) (Fp.add o.rnd (fpOf32 x) (fpOf32 y))) a)) ∧
    (o.lt = .i32 →
      VecResult (.rmax o) s o 1 2 (fun _ a _ _ => tree (fun _ x y => if x.toInt < y.toInt then y else x) a) ∧
      VecResult (.rmin o) s o 1 2 (fun _ a _ _ => tree (fun _ x y => if y.toInt ≤ x.toInt then y else x) a)) ∧
    (∀ f, Reads s [] 0 omsk false f [] → RoomOn (onTile s) f omsk → Runs (.constLane omsk k) s (GaveOut s f ⟨omsk, false⟩ 1 (ofLanes (fun _ => k)))) ∧
    (∀ f a, Reads s [o.sa] o.imm o.omsk true f [a] → RoomOn (onTile s) f o.omsk →
      let c := drawCtr (onTile s) f + (if selBroadcast o.sa then (laneAt a 0).setWidth 128 else a.setWidth 128)
      Runs (.draw o) s (GaveOut s { f with ctr := some (c + 8) } ⟨o.omsk, o.keep⟩ 2
        (ofLanes (fun l => drawAt (onTile s) f (c + BitVec.ofNat 128 l))))) ∧
    (∀ f a b, (∀ p, o.sa ≠ .port p) → Reads s [o.sa, o.sb] o.imm o.omsk false f [a, b] → RoomOn (onTile s) f o.omsk →
      Runs (.treeadd o) s (GaveOut s f ⟨o.omsk, o.keep⟩ 1 (ofLanes (fun l => add32 (laneAt a l) (laneAt b l))))))

/-- R255-R258: floating-point lanes. Operands are exact values of the lane type's format; add, subtract, multiply and fma are rounded once under the
word's mode; fabs and fneg act on the sign bit alone; fmin and fmax, and the four functions of one operand, are those of R257 and R258. R259, R260,
R46: cvt, pkn and upn under a descriptor that is not empty give out their conversions; an empty descriptor faults with 0x081 and stops the tile. -/
def Obligations.FloatLanes : Prop :=
 (∀ (s : State) (o : Lane),
    let fmt := fpLane o.lt
    let x := fun (v : Vec) (l h : Nat) => fpDecode fmt (elem o.lt v l h)
    let sign := 2 ^ (laneW o.lt - 1)
    let word := fun (v : Vec) (l h : Nat) => if o.lt.half then BitVec.ofNat 32 (65536 * elem o.lt v l h) else BitVec.ofNat 32 (elem o.lt v l h)
    let low := fun (r : Word32) => if o.lt.half then r.toNat / 65536 else r.toNat
    LaneResult (.fadd o) s o 2 1 (fun d a b _ l h => fpEncode fmt o.rnd (d l h) (Fp.add o.rnd (x a l h) (x b l h))) ∧
    LaneResult (.fsub o) s o 2 1 (fun d a b _ l h => fpEncode fmt o.rnd (d l h) (Fp.add o.rnd (x a l h) (x b l h).neg)) ∧
    LaneResult (.fmul o) s o 2 1 (fun d a b _ l h => fpEncode fmt o.rnd (d l h) (Fp.mul (x a l h) (x b l h))) ∧
    LaneResult (.fma o) s o 3 1 (fun d a b c l h => fpEncode fmt o.rnd (d l h) (Fp.add o.rnd (Fp.mul (x a l h) (x b l h)) (x c l h))) ∧
    LaneResult (.fmin o) s o 2 1 (fun _ a b _ l h => low (fmin32 (word a l h) (word b l h))) ∧
    LaneResult (.fmax o) s o 2 1 (fun _ a b _ l h => low (fmax32 (word a l h) (word b l h))) ∧
    LaneResult (.fabs o) s o 1 1 (fun _ a _ _ l h => elem o.lt a l h % sign) ∧
    LaneResult (.fneg o) s o 1 1 (fun _ a _ _ l h => if elem o.lt a l h < sign then elem o.lt a l h + sign else elem o.lt a l h - sign) ∧
    LaneResult (.frcp o) s o 1 4 (fun d a _ _ l h => fpEncode fmt o.rnd (d l h) (rcpFp (x a l h))) ∧
    LaneResult (.frsq o) s o 1 4 (fun d a _ _ l h => fpEncode fmt o.rnd (d l h) (rsqFp (x a l h))) ∧
    LaneResult (.fexp2 o) s o 1 4 (fun d a _ _ l h => fpEncode fmt o.rnd (d l h) (exp2Fp (x a l h))) ∧
    LaneResult (.flog2 o) s o 1 4 (fun d a _ _ l h => fpEncode fmt o.rnd (d l h) (log2Fp (x a l h)))) ∧
 (∀ (s : State) (o : Lane) (f : Firing),
    let desc := fmtSlot (siteGrove s s.site) o.fmtx
    let src := (laneTypeOf o.xa.toNat).getD .i32
    let names := o.lt = .fmt ∨ src = .fmt
    let n := cvtArity o.lt src
    ((names → desc ≠ 0) → VecResult (.cvt o) s o n 1 (fun d a b c => cvtVec desc o d ((if n = 1 then [a] else if n = 2 then [a, b] else [a, b, c])))) ∧
    (desc ≠ 0 → VecResult (.pkn o) s o 2 1 (fun d a b _ => pknVec desc o d [a, b]) ∧
      VecResult (.upn o) s o (if o.lt.half then 2 else 1) 1 (fun d a b _ => upnVec desc o d (if o.lt.half then [a, b] else [a]))) ∧
    (desc = 0 → Fires s f → ownsAll (actorCfg (onTile s) f) (laneSels o 2) o.omsk = true → Runs (.pkn o) s (TileFaulted s f 0x081 0 0)))

/-- R268-R272: emit and emit.p stage one token that opens a record of their kind and weight, goes on with the open one, ends it, or is a record of its
own; a data record of a weight above 65,535 is followed by its excess ash; ash stages one ash token with its sequences; setw gives the last record
opened another weight. A weight of 0 at a record's first token faults with 0x0C6. R273-R277: kind and wgt report the next held token of a port, and
none beyond the holding; wcr and wcc report the window counters; svr reads a state vector; svw writes the lanes of its mask, which only its own
actor's firing sees until it ends (R118). -/
def Obligations.RecordsAndState : Prop :=
 (∀ (s : State) (a b : Sel) (p : Fin 4) (imm : BitVec 21) (f : Firing) (v w : Vec),
    let t0 := onTile s
    let g := f.stage[p]
    let omsk : BitVec 4 := 1#4 <<< p.val
    let rl := outRl t0 p
    let po := (actorCfg t0 f).po[p]
    let staged2 := fun (l : List Tok) (recs next : Nat) (t : State) => ∃ g1 : Stage, FiringLeft s { f with pc := f.pc + 1, stage := f.stage.set p g1 } 1 t ∧
      g1.toks = g.toks ++ l ∧ g1.recs = recs ∧ g1.next = next ∧ g1.pos = (g.pos + 1) % rl
    let staged := fun (k : Tok) => staged2 [k]
    let excess := fun (seq v : Nat) =>
      ({ pay := Ash.bits { fseq := seq, lseq := seq, cnt := 0, dw := v - 65535, uw := v - 65535, org := 0x40 }, kind := 1 } : Tok)
    let wt := (laneAt w 0).toNat
    let both := fun (P : State → Prop) => Runs (.emit a b omsk imm) s P ∧ Runs (.emitP a b omsk imm) s P
    (Reads s [a, b] imm omsk false f [v, w] → g.pos ≠ 0 →
      let goes := fun (last : Bool) => ({ pay := v, kind := g.kind, weight := if g.kind = 6 then g.req % 65536 else min g.req 65535, last := last } : Tok)
      (g.pos + 1 < rl → both (staged { goes false with first := false } g.recs g.next)) ∧
      (g.pos + 1 = rl → g.kind ≠ 0 ∨ g.req ≤ 65535 → both (staged { goes true with first := false } g.recs g.next)) ∧
      (g.pos + 1 = rl → g.kind = 0 → 65535 < g.req → g.recs + 1 ≤ po →
        both (staged2 [{ goes true with first := false }, excess g.seq g.req] (g.recs + 1) g.next))) ∧
    (Reads s [a, b] imm omsk false f [v, w] → g.pos = 0 → rl = 1 →
      (g.recs + 1 ≤ po → 1 ≤ wt → wt ≤ 65535 →
        Runs (.emit a b omsk imm) s (staged { pay := v, kind := 0, weight := wt, first := true, last := true } (g.recs + 1) (g.next + 1))) ∧
      (g.recs + 2 ≤ po → 65535 < wt →
        Runs (.emit a b omsk imm) s (staged2 [{ pay := v, kind := 0, weight := 65535, first := true, last := true }, excess g.next wt] (g.recs + 2) (g.next + 1))) ∧
      (g.recs + 1 ≤ po →
        Runs (.emitP a b omsk imm) s (staged { pay := v, kind := 6, weight := wt % 65536, first := true, last := true } (g.recs + 1) (g.next + 1)))) ∧
    (Reads s [a, b] imm omsk false f [v, w] → g.pos = 0 → g.recs < (actorCfg t0 f).po[p] → 2 ≤ outRl t0 p →
      (1 ≤ wt → Runs (.emit a b omsk imm) s (staged { pay := v, kind := 0, weight := min wt 65535, first := true, last := false } (g.recs + 1) (g.next + 1))) ∧
      (∀ f0, Fires s f0 → wt = 0 → Runs (.emit a b omsk imm) s (TileFaulted s f0 0x0C6 0 0)) ∧
      Runs (.emitP a b omsk imm) s (staged { pay := v, kind := 6, weight := wt % 65536, first := true, last := false } (g.recs + 1) (g.next + 1))) ∧
    (Reads s [a] 0 omsk false f [v] → g.pos = 0 → g.recs < (actorCfg t0 f).po[p] →
      let h := ashFields v
      h.cnt ≠ 0 → h.uw ≤ h.dw →
        Runs (.ash a omsk) s (fun t => ∃ g1 : Stage, FiringLeft s { f with pc := f.pc + 1, stage := f.stage.set p g1 } 1 t ∧ g1.pos = 0 ∧
          g1.toks = g.toks ++ [{ pay := Ash.bits { h with fseq := g.next, lseq := g.next + h.cnt - 1 }, kind := 1 }] ∧
          g1.recs = g.recs + 1 ∧ g1.next = g.next + h.cnt)) ∧
    (Reads s [a] imm 0 false f [w] → (∀ f0, Fires s f0 → (actorCfg t0 f0).ownO.getLsbD p = true) → g.opened = true → g.kind = 0 → g.pos ≠ 0 → wt ≠ 0 →
      Runs (.setw p a imm) s (fun t => ∃ g1 : Stage, FiringLeft s { f with pc := f.pc + 1, stage := f.stage.set p g1 } 1 t ∧ g1.req = wt ∧
        g1.recs = g.recs ∧ g1.toks.length = g.toks.length ∧
        ∀ i, i < g.toks.length → g1.toks.getD i {} =
          (if g.openAt ≤ i ∧ i < g.openAt + g.pos then { g.toks.getD i {} with weight := min wt 65535 } else g.toks.getD i {})))) ∧
 (∀ (s : State) (p : Fin 4) (out : Push) (a : Sel) (n : Fin 8) (mask : BitVec 8) (f : Firing) (v : Vec),
    let t0 := onTile s
    let none' := nextTok f p = none
    (Reads s [] 0 out.omsk false f [] → RoomOn t0 f out.omsk → (actorCfg t0 f).ownI.getLsbD p = true →
      (∀ k, nextTok f p = some k →
        Runs (.kind p out) s (GaveOut s f out 1 (ofLanes (fun _ => BitVec.ofNat 32 k.tok.kind))) ∧
        Runs (.wgt p out) s (GaveOut s f out 1 (ofLanes (fun l => BitVec.ofNat 32 ([k.wf, k.seq, k.pos, k.left].getD l 0))))) ∧
      (none' → Runs (.kind p out) s (GaveOut s f out 1 (ofLanes (fun _ => 15))) ∧ Runs (.wgt p out) s (GaveOut s f out 1 0))) ∧
    (Reads s [] 0 out.omsk true f [] → RoomOn t0 f out.omsk →
      let c := (actorSt t0 f.actor)
      let lanes := ofLanes (fun l => BitVec.ofNat 32 ([c.wc % 2 ^ 32, c.wc / 2 ^ 32, c.wl].getD l 0))
      Runs (.wcr out) s (GaveOut s f out 1 lanes) ∧ Runs (.wcc out) s (GaveOut s { f with wcc := true } out 1 lanes)) ∧
    (∀ r, Reads s [a] 0 out.omsk true f [v] → RoomOn t0 f out.omsk → readState s.now t0 f ((laneAt v 0).toNat % 8) = .ok r →
      Runs (.svr a out) s (GaveOut s f out 1 r)) ∧
    (Reads s [a] (mask.setWidth 21) 0 false f [v] → Runs (.svw a n mask) s (fun t => ∃ w, FiringLeft s { f with pc := f.pc + 1, writes := w } 1 t ∧
      ∀ m l, l < 8 → tabFind w (8 * m + l) = (if m = n.val ∧ mask.getLsbD l = true then some (laneAt v l) else tabFind f.writes (8 * m + l)))))

/-- R278-R280, R81, R83: a tld reads and a tst writes the lanes of its mask at an aligned address below the state area; a tldx reads one word for each
lane; past the end of tile store an address faults with 0x1C1, in the state area with 0x1C2, misaligned with 0x1C6. Reads of a cycle find the store
as it stood before the writes of that cycle, and a tst leaves a lane that an arrival of its cycle has written (R83). R85, R281, R83, R89, R328: a
tmove whose range and neighbour are good starts its copy, behind a shalo of its tile that has tokens to send; each token lands in the neighbour's
store, with the rank of its side among the writes of the cycle, and the last one ends the copy; a notification queues a control token there, or
stops that tile where it would need a ninth run, with a record that names the input and the token (R69, R191). -/
def Obligations.TileStoreAndMoves : Prop :=
 (∀ (s : State) (a b : Sel) (st : StoreOp) (out : Push) (f : Firing) (v w : Vec),
    let t0 := onTile s
    let ad := fun (base : Vec) => ((laneAt base 0).toNat + st.off.toNat) % 2 ^ 32
    let good := fun (base : Vec) => st.off.toNat % 32 = 0 ∧ ad base % 32 = 0 ∧ ad base < stateBase
    (∀ x, Reads s [a] 0 out.omsk false f [v] → RoomOn t0 f out.omsk → good v → (t0.before s.now).read (ad v) 32 = .ok x →
      Runs (.tld a st out) s (GaveOut s f out 1 (ofLanes (fun l => if st.mask.getLsbD l then laneAt (BitVec.ofNat 256 x) l else 0)))) ∧
    (∀ x, Reads s [a] 0 out.omsk false f [v] → RoomOn t0 f out.omsk → st.off.toNat % 4 = 0 → gatherLanes (t0.before s.now) st.off.toNat st.mask v 8 0 = .ok x →
      Runs (.tldx a st out) s (GaveOut s f out 2 (BitVec.ofNat 256 x))) ∧
    (Reads s [a, b] 0 0 false f [v, w] → good w → Runs (.tst a b st) s (fun t =>
      t = s.setTile s.site { t.tile s.site with firing := some { f with pc := f.pc + 1, busyTo := s.now + 1 } } ∧
      { t.tile s.site with store := t0.store, log := t0.log, firing := t0.firing } = t0 ∧
      (∀ x n, ((t.tile s.site).before s.now).read x n = (t0.before s.now).read x n) ∧
      (t0.strict = false → ∀ l, l < 8 →
        (st.mask.getLsbD l = true → (t0.log.cycle ≠ s.now ∨ tabGet t0.log.ranks ((ad w + 4 * l) / 4) 0 = 0) → (t.tile s.site).read (ad w + 4 * l) 4 = .ok (laneAt v l).toNat ∨ (t.tile s.site).read (ad w + 4 * l) 4 = .error 0x1C3) ∧
        (st.mask.getLsbD l = false → (t.tile s.site).read (ad w + 4 * l) 4 = t0.read (ad w + 4 * l) 4)))) ∧
    (∀ f0, Fires s f0 → Reads s [a, b] 0 0 false f [v, w] →
      (st.off.toNat % 32 ≠ 0 → Runs (.tst a b st) s (TileFaulted s f0 0x1C6 0 0)) ∧
      (st.off.toNat % 32 = 0 → ad w % 32 = 0 → 0x20000 ≤ ad w → Runs (.tst a b st) s (TileFaulted s f0 0x1C1 0 0)) ∧
      (st.off.toNat % 32 = 0 → ad w % 32 = 0 → stateBase ≤ ad w → ad w < 0x20000 → Runs (.tst a b st) s (TileFaulted s f0 0x1C2 0 0)))) ∧
 (∀ (s : State) (o : TmoveOp) (f : Firing) (vs vd vl : Vec) (y x site : Nat) (m : Mover),
    let t0 := onTile s
    let src := (laneAt vs 0).toNat
    let dst := (laneAt vd 0).toNat
    let len := (laneAt vl 0).toNat
    (Reads s [o.src, o.dst, o.len] (BitVec.ofNat 21 (o.immHi.toNat * 4 + o.cin)) 0 false f [vs, vd, vl] → t0.mover = none →
      moveTarget s s.site o.dir = some y → src % 32 = 0 → dst % 32 = 0 → len % 32 = 0 → 0 < len → src + len ≤ stateBase → dst + len ≤ stateBase →
      let starts := fun (m : Mover) (t : State) => t = s.setTile s.site { t0 with mover := some m, firing := some { f with pc := f.pc + 1, busyTo := s.now + 1 } }
      let m0 : Mover := { src := src, dst := dst, len := len, dir := o.dir, notify := if o.notify then some o.cin else none, actor := f.actor, pc := f.pc,
                          since := s.nextId }
      (s.halos.any (fun h => h.from_ = s.site) = false → (t0.before s.now).read src 32 = .ok x →
        Runs (.tmove o) s (starts { m0 with fly := x, bad := false, due := s.now + 1 })) ∧
      (s.halos.any (fun h => h.from_ = s.site) = true → Runs (.tmove o) s (starts { m0 with idle := true }))) ∧
    ((s.tile site).mover = some m → neighbour site m.dir 1 = some y → y ≠ site → m.idle = false → m.due ≤ s.now →
      let landed := (s.tile y).put s.now (rankSide ((m.dir + 2) % 4)) (m.dst + m.done) 32 m.fly m.bad
      let only := fun (t : State) => SameMemory s t ∧ ∀ z, z ≠ y → z ≠ site → t.tile z = s.tile z
      (m.len ≤ m.done + 32 →
        (m.notify = none → Runs (.tmoveTokenLand site) s (fun t => t.tile y = landed ∧ t.tile site = { s.tile site with mover := none } ∧ only t)) ∧
        (∀ c : Fin 4, m.notify = some c.val →
          (∀ q, runPush landed.cin[c] true = some q → Runs (.tmoveTokenLand site) s (fun t =>
            t.tile y = { landed with cin := landed.cin.set c q, cinNew := at_ landed.cinNew c (fun k => (s.now, if k.1 = s.now then k.2 + 1 else 1)) } ∧
            t.tile site = { s.tile site with mover := none } ∧ only t)) ∧
          (runPush landed.cin[c] true = none → Runs (.tmoveTokenLand site) s (fun t =>
            t.tile y = { landed.undoRunning with stopped := true } ∧ t.tile site = { s.tile site with mover := none } ∧ only t ∧
            ∀ g, s.groveOfSite y = some g → ∃ p r, t.packets = s.packets ++ [p] ∧ p.type = 6 ∧ p.cls = 15 ∧ p.pay = [FaultRec.bits r] ∧ r.cause = 0x0F0 ∧
              r.ep = epOf y c ∧ r.sband = 1)))) ∧
      (m.done + 32 < m.len → ∀ v bad, moveRead ((s.tile site).before s.now) (m.src + m.done + 32) = .ok (v, bad) →
        Runs (.tmoveTokenLand site) s (fun t => t.tile y = landed ∧ only t ∧
          t.tile site = { s.tile site with mover := some { m with done := m.done + 32, fly := v, bad := bad, due := s.now + 1 } }))))

/-- R283-R287, R116, R89: branches, loops, control tokens, nop, brk and end. A branch taken spends two cycles and one that is not spends one; a stale
bypass slot reads zero, or faults under STRICT; loop counts down its counters and reloads those that reach zero; brk halts its grove while a Huash
session is attached, whichever grove it has selected, and leaves the firing behind the brk: both are the model's reading (log entries 16 and 44);
end leaves the firing ending, five cycles from then, and an open record faults with 0x0C7. R125, R191, R235, R287: trap and an opcode that no row
names fault: the firing is undone, its records and control tokens stand in their queues again, the tile stops and sends one record, which of trap
carries the code as SEQ; a port that the actor does not own faults with 0x047. -/
def Obligations.TileControlAndFaults : Prop :=
 (∀ (s : State) (f : Firing) (tgt : BitVec 9) (c q n m : Fin 4) (v : Bool) (i : Fin 6) (a : Sel) (imm : BitVec 21), Fires s f →
    let t0 := onTile s
    let goes := fun (f1 : Firing) (taken : Prop) [Decidable taken] =>
      FiringLeft s { f1 with pc := if taken then tgt.toNat else f.pc + 1 } (if taken then 2 else 1)
    Runs (.br tgt) s (goes f True) ∧
    (∀ b, (actorCfg t0 f).ownC.getLsbD c = true → (f.ctl[c])[f.ci[c]]? = some b →
      Runs (.bc c v tgt) s (goes { f with ci := f.ci.set c (f.ci[c] + 1) } (b = v))) ∧
    (f.gen = t0.gen → Runs (.bany i tgt) s (goes f (∃ l : Fin 8, laneAt f.byp[i] l ≠ 0)) ∧
      Runs (.ball i tgt) s (goes f (∀ l : Fin 8, laneAt f.byp[i] l ≠ 0))) ∧
    (f.gen ≠ t0.gen → (t0.strict = false → Runs (.bany i tgt) s (goes f False) ∧ Runs (.ball i tgt) s (goes f False)) ∧
      (t0.strict = true → Runs (.bany i tgt) s (TileFaulted s f 0x1C0 0 0) ∧ Runs (.ball i tgt) s (TileFaulted s f 0x1C0 0 0))) ∧
    (1 < f.k[n] → f.k[n] < 65536 → Runs (.loop n m tgt) s (if n ≤ m then goes { f with k := f.k.set n (f.k[n] - 1) } True else goes f False)) ∧
    (f.k[n] = 1 → Runs (.loop n n tgt) s (goes { f with k := f.k.set n ((actorCfg t0 f).k[n]) } False)) ∧
    (f.k[n] = 0 → n ≤ m → Runs (.loop n m tgt) s (goes { f with k := f.k.set n 65535 } True)) ∧
    (∀ j : Fin 4, j.val = n.val + 1 → j ≤ m → f.k[n] = 1 → 1 < f.k[j] → f.k[j] < 65536 →
      Runs (.loop n m tgt) s (goes { f with k := (f.k.set n ((actorCfg t0 f).k[n])).set j (f.k[j] - 1) } True)) ∧
    (∀ f1 x, Reads s [a] imm 0 false f1 [x] → (actorCfg t0 f).ownQ.getLsbD q = true → (f1.qout[q]).length < 32 →
      Runs (.ctok q a imm) s (FiringLeft s { f1 with pc := f1.pc + 1, qout := f1.qout.set q (f1.qout[q] ++ [decide (laneAt x 0 ≠ 0)]) } 1)) ∧
    Runs .nop s (FiringLeft s { f with pc := f.pc + 1 } 1) ∧
    (∀ code, (s.huash.attached = false → Runs (.brk code) s (FiringLeft s { f with pc := f.pc + 1 } 1)) ∧
      (∀ g, s.groveOfSite s.site = some g → s.huash.attached = true → Runs (.brk code) s (fun t => (t.grove g).run = .halted ∧
        t.tile s.site = { t0 with firing := some { f with pc := f.pc + 1, busyTo := s.now + 1 } } ∧ SameMemory s t))) ∧
    ((∀ p : Fin 4, f.stage[p].pos = 0) → Runs .endFiring s (fun t =>
      t = s.setTile s.site { t0 with firing := none, ending := t0.ending ++ [{ f with pc := f.pc + 1, endAt := some (s.now + 5) }], nextAt := s.now + 1 })) ∧
    (∀ p : Fin 4, f.stage[p].pos ≠ 0 → Runs .endFiring s (TileFaulted s f 0x0C7 0 0))) ∧
 (∀ (s : State) (f : Firing) (code : BitVec 16) (o : Lane) (p : Fin 4), Fires s f →
    Runs (.tileTrap code) s (TileFaulted s f 0x0E0 code.toNat 0) ∧
    Runs .unassignedTileOpcode s (TileFaulted s f 0x040 0 0) ∧
    (o.sa = .port p → (actorCfg (onTile s) f).ownI.getLsbD p = false → Runs (.tileAdd o) s (TileFaulted s f 0x047 0 0)) ∧
    ((onTile s).undoRunning.firing = none ∧ ∀ c : Fin 4, (onTile s).undoRunning.cinHeld[c] = (onTile s).cinHeld[c] - (f.ctl[c]).length))

/-- R131, R289, R296, R298, R299: the matrix instructions that a firing stages: each joins its commands, up to eight; a ninth faults with 0x143. A drain
first counts its records against the productions of its ports; steer reads two held control tokens. R300-R303: cutb gives the bounds of a slot, and
zero of one that is stale, under STRICT too (the model's reading, log entry 17); mstat gives MS with the flags of a running command that count;
mwait pushes 1 once what it names is idle, pushes 0 at its limit, and holds issue until then. -/
def Obligations.MatrixInstructions : Prop :=
 (∀ (s : State) (f : Firing) (n : Fin 8) (o : MmaOp) (oc : MmaCOp) (acc : Fin 4) (x y : Fin 8) (off : BitVec 17) (a b : Fin 4) (hi lo : Bool), Fires s f →
    let t0 := onTile s
    let staged := fun (f1 : Firing) (op : MatOp) => FiringLeft s { f1 with pc := f.pc + 1, cmds := f.cmds ++ [{ op := op, actor := f.actor }] } 1
    let kl := oc.klh.toNat * 256
    (f.cmds.length < 8 →
      Runs (.claim n) s (staged f (.claim n)) ∧ Runs (.releaseSlot n) s (staged f (.release n)) ∧
      Runs (.mma o) s (staged f (.mma o.acc o.x o.y o.kl.toNat o.kh.toNat)) ∧
      Runs (.mmaC oc) s (staged f (.mmac oc.acc (Fin.ofNat 8 (2 * oc.xh.val)) (Fin.ofNat 8 (2 * oc.xh.val + 1)) kl (kl + oc.len.toNat + 1) oc.j.toNat)) ∧
      Runs (.mmas acc x y) s (staged f (.mmas acc x y)) ∧ Runs (.azero acc) s (staged f (.azero acc)) ∧
      Runs (.aload acc off) s (staged f (.aload acc off.toNat)) ∧
      ((actorCfg t0 f).ownO.getLsbD a = true → f.stage[a].recs + 32 / outRl t0 a ≤ (actorCfg t0 f).po[a] →
        Runs (.drain acc (1#4 <<< a.val)) s
          (staged { f with stage := f.stage.set a { f.stage[a] with recs := f.stage[a].recs + 32 / outRl t0 a } } (.drain acc false (1#4 <<< a.val)))) ∧
      ((∀ p : Fin 4, steerPorts t0 = 1#4 <<< p.val → f.stage[p].recs + 32 / outRl t0 p ≤ (actorCfg t0 f).po[p] →
        Runs (.drainSteer acc) s
          (staged { f with stage := f.stage.set p { f.stage[p] with recs := f.stage[p].recs + 32 / outRl t0 p } } (.drain acc true 0)))) ∧
      ((actorCfg t0 f).ownC.getLsbD a = true → (actorCfg t0 f).ownC.getLsbD b = true → a ≠ b →
        (f.ctl[a])[f.ci[a]]? = some hi → (f.ctl[b])[f.ci[b]]? = some lo →
        Runs (.steer a b) s (staged { f with ci := (f.ci.set a (f.ci[a] + 1)).set b (f.ci[b] + 1) }
          (.steer (BitVec.ofNat 2 (2 * hi.toNat + lo.toNat)))))) ∧
    (8 ≤ f.cmds.length →
      Runs (.claim n) s (TileFaulted s f 0x143 0 0) ∧ Runs (.mma o) s (TileFaulted s f 0x143 0 0) ∧ Runs (.azero acc) s (TileFaulted s f 0x143 0 0))) ∧
 (∀ (s : State) (f : Firing) (n : Fin 8) (clr : BitVec 5) (out : Push) (o : MwaitOp) (site : Nat),
    let t0 := onTile s
    (Reads s [] 0 out.omsk false f [] → RoomOn t0 f out.omsk →
      Runs (.cutb n out) s (GaveOut s f out 1 (if (t0.bounds[n]).gen = t0.gen
        then ofLanes (fun l => BitVec.ofNat 32 ([(t0.bounds[n]).lo, (t0.bounds[n]).hi, (t0.bounds[n]).n % 4096].getD l 0)) else 0)) ∧
      (let m := matStatus s.now t0
       Runs (.mstat clr out) s (GaveOut s
        { f with msClr := f.msClr ||| m.clearSet clr, clMax := if clr.getLsbD 4 then max f.clMax m.cl else f.clMax } out 1
        (ofLanes (fun l => if l = 0 then BitVec.ofNat 32 (m.cl % 65536 * 65536 + (if m.snan then 8 else 0) + (if m.inf then 4 else 0) +
          (if m.nan then 2 else 0) + (if m.psp then 1 else 0)) else 0))))) ∧
    (Reads s [] 0 o.out.omsk false f [] → RoomOn t0 f o.out.omsk →
      (mwaitIdle t0 o = true → Runs (.mwait o) s (GaveOut s { f with wait := none } o.out 1 (ofLanes (fun _ => 1)))) ∧
      (mwaitIdle t0 o = false → mwaitEnds s s.site t0 f o = true → Runs (.mwait o) s (GaveOut s { f with wait := none } o.out 1 (ofLanes (fun _ => 0)))) ∧
      (mwaitIdle t0 o = false → mwaitEnds s s.site t0 f o = false →
        Runs (.mwait o) s (FiringLeft s { f with wait := some (f.wait.getD s.now) } 0)) ∧
      (∀ w, decodeTile (tileWord t0 f.pc) = .ok (.mwait o) → f.wait = some w → o.limit ≠ 0 → w + o.limit.toNat ≤ s.now → mwaitIdle t0 o = false →
        site = s.site → Runs (.mwaitLimitExpiry site) s (GaveOut s { f with wait := none } o.out 1 (ofLanes (fun _ => 0))))))

/-- R291-R299: the head command starts once nothing holds it: it leaves the queue and occupies the unit for its cycles. What an mma will write is its
accumulator with each value summed over [kl, kh) (R41); an mma.c starts from zero; an azero writes zeros. R135, R299: a drain writes one token a
cycle to each port of its mask, 32 in all, and a record joins what leaves as its first token is written; the tokens hold the accumulator's values,
eight each, as data of weight 1 or as partials of its tag; at its last cycle it completes. R291, R154: a command completes at its cycle: an
accumulator takes its values, a claim or a release changes its slot's owner, a steer its state; the flags join MS; a follow-on completes on its
thread's mx. Before its cycle nothing changes. -/
def Obligations.MatrixCommandsRun : Prop :=
 (∀ (s : State) (site : Nat) (c : MatCmd) (rest : List MatCmd),
    let t0 := s.tile site
    t0.mq = c :: rest → t0.run = none → t0.mqStop = false → t0.ember ≠ .saved → t0.mqFrom ≤ s.now → c.since < s.now → headWaits s site t0 c = false →
    (runFault t0 c = none → (∀ a st m, c.op ≠ .drain a st m) → Runs (.matrixCommandStart site) s (fun t => SameMemory s t ∧
      (t.tile site).mq = rest ∧ ∃ r, (t.tile site).run = some r ∧ { t.tile site with mq := t0.mq, run := none } = t0 ∧
        r.cmd = c ∧ r.startAt = s.now ∧ r.flagsAt = s.now + (occupies t0 c.op).1 - 1 ∧ r.doneAt = r.flagsAt + (occupies t0 c.op).2 ∧
        (∀ a x y kl kh, c.op = .mma a x y kl kh → ∃ v, r.res = some v ∧ v.gen = t0.gen ∧ v.tag = (accAt t0 a).tag ∧
          ∀ q : Fin 256, v.v[q] = (if kh ≤ kl then (accAt t0 a).v[q] else
            dotRange (slotAt t0 x) (slotAt t0 y) (q / 16) (q % 16) kl kh ((accAt t0 a).v[q]))) ∧
        (∀ a x y kl kh j, c.op = .mmac a x y kl kh j → ∃ v, r.res = some v ∧ v.gen = t0.gen ∧ v.tag = .part 0 j ∧
          ∀ q : Fin 256, v.v[q] = (if kh ≤ kl then 0 else dotRange (slotAt t0 x) (slotAt t0 y) (q / 16) (q % 16) kl kh 0)) ∧
        (∀ a, c.op = .azero a → ∃ v, r.res = some v ∧ v.gen = t0.gen ∧ v.tag = .plain ∧ ∀ q : Fin 256, v.v[q] = 0))) ∧
    (∀ k, runFault t0 c = some k → Runs (.matrixCommandStart site) s (fun t =>
      (t.tile site).stopped = true ∧ (t.tile site).mqStop = true ∧ (t.tile site).run = none ∧ (t.tile site).mq = rest))) ∧
 ((∀ (s : State) (site : Nat) (r : MatRun) (v : Acc) (a : Fin 4) (st : Bool) (m : BitVec 4),
    (s.tile site).run = some r → r.cmd.op = .drain a st m → r.res = some v →
    (r.bad = none → s.now < r.doneAt → Runs (.matrixCommandComplete site) s (· = drainTo s site s.now)) ∧
    (r.bad = none → r.doneAt ≤ s.now → Runs (.matrixCommandComplete site) s (fun t =>
      (t.tile site).run = none ∧ (t.tile site).mqFrom = s.now + 1 ∧ (t.tile site).mq = (s.tile site).mq ∧ SameMemory s t)) ∧
    (r.sent < 32 → s.now = r.startAt + r.sent →
      let s1 := drainTok s site v r.mask s.now r.sent
      drainTo s site s.now = s1.setTile site { s1.tile site with run := some { r with sent := r.sent + 1 } })) ∧
  (∀ (s : State) (site cycle i : Nat) (v : Acc) (p : Fin 4),
    let rl := outRl (s.tile site) p
    drainTok s site v (1#4 <<< p.val) cycle i =
      (if i % rl = 0 then leaveFrom s site p cycle (((drainToks v rl).drop i).take rl) 1 else s) ∧
    (i < 32 → ∃ k, (drainToks v rl)[i]? = some k ∧ (∀ l, l < 8 → laneAt k.pay l = (v.v[8 * i + l]?).getD 0) ∧
      k.first = decide (i % rl = 0) ∧ k.last = decide (i % rl + 1 = rl) ∧
      (v.tag = .plain → k.kind = 0 ∧ k.weight = 1) ∧ (∀ l j, v.tag = .part l j → k.kind = 6 ∧ k.weight = l % 16 * 4096 + j % 4096)))) ∧
 (∀ (s : State) (site : Nat) (r : MatRun),
    let t0 := s.tile site
    t0.run = some r → (∀ a off, r.cmd.op ≠ .aload a off) → (∀ a st m, r.cmd.op ≠ .drain a st m) → r.bad = none →
    (s.now < r.doneAt → Runs (.matrixCommandComplete site) s (· = s)) ∧
    (r.doneAt ≤ s.now → Runs (.matrixCommandComplete site) s (fun t =>
      (t.tile site).run = none ∧ (t.tile site).mqFrom = s.now + 1 ∧ (t.tile site).mq = t0.mq ∧ (t.tile site).ms = t0.ms.join r.flags ∧ SameMemory s t ∧
      (∀ n, r.cmd.op = .claim n → ((t.tile site).slots[n]).claim = some r.cmd.actor) ∧
      (∀ n, r.cmd.op = .release n → ((t.tile site).slots[n]).claim = none) ∧
      (∀ v, r.cmd.op = .steer v → (t.tile site).steer = v) ∧
      (∀ a x y kl kh v, r.cmd.op = .mma a x y kl kh → r.res = some v → (t.tile site).accs = t0.accs.set a v) ∧
      (∀ a x y v, r.cmd.op = .mmas a x y → r.res = some v → (t.tile site).accs = t0.accs.set a v) ∧
      (∀ a v, r.cmd.op = .azero a → r.res = some v → (t.tile site).accs = t0.accs.set a v) ∧
      (∀ th sid, r.cmd.follow = some (th, sid) → (t.thr th).mx = (s.thr th).mx - 1) ∧
      (r.cmd.follow = none → t.threads = s.threads))))

/-- R97-R99, R103, R104, R106, R111: once the firings that end in the cycle have ended and no record returns to the port in it, the token due at the
port is judged. A one-token record that finds room at a live port joins the queue and takes the channel's next sequence; at a full DROPNEW port it
is lost and joins the ash; an ash token advances the sequence by its count; a marker releases what is held at the port, seals the ash and joins the
list; an ember marker marks the tile; a misplaced token faults and stops the tile. (`alone`: a queued record has a number of its own; `plain`: no
record that MERGE may take stands in an area, so none is read again.) R69, R348: a control token extends the last run or opens one, and is counted
as one of its cycle; one that would need a ninth run is not queued and faults with 0x0F0, with a record that names its input and its bit. R81, R98,
R104, R197: once the firings that end in the cycle have ended, the oldest record that waits returns to the queue when an entry is free, one in a
cycle and complete: a recorded one as it was, one of an area with the payload that its bytes there hold. Nothing else changes. With no entry free,
or a second time in a cycle, or once the port has judged a token or stepped ash in it, or short of its last token, it stays. -/
def Obligations.TilePortsWork : Prop :=
 (∀ (s : State) (site : Nat) (port : Fin 4) (fl : Flight) (s1 : State) (c : InCfg),
    takeFlight s (sinkNo site (0x40 + port.val)) = some (fl, s1) → (s.tile site).cfg.ins[port] = some c → (s.tile site).ember = .no →
    endDue s.now (s.tile site) = false → (returning s.now (s.tile site) port).isSome = false →
    let p := (s.tile site).ins[port]
    let k := fl.tok
    let live := (siteGrove s site).exact = false
    let alone := ∀ r h n, Item.record r .queue h n ∈ p.items → ∀ r1 a h1 n1, Item.record r1 a h1 n1 ∈ p.items → r1.id = r.id → a = .queue
    let plain := c.pol ≠ 4 ∨ p.waiting = false
    let runs := fun (P : InPort → State → Prop) => Runs (.inputPortArrival site port) s (fun t => P ((t.tile site).ins[port]) t ∧
      SameMemory s t ∧ t.threads = s.threads ∧ t.flights = s1.flights ∧ ∀ z, z ≠ site → t.tile z = s.tile z)
    let oneRecord := c.rl = 1 ∧ p.asm = none ∧ k.first = true ∧ k.last = true ∧ k.kind = 0 ∧ k.weight ≠ 0
    (oneRecord → live → p.engaged = false → p.occ < c.cap → p.waiting = false → (∀ i ∈ p.items, i.hasId p.ids = false) →
      runs (fun q _ => q.items = stampAsh s.now p.items ++
          [.record { kind := 0, weight := k.weight, seq := p.seq, toks := [k], arr := s.now, id := p.ids } .queue false false] ∧
        q.seq = (p.seq + 1) % 2 ^ 32 ∧ q.consumed = p.consumed)) ∧
    (oneRecord → live → c.pol = 1 → p.occ = c.cap → alone →
      runs (fun q _ => q.items = stampAsh s.now (ashInto (fun a => a.lose p.seq k.weight k.weight orgDrop) p.items) ∧
        q.seq = (p.seq + 1) % 2 ^ 32 ∧ q.engaged = true ∧ q.consumed = p.consumed + 1)) ∧
    (k.kind = 1 → plain → alone →
      runs (fun q _ => q.seq = (p.seq + (ashOf k.pay).cnt) % 2 ^ 32 ∧ q.items.filter (fun i => i.place.isSome) = p.items.filter (fun i => i.place.isSome))) ∧
    (k.kind = 2 ∨ k.kind = 4 ∨ k.kind = 5 → plain → alone → p.markers < 8 → p.blkN = 0 →
      runs (fun q _ => q.items = stampAsh s.now (sealAsh (releaseHeld p.items) ++ [.marker k.kind]) ∧ q.seq = p.seq ∧ q.idx = if k.kind = 2 then 0 else p.idx)) ∧
    (k.kind = 3 → runs (fun q t => q.emberSeen = true ∧ q.seq = p.seq ∧ (t.tile site).ember = .marked s.now)) ∧
    (k.kind = 0 → p.asm = none → k.first = false → ∀ g, s.groveOfSite site = some g → runs (fun q t =>
      q.seq = (p.seq + 1) % 2 ^ 32 ∧ (t.tile site).stopped = true ∧ (t.tile site).firing = none ∧
      ∃ pk r, pk ∈ t.packets ∧ pk.type = 6 ∧ pk.cls = 15 ∧ pk.pay = [FaultRec.bits r] ∧ r.cause = 0x0C0 ∧ r.src = 0 ∧ r.ep = epOf site port ∧
        r.seq = p.seq ∧ r.sband = k.sband ∧ ∀ i, ownerOf (s.tile site) (·.ownI) port = some i → r.act = i ∧ r.fcnt = (actorSt (s.tile site) i).count))) ∧
 (∀ (s : State) (site : Nat) (c : Fin 4) (b : CtlFlight) (s1 : State), takeBit s (sinkNo site (0xC0 + c.val)) = some (b, s1) →
    let q := (s.tile site).cin[c]
    let put := fun (q1 : List (Bool × Nat)) => Runs (.controlTokenArrival site c) s (fun t =>
      t = s1.setTile site { s.tile site with
        cin := (s.tile site).cin.set c q1, cinNew := at_ (s.tile site).cinNew c (fun k => (s.now, if k.1 = s.now then k.2 + 1 else 1)) })
    (q = [] → put [(b.bit, 1)]) ∧
    (∀ front n, q = front ++ [(b.bit, n)] → n < 65535 → put (front ++ [(b.bit, n + 1)])) ∧
    (∀ front, q = front ++ [(b.bit, 65535)] → q.length < 8 → put (q ++ [(b.bit, 1)])) ∧
    (∀ front n, q = front ++ [(!b.bit, n)] → q.length < 8 → put (q ++ [(b.bit, 1)])) ∧
    (∀ front n, q = front ++ [(!b.bit, n)] → q.length = 8 → ∀ g, s.groveOfSite site = some g → Runs (.controlTokenArrival site c) s (fun t =>
      t.tile site = { (s.tile site).undoRunning with stopped := true } ∧ SameMemory s t ∧
      ∃ pk r, t.packets = s.packets ++ [pk] ∧ pk.type = 6 ∧ pk.cls = 15 ∧ pk.pay = [FaultRec.bits r] ∧ r.cause = 0x0F0 ∧ r.sband = b.bit.toNat ∧
        r.ep = epOf site c ∧ ∀ i, ownerOf (s.tile site) (·.ownC) c = some i → r.act = i ∧ r.fcnt = (actorSt (s.tile site) i).count))) ∧
 (∀ (s : State) (site : Nat) (p : Fin 4) (c : InCfg) (front back : List Item) (r : Rec) (pl : Place) (h n : Bool),
    let t0 := s.tile site
    let q := t0.ins[p]
    t0.cfg.ins[p] = some c → q.items = front ++ .record r pl h n :: back → parked pl = true → (∀ i ∈ front, i.isParked = false) →
    (q.items.filterMap (fun i => match i with
      | .record r _ _ _ => some r.id
      | _ => none)).Nodup →
    t0.ember = .no → endDue s.now t0 = false →
    (q.occ < c.cap → c.rl ≤ r.toks.length → q.backAt ≠ some s.now → q.actedAt ≠ some s.now → Runs (.spillReturn site p) s (fun t => ∃ r1 : Rec,
      t = s.setTile site { t0 with ins := t0.ins.set p { q with items := front ++ .record r1 .queue h n :: back, backAt := some s.now } } ∧
      r1 = { r with toks := r1.toks, kind := r1.kind } ∧ r1.toks.length = r.toks.length ∧ (pl = .recorded → r1 = r) ∧
      (pl ≠ .recorded → ∀ i v, i < r.toks.length → areaWord s site c r pl i = .ok v → (r1.toks[i]?).map (·.pay) = some (BitVec.ofNat 256 v)))) ∧
    (c.cap ≤ q.occ ∨ r.toks.length < c.rl ∨ q.backAt = some s.now ∨ q.actedAt = some s.now → Runs (.spillReturn site p) s (· = s)))

/-- R121, R122: the tile picks a ready actor of the lowest rank, and its firing begins at its entry: inputs and control tokens held, the bypass file
zero, the loop counters loaded, its age back at 0. Nothing else changes. -/
def Obligations.FiringsStart : Prop :=
  ∀ (s : State) (site i : Nat) (a : ActorCfg), mayFire s site (s.tile site) = true → pickActor s site (s.tile site) = some (i, a) →
    let t0 := s.tile site
    (i, a) ∈ readyActors s site t0 ∧ (∀ k ∈ readyActors s site t0, actorRank t0 (i, a) ≤ actorRank t0 k) ∧
    Runs (.firingStart site) s (fun t => t = s.setTile site (t.tile site) ∧ ∃ f, (t.tile site).firing = some f ∧
      f.actor = i ∧ f.gen = t0.gen ∧ f.start = s.now ∧ f.pc = a.entry ∧ f.byp = Vector.replicate 6 0 ∧ f.k = a.k ∧ f.cmds = [] ∧ f.writes = [] ∧
      (∀ p : Fin 4, (f.stage[p]).toks = [] ∧ (f.qout[p]).length = 0 ∧ (f.ctl[p]).length ≤ a.cc[p]) ∧
      (∀ p : Fin 4, headAsh t0.ins[p] (siteExact s site) s.now = none ∨ ((t0.cfg.ins[p]).map (·.fire)) ≠ some true → (f.held[p]).length = a.ci[p]) ∧
      (t.tile site).store = t0.store ∧ (t.tile site).outs = t0.outs ∧ (t.tile site).cin = t0.cin ∧ (t.tile site).ending = t0.ending ∧
      (i < 8 → (actorSt (t.tile site) i).age = 0 ∧ (actorSt (t.tile site) i).last = some s.now ∧ (actorSt (t.tile site) i).count = (actorSt t0 i).count + 1) ∧
      ∀ j, j ≠ i → actorSt (t.tile site) j = actorSt t0 j)

/-- R124, R109, R118, R198, R213: in its end cycle a firing's held records and control tokens leave, its writes join its pending set, its counters and
flags take their new values, and its tokens begin to leave after those still leaving, or, in a frozen or halted grove, stay in staging; before that
cycle nothing happens. R104, R108, R109: with no firing of its actor, and once what ends, returns or arrives in the cycle has done so, an ash at the
head of the actor's one input is stepped whole: it leaves, WL gains its count, and each output with a rate of p takes p * ceil(CNT / c) of its
sequences with one ash token; an ash of CNT 0 takes none. -/
def Obligations.FiringsEnd : Prop :=
 (∀ (s : State) (site : Nat) (f : Firing) (rest : List Firing),
    let t0 := s.tile site
    t0.ending = f :: rest →
    (s.now < f.endAt.getD 0 → Runs (.firingEnd site) s (· = s)) ∧
    (f.endAt.getD 0 ≤ s.now → f.cmds = [] → f.actor < 8 → Runs (.firingEnd site) s (fun t =>
      let t1 := t.tile site
      t1.ending = rest ∧ t1.firing = t0.firing ∧ t1.readFrom = s.now + 1 ∧ t1.stopped = t0.stopped ∧ t1.mq = t0.mq ∧ t1.slots = t0.slots ∧ t1.accs = t0.accs ∧
      SameMemory s t ∧ t.threads = s.threads ∧ (∀ z, z ≠ site → t.tile z = s.tile z) ∧
      (∀ p : Fin 4, (t1.ins[p]).items = leaveHeld f.held[p] (t0.ins[p]).items ∧ (t1.ins[p]).consumed = (t0.ins[p]).consumed + toksIn f.held[p] ∧
        (t1.outs[p]).seq = ((t0.outs[p]).seq + (f.stage[p]).next) % 2 ^ 32 ∧
        (unitsRun s site = true → (t1.outs[p]).busyTo = max s.now (t0.outs[p]).busyTo + (f.stage[p]).toks.length ∧
          t1.qbusy[p] = max s.now t0.qbusy[p] + (f.qout[p]).length) ∧
        (unitsRun s site = false → (t1.outs[p]).busyTo = (t0.outs[p]).busyTo ∧ t1.qbusy[p] = t0.qbusy[p] ∧
          (t1.outs[p]).waiting = (t0.outs[p]).waiting ++ (f.stage[p]).toks.map (rebase (t0.outs[p]).seq) ∧ t1.qwait[p] = t0.qwait[p] ++ f.qout[p]) ∧
        t1.cin[p] = (runTake (f.ctl[p]).length t0.cin[p]).2 ∧ t1.cinHeld[p] = t0.cinHeld[p] - (f.ctl[p]).length) ∧
      (actorSt t1 f.actor).ctr = f.ctr.getD (actorSt t0 f.actor).ctr ∧
      (actorSt t1 f.actor).wc = sat48 ((if f.wcc then 0 else (actorSt t0 f.actor).wc) + weightIn f.held[0] + weightIn f.held[1] + weightIn f.held[2] + weightIn f.held[3]) ∧
      (actorSt t1 f.actor).wl = sat32 ((if f.wcc then 0 else (actorSt t0 f.actor).wl) + lostIn f.held[0] + lostIn f.held[1] + lostIn f.held[2] + lostIn f.held[3]) ∧
      (siteExact s site = true → t1.store = t0.store ∧
        ∀ q v, f.writes = [(q, v)] → tabFind (actorSt t1 f.actor).pend q = some v) ∧
      (siteExact s site = false → (actorSt t1 f.actor).pend = [])))) ∧
 (∀ (s : State) (site i : Nat) (a : ActorCfg) (p : Fin 4) (h : Ash),
    let t0 := s.tile site
    i < 8 → t0.cfg.actors[i]? = some (some a) → stepInputs a = [p] → ashPass t0 p = true → headAsh t0.ins[p] (siteExact s site) (s.now + 1) = some h →
    (t0.firing.map (·.actor)) ≠ some i → (∀ f ∈ t0.ending, f.actor ≠ i) → t0.stopped = false → t0.ember = .no → unitsRun s site = true →
    endDue s.now t0 = false → (returning s.now t0 p).isSome = false → arrivalDue s site p = false →
    Runs (.ashStep site i) s (fun t =>
      let t1 := t.tile site
      let cnt := fun (po : Nat) => if h.cnt = 0 then 0 else sat32 (po * ((h.cnt + a.ci[p] - 1) / a.ci[p]))
      t1.ins = t0.ins.set p { setHeadAsh none t0.ins[p] with actedAt := some s.now } ∧ (actorSt t1 i).wl = sat32 ((actorSt t0 i).wl + h.cnt) ∧ t1.store = t0.store ∧
      t1.firing = t0.firing ∧ SameMemory s t ∧ t.threads = s.threads ∧ (∀ z, z ≠ site → t.tile z = s.tile z) ∧
      ∀ o : Fin 4, (a.po[o] = 0 → t1.outs[o] = t0.outs[o]) ∧ (a.po[o] ≠ 0 →
        (t1.outs[o]).seq = ((t0.outs[o]).seq + cnt a.po[o]) % 2 ^ 32 ∧ (t1.outs[o]).busyTo = max s.now (t0.outs[o]).busyTo + 1)))

/-- R111, R118, R119, R161: with the tile between firings, a round marker, an end-of-run or an end-of-kernel that stands at the head of every connected
input leaves: it is taken from those heads and put once on every connected output, taking no sequence. A round marker applies the pending state;
after an end-of-kernel the tile switches next. -/
def Obligations.MarkersLeave : Prop :=
  ∀ (s : State) (site : Nat),
    let t0 := s.tile site
    t0.stopped = false → t0.ember = .no → unitsRun s site = true → (∃ p : Fin 4, (t0.cfg.ins[p]).isSome = true) →
    let allHave := fun (k : Nat) => ∀ p : Fin 4, (t0.cfg.ins[p]).isSome = true → (t0.ins[p]).items.head? = some (.marker k)
    let left := fun (t : State) => SameMemory s t ∧ t.threads = s.threads ∧ (∀ z, z ≠ site → t.tile z = s.tile z) ∧
      ∀ p : Fin 4, ((t0.cfg.ins[p]).isSome = true → ((t.tile site).ins[p]).items = (t0.ins[p]).items.drop 1) ∧
        ((t.tile site).outs[p]).seq % 2 ^ 32 = (t0.outs[p]).seq % 2 ^ 32
    let sent := fun (k : Nat) (t : State) => ∀ (p : Fin 4) (y id lat : Nat), (t0.cfg.outs[p]).isSome = true → (y, id, lat) ∈ sinksOf s site (0x40 + p.val) →
      ∃ fl ∈ t.flights, fl.sink = sinkNo y id ∧ fl.tok = markTok k ∧ fl.due = max s.now (t0.outs[p]).busyTo + lat
    (allHave 2 → betweenFirings s.now t0 = true → Runs (.roundMarkerLeave site) s (fun t => left t ∧ sent 2 t ∧
      (t.tile site).store = (commitPending t0).store ∧ ∀ i, i < 8 → (actorSt (t.tile site) i).pend = [])) ∧
    (allHave 4 → betweenFirings s.now t0 = true → Runs (.endOfRunLeave site) s (fun t => left t ∧ sent 4 t ∧ (t.tile site).store = t0.store)) ∧
    (allHave 5 → betweenFirings s.now t0 = true → stagingEmpty s.now t0 = true → t0.commands = [] → Runs (.endOfKernelLeave site) s (fun t =>
      left t ∧ sent 5 t ∧ (t.tile site).store = t0.store ∧ (t.tile site).eok = true))

/-- R169, R323-R327, R154, R47: a stream command whose record its thread's earlier accesses have reached, and that passes its checks, enters the core's
command queue with its counter and, for each follow-on, mx raised by 1; rd receives the stream id; the engine's bind count goes up by 1. A fill's
slots await their bytes. It waits at issue while another thread's bind on the engine may still be discarded (R59, R174). A check that fails traps
precisely. R325, R326: the stream word is checked first: a slice beyond the grove's, a set bit the command does not use, LS in an exact grove and a
node of another kind are 0x251; the stream id is SL, ENG and the engine's bind count modulo 256. R47, R97, R142, R145, R146: the first queued
command that waits for no earlier one of its port or its commit buffer and finds a generator of its engine free, and for a store stream its port and
its reservation, leaves the queue and takes that generator, where it notes its input's sequence count and the rounds its slice has committed; with
none, nothing happens. That it may leave ahead of earlier commands that want neither its port nor its commit buffer is the model's reading (log
entry 35). -/
def Obligations.StreamsBind : Prop :=
 (∀ (s : State) (d a b : Reg) (vec : Nat),
    let c := s.focus / 8
    let va := (s.me.reg a).toNat
    let sw := (s.me.reg b).toNat
    let form := fun (i : Instr) (k : StreamKind) (va : Nat) (ctr : Ctr) => recordRead s k va sw = true → HasRoom s ctr → (s.coreOf c).cmdq.length < 1024 →
      (∀ x st, bindCheck s k va sw = .ok (x, st) → ctrFull s.me .mx (followCount s x st) = false →
        (bindsAhead s st = true → Runs i s (Stalled s)) ∧ (bindsAhead s st = false →
        Runs i s (fun t =>
          (t.coreOf c).cmdq = (s.coreOf c).cmdq ++ [{ slice := x, eng := st.sid / 256 % 2, stream := { st with op := s.nextId } }] ∧
          t.me.reg d = (if d = 0 then 0 else BitVec.ofNat 64 st.sid) ∧ OtherRegs s.me t.me d ∧
          t.me.mx = s.me.mx + followCount s x st ∧ t.me.ctr ctr = s.me.ctr ctr + 1 ∧ (∀ k, k ≠ ctr → k ≠ .mx → t.me.ctr k = s.me.ctr k) ∧
          RetiredAt s.me t.me s.me.next ∧ SameSystem s.me t.me ∧ (∀ q, q ≠ s.focus → t.thr q = s.thr q) ∧ SameMemory s t ∧
          (engineOf t x (st.sid / 256 % 2)).binds = (engineOf s x (st.sid / 256 % 2)).binds + 1 ∧
          (∀ y id lat, k = .fill → st.gen = none → sidSlice (streamGrove s st) st.sid = some x → st.slot < 8 → (y, id, lat) ∈ cpSinks s x st.cp →
            ∃ sl, ((t.tile y).slots)[st.slot]? = some sl ∧ sl.pending = fillBytes (streamGrove s st) st.pat st.fmt st.geo ∧ sl.sid = s.nextId ∧
              sl.gen = (s.tile y).gen)))) ∧
      (∀ k' bad, bindCheck s k va sw = .error (k', bad) → CanTrap s vec → Runs i s (Trapped s k' (BitVec.ofNat 64 bad) vec))
    (Issues s { srcs := [a, b], dst := some d, spec := true } →
      form (.sbind d a b) .load va .ld ∧ form (.sfill d a b) .fill va .ld ∧ form (.sgather d a b) .gather va .ld) ∧
    (Issues s { srcs := [a, b], dst := some d } → form (.sstore d a b) .store va .st ∧ form (.scut d a b) .cut va .ld) ∧
    (Issues s { srcs := [b], dst := some d } → form (.sscatter d b) .scatter 0 .st)) ∧
 (∀ (s : State) (k : StreamKind) (va sw : Nat),
    let g := myGrove s
    let w := swordOf sw
    (g.slices.length ≤ sw % 128 → bindCheck s k va sw = .error (0x251, 0)) ∧
    (∀ x, g.slices[sw % 128]? = some x →
      (k ≠ .cut → k ≠ .scatter → sw / 2 ^ 16 % 128 ≠ 0 → bindCheck s k va sw = .error (0x251, 0)) ∧
      (sw / 2 ^ 28 % 4 ≠ 0 → bindCheck s k va sw = .error (0x251, 0)) ∧
      (g.exact = true → sw / 2 ^ 10 % 2 = 1 → bindCheck s k va sw = .error (0x251, 0)) ∧
      (k = .gather → (((s.slice x).cfg.nodes)[sw / 2 ^ 11 % 4]?.map (·.kind)) ≠ some 2 → bindCheck s k va sw = .error (0x251, 0)) ∧
      (k = .scatter → (((s.slice x).cfg.nodes)[sw / 2 ^ 11 % 4]?.map (·.kind)) ≠ some 1 → bindCheck s k va sw = .error (0x251, 0)) ∧
      ∀ y st, bindCheck s k va sw = .ok (y, st) → y = x ∧ st.kind = k ∧ st.thread = s.focus ∧
        st.sid = sw % 128 * 512 + sw / 128 % 2 * 256 + (engineOf s x w.eng).binds % 256)) ∧
 (∀ (s : State) (cluster : Nat) (front : List Queued) (q : Queued) (rest : List Queued) (k g : Nat),
    (s.coreOf cluster).cmdq = front ++ q :: rest → (s.coreOf cluster).grove = some g → (s.grove g).run ≠ .embering → (∀ f ∈ front, mayBind s f = false) →
    (mayBind s q = true → (∀ f ∈ front, waitsFor q f = false) → freeGen s q.slice q.eng = some k → q.eng < 2 →
      Runs (.streamCommandDequeue cluster) s (fun t =>
        (t.coreOf cluster).cmdq = front ++ rest ∧ genStream t q.slice k = some (q.stream.atBind s q.slice) ∧
        genStream s q.slice k = none ∧ k / 4 = q.eng ∧ t.threads = s.threads ∧ SameMemory s t ∧
        (∀ x j, (x ≠ q.slice ∨ j ≠ k) → genStream t x j = genStream s x j))) ∧
    ((∀ q' ∈ q :: rest, mayBind s q' = false) → Runs (.streamCommandDequeue cluster) s (· = s)))

/-- R330, R57, R192: a control of a bound stream changes that stream alone: swin its windows, round the R it will take, sclose and sflush close it,
sresume lets it go on. An id that names no bound stream is 0x251. R330, R191: sresume.t restarts a stopped tile of the grove, and its matrix queue;
a slice or a site outside the grove is 0x251. -/
def Obligations.StreamsAreControlled : Prop :=
 (∀ (s : State) (a b : Reg) (vec x k : Nat) (st : Stream),
    let sid := (s.me.reg a).toNat
    let v := (s.me.reg b).toNat
    let g := myGrove s
    let only := fun (st1 : Stream) (t : State) => genStream t x k = some st1 ∧ (∀ y j, (y ≠ x ∨ j ≠ k) → genStream t y j = genStream s y j) ∧
      t.me.pc = s.me.next ∧ t.me.status = .ready ∧ (∀ r, t.me.reg r = s.me.reg r) ∧ SameSystem s.me t.me ∧ SameCounters s.me t.me ∧
      (∀ q, q ≠ s.focus → t.thr q = s.thr q) ∧ t.tiles = s.tiles ∧ t.cores = s.cores ∧ SameMemory s t
    (findStream s g sid = some (.gen x k, st) → k < 8 →
      (Issues s { srcs := [a, b] } →
        (v < 2 ^ 20 → (st.kind = .load ∨ st.kind = .fill ∨ st.kind = .gather) → Runs (.swin a b) s (only { st with
          branches := st.branches.map (fun p => if v / 2 ^ 19 % 2 = 1 ∨ p.1 = v / 2 ^ 16 % 8 then (p.1, v % 2 ^ 16) else p) })) ∧
        ((st.kind = .store ∨ st.kind = .scatter ∨ st.kind = .cut ∨ 2 ^ 20 ≤ v) → CanTrap s vec → Runs (.swin a b) s (Trapped s 0x251 0 vec)) ∧
        (st.kind = .load → 1 ≤ v → v ≤ 2 ^ 20 → (s.grove st.grove).exact = true → Runs (.setRound a b) s (fun t => only { st with pendR := some v } t ∧
          tabFind (t.grove st.grove).roundSet st.sid = some v)) ∧
        (st.kind ≠ .cut → (v = 0 ∨ 2 ^ 20 < v ∨ (s.grove st.grove).exact = false ∨ (st.kind = .store ∧ st.resv < 2 * v * st.pat.rl)) → CanTrap s vec → Runs (.setRound a b) s (Trapped s 0x252 0 vec))) ∧
      (Issues s { srcs := [a] } →
        (st.kind = .load → st.paused = none → (∀ r ∈ st.win, RoTok.faulted r = false) →
          Runs (.sclose a) s (only { st with closing := true, toks := st.emit + st.win.length, issue := st.emit + st.win.length, part := 0, skipTo := none }) ∧
          Runs (.sflush a) s (only { st with closing := true, win := [], toks := st.emit, issue := st.emit, part := 0, skipTo := none })) ∧
        (st.kind = .store → st.paused = none → st.withheld = none → st.headHeld = false → Runs (.sclose a) s (only { st with closing := true }) ∧
          Runs (.sflush a) s (fun t => ∃ ash gone, only { st with
            closing := true, held := st.held.filter (fun h => writeUnderWay s st.op h.pos), behind := [], ash := ash, gone := gone } t)) ∧
        (st.paused = none → Runs (.sresume a) s (only st)) ∧
        (st.paused ≠ none → st.kind = .store → Runs (.sresume a) s (only { st with paused := none, headHeld := false, ext := [] })) ∧
        (st.paused ≠ none → st.kind = .load → Runs (.sresume a) s (fun t => ∃ st1, only st1 t ∧ st1.paused = none ∧ st1.emit = st.emit ∧ st1.toks = st.toks ∧
          st1.win = st.win.takeWhile (fun r => !r.faulted))))) ∧
    (findStream s g sid = none → CanTrap s vec →
      (Issues s { srcs := [a, b] } → Runs (.swin a b) s (Trapped s 0x251 0 vec) ∧ Runs (.setRound a b) s (Trapped s 0x251 0 vec)) ∧
      (Issues s { srcs := [a] } → Runs (.sclose a) s (Trapped s 0x251 0 vec) ∧ Runs (.sflush a) s (Trapped s 0x251 0 vec) ∧
        Runs (.sresume a) s (Trapped s 0x251 0 vec)))) ∧
 (∀ (s : State) (a : Reg) (vec : Nat), Issues s { srcs := [a] } →
    let v := (s.me.reg a).toNat
    let g := myGrove s
    let site := siteAt g.die (8 * g.cx + v / 64) (4 * g.cy + v % 64)
    let inside := v / 64 < 8 * g.image.gw ∧ v % 64 < 4 * g.image.gh
    (v < 2 ^ 12 → inside → siteIsSlice site = false → Runs (.sresumeT a) s (fun t =>
      t.tile site = { s.tile site with stopped := false, mqStop := false } ∧ (∀ z, z ≠ site → t.tile z = s.tile z) ∧ t.me.pc = s.me.next ∧
      (∀ r, t.me.reg r = s.me.reg r) ∧ (∀ q, q ≠ s.focus → t.thr q = s.thr q) ∧ SameMemory s t)) ∧
    ((2 ^ 12 ≤ v ∨ ¬inside ∨ siteIsSlice site = true) → CanTrap s vec → Runs (.sresumeT a) s (Trapped s 0x251 0 vec)))

/-- R22, R23, R25, R52, R55, R70, R75, R164, R352: the loader builds the extent set that a stream's next address needs, from that address's page, or
prepares the next set; an engine that may issue, switching to the prepared set where it must, asks in one request for what one line holds of its
next token and of those after it, at most eight (the model's reading, log entry 22), spending a permit, with a packet to the hearth, and withholds a
token whose page faults; with no set, a full window or no permit left it does not issue, and an invalidation under way holds it. 64 idle cycles free
its heavy slot. (Of a cutter, whose rows' format is known.) R55, R59, R77: a response delivered to its engine puts each flit in its token's place of
the window, in walk order; a place with nothing more to come holds its data; a token of a lossy fill that lost a part stays zero bytes. A response
whose stream is gone is dropped. -/
def Obligations.EnginesReadAhead : Prop :=
 (∀ (s : State) (x k : Nat) (st : Stream), genStream s x k = some st → k < 8 → (∀ c, st.cut = some c → firstRows s st c = none) →
    let g := s.grove st.grove
    let e := engineOf s x (k / 4)
    let rest := fun (t : State) => (∀ y j, (y ≠ x ∨ j ≠ k) → genStream t y j = genStream s y j) ∧ SameMemory s t ∧ t.threads = s.threads ∧
      t.tiles = s.tiles ∧ t.flights = s.flights
    let only := fun (st1 : Stream) (t : State) => genStream t x k = some st1 ∧ t.reqs = s.reqs ∧ t.packets = s.packets ∧ rest t
    (∀ grp off va n more, tinvHolds s st = false → nextGroup s st = some grp → grp = (off, va, n) :: more →
      (allCovered st.ext grp = false → allCovered st.nextExt grp = false →
        Runs (.extentSetBuild x k) s (only { st with ext := extentsFrom s g va st.lastVa, nextExt := [] })) ∧
      (allCovered st.ext grp = true → st.nextExt = [] → extentsEnd st.ext ≤ st.lastVa → (∀ y ∈ st.ext, y.fault = none) →
        Runs (.extentSetBuild x k) s (only { st with nextExt := extentsFrom s g (extentsEnd st.ext) st.lastVa }))) ∧
    (tinvHolds s st = true → Runs (.extentSetBuild x k) s (· = s) ∧ Runs (.engineIssueRead x k) s (· = s)) ∧
    (∀ kind ps grp, aheadParts s st 0 = some (kind, ps) → (lineGroups ps)[st.part]? = some grp →
      (∀ sx, (allCovered st.ext grp = true ∧ sx = st ∨
          allCovered st.ext grp = false ∧ allCovered st.nextExt grp = true ∧ sx = { st with ext := st.nextExt, nextExt := [] }) →
        (∀ c, sx.cut = some c → firstRows s sx c = none) → mayIssue s x k st = true →
        (∀ l, partsPa s sx kind grp = .ok l → Runs (.engineIssueRead x k) s (fun t =>
          ∃ r st1 pk, t.reqs = s.reqs ++ [r] ∧ r.id = s.nextId ∧ t.nextId = s.nextId + 2 ∧ r.kind = .engineRead x k ∧ r.src = st.thread ∧ r.edge = st.op ∧
            r.key = g.key ∧ r.tok0 = st.issue ∧ 1 ≤ r.flits ∧ r.flits ≤ 8 ∧ r.reads = r.pieces ∧ l <+: r.pieces ∧ r.sent = true ∧ r.arr = none ∧
            genStream t x k = some st1 ∧ st1.emit = st.emit ∧ st1.toks = st.toks ∧ st1.ext = sx.ext ∧ st.win <+: st1.win ∧ rest t ∧
            t.packets = s.packets ++ [pk] ∧ pk.req = some s.nextId ∧ pk.type = 0 ∧ pk.vl = 2 ∧ pk.hub = true ∧ pk.sclu = cluCode (siteCluster x) ∧ pk.sep = epOf x (1 + k / 4) ∧
            tabGet t.permits (x * 2 + k / 4) 0 = tabGet s.permits (x * 2 + k / 4) 0 + 1 ∧ (engineOf t x (k / 4)).lastIssue = s.now ∧
            (engineOf t x (k / 4)).sent = e.sent)) ∧
        (∀ c va, partsPa s sx kind grp = .error (c, va) → Runs (.engineIssueRead x k) s (fun t =>
          ∃ st1, only st1 t ∧ st1.emit = st.emit ∧ st1.win.getLast? = some { idx := st.issue, st := .fault c va }))) ∧
      (allCovered st.ext grp = false → allCovered st.nextExt grp = false → Runs (.engineIssueRead x k) s (· = s))) ∧
    (32 ≤ tabGet s.permits (x * 2 + k / 4) 0 ∨ (st.gen = none ∧ st.part = 0 ∧ 256 ≤ windowUsed s x (k / 4) false) → Runs (.engineIssueRead x k) s (· = s)) ∧
    (∀ en : Fin 2, (64 ≤ s.now - (engineOf s x en).lastIssue → Runs (.engineIdleGap x en) s (fun t =>
        engineOf t x en = { engineOf s x en with heavy := false, run := 0 } ∧ (∀ y j, genStream t y j = genStream s y j) ∧ t = { s with slices := t.slices })) ∧
      (s.now - (engineOf s x en).lastIssue < 64 → Runs (.engineIdleGap x en) s (· = s)))) ∧
 (∀ (s : State) (pkt : Nat) (p : Packet), s.packets.find? (fun q => q.id = pkt) = some p → p.type = 1 → p.pruned = false → p.at_ = .delivered → p.gen < 8 →
    let x := siteOfEp (cluDecode p.dclu) p.dep
    let left := s.packets.filter (fun q => q.id ≠ pkt)
    (∀ st, genStream s x p.gen = some st → st.op = p.op → (∀ c, st.cut = some c → c.loaded = true) → Runs (.readResponseArrival pkt) s (fun t =>
      t = { s with packets := left, slices := t.slices } ∧ (∀ y j, (y ≠ x ∨ j ≠ p.gen) → genStream t y j = genStream s y j) ∧
      ∃ st1, genStream t x p.gen = some st1 ∧ st1 = { st with win := st1.win } ∧ st1.win.length = st.win.length ∧
        ∀ (j : Nat) r, st.win[j]? = some r →
          (r.idx < p.tok0 ∨ p.tok0 + p.olen ≤ r.idx → st1.win[j]? = some r) ∧
          (p.tok0 ≤ r.idx → r.idx < p.tok0 + p.olen → (r.st = .asked ∨ ∃ c a, r.st = .hole c a) → r.left = 1 → ∃ r1, st1.win[j]? = some r1 ∧ r1.idx = r.idx ∧
            (r.zero = false → r1.got = r.got + p.val / 2 ^ (256 * (r.idx - p.tok0)) % 2 ^ 256 ∧ r1.st = .data (r.bad || p.badAt.contains (r.idx - p.tok0))) ∧
            (r.zero = true → r1.got = 0 ∧ r1.st = .data false)))) ∧
    (genStream s x p.gen = none → Runs (.readResponseArrival pkt) s (· = { s with packets := left })))

/-- R47, R50, R53, R54, R77, R97, R192, R350: the engine emits the next token of the stream it serves, at most one a cycle: a data token on every
branch, counted there; at a window it holds; one ash token for records lost, named by the sequence of the output it leaves by; a round marker;
end-of-run, which frees the generator and completes the stream; at a withheld token the stream pauses and its record leaves; while a stream bound
earlier holds its circuit output it emits nothing. R53, R54: a report of a branch's consumed count does not count in the cycle it arrives in; from
the next cycle on the branch's count is the value it carries. The other branches' counts stay. -/
def Obligations.EnginesEmitAndPace : Prop :=
 (∀ (s : State) (x k : Nat) (st : Stream), genStream s x k = some st → k < 8 →
    let e := engineOf s x (k / 4)
    let rest := fun (t : State) => (∀ y j, (y ≠ x ∨ j ≠ k) → genStream t y j = genStream s y j) ∧ SameMemory s t ∧ t.threads = s.threads ∧ t.tiles = s.tiles ∧ t.reqs = s.reqs
    let goes := fun (tok : Tok) (t : State) => ∀ y id lat, (y, id, lat) ∈ sinksOf s x (0x40 + st.cp) →
      ∃ f ∈ t.flights, f.sink = sinkNo y id ∧ f.due = s.now + lat ∧ f.tok = tok ∧ f.sid = st.sid ∧ f.op = st.op
    let runs := fun (P : State → Prop) => Runs (.engineEmitToken x k) s (fun t => P t ∧ rest t ∧
      (engineOf t x (k / 4)).lastEmit = some s.now ∧ (engineOf t x (k / 4)).rr = k % 4)
    (e.lastEmit ≠ some s.now → servedGen s x (k / 4) = some k →
      (∀ r bad, emitAct s x e st = some (.data r) → r.st = .data bad → runs (fun t =>
        ∃ st1 pay, genStream t x k = some st1 ∧ st1.emit = st.emit + 1 ∧ st1.win = st.win.drop 1 ∧ st1.toks = st.toks ∧
          (bad = false → pay = tokenPay s st r) ∧
          (let tok : Tok := { pay := pay, kind := if bad then 7 else 0, weight := 1, first := decide (st.emit % st.pat.rl = 0),
                              last := decide (st.emit % st.pat.rl + 1 = st.pat.rl) }
           (st.kind ≠ .gather → goes tok t) ∧ (st.kind = .gather → st.node < 4 → (sliceNode t x st.node).rows = (sliceNode s x st.node).rows ++ [tok])) ∧
          ((st.branches.map (·.1)).Nodup → ∀ b n, b < 8 → (engineOf s x (k / 4)).sent.toList[b]? = some n →
            (engineOf t x (k / 4)).sent.toList[b]? = some (if b ∈ st.branches.map (·.1) then (n + 1) % 2 ^ 32 else n)))) ∧
      (∀ grp, emitAct s x e st = some (.ash grp) → st.kind ≠ .gather →
        recordsOf st.pat.rl (st.win.takeWhile (fun r => r.st = .gone grp)).length < 2 ^ 32 → runs (fun t =>
        let n := (st.win.takeWhile (fun r => r.st = .gone grp)).length
        ∃ st1 a, genStream t x k = some st1 ∧ st1.emit = st.emit + n ∧ st1.win = st.win.drop n ∧ goes { pay := Ash.bits a, kind := 1 } t ∧
          a.cnt = recordsOf st.pat.rl n ∧ a.dw = a.cnt ∧ a.uw = a.cnt ∧ a.org = orgPrune ∧
          (0 < a.cnt → a.fseq = ((s.slice x).outSeq.toList[st.cp]?).getD 0))) ∧
      (emitAct s x e st = some .marker → st.kind ≠ .gather → runs (fun t => ∃ st1, genStream t x k = some st1 ∧ st1.emit = st.emit ∧ st1.win = st.win ∧
        st1.inRound = 0 ∧ st1.round = st.pendR.getD st.round ∧ goes (markTok 2) t)) ∧
      (emitAct s x e st = some .eor → (st.kind = .load ∨ st.kind = .fill) → runs (fun t => genStream t x k = none ∧ goes (markTok 4) t ∧
        t.ops = s.ops.map (fun o => if o.id = st.op then { o with done := true } else o))) ∧
      (∀ c, emitAct s x e st = some (.cutTok c) → runs (fun t => ∃ st1, genStream t x k = some st1 ∧ st1.cut.map (·.queue) = st.cut.map (fun q => q.queue.drop 1) ∧
        ∀ y id lat, (y, id, lat) ∈ sinksOf s x (0x40 + st.cp) → ∃ f ∈ t.flights, f.sink = sinkNo y id ∧ f.due = s.now + lat ∧ f.slot = c.slot ∧ f.bytes = c.bytes ∧
          f.cut = c.cut ∧ f.fin = c.fin ∧ (c.entry = true → f.tok.pay = c.pay ∧ f.pos = none) ∧ (c.entry = false → f.pos = some c.row)))) ∧
    (∀ c va, emitAct s x e st = some (.pause c va) → Runs (.engineEmitToken x k) s (fun t => rest t ∧ t.flights = s.flights ∧
      genStream t x k = some { st with paused := some (c, va), pausedAt := s.now } ∧
      ∃ pk r, t.packets = s.packets ++ [pk] ∧ pk.type = 6 ∧ pk.cls = 15 ∧ pk.pay = [FaultRec.bits r] ∧ r.cause = c ∧ r.src = 1 ∧ r.sid = st.sid ∧ r.addr = va % 2 ^ 48)) ∧
    (portTaken s x st = true → Runs (.engineEmitToken x k) s (· = s)) ∧
    ((∀ c va, emitAct s x e st ≠ some (.pause c va)) → (emitAct s x e st = none ∨ e.lastEmit = some s.now) → Runs (.engineEmitToken x k) s (· = s)) ∧
    (∀ r rest' bad, st.kind = .load → markerDue (s.grove st.grove).exact st = false → st.win = r :: rest' → r.st = .data bad →
      (∃ p ∈ st.branches, p.2 ≠ 0 ∧ (p.2 : Int) ≤ windowCount e s.now p.1) → Runs (.engineEmitToken x k) s (· = s))) ∧
 (∀ (s : State) (pkt : Nat) (p : Packet), s.packets.find? (fun q => q.id = pkt) = some p → p.type = 7 → p.at_ = .delivered → (p.dep % 8 = 1 ∨ p.dep % 8 = 2) →
    let x := siteOfEp (cluDecode p.dclu) p.dep
    let en := p.dep % 8 - 1
    Runs (.consumedCountReport pkt) s (fun t => t = { s with packets := s.packets.filter (fun q => q.id ≠ pkt), slices := t.slices } ∧
      (∀ y j, genStream t y j = genStream s y j) ∧ (engineOf t x en).sent = (engineOf s x en).sent ∧
      (∀ b, b < 8 → reportedAt (engineOf t x en) s.now b = reportedAt (engineOf s x en) s.now b) ∧
      (∀ n, s.now < n → reportedAt (engineOf t x en) n (p.addr % 8) = p.val) ∧
      ∀ n b, s.now < n → b < 8 → b ≠ p.addr % 8 → (∀ f ∈ (engineOf s x en).fresh, f.1 ≠ b) →
        reportedAt (engineOf t x en) n b = reportedAt (engineOf s x en) n b))

/-- R56, R128, R131, R140: a data token of a fill lands in its stream's slot after the bytes before it, and a B row at its place; the slot's counter
falls by its bytes; the last token of a cutter's stream completes it. A token whose slot belongs to another stream is dropped. At the end of a fill
cut short what has landed stays, the counters of its slots are set to 0 and their follow-ons are not issued. A firing that ends in the cycle goes
first. R138: a cut begins at the least column not before its start that some row stores, spans at most 256 columns, counts the entries in its range,
holds more than its budget only in its first column, and ends at K, at 256 columns, or before the column that would pass the budget. R137, R138,
R139, R140, R327: with its panel read and decoded and both slots of the next pair free, the cutter decides the next cut: both slots belong to it,
with the bytes of its entries and of its B rows pending, its B rows are to be read, and mx gains 1 where it has a follow-on. While a slot of the
pair is taken nothing happens, nor while a firing of its tile that ends in the cycle is to enter its commands. A bad panel, or an element out of
range in an exact grove, pauses the stream with its record; else elements out of range are dropped and counted. -/
def Obligations.FillsAndCuts : Prop :=
 (∀ (s : State) (site : Nat) (f : Flight) (s1 : State) (old : Slot), endDue s.now (s.tile site) = false → takeFlight s (sinkNo site 0x44) = some (f, s1) →
    (s.tile site).slots.toList[f.slot]? = some old →
    let lands := fun (P : Slot → Prop) => Runs (.fillTokenLand site) s (fun t => ∃ sl, (t.tile site).slots.toList[f.slot]? = some sl ∧ P sl ∧
      sl.sid = old.sid ∧ sl.gen = old.gen ∧ sl.fmt = old.fmt ∧ sl.pending = old.pending - f.bytes ∧
      (∀ j : Fin 8, j.val ≠ f.slot → (t.tile site).slots[j] = (s.tile site).slots[j]) ∧ (t.tile site).accs = (s.tile site).accs ∧
      (t.tile site).mq = (s.tile site).mq ∧ (∀ z, z ≠ site → t.tile z = s.tile z) ∧ t.threads = s.threads ∧ SameMemory s t ∧ t.flights = s1.flights ∧
      (f.fin = false → t.ops = s.ops) ∧ (f.fin = true → t.ops = s.ops.map (fun o => if o.id = f.op then { o with done := true } else o)))
    ((f.tok.kind = 0 ∨ f.tok.kind = 7) →
      (old.sid = f.op → old.pending ≠ 0 → f.cut = none → (∀ sl ∈ (s.tile site).slots.toList, sl.sid = f.op → sl.follow = none) →
        (f.pos = none → old.scaled = false → lands (fun sl => sl.bits = putSlotBits old.bits (8 * old.landed) (8 * f.bytes) f.tok.pay.toNat ∧
          sl.landed = old.landed + f.bytes)) ∧
        (∀ row, f.pos = some row → lands (fun sl => sl.bits = putSlotBits old.bits (row * 8 * f.bytes) (8 * f.bytes) f.tok.pay.toNat ∧ sl.landed = old.landed))) ∧
      ((old.sid ≠ f.op ∨ old.pending = 0) → f.cut = none → Runs (.fillTokenLand site) s (· = if f.fin then opDone s1 f.op else s1))) ∧
    (f.tok.kind = 4 → (Runs (.fillTokenLand site) s (· = s)) ∧
      ((∀ sl ∈ (s.tile site).slots.toList, sl.sid = f.op → sl.pending = 0 → sl.follow = none) → Runs (.fillSinkEndOfRun site) s (fun t =>
        t.tile site = { s.tile site with slots := (s.tile site).slots.map (fun q => if q.sid = f.op ∧ q.pending ≠ 0 then { q with pending := 0, follow := none } else q) } ∧
        (∀ m th, old.sid = f.op → old.pending ≠ 0 → old.follow = some (m, th) →
          (∀ (j : Nat) sl, j ≠ f.slot → (s.tile site).slots.toList[j]? = some sl → sl.sid = f.op → sl.follow = none) → t.threads = tabPut s.threads th ((s.thr th).subCtr .mx 1)) ∧
        ((∀ sl ∈ (s.tile site).slots.toList, sl.sid = f.op → sl.follow = none) → t.threads = s.threads) ∧
        (∀ z, z ≠ site → t.tile z = s.tile z) ∧ SameMemory s t ∧ t.flights = s1.flights)))) ∧
 (∀ (l : List (Nat × Nat × Nat)) (kMax bud start : Nat),
    ((∀ q ∈ l, q.2.1 < start) ↔ cutFrom l kMax bud start = none) ∧
    ∀ c, cutFrom l kMax bud start = some c → start ≤ c.lo ∧ (∃ q ∈ l, q.2.1 = c.lo) ∧ (∀ q ∈ l, start ≤ q.2.1 → c.lo ≤ q.2.1) ∧
      c.lo < c.hi ∧ c.hi ≤ c.lo + 256 ∧ c.n = (l.filter (fun q => decide (c.lo ≤ q.2.1 ∧ q.2.1 < c.hi))).length ∧
      (c.n ≤ bud ∨ c.hi = c.lo + 1) ∧ (kMax ≤ c.hi ∨ c.hi = c.lo + 256 ∨ bud < c.n + countAt l c.hi)) ∧
 (∀ (s : State) (x k : Nat) (st : Stream) (c : Cutter), genStream s x k = some st → k < 8 → st.cut = some c →
    c.loaded = true → c.ended = false → st.closing = false → st.paused = none → enginesRun s st = true →
    (endDue s.now (s.tile st.node) = true → Runs (.cutDecide x k) s (· = s)) ∧ (endDue s.now (s.tile st.node) = false →
    let g := s.grove st.grove
    let pair := (c.pairs[st.rounds % 2]?).getD (0, 0)
    let t0 := s.tile st.node
    let free := fun (i : Fin 8) => (t0.slots[i]).use = 0 ∧ (t0.slots[i]).pending = 0
    let form := fun (cut : Cut) => c.bfmt.getD (if c.any then c.bguess else (rowFormat s g st c (c.bbase + cut.lo * c.bpitch)).getD 30)
    let pauses := fun (cause : Cause) => Runs (.cutDecide x k) s (fun t => t.tiles = s.tiles ∧ SameMemory s t ∧ t.threads = s.threads ∧
      genStream t x k = some { st with paused := some (cause, 0), pausedAt := s.now } ∧
      ∃ pk r, t.packets = s.packets ++ [pk] ∧ pk.cls = 15 ∧ pk.pay = [FaultRec.bits r] ∧ r.cause = cause ∧ r.src = 1 ∧ r.sid = st.sid)
    ((c.any = true ∨ c.elems ≠ []) → (∀ q ∈ c.elems, q.2.1 < c.k) →
      (∀ cut, pair.1 ≠ pair.2 → free pair.1 → free pair.2 → ctrFull (s.thr st.thread) .mx 1 = false → c.elems ≠ [] →
        cutFrom c.elems c.k c.bud c.next = some cut → Runs (.cutDecide x k) s (fun t =>
          let rowB := bRowBytes g (form cut)
          (((t.tile st.node).slots[pair.1]).sid = st.op ∧ ((t.tile st.node).slots[pair.1]).pending = 4 * cut.n ∧
            ((t.tile st.node).slots[pair.2]).sid = st.op ∧ ((t.tile st.node).slots[pair.2]).pending = (cut.hi - cut.lo) * rowB ∧
            ((t.tile st.node).slots[pair.2]).follow = (if c.fe then some (MatOp.mmas c.fa pair.1 pair.2, st.thread) else none)) ∧
          (∀ j, j ≠ pair.1 → j ≠ pair.2 → (t.tile st.node).slots[j] = t0.slots[j]) ∧ (∀ z, z ≠ st.node → t.tile z = s.tile z) ∧ SameMemory s t ∧
          (t.thr st.thread).mx = (s.thr st.thread).mx + (if c.fe then 1 else 0) ∧
          ∃ st1 c1, genStream t x k = some st1 ∧ st1.cut = some c1 ∧ c1.next = cut.hi ∧ st1.rounds = st.rounds + 1 ∧
            c1.need = c.need ++ (List.range (cut.hi - cut.lo)).map (fun i => (3, c.bbase + (cut.lo + i) * c.bpitch, rowB)) ∧
            c1.ended = (cutFrom c.elems c.k c.bud cut.hi).isNone)) ∧
      ((¬free pair.1 ∨ ¬free pair.2) → c.elems ≠ [] → Runs (.cutDecide x k) s (fun t => t.tiles = s.tiles ∧ t.threads = s.threads ∧ SameMemory s t ∧
        genStream t x k = some st))) ∧
    (c.any = false → c.elems = [] →
      (∀ cause, c.decode (codeWidth g c.vfmt) 16 = .error cause → pauses cause) ∧
      (∀ all, c.decode (codeWidth g c.vfmt) 16 = .ok all → (∃ q ∈ all, c.k ≤ q.2.1) →
        (g.exact = true → pauses 0x182) ∧
        (g.exact = false → ¬free pair.1 → Runs (.cutDecide x k) s (fun t => SameMemory s t ∧ t.threads = s.threads ∧ (∀ z, z ≠ st.node → t.tile z = s.tile z) ∧
          t.tile st.node = { t0 with ms := { t0.ms with cl := min 0xFFFF (t0.ms.cl + (all.filter (fun q => decide (c.k ≤ q.2.1))).length) } } ∧
          ∃ st1 c1, genStream t x k = some st1 ∧ st1.cut = some c1 ∧ c1.elems = all.filter (fun q => decide (q.2.1 < c.k)))))) ∧
    (∀ va e, extentAt (st.ext ++ st.nextExt) va = none → s.walkG g va = .ok e → cutPageFault g c 3 (pageFormat e).1 (pageFormat e).2 = none →
      rowFormat s g st c va = some (pageFormat e).1) ∧
    (∀ va e, extentAt (st.ext ++ st.nextExt) va = some e → e.fault = none → cutPageFault g c 3 (pteFmt e.leaf.toNat) (pteGeo e.leaf.toNat) = none →
      rowFormat s g st c va = some (pteFmt e.leaf.toNat))))

/-- R70-R72, R74, R76: a header first in its lane, with its turn where it stands, goes on to the next place of its route if that has room: 2 cycles
after it came to a router, 16 after it came to the crossing between dies; lane 0 goes first over a link, which sends one flit a cycle, and leaves
the turns of the others as they were. A pruneable packet that meets more than 27 flits on lane 1 loses its payload, its check is computed again, it
rides lane 0, and the queue's trim counter gains 1. A bad header (0x3C0, 0x283) and a class without a route (0x280) are discarded; their event
records, and the route of every packet but TYPE 6 of a class below 14, are the model's reading (log entries 57 and 56). To a cluster of its die a
packet goes X first, then Y. At its end a request is at its node and an answer at its unit. R75, R77: a pruned header adds 1 to its flow's trim
counter; an exact flow's receiver marks the hole and asks again 64 * 2^n cycles later, with a permit, naming FLOW, SEQ and OLEN, and the source
performs the read again or sends the packet it still holds, else 0x282; a lossy read loses every record touched, and a lossy fill takes zeros. -/
def Obligations.PacketsTravel : Prop :=
 (∀ (s : State) (pkt : Nat) (p : Packet), s.packet pkt = some p →
    let others := s.packets.filter (fun q => q.id ≠ p.id)
    let stays := Runs (.routerHeaderArrival pkt) s (· = s)
    let linked := fun (t : State) => (sendsOn p.at_ = true → linkAt t p.at_ = (s.now + 1 + p.len, p.lane, if p.lane = 0 then (linkAt s p.at_).2.2 else p.lane)) ∧ (sendsOn p.at_ = false → t.links = s.links)
    (firstInLane s p = false ∨ s.now < p.due → stays) ∧
    (firstInLane s p = true → p.due ≤ s.now →
      (p.hchk ≠ p.check → Runs (.routerHeaderArrival pkt) s (· = (s.dropPacket pkt).logEvent 0x3C0 p.grove 0 0)) ∧
      (p.hchk = p.check → malformed p = true → Runs (.routerHeaderArrival pkt) s (· = (s.dropPacket pkt).logEvent 0x283 p.grove 0 0)) ∧
      (p.hchk = p.check → malformed p = false →
        (∀ alg a, routeAlg s p = some alg → nextPlace s p alg = some a →
          (roomAt s p a = true → hasTurn s p = true →
            (a ≠ .delivered → prunedAt s p a = false → Runs (.routerHeaderArrival pkt) s (fun t => t = { s with packets := t.packets, links := t.links } ∧ linked t ∧
              t.packets = others ++ [{ p with at_ := a, due := leavesAt s p a, down := p.down || decide (a = .hub) }])) ∧
            (prunedAt s p a = true → Runs (.routerHeaderArrival pkt) s (fun t => t = { s with packets := t.packets, trims := t.trims } ∧
              (∃ q, t.packets = others ++ [q] ∧ q.hchk = q.check ∧ q.lane = 0 ∧
                q = { p with at_ := a, due := leavesAt s p a, pruned := true, len := 0, vl := 0, pay := [], val := 0, hchk := q.hchk }) ∧
              (∀ q, tabGet t.trims q 0 = if q = placeKey a then min 0xFFFF (tabGet s.trims q 0 + 1) else tabGet s.trims q 0))) ∧
            (a = .delivered → p.req = none → p.ddev = s.dev → Runs (.routerHeaderArrival pkt) s (fun t =>
              t = { s with packets := t.packets, links := t.links } ∧ linked t ∧ t.packets = others ++ [{ p with at_ := .delivered, due := s.now }])) ∧
            (∀ id, a = .delivered → p.req = some id → (p.type = 0 ∨ p.type = 2) → Runs (.routerHeaderArrival pkt) s (fun t =>
              t = { s with packets := others, links := t.links, reqs := s.reqs.map (fun r => if r.id = id then { r with arr := some s.now } else r) } ∧ linked t)) ∧
            (∀ r, a = .delivered → p.req = some r.id → p.type ≠ 0 → p.type ≠ 2 → s.reqs.find? (fun q => q.id = r.id) = some r → (∀ n, r.kind ≠ .nsend n) →
              Runs (.routerHeaderArrival pkt) s (fun t => t = { s with packets := others, links := t.links, reqs := t.reqs } ∧ linked t ∧
                t.reqs = s.reqs.map (fun q => if q.id = r.id then { r with ans := 2 } else q)))) ∧
          (roomAt s p a = false ∨ hasTurn s p = false → stays)) ∧
        (∀ alg, routeAlg s p = some alg → nextPlace s p alg = none → stays) ∧
        (routeAlg s p = none → Runs (.routerHeaderArrival pkt) s (fun t => SameMemory s t ∧ t.threads = s.threads ∧
          t.ops = s.ops.map (fun o => if o.id = p.op then { o with done := true } else o) ∧
          ∃ pk r, t.packets = s.packets.filter (fun q => q.id ≠ p.id) ++ [pk] ∧ pk.type = 6 ∧ pk.cls = 15 ∧ pk.grove = p.grove ∧ pk.pay = [FaultRec.bits r] ∧ r.cause = 0x280 ∧
            r.src = 3 ∧ r.clu = p.sclu ∧ r.ep = p.sep ∧ r.sid = p.flow ∧ r.seq = p.seq)))) ∧
    (∀ a, prunedAt s p a = true ↔ p.pr = true ∧ p.pruned = false ∧ 27 < laneFlits s a 1 ∧ ((∃ r d, a = .router r d ∧ d ≠ 6) ∨ (∃ c x, a = .hearth c x) ∨ ∃ d, a = .link d)) ∧
    (∀ a, queueAt a = true → prunedAt s p a = false → (roomAt s p a = true ↔ laneFlits s a p.lane + 1 + p.len ≤ 36)) ∧
    (sendsOn p.at_ = true → (s.now < (linkAt s p.at_).1 ∨ p.lane ≠ 0 ∧ ∃ q ∈ s.packets, q.at_ = p.at_ ∧ q.lane = 0 ∧ readyToMove s q = true) → hasTurn s p = false) ∧
    (∀ r d, leavesAt s p (.input r d) = s.now + 2) ∧ leavesAt s p .hub = (if crosses s p then s.now + 16 else s.now) ∧
    ((p.type ≠ 6 ∨ 14 ≤ p.cls) → routeAlg s p = some 0) ∧
    (∀ r side, p.at_ = .input r side → leavesDie s p r 0 = false →
      let tx := cxOf (cluDecode p.dclu)
      let ty := cyOf (cluDecode p.dclu)
      nextPlace s p 0 = some (.router r (if cxOf r < tx then 1 else if tx < cxOf r then 3 else if cyOf r < ty then 2 else if ty < cyOf r then 0 else 4)))) ∧
 (∀ (s : State) (pkt : Nat) (p : Packet), s.packet pkt = some p →
    let others := s.packets.filter (fun q => q.id ≠ p.id)
    let x := siteOfEp (cluDecode p.dclu) p.dep
    let y := siteOfEp (cluDecode p.sclu) p.sep
    let permit := (slicePermit (cluDecode p.sclu) x).1
    let returned := ∀ r ∈ s.reqs, r.sent = true
    (p.pruned = true → p.at_ = .delivered → p.type = 1 → p.gen < 8 → ∀ st, genStream s x p.gen = some st → st.op = p.op → st.gen = none →
      let counted := fun (t : State) => tabGet t.trims (flowKey st.grove st.sid) 0 = min 0xFFFF (tabGet s.trims (flowKey st.grove st.sid) 0 + 1) ∧
        SameMemory s t ∧ t.threads = s.threads ∧ t.tiles = s.tiles
      (p.ex = true → Runs (.prunedHeaderReceipt pkt) s (fun t => counted t ∧
        t.packets = others ++ [{ p with at_ := .backoff (s.now + 64 * 2 ^ min 5 st.prunes) }] ∧
        ∃ st1, genStream t x p.gen = some st1 ∧ st1 = { st with win := st1.win, prunes := st.prunes + 1 } ∧ st1.win.length = st.win.length ∧
          ∀ (j : Nat) r, st.win[j]? = some r →
            st1.win[j]? = some (if p.tok0 ≤ r.idx ∧ r.idx < p.tok0 + p.olen then { r with st := .hole s.now none } else r))) ∧
      (p.ex = false → (st.kind = .load ∨ st.kind = .gather) → Runs (.prunedHeaderReceipt pkt) s (fun t => counted t ∧ t.packets = others ∧
        ∃ st1, genStream t x p.gen = some st1 ∧ st1.emit = st.emit ∧ st1.win.length = st.win.length ∧
          ∀ (j : Nat) r, st.win[j]? = some r → ∃ r1, st1.win[j]? = some r1 ∧ r1.idx = r.idx ∧
            (p.tok0 / st.pat.rl ≤ r.idx / st.pat.rl → r.idx < (p.tok0 + p.olen + st.pat.rl - 1) / st.pat.rl * st.pat.rl → 0 < st.pat.rl →
              ∃ grp, r1.st = .gone grp))) ∧
      (p.ex = false → st.kind = .fill → st.cut = none → Runs (.prunedHeaderReceipt pkt) s (fun t => counted t ∧ t.packets = others ∧
        ∃ st1, genStream t x p.gen = some st1 ∧ st1 = { st with win := st1.win, prunes := st.prunes + 1 } ∧
          ∀ (j : Nat) r, st.win[j]? = some r → p.tok0 ≤ r.idx → r.idx < p.tok0 + p.olen → (r.st = .asked ∨ ∃ c a, r.st = .hole c a) →
            st1.win[j]? = some { r with got := 0, bad := false, zero := true, left := r.left - 1, st := if r.left ≤ 1 then .data false else .asked }))) ∧
    (p.pruned = true → p.at_ = .delivered → p.type = 4 →
      (p.ex = true → Runs (.prunedHeaderReceipt pkt) s (fun t => t = { s with packets := t.packets, trims := t.trims } ∧
        t.packets = others ++ [{ p with at_ := .backoff (s.now + 64 * 2 ^ min 5 (tabGet s.trims (flowKey p.grove p.flow) 0)) }] ∧
        tabGet t.trims (flowKey p.grove p.flow) 0 = min 0xFFFF (tabGet s.trims (flowKey p.grove p.flow) 0 + 1))) ∧
      (p.ex = false → nodeOfEp p.dep < 4 → Runs (.prunedHeaderReceipt pkt) s (fun t => t.packets = others ∧ SameMemory s t ∧ t.threads = s.threads ∧
        (sliceNode t x (nodeOfEp p.dep)).ash.cnt = min 0xFFFFFFFF ((sliceNode s x (nodeOfEp p.dep)).ash.cnt + p.recs)))) ∧
    (∀ due, p.at_ = .backoff due → p.pruned = true →
      (due ≤ s.now → tabGet s.permits (reKey p) 0 < reLimit p → Runs (.reRequest pkt) s (fun t =>
        t = { s with packets := t.packets, permits := t.permits, slices := t.slices, nextId := s.nextId + 1 } ∧ (p.type ≠ 1 → t.slices = s.slices) ∧
        (∀ st, p.type = 1 → p.gen < 8 → genStream s x p.gen = some st → st.op = p.op → ∃ st1, genStream t x p.gen = some st1 ∧ st1 = { st with win := st1.win } ∧
          ∀ (j : Nat) r c a, st.win[j]? = some r → r.st = .hole c a → p.tok0 ≤ r.idx → r.idx < p.tok0 + p.olen → st1.win[j]? = some { r with st := .hole c (some s.now) }) ∧
        tabGet t.permits (reKey p) 0 = tabGet s.permits (reKey p) 0 + 1 ∧
        ∃ q, t.packets = s.packets.filter (fun r => r.id ≠ pkt) ++ [q] ∧ q.id = s.nextId ∧ q.type = 5 ∧ q.vl = 2 ∧ q.pr = false ∧ q.pruned = false ∧
          q.flow = p.flow ∧ q.seq = p.seq ∧ q.olen = p.olen ∧ q.dclu = p.sclu ∧ q.dep = p.sep ∧ q.sclu = p.dclu ∧ q.sep = p.dep ∧
          q.at_ = .router (cluDecode p.dclu) 6)) ∧
      (s.now < due ∨ reLimit p ≤ tabGet s.permits (reKey p) 0 → Runs (.reRequest pkt) s (· = s))) ∧
    (p.type = 5 → p.at_ = .delivered →
      (p.hub = true → ∀ st, genStream s y p.gen = some st → st.op = p.op → Runs (.reRequestReceipt pkt) s (fun t =>
        t = { s with packets := s.packets.filter (fun r => r.id ≠ pkt), reqs := t.reqs, nextId := s.nextId + 1 } ∧
        ∃ r, t.reqs = s.reqs ++ [r] ∧ r.id = s.nextId ∧ r.kind = .engineRead y p.gen ∧ r.pieces = p.reads ∧ r.tok0 = p.tok0 ∧ r.flits = p.olen)) ∧
      (p.hub = false →
        (∀ q, (sliceNode s x (nodeOfEp p.dep)).sent.find? (fun q => q.flow = p.flow && q.seq = p.seq && q.dclu = p.sclu && q.dep = p.sep && q.pairs = p.pairs) = some q →
          Runs (.reRequestReceipt pkt) s (fun t => SameMemory s t ∧ t.threads = s.threads ∧
            (∃ l i, t.packets = s.packets.filter (fun r => r.id ≠ pkt) ++ l ++ [{ q with id := i, at_ := .router (cluDecode q.sclu) 6, due := s.now, hchk := q.check }] ∧
              (returned → l = [] ∧ i = s.nextId)) ∧ (returned → tabGet t.permits permit 0 = tabGet s.permits permit 0 - 1))) ∧
        ((sliceNode s x (nodeOfEp p.dep)).sent.find? (fun q => q.flow = p.flow && q.seq = p.seq && q.dclu = p.sclu && q.dep = p.sep && q.pairs = p.pairs) = none →
          Runs (.reRequestReceipt pkt) s (fun t => ∃ l pk r, t.packets = s.packets.filter (fun q => q.id ≠ pkt) ++ l ++ [{ p with at_ := .hole }, pk] ∧
            (returned → l = []) ∧ pk.type = 6 ∧ pk.cls = 15 ∧ pk.pay = [FaultRec.bits r] ∧ r.cause = 0x282 ∧ r.sid = p.flow ∧ r.seq = p.seq ∧ SameMemory s t ∧ t.threads = s.threads)))))

/-- R60-R65, R89, R192: slice nodes at work. A scatter token's pairs leave in packets for the slices they name, and one out of range in an exact stream
pauses it with 0x249. In live mode the pairs of a packet change their words as they arrive; in exact mode they are held. A gather asks the slices
for the words its offsets name and, once all have come, returns them in request order. A corner-turn gives out column j as token j of each eight. A
tree-reduce combines partials by their coordinates, gives out the root as (level, 0) and clears itself; a second partial at seen coordinates is
0x24A, an end before the root 0x24B: the token is withheld and its stream pauses. The tokenizer adds text to its sample and matches it, or withholds
it where a stale word meets it under STRICT; a cut sample's end sends the slow-path packet; markers follow the ids already formed. That a node
withholds its token and pauses the stream it came from, and the steps of a walk of the trie, are the model's (log entries 92 and 95). -/
def Obligations.SliceNodesWork : Prop :=
  ∀ (s : State) (x : Nat) (n : Fin 4),
    let c := nodeCfg s x n
    let nd := sliceNode s x n
    let kept := fun (t : State) => SameMemory s t ∧ t.threads = s.threads ∧ t.tiles = s.tiles
    let sends := fun (s1 : State) (toks : List Tok) (t : State) => ∀ p y id lat (i : Nat) tok, c.out = some p → (y, id, lat) ∈ sinksOf s x (0x40 + p) → toks[i]? = some tok →
      ∃ f ∈ t.flights, f.sink = sinkNo y id ∧ f.tok = tok ∧ f.due = max s1.now (sliceNode s1 x n).outTo + i + lat
    let record := fun (t : State) (cause : Cause) => ∃ pk r, t.packets = s.packets ++ [pk] ∧ pk.cls = 15 ∧ pk.pay = [FaultRec.bits r] ∧ r.cause = cause ∧ r.src = 1 ∧
      r.ep = epOf x (3 + n)
    (∀ k st f s1, nodeStream s x n .scatter = some (.gen x k, st) → genStream s x k = some st → k < 8 → st.paused = none → st.withheld = none → st.behind = [] → st.closing = false →
      nodeToken s x n = some (f, s1) → f.tok.kind = 0 →
      let count := (s.grove st.grove).slices.length
      let seq := if f.tok.first then st.seqIn else (st.seqIn + 2 ^ 32 - 1) % 2 ^ 32
      let ps := pairsOf f.tok.pay st.sid seq (if f.tok.first then 0 else st.part) st.rounds
      ((∀ q ∈ ps, offSlice q.off < count) → Runs (.scatterTokenArrival x n) s (fun t => kept t ∧ t.flights = s1.flights ∧
        (genStream t x k).map (·.seqIn) = some (if f.tok.first then (st.seqIn + 1) % 2 ^ 32 else st.seqIn) ∧
        ∀ q ∈ ps, ∀ y, (s.grove st.grove).slices[offSlice q.off]? = some y →
          ∃ pk ∈ t.packets, q ∈ pk.pairs ∧ pk.type = 4 ∧ pk.vl = 1 ∧ pk.pr = true ∧ pk.dclu = cluCode (siteCluster y) ∧ pk.dep = epOf y (3 + n) ∧ pk.flow = st.sid ∧ pk.seq = seq)) ∧
      ((∃ q ∈ ps, count ≤ offSlice q.off) → st.lossy = false → Runs (.scatterTokenArrival x n) s (fun t => kept t ∧ t.flights = s1.flights ∧
        genStream t x k = some { st with withheld := some f.tok, paused := some (0x249, 0), pausedAt := s.now } ∧ record t 0x249))) ∧
    (∀ pkt p, s.packet pkt = some p → p.type = 4 → p.pruned = false → p.at_ = .delivered → siteOfEp (cluDecode p.dclu) p.dep = x → nodeOfEp p.dep = n.val →
      ((siteGrove s x).exact = true → Runs (.scatterWriteApply pkt) s (fun t => kept t ∧ t.packets = s.packets.filter (fun q => q.id ≠ pkt) ∧
        sliceNode t x n = { nd with pairs := nd.pairs ++ p.pairs } ∧ (t.slice x).store = (s.slice x).store)) ∧
      ((siteGrove s x).exact = false → pairsReady s x p.pairs = false → Runs (.scatterWriteApply pkt) s (· = s)) ∧
      (∀ q m, nd.stuck = [] → (siteGrove s x).exact = false → pairsReady s x p.pairs = true → c.op ≠ 6 → p.pairs = [q] → (s.slice x).read (q.off % 2 ^ 20 / 4 * 4) 4 = .ok m → Runs (.scatterWriteApply pkt) s (fun t => kept t ∧
        t.packets = s.packets.filter (fun q => q.id ≠ pkt) ∧ sliceNode t x n = nd ∧
        (t.slice x).store = ((s.slice x).put s.now rankNode (q.off % 2 ^ 20 / 4 * 4) 4 (rmwWord c.op (BitVec.ofNat 32 m) q.val).toNat false).store))) ∧
    (∀ m v : Word32, rmwWord 2 m v = m + v ∧ rmwWord 3 m v = (if v.toInt < m.toInt then v else m) ∧ rmwWord 4 m v = (if m.toInt < v.toInt then v else m) ∧
      rmwWord 5 m v = m ||| v ∧ rmwWord 6 m v = v) ∧
    (∀ k st tk rest, nodeStream s x n .gather = some (.gen x k, st) → k < 8 → nd.withheld = none → nd.rows = tk :: rest → st.paused = none → enginesRun s st = true → tk.kind = 0 →
      let off := fun (l : Nat) => (laneAt tk.pay l).toNat
      let out := ∃ l, l < 8 ∧ offOut (streamGrove s st) (off l) = true
      let mine := s.reqs.filter (isGather x n)
      let holds := fun (cause : Cause) (t : State) => kept t ∧ record t cause ∧ (sliceNode t x n).rows = rest ∧
        (sliceNode t x n).withheld = some ({ tok := tk, op := st.op }, s.now) ∧ (genStream s x k = some st → genStream t x k = some { st with paused := some (cause, 0), pausedAt := s.now })
      (nd.asked = false → ¬out → Runs (.gatherOffsetArrival x n) s (fun t => kept t ∧ (sliceNode t x n).asked = true ∧ (sliceNode t x n).rows = nd.rows ∧
        ∀ l y, l < 8 → unusedOff (off l) = false → (streamGrove s st).sliceAt (offSlice (off l)) = some y →
          ∃ r ∈ t.reqs, r.kind = .gatherRead x n y (off l % 2 ^ 20 / 4 * 4) l ∧ r.points = [.slice y] ∧ r.src = st.thread)) ∧
      (nd.asked = false → out → st.lossy = false → Runs (.gatherOffsetArrival x n) s (holds 0x249)) ∧
      (nd.asked = true → (∃ r ∈ mine, r.pieces ≠ [] ∨ r.ans ≠ 2) → Runs (.gatherOffsetArrival x n) s (· = s)) ∧
      (nd.asked = true → (∀ r ∈ mine, r.pieces = [] ∧ r.ans = 2) →
        (∀ cause, mine.findSome? (·.fault) = some cause → Runs (.gatherOffsetArrival x n) s (holds cause)) ∧
        ((∀ r ∈ mine, r.fault = none ∧ r.bad = false) → ¬out → nd.outIds = [] → nd.badIds = [] → Runs (.gatherOffsetArrival x n) s (fun t => kept t ∧
          (sliceNode t x n).rows = rest ∧ (sliceNode t x n).pos = nd.pos + 1 ∧ (sliceNode t x n).outIds = [] ∧ (sliceNode t x n).asked = false ∧
          genStream t x k = genStream s x k ∧ t.reqs = s.reqs.filter (fun r => !isGather x n r) ∧
          sends s [{ pay := ofLanes (fun j => ((laneRead s x n j).map (fun r => BitVec.ofNat 32 r.res)).getD 0), first := decide (nd.pos % st.pat.rl = 0),
                     last := decide (nd.pos % st.pat.rl + 1 = st.pat.rl) }] t)))) ∧
    (∀ f s1, nodeToken s x n = some (f, s1) →
      let nd := sliceNode s1 x n
      let sl := (s.slice x).before s.now
      let withheld := fun (cause : Cause) (t : State) => kept t ∧ t.flights = s1.flights ∧ sliceNode t x n = { nd with withheld := some (f, s.now) } ∧ record t cause ∧
        ∀ y k st, feedOf s1 x f = some (.gen y k, st) → k < 8 → st.paused = none → genStream t y k = some { st with paused := some (cause, 0), pausedAt := s.now }
      (c.kind = 4 → f.tok.kind = 0 →
        (nd.rows.length < 7 → Runs (.cornerTurnTokenArrival x n) s (fun t => kept t ∧ t.flights = s1.flights ∧ sliceNode t x n = { nd with rows := nd.rows ++ [f.tok] })) ∧
        (nd.rows.length = 7 → Runs (.cornerTurnTokenArrival x n) s (fun t => kept t ∧ (sliceNode t x n).rows = [] ∧ sends s (turnBlock (nd.rows ++ [f.tok])) t))) ∧
      (c.kind = 5 → f.tok.kind = 6 →
        let lv := f.tok.weight / 4096 % 16
        let i := f.tok.weight % 4096
        let parts := climb c.chunks 13 lv i f.tok.pay nd.parts
        ((lv, i) ∈ nd.seen → Runs (.treeReducePartialArrival x n) s (withheld 0x24A)) ∧
        ((lv, i) ∉ nd.seen → partAt parts (rootLevel c.chunks) 0 = none → Runs (.treeReducePartialArrival x n) s (fun t => kept t ∧ t.flights = s1.flights ∧
          sliceNode t x n = { nd with parts := parts, seen := nd.seen ++ [(lv, i)] })) ∧
        (∀ v, (lv, i) ∉ nd.seen → partAt parts (rootLevel c.chunks) 0 = some v → Runs (.treeReducePartialArrival x n) s (fun t => kept t ∧
          (sliceNode t x n).parts = [] ∧ (sliceNode t x n).seen = [] ∧ (sliceNode t x n).formed = true ∧ sends s [{ pay := v, kind := 6, weight := rootLevel c.chunks * 4096 }] t))) ∧
      (c.kind = 5 → f.tok.kind = 4 →
        (nd.seen ≠ [] ∨ nd.formed = false → Runs (.treeReducePartialArrival x n) s (withheld 0x24B)) ∧
        (nd.seen = [] → nd.formed = true → Runs (.treeReducePartialArrival x n) s (fun t => kept t ∧ (sliceNode t x n).formed = false ∧ sends s [f.tok] t))) ∧
      (∀ b : Byte, c.kind = 6 → f.tok.kind = 0 → bytesOf 1 f.tok.pay.toNat = [b] → field f.tok.pay.toNat 248 5 = 1 → b.toNat < 128 → nd.text = [] → nd.cutOff = false →
        nd.used = 0 → 1 ≤ nd.mean → (Config.trieTouches (seenStore sl) c.trie b).any (touchStale sl) = true →
        Runs (.tokenizerTokenArrival x n) s (withheld 0x1C0)) ∧
      (c.kind = 6 → (s.slice x).strict = false → nd.stale = false →
        (f.tok.kind = 0 → Runs (.tokenizerTokenArrival x n) s (fun t => kept t ∧
          (sliceNode t x n).sample = nd.sample + (flag f.tok.pay.toNat 255).toNat ∧
          (∀ b : Byte, flag f.tok.pay.toNat 255 = false → bytesOf 1 f.tok.pay.toNat = [b] → field f.tok.pay.toNat 248 5 = 1 → b.toNat < 128 → nd.text = [] → nd.cutOff = false →
            nd.badAt = none → nd.used = 0 → 1 ≤ nd.mean → nd.outIds.length < 7 →
            Config.trieStep (seenStore sl) c.trie b = none →
            t.packets = s.packets ∧ (sliceNode t x n).outIds = nd.outIds ++ [BitVec.ofNat 32 (c.fallback + b.toNat)] ∧ (sliceNode t x n).text = [] ∧
              (sliceNode t x n).used = 1 ∧ (sliceNode t x n).pos = nd.pos + 1) ∧
          (∀ (b : Byte) ch v, flag f.tok.pay.toNat 255 = true → bytesOf 1 f.tok.pay.toNat = [b] → field f.tok.pay.toNat 248 5 = 1 → b.toNat < 128 → nd.text = [] →
            nd.cutOff = false → nd.badAt = none → nd.used = 0 → 1 ≤ nd.mean → nd.outIds.length < 7 →
            Config.trieStep (seenStore sl) c.trie b = some ch → Config.trieId (seenStore sl) ch = some v →
            t.packets = s.packets ∧ (sliceNode t x n).outIds = nd.outIds ++ [v] ∧ (sliceNode t x n).text = [] ∧ (sliceNode t x n).pos = 0 ∧ (sliceNode t x n).used = 0 ∧
              ((sliceNode t x n).mean : Int) = nd.mean + ((1 : Int) - nd.mean).tdiv 16) ∧
          (nd.cutOff = true → flag f.tok.pay.toNat 255 = true → (sliceNode t x n).cutOff = false ∧ (sliceNode t x n).text = [] ∧ (sliceNode t x n).mean = nd.mean ∧
            ∃ pk, t.packets = s.packets ++ [pk] ∧ pk.type = 6 ∧ pk.cls = 14 ∧ pk.dclu = cluCode (siteGrove s x).cluster0 ∧ pk.dep = coreEp))) ∧
        (f.tok.kind = 2 ∨ f.tok.kind = 4 ∨ f.tok.kind = 5 → nd.badIds = [] → Runs (.tokenizerTokenArrival x n) s (fun t => kept t ∧ t.packets = s.packets ∧
          (sliceNode t x n).outIds = [] ∧
          sends s ((List.range ((nd.outIds.length + 7) / 8)).map (fun i => { pay := ofLanes (fun j => nd.outIds.getD (8 * i + j) 0) }) ++ [f.tok]) t))))

/-- R26, R60, R75, R142-R149, R170, R359, R361: a data token at a live store port is held until its write, asked of the memory node at its walk
position, is performed, or pauses its stream with none of its bytes written; in exact mode it is held with its round; one past the walk is 0x24F,
one past its round's R 0x24D; ash skips its records' positions; the marker closes the round; end-of-run and end-of-kernel close the stream; a later
token of a record that was lost while the port was paused is skipped. (Kind 5, and a page judged at an exact token's arrival, are the model's
reading, log entry 50.) Of a round's held writes, in order, those whose pages are in order go out, and once all are acknowledged the slice has
committed it. A full word pauses the stream with 0x20C. A closed stream with nothing held and nothing unacknowledged is freed and completes. -/
def Obligations.StorePortsWrite : Prop :=
  ∀ (s : State) (x k : Nat) (st : Stream), genStream s x k = some st → k < 8 → st.kind = .store →
    let exact := (s.grove st.grove).exact
    let stay := fun (t : State) => (∀ y j, (y ≠ x ∨ j ≠ k) → genStream t y j = genStream s y j) ∧ t.threads = s.threads ∧ t.tiles = s.tiles
    let asks := fun (h : Held) (st1 : Stream) (exact : Bool) (l : List (Nat × Nat × Nat × Bool)) (due : Nat) (t : State) => ∃ r, t.reqs = s.reqs ++ [r] ∧ r.id = s.nextId ∧
      r.kind = .portWrite x k exact (decide (h.tok.kind = 7)) (storeBits s st1 h.draw h.tok.pay) h.draw ∧ r.pieces = l.map (fun p => (p.1, p.2.1, p.2.2.1)) ∧
      r.tok0 = h.pos ∧ r.edge = st.op ∧ r.due = due ∧ r.arr = none ∧ r.key = (s.grove st.grove).key
    (∀ port f s1, portStream s x (port : Fin 4).val = some (k, st) → tinvHolds s st = false → st.paused = none → st.withheld = none → st.behind = [] → st.closing = false →
      (exact = true ∨ st.unsent s = []) → takeInput s x port.val = some (f, s1) →
      let runs := fun (P : State → Prop) => Runs (.storePortTokenArrival x port) s (fun t => P t ∧ stay t ∧ SameMemory s t ∧ t.flights = s1.flights)
      let stx := st.extentsFor s1 (st.storeParts s1 st.wpos)
      let withheld := fun (st0 : Stream) (c : Cause) (va : Nat) (t : State) =>
        genStream t x k = some { st0 with withheld := some f.tok, paused := some (c, va), pausedAt := s.now } ∧ t.reqs = s.reqs ∧
        ∃ pk r, t.packets = s.packets ++ [pk] ∧ pk.cls = 15 ∧ pk.pay = [FaultRec.bits r] ∧ r.cause = c ∧ r.src = 1 ∧ r.sid = st.sid ∧ r.addr = va % 2 ^ 48
      let held : Held := { pos := st.wpos, draw := st.draws, tok := f.tok, round := st.rounds + 1, seq := st.seqIn }
      (f.tok.kind = 0 ∨ f.tok.kind = 7 → st.lostNow = true → f.tok.first = false → runs (fun t => t.reqs = s.reqs ∧ ∃ st1, genStream t x k = some st1 ∧
        st1.wpos = st.wpos + 1 ∧ st1.draws = st.draws + 1 ∧ st1.held = st.held)) ∧
      ((f.tok.kind = 0 ∨ f.tok.kind = 7) → st.lostNow = false →
        (st.toks ≤ st.wpos → runs (withheld st 0x24F 0)) ∧
        (st.wpos < st.toks → exact = true → st.wpos % st.pat.rl = 0 → st.round ≤ st.inRound → runs (withheld st 0x24D 0)) ∧
        (st.wpos < st.toks → (exact = false ∨ st.wpos % st.pat.rl ≠ 0 ∨ st.inRound < st.round) →
          (∀ c va, writePieces s1 stx (st.storeParts s1 st.wpos) = .error (c, va) → runs (withheld stx c va)) ∧
          (∀ l, writePieces s1 stx (st.storeParts s1 st.wpos) = .ok l → l ≠ [] → runs (fun t =>
            (∃ st1, genStream t x k = some st1 ∧ st1.wpos = st.wpos + 1 ∧ st1.draws = st.draws + 1 ∧ st1.held = st.held ++ [held]) ∧
            (exact = true → t.reqs = s.reqs ∧ t.packets = s.packets) ∧
            (exact = false → tabGet s.permits (x * 2 + k / 4) 0 < 32 → asks held stx false l s.now t ∧
              tabGet t.permits (x * 2 + k / 4) 0 = tabGet s.permits (x * 2 + k / 4) 0 + 1))))) ∧
      (f.tok.kind = 1 →
        (exact = false ∨ st.inRound + (ashOf f.tok.pay).cnt ≤ st.round → runs (fun t => ∃ st1, genStream t x k = some st1 ∧
          st1.wpos = st.wpos + (ashOf f.tok.pay).cnt * st.pat.rl ∧ st1.ash = st.ash.join (ashOf f.tok.pay) ∧ st1.draws = st.draws ∧ st1.held = st.held)) ∧
        (exact = true → st.round < st.inRound + (ashOf f.tok.pay).cnt → runs (withheld st 0x24D 0))) ∧
      (f.tok.kind = 2 → runs (fun t => genStream t x k = some { st with rounds := st.rounds + 1, inRound := 0, round := st.pendR.getD st.round, pendR := none })) ∧
      (f.tok.kind = 4 ∨ f.tok.kind = 5 → runs (fun t => genStream t x k = some { st with closing := true }))) ∧
    (∀ h, (s.slice x).commit = none → exactPorts s x = [(k, st)] → tinvHolds s st = false → st.paused = none → st.headHeld = false → st.commitBase ≤ st.rdone → st.commitBase < st.rounds → inputSaved s x (some st.cp) = false →
      st.rounds = (s.slice x).committed + 1 → scatterOpen s x (s.slice x).committed = false → st.held = [h] → h.round = st.rounds → writeUnderWay s st.op h.pos = false →
      commitOpen s x = false →
      let stx := st.extentsFor s (st.storeParts s h.pos)
      (∀ c va, writePieces s stx (st.storeParts s h.pos) = .error (c, va) → Runs (.roundCommit x) s (fun t => stay t ∧ SameMemory s t ∧
        genStream t x k = some { stx with paused := some (c, va), pausedAt := s.now, headHeld := true } ∧ (t.slice x).committed = (s.slice x).committed ∧ (t.slice x).commit = none)) ∧
      (∀ l, writePieces s stx (st.storeParts s h.pos) = .ok l → l ≠ [] → tabGet s.permits (x * 2 + k / 4) 0 < 32 → Runs (.roundCommit x) s (fun t => stay t ∧ SameMemory s t ∧
        genStream t x k = some stx ∧ asks h stx true l s.now t ∧ (t.slice x).committed = (s.slice x).committed ∧ (t.slice x).commit = some (none, st.rounds)))) ∧
    (∀ (r : MemReq) (exact poison : Bool) (data draw : Nat) (p : Point) (off n pa : Nat), Inv s → s.reqs.find? (fun q => q.id = r.id) = some r →
      r.kind = .portWrite x k exact poison data draw →
      (r.pieces = [(off, n, pa)] → r.nextPoint s = some p → r.parked = false → mayPerform s r p = true →
        (r.reads = [] → Runs (.memoryRequestPerform r.id) s (fun t => t.threads = s.threads ∧ t.tiles = s.tiles ∧
          (∀ i, i < n → t.byteAt r.key (pa + i) = BitVec.ofNat 8 (data / 2 ^ (8 * (off + i)))) ∧
          (∀ a, a < pa ∨ pa + n ≤ a → t.byteAt r.key a = s.byteAt r.key a) ∧ (∀ a, t.isFull a = s.isFull a) ∧
          genStream t x k = some { st.dirty (r.va + off) n with held := st.held.filter (fun h => h.pos ≠ r.tok0) })) ∧
        (r.reads = r.pieces → s.isFull pa = true → st.paused = none → Runs (.memoryRequestPerform r.id) s (fun t => t.threads = s.threads ∧ t.tiles = s.tiles ∧ SameMemory s t ∧
          genStream t x k = some { st with paused := some (0x20C, r.va), pausedAt := s.now, headHeld := true } ∧ (t.slice x).commit = none ∧ r ∉ t.reqs ∧
          ∃ pk ∈ t.packets, ∃ f, pk.cls = 15 ∧ pk.pay = [FaultRec.bits f] ∧ f.cause = 0x20C ∧ f.src = 1 ∧ f.sid = st.sid))) ∧
      (r.pieces = [] → r.ans = 2 →
        ((s.slice x).commit = none → Runs (.storeAcknowledgement r.id) s (· = dropReq s r.id)) ∧
        (∀ m, (s.slice x).commit = some (none, m) → exactPorts s x = [(k, st)] → st.commitBase < m →
          (commitOpen (dropReq s r.id) x = true → Runs (.storeAcknowledgement r.id) s (· = dropReq s r.id)) ∧
          (commitOpen (dropReq s r.id) x = false → st.ofRound m = [] → Runs (.storeAcknowledgement r.id) s (fun t => stay t ∧ SameMemory s t ∧
            t.reqs = s.reqs.filter (fun q => q.id ≠ r.id) ∧ (t.slice x).committed = m ∧ (t.slice x).commit = none ∧
            genStream t x k = some { st with rdone := max st.rdone m }))))) ∧
    (st.closing = true → st.paused = none → st.withheld = none → st.behind = [] → st.held = [] → unacked s st.op = false →
      (st.lo = none → Runs (.storeStreamComplete x k) s (fun t => genStream t x k = none ∧ stay t ∧ SameMemory s t ∧
        t.ops = s.ops.map (fun o => if o.id = st.op then { o with done := true } else o))) ∧
      Runs (.storeStreamComplete x k) s (· = opDone (setGen (deposit s st) x k none) st.op)) ∧
    (∀ g lo seq, let e := dirtyEntry g st lo seq
      e / 2 ^ 192 = st.pat.base % 2 ^ 64 ∧ e / 2 ^ 128 % 2 ^ 64 = lo % 2 ^ 64 ∧ e / 2 ^ 64 % 2 ^ 64 = st.hi % 2 ^ 64 ∧ e / 2 ^ 48 % 2 ^ 16 = st.sid % 2 ^ 16 ∧
      e / 2 ^ 32 % 2 ^ 16 = g.indexOf (st.thread / 8) % 2 ^ 16 ∧ e % 2 ^ 32 = seq % 2 ^ 32) ∧
    (st.closing = false ∨ st.held ≠ [] ∨ st.behind ≠ [] ∨ st.paused ≠ none ∨ unacked s st.op = true → Runs (.storeStreamComplete x k) s (· = s))

/-- R84, R169, R329, R324, R347: smove with a good record, once its thread's earlier accesses to where it lies are performed, begins its copy and counts
on cp; a length of 0 completes at once; a set bit that must be zero is 0x251, misaligned fields 0x1C6, the end of tile store 0x1C1, the end of slice
store 0x1C5; of several, in that order (the model's choice, log entry 106). R84, R83, R169: each token of a copy is one read at the source and then
one write at the destination, each once its thread's earlier accesses to that point are performed, and from the cycle after the write before it; the
next token lies 32 bytes further; with the last written, the copy is over and its operation done. Shown between tile, slice and main memory. -/
def Obligations.CopiesRun : Prop :=
 (∀ (s : State) (a : Reg) (v x y vec : Nat), Issues s { srcs := [a] } → earlierDone s (myGrove s) (s.me.reg a).toNat 32 = true → HasRoom s .cp →
    readRecord s (myGrove s) (s.me.reg a).toNat 32 = .ok v →
    let g := myGrove s
    let ssp := v / 2 ^ 254 % 4
    let dsp := v / 2 ^ 252 % 4
    let len := v / 2 ^ 192 % 2 ^ 32
    let sadr := v / 2 ^ 128 % 2 ^ 64
    let dadr := v / 2 ^ 64 % 2 ^ 64
    let good := sadr % 32 = 0 ∧ dadr % 32 = 0 ∧ len % 32 = 0
    let began := fun (t : State) => t.me.cp = s.me.cp + 1 ∧ RetiredAt s.me t.me s.me.next ∧ (∀ r, t.me.reg r = s.me.reg r) ∧ SameMemory s t ∧
      t.tiles = s.tiles ∧ t.slices = s.slices ∧ t.dies = s.dies ∧ (∀ q, q ≠ s.focus → t.thr q = s.thr q)
    let siteClear := fun (sp f : Nat) => (sp = 1 → f < 128) ∧ (2 ≤ sp → f = 0)
    let clear := v / 2 ^ 224 % 16 = 0 ∧ v % 2 ^ 64 = 0 ∧ siteClear ssp (v / 2 ^ 240 % 2 ^ 12) ∧ siteClear dsp (v / 2 ^ 228 % 2 ^ 12)
    (¬clear → CanTrap s vec → Runs (.smove a) s (Trapped s 0x251 0 vec)) ∧
    (clear → moveSite g ssp (v / 2 ^ 240 % 2 ^ 12) = .ok x → moveSite g dsp (v / 2 ^ 228 % 2 ^ 12) = .ok y → ssp < 3 → dsp < 3 →
    (good → sideFault g ssp sadr len = none → sideFault g dsp dadr len = none →
      let m : Smove := { op := s.nextId, thread := s.focus, grove := myGroveId s, ssp := ssp, dsp := dsp, ssite := x, dsite := y, sadr := sadr, dadr := dadr, len := len }
      Runs (.smove a) s (fun t => began t ∧ t.smoves = s.smoves ++ (if len = 0 then [] else [m]) ∧
        ∃ o ∈ t.ops, o.id = s.nextId ∧ o.thread = s.focus ∧ o.ctr = some .cp ∧ o.done = decide (len = 0))) ∧
    (¬good → CanTrap s vec → Runs (.smove a) s (Trapped s 0x1C6 0 vec)) ∧
    (good → ssp = 0 → len ≠ 0 → 0x20000 < sadr + len → CanTrap s vec → Runs (.smove a) s (Trapped s 0x1C1 0 vec)) ∧
    (good → ssp = 1 → dsp = 1 → 2 ^ 20 < sadr + len → CanTrap s vec → Runs (.smove a) s (Trapped s 0x1C5 0 vec)))) ∧
 (∀ (s : State) (m : Smove), Inv s → s.smoves.find? (fun q => q.op = m.op) = some m →
    let g := s.grove m.grove
    let at_ := m.dadr + m.done
    let pa := m.pa 1 m.done
    let put := fun (m1 : Smove) => s.smoves.map (fun q => if q.op = m.op then m1 else q)
    let goes := fun (t : State) => (m.done + 32 < m.len → t.ops = s.ops ∧ t.smoves = put { m with done := m.done + 32, fly := none, due := s.now + 1 }) ∧
      (m.len ≤ m.done + 32 → t.smoves = s.smoves.filter (fun q => q.op ≠ m.op) ∧ t.ops = s.ops.map (fun o => if o.id = m.op then { o with done := true } else o)) ∧
      t.threads = s.threads
    (m.fly = none → forkReady s m.thread m.op (m.point s 0) = true → m.early s = false →
      (∀ v, m.ssp = 0 → ((s.tile m.ssite).before s.now).read (m.sadr + m.done) 32 = .ok v →
        Runs (.smoveToken m.op) s (· = { s with smoves := put { m with fly := some (v, false) } })) ∧
      (∀ v, m.ssp = 1 → ((s.slice m.ssite).before s.now).read (m.sadr + m.done) 32 = .ok v →
        Runs (.smoveToken m.op) s (· = { s with smoves := put { m with fly := some (v, false) } })) ∧
      (m.ssp = 3 → s.badAt (m.pa 0 m.done) 32 = false →
        Runs (.smoveToken m.op) s (· = { s.noteDomain (some m.grove) (m.pa 0 m.done) with smoves := put { m with fly := some (s.numAt g.key (m.pa 0 m.done) 32, false) } }))) ∧
    (∀ v, m.fly = some (v, false) → forkReady s m.thread m.op (m.point s 1) = true →
      (m.dsp = 0 → Runs (.smoveToken m.op) s (fun t => goes t ∧ t.tile m.dsite = (s.tile m.dsite).put s.now rankSmove at_ 32 v false ∧
        (∀ z, z ≠ m.dsite → t.tile z = s.tile z) ∧ t.slices = s.slices ∧ SameMemory s t)) ∧
      (m.dsp = 1 → Runs (.smoveToken m.op) s (fun t => goes t ∧ t.slice m.dsite = (s.slice m.dsite).put s.now rankSmove at_ 32 v false ∧
        (∀ z, z ≠ m.dsite → t.slice z = s.slice z) ∧ t.tiles = s.tiles ∧ SameMemory s t)) ∧
      (m.dsp = 3 → v < 2 ^ 256 → Runs (.smoveToken m.op) s (fun t => goes t ∧ t.numAt g.key pa 32 = v ∧
        (∀ z, z < pa ∨ pa + 32 ≤ z → t.byteAt g.key z = s.byteAt g.key z) ∧ (∀ z, t.isFull z = s.isFull z) ∧ t.tiles = s.tiles ∧ t.slices = s.slices))) ∧
    (forkReady s m.thread m.op (m.point s (if m.fly.isNone then 0 else 1)) = false ∨ (m.fly = none ∧ s.now < m.due) → Runs (.smoveToken m.op) s (· = s)))

/-- R86, R328, R347: a shalo whose rectangle is bound and whose strips are good starts its exchange and counts on cp: each tile's tokens wait in the
order N, E, S, W; a set reserved bit, an empty rectangle or one higher than 60 tiles is 0x251, a rectangle that is not bound 0x1C4; while a tile of
it still receives, the command waits. R86, R83, R69: a strip token in flight lands at its cycle: its 32 bytes stand in the receiver's store, whose
byte counter falls by 32; at zero a control token of value 1 is queued on the named input, or, where it would need a ninth run, the tile stops with
0x0F0 and a record that names the input. -/
def Obligations.HalosRun : Prop :=
 (∀ (s : State) (a : Reg) (v vec : Nat) (tiles : List Nat), Issues s { srcs := [a] } → earlierDone s (myGrove s) (s.me.reg a).toNat 64 = true → HasRoom s .cp →
    readRecord s (myGrove s) (s.me.reg a).toNat 64 = .ok v →
    let clear := v / 2 ^ 480 % 2 ^ 6 = 0 ∧ v % 2 ^ 160 = 0 ∧ (∀ i, i < 4 → v / 2 ^ (400 - 80 * i) % 2 ^ 5 = 0) ∧
      1 ≤ v / 2 ^ 494 % 2 ^ 6 ∧ 1 ≤ v / 2 ^ 488 % 2 ^ 6 ∧ v / 2 ^ 488 % 2 ^ 6 ≤ 60
    (¬clear → CanTrap s vec → Runs (.shalo a) s (Trapped s 0x251 0 vec)) ∧
    (clear → haloTiles (myGrove s) v = some tiles →
    let sends := tiles.flatMap (fun x => (haloSends v tiles x).map (fun k => (x, k)))
    let fine := haloBound s tiles = true ∧ ∀ i, i < 4 → stripFault (stripOf v i) = none
    (fine → (∀ x ∈ tiles, (s.tile x).halo = 0) → Runs (.shalo a) s (fun t => t.me.cp = s.me.cp + 1 ∧ RetiredAt s.me t.me s.me.next ∧
      (∀ r, t.me.reg r = s.me.reg r) ∧ (∀ q, q ≠ s.focus → t.thr q = s.thr q) ∧ SameMemory s t ∧
      t.halos.map (fun h => (h.op, h.from_, h.src, h.site, h.off)) = s.halos.map (fun h => (h.op, h.from_, h.src, h.site, h.off)) ++
        sends.map (fun k => (s.nextId, k.1, k.2.1, k.2.2.1, k.2.2.2)) ∧ ∀ x, (t.tile x).store = (s.tile x).store)) ∧
    (fine → (∃ x ∈ tiles, (s.tile x).halo ≠ 0) → Runs (.shalo a) s (Stalled s)) ∧
    (haloBound s tiles = false → CanTrap s vec → Runs (.shalo a) s (Trapped s 0x1C4 0 vec)))) ∧
 (∀ (s : State) (h : HaloTok) (v : Nat), s.halos.find? (fun q => q.id = h.id) = some h →
    (s.halos.find? (fun q => q.from_ = h.from_)).map (·.id) = some h.id → h.due ≤ s.now → h.sent = true → haloReady s h h.site = true →
    h.fly = some (v, false) → h.cin < 4 →
    let t0 := s.tile h.site
    Runs (.haloTokenLand h.id) s (fun t => (t.tile h.site).store = (t0.put s.now (rankSide h.side) h.off 32 v false).store ∧ (t.tile h.site).halo = t0.halo - 32 ∧
      (t0.halo ≤ 32 → ∀ q q1, t0.cin[h.cin]? = some q → runPush q true = some q1 → (t.tile h.site).cin[h.cin]? = some q1) ∧
      (32 < t0.halo → (t.tile h.site).cin = t0.cin) ∧ (t0.halo ≤ 32 → ((t0.cin[h.cin]?).bind (fun q => runPush q true)) = none → (t.tile h.site).stopped = true ∧
        (∀ g, s.groveOfSite h.site = some g → ∃ p ∈ t.packets, ∃ r : FaultRec, p.cls = 15 ∧ p.pay = [r.bits] ∧ r.cause = 0x0F0 ∧ r.sband = 1)) ∧ (∀ z, z ≠ h.site → t.tile z = s.tile z) ∧ t.threads = s.threads ∧ SameMemory s t ∧
      t.halos.map (·.id) = (s.halos.filter (fun q => q.id ≠ h.id)).map (·.id)))

/-- R337, R154: nsend counts on st and keeps its message at its source: with no payload it may leave at once, else its flits are read first, in order; a
class above 13, a cluster outside the grove, a LEN above 8, a misaligned payload or a set reserved bit is 0x285. R340: maskc masks a class 0-13 at
the thread's core; unmaskc unmasks it, from the next cycle; another value is 0x285. R72, R74, R338: a delivered class message, the first of its
class at its receiver, joins its class's queue at its handler's core while that holds fewer than 16, which completes its send; with no room it
waits; with no handler it is discarded. -/
def Obligations.MessagesTravel : Prop :=
 (∀ (s : State) (a b : Reg) (len : BitVec 4) (vec : Nat), Issues s { srcs := [a, b], mem := true } → HasRoom s .st → (∀ p ∈ s.packets, p.id < s.nextId) →
    let g := myGrove s
    let va := (s.me.reg a).toNat
    let w := (s.me.reg b).toNat
    let good := w < 2 ^ 19 ∧ w % 16 < 14 ∧ w / 2 ^ 12 % 2 ^ 7 < g.image.gw * g.image.gh ∧ len.toNat ≤ 8 ∧ va % 32 = 0
    let sent := fun (t : State) => t.me.st = s.me.st + 1 ∧ RetiredAt s.me t.me s.me.next ∧ (∀ r, t.me.reg r = s.me.reg r) ∧
      (∀ q, q ≠ s.focus → t.thr q = s.thr q) ∧ SameMemory s t ∧
      ∃ p ∈ t.packets, p.op = s.nextId ∧ p.type = 6 ∧ p.vl = 3 ∧ p.cls = w % 16 ∧ p.len = len.toNat ∧ p.dep = w / 16 % 256 ∧
        p.dclu = cluCode ((g.clusters[w / 2 ^ 12 % 2 ^ 7]?).getD 0) ∧ p.sclu = cluCode (s.focus / 8)
    (good → len = 0 → Runs (.nsend a b len) s sent) ∧
    (good → len ≠ 0 → ∀ ps s1, translatePieces s s.focus .load va ((List.range len.toNat).map (fun i => (va + 32 * i, 32))) = (.ok ps, s1) →
      Runs (.nsend a b len) s (fun t => sent t ∧ ∃ r, t.reqs = s1.reqs ++ [r] ∧ r.pieces = ps ∧ r.va = va ∧ r.src = s.focus)) ∧
    (¬good → CanTrap s vec → Runs (.nsend a b len) s (Trapped s 0x285 0 vec))) ∧
 (∀ (s : State) (a : Reg) (vec : Nat), Issues s { srcs := [a] } →
    let k := (s.me.reg a).toNat
    let c := s.focus / 8
    let goes := fun (t : State) => t.me.pc = s.me.next ∧ (∀ r, t.me.reg r = s.me.reg r) ∧ SameSystem s.me t.me ∧ SameCounters s.me t.me ∧
      (∀ q, q ≠ s.focus → t.thr q = s.thr q) ∧ SameMemory s t ∧ (∀ z, z ≠ c → t.coreOf z = s.coreOf z) ∧
      t.coreOf c = { s.coreOf c with masked := (t.coreOf c).masked, openAt := (t.coreOf c).openAt }
    (k ≤ 13 →
      Runs (.maskc a) s (fun t => goes t ∧ ∀ j, (t.coreOf c).masked.contains j = ((s.coreOf c).masked.contains j || decide (j = k))) ∧
      Runs (.unmaskc a) s (fun t => goes t ∧ (∀ j, (t.coreOf c).masked.contains j = ((s.coreOf c).masked.contains j && decide (j ≠ k))) ∧
        tabFind (t.coreOf c).openAt k = some (s.now + 1))) ∧
    (13 < k → CanTrap s vec → Runs (.maskc a) s (Trapped s 0x285 0 vec) ∧ Runs (.unmaskc a) s (Trapped s 0x285 0 vec))) ∧
 (∀ (s : State) (p : Packet), s.packet p.id = some p → p.type = 6 → p.at_ = .delivered → firstOfClass s p = true → (s.grove p.grove).live = true → p.cls < 14 →
    let c := cluDecode p.dclu
    let g := s.grove p.grove
    (∀ cl thr entry, tabFind g.image.handlers p.cls = some (.thread cl thr entry) → p.dep = coreEp → g.indexOf c = cl → p.len ≤ 1 →
      (((s.coreOf c).inbox.filter (fun q => q.cls = p.cls)).length < 16 → Runs (.routeClassMessageReceipt p.id) s (fun t =>
        t = opDone ((s.dropPacket p.id).setCore c { s.coreOf c with inbox := (s.coreOf c).inbox ++ [p] }) p.op ∧ s.packets.contains p = true ∧ t.packets.contains p = false)) ∧
      (16 ≤ ((s.coreOf c).inbox.filter (fun q => q.cls = p.cls)).length → Runs (.routeClassMessageReceipt p.id) s (· = s))) ∧
    (tabFind g.image.handlers p.cls = none → Runs (.routeClassMessageReceipt p.id) s (fun t => t.cores = s.cores ∧ t.threads = s.threads ∧
      SameMemory s t ∧ (∀ q ∈ s.packets, q.id ≠ p.id → q ∈ t.packets) ∧ p ∉ t.packets)))

/-- R338, R340: a halted or idle thread takes the oldest message it handles whose class is open: the source, the length, where it came from and the
payload are in g1 to g7, and it goes on at the handler's entry. R338, R339, R190: a fault record or a slow-path message traps thread 0 of its grove
at an instruction boundary, with its cause, epc at the next instruction, tval 0, and the record in frec0 to frec3; inside a handler it waits. -/
def Obligations.MessagesReachThreads : Prop :=
 (∀ (s : State) (t gid entry : Nat) (p : Packet),
    let g := s.grove gid
    let c := t / 8
    let th := s.thr t
    s.groveOfThread t = some gid → th.dispatchable = true → groveRuns g = true →
    (s.coreOf c).inbox.find? (fun q => (handlerEntry g (s.coreOf c) s.now t q).isSome) = some p → handlerEntry g (s.coreOf c) s.now t p = some entry →
    Runs (.handlerDispatch t) s (fun u =>
      let b := u.thr t
      let flit := (p.pay.head?.map (·.toNat)).getD 0
      b.pc = 4 * entry ∧ b.status = .ready ∧ b.reg 1 = BitVec.ofNat 64 (g.indexOf (cluDecode p.sclu) * 2 ^ 12 + p.sep * 2 ^ 4 + p.cls) ∧
      b.reg 2 = BitVec.ofNat 64 p.len ∧ b.reg 3 = BitVec.ofNat 64 (if th.status = .halted then 0 else th.pc) ∧
      b.reg 4 = BitVec.ofNat 64 flit ∧ b.reg 5 = BitVec.ofNat 64 (flit / 2 ^ 64) ∧ b.reg 6 = BitVec.ofNat 64 (flit / 2 ^ 128) ∧
      b.reg 7 = BitVec.ofNat 64 (flit / 2 ^ 192) ∧ (∀ r : Reg, r = 0 ∨ 8 ≤ r → b.reg r = th.reg r) ∧ b.cause = th.cause ∧ b.epc = th.epc ∧
      b.trapActive = th.trapActive ∧ SameCounters th b ∧
      (u.coreOf c).inbox = (s.coreOf c).inbox.filter (fun q => q.id ≠ p.id) ∧ (∀ q, q ≠ t → u.thr q = s.thr q) ∧ SameMemory s u)) ∧
 (∀ (s : State) (gid vec : Nat) (p : Packet),
    let g := s.grove gid
    let c := g.cluster0
    let t := 8 * c
    let th := s.thr t
    let v := (p.pay.head?.map (·.toNat)).getD 0
    g.live = true → groveRuns g = true → g.tvec = some vec → (s.coreOf c).inbox.find? (fun q => 14 ≤ q.cls) = some p → th.specs = [] →
    (th.trapActive = false → th.group = none → (th.status = .ready ∨ th.status = .halted) → Runs (.asyncTrapDispatch gid) s (fun u =>
      let b := u.thr t
      b.pc = vec ∧ b.status = .ready ∧ b.trapActive = true ∧ b.epc = th.pc ∧ b.tval = 0 ∧
      b.cause = (if p.cls = 14 then 0x253 else BitVec.ofNat 10 (v / 2 ^ 246)) ∧ b.frsrc = (if p.cls = 14 then 2 else 1) ∧
      (∀ i : Fin 4, b.frec[i] = BitVec.ofNat 64 (v / 2 ^ (64 * i.val))) ∧ (∀ r, b.reg r = th.reg r) ∧ SameCounters th b ∧
      (u.coreOf c).inbox = (s.coreOf c).inbox.filter (fun q => q.id ≠ p.id) ∧ (∀ q, q ≠ t → u.thr q = s.thr q) ∧ SameMemory s u)) ∧
    (th.trapActive = true → Runs (.asyncTrapDispatch gid) s (· = s)))

/-- R341, R78: a reduction of one takes the thread's own value. With n from 2 to the clusters that the grove runs, and a rank below n, the thread is
Waiting with its pc at the nred and its partial (0, rank) is contributed: a left child is kept at its cluster, a right child (an unpaired last one,
as high as it climbs) goes to the cluster of its sibling's rank, or is kept until that rank is there. n of 0 is 0x300, one beyond the grove's
clusters 0x301; a set reserved bit or a rank not below n is 0x303 to the thread and to each that waits. A partial that arrives waits for its
sibling, or with it forms the root: the accumulator is added last, the thread there goes on with the result, and one packet takes it to every other
participant; a result that arrives is written to rd and the thread goes on after its nred. The bits of the flits are the model's choice (log entry
106). -/
def Obligations.ReductionsRun : Prop :=
  ∀ (s : State) (d a b : Reg) (vec : Nat),
    let w := (s.me.reg b).toNat
    let n := w % 2 ^ 16
    let rank := w / 2 ^ 16 % 2 ^ 16
    let tag := w / 2 ^ 32 % 2 ^ 16
    let v := (s.me.reg a).setWidth 32
    let g := myGrove s
    let c := s.focus / 8
    let l := redWaits s g tag
    let own := rank = 0 ∧ n ≠ 1
    (Issues s { srcs := if own then [a, b, d] else [a, b], dst := some d } → (∀ q ∈ (s.coreOf c).redWait, q.away = false) →
      (n = 1 → w < 2 ^ 48 → rank = 0 → l = [] → Runs (.nred d a b) s (Wrote s d (v.setWidth 64) 1 s.me.next)) ∧
      (2 ≤ n → n ≤ liveClusters g → rank < n → w < 2 ^ 48 → (∀ q ∈ l, q.2.n = n ∧ q.2.rank ≠ rank ∧ q.1 ≠ c) → (∀ r ∈ (s.coreOf c).reds, r.tag ≠ tag) →
        Runs (.nred d a b) s (fun t => t.me = { s.me with status := .waiting .nred } ∧ t.me.pc = s.me.pc ∧ (∀ q, q ≠ s.focus → t.thr q = s.thr q) ∧
          SameMemory s t ∧ t.tiles = s.tiles ∧ t.slices = s.slices ∧
          { thread := s.focus, tag := tag, n := n, rank := rank, rd := d, acc := (s.me.reg d).setWidth 32 } ∈ (t.coreOf c).redWait ∧
          (rank % 2 = 0 → rank + 1 < n → { tag := tag, n := n, level := 0, index := rank, val := v } ∈ (t.coreOf c).reds) ∧
          ∀ lv, (lv = 0 ∨ rank + 1 = n) → lv < rootLevel n → (∀ k, k < lv → rank / 2 ^ k % 2 = 0) → rank / 2 ^ lv % 2 = 1 →
            let node : RedNode := { tag := tag, n := n, level := lv, index := rank / 2 ^ lv, val := v }
            let sibling := l.find? (fun q => q.2.rank = (rank / 2 ^ lv - 1) * 2 ^ lv)
            (sibling = none → node ∈ (t.coreOf c).reds) ∧
            (∀ q, sibling = some q → ∃ p ∈ t.packets, p.type = 8 ∧ p.cls = 14 ∧ p.vl = 3 ∧ p.dclu = cluCode q.1 ∧ p.pay = [redFlit node false]))) ∧
      (n = 0 → CanTrap s vec → Runs (.nred d a b) s (Trapped s 0x300 0 vec)) ∧
      (n ≠ 1 → liveClusters g < n → n ≠ 0 → CanTrap s vec → Runs (.nred d a b) s (Trapped s 0x301 0 vec)) ∧
      (liveClusters g = if g.run = .frozen ∨ g.run = .embering then 0 else g.image.gw * g.image.gh) ∧
      (1 ≤ n → (n = 1 ∨ n ≤ liveClusters g) → 2 ^ 48 ≤ w ∨ n ≤ rank → CanTrap s vec →
        (l = [] ∨ ∃ q, l = [q] ∧ q.2.away = false ∧ q.2.thread ≠ s.focus ∧ s.groveOfThread q.2.thread = s.groveOfThread s.focus ∧
          (s.thr q.2.thread).trapActive = false) →
        Runs (.nred d a b) s (fun t => t.me.cause = 0x303 ∧ t.me.epc = s.me.issuePc ∧ t.me.pc = vec ∧ t.me.trapActive = true ∧ SameMemory s t ∧
          (∀ q ∈ l, (t.thr q.2.thread).cause = 0x303 ∧ (t.thr q.2.thread).epc = (s.thr q.2.thread).issuePc ∧ (t.thr q.2.thread).pc = vec ∧
            (t.thr q.2.thread).status = .ready) ∧
          (∀ z, z ≠ s.focus → (∀ q ∈ l, q.2.thread ≠ z) → t.thr z = s.thr z)))) ∧
    (∀ (p : Packet) (r : RedNode), s.packet p.id = some p → p.type = 8 → p.at_ = .delivered →
      let k := cluDecode p.dclu
      let here := (s.coreOf k).reds.find? (fun x => x.tag = r.tag && x.level = r.level && x.index + 1 = r.index)
      let goes := fun (t : State) (q : RedWait) (val : Word32) =>
        (t.thr q.thread).reg q.rd = (if q.rd = 0 then 0 else val.setWidth 64) ∧ OtherRegs (s.thr q.thread) (t.thr q.thread) q.rd ∧
        (t.thr q.thread).pc = (s.thr q.thread).pc + 4 ∧ (t.thr q.thread).status = .ready ∧ (∀ z, z ≠ q.thread → t.thr z = s.thr z) ∧ SameMemory s t
      (p.red = (r, false) → here = none → Runs (.reductionPartialArrival p.id) s (fun t => (t.coreOf k).reds = (s.coreOf k).reds ++ [r] ∧
        (t.coreOf k).redWait = (s.coreOf k).redWait ∧ (∀ z, z ≠ k → t.coreOf z = s.coreOf z) ∧ t.threads = s.threads ∧
        t.packets = s.packets.filter (fun x => x.id ≠ p.id) ∧ SameMemory s t)) ∧
      (∀ (x : RedNode) (q : RedWait), p.red = (r, false) → here = some x → rootLevel r.n ≤ r.level + 1 → k ∈ (s.grove p.grove).clusters →
        (s.coreOf k).redWait.filter (fun y => y.tag = r.tag) = [q] → q.n = r.n → q.away = false → q.done = false → q.bad = none → q.result = none →
        Runs (.reductionPartialArrival p.id) s (fun t => goes t q (add32 q.acc (add32 x.val r.val)) ∧
          ∀ y ∈ redWaits s (s.grove p.grove) r.tag, y.1 ≠ k → ∃ z ∈ t.packets, z.type = 8 ∧ z.dclu = cluCode y.1 ∧
            z.pay = [redFlit { tag := r.tag, n := r.n, val := add32 q.acc (add32 x.val r.val) } true])) ∧
      (∀ q : RedWait, p.red = (r, true) → (s.coreOf k).redWait.find? (fun x => x.tag = r.tag && x.n = r.n && x.done && x.result.isNone) = some q → q.away = false →
        Runs (.reductionPartialArrival p.id) s (fun t => goes t q r.val ∧ (t.coreOf k).redWait = (s.coreOf k).redWait.filter (fun x => x ≠ q) ∧
          t.packets = s.packets.filter (fun x => x.id ≠ p.id))))

/-- R158, R159, R334, R335: gload of a good, signed image loads it at the first place that fits: the grove is live with the image's mode, its owner key
and its trap vector; each cluster has its code, each declared thread starts at its entry and the others are halted; rd holds the handle. With no
place free, rd is 0 and nothing is loaded; a signature that is not good is 0x2C5. The load as one effect is the model's choice (log entry 37). R162,
R335: gstage of a good stage list loads stage 0 as gload would and keeps the list with it; an invalid list is 0x2C8, and so is an image of another
owner. R163: at quiescence the sequencer takes the first stage, in cyclic order, whose occupancy is at its threshold: the outgoing stage is saved in
the grove's window, tile by tile and thread by thread, that stage's image is loaded, and the threads it declares are ready; with none it looks again
4,096 cycles later; a stage that is not quiescent stays. The records' layout, the trap vector and the switch registers of an incoming stage are the
model's choice (log entries 72 and 98). -/
def Obligations.ImagesAreLoaded : Prop :=
 (∀ (s : State) (d a b : Reg) (vec mine gid : Nat) (head : List Byte) (m : Image) (good : Bool) (o1 o : Origin),
    Issues s { srcs := [a, b], dst := some d } → ownStoresDone s s.focus = true → HasRoom s .mx → s.groveOfThread s.focus = some mine →
    let g := s.grove mine
    let w := (s.me.reg b).toNat
    let rd := vaFetch s g (s.me.reg a).toNat
    let h := headerOf (ofBytes head)
    let answers := fun (v : Nat) (t : State) => t.me.reg d = (if d = 0 then 0 else BitVec.ofNat 64 v) ∧ OtherRegs s.me t.me d ∧ t.me.mx = s.me.mx + 1 ∧
      RetiredAt s.me t.me s.me.next ∧ SameSystem s.me t.me ∧ SameMemory s t ∧
      ∃ p ∈ t.ops, p.id = s.nextId ∧ p.thread = s.focus ∧ p.ctr = some .mx ∧ p.done = true
    placeFault g.priv w = none → fetchHeader rd = .ok head →
    (freeGrove s = none ∨ findPlace s w h.gw h.gh h.dsr = none → Runs (.gload d a b) s (fun t => answers 0 t ∧ t.groves = s.groves ∧ t.tiles = s.tiles ∧ t.cores = s.cores)) ∧
    (freeGrove s = some gid → findPlace s w h.gw h.gh h.dsr = some o1 → verifyImage s rd head (loadFor s w).1 = .ok (m, good) → m.gw = h.gw → m.gh = h.gh →
      findPlace s w h.gw h.gh (h.dsr + m.copyRegions) = some o →
      (good = true → Runs (.gload d a b) s (fun t => answers (gid + 1) t ∧
        let ng := t.grove gid
        ng.live = true ∧ ng.image = m ∧ ng.exact = m.exact ∧ ng.key = (loadFor s w).1 ∧ ng.troot = (loadFor s w).2 ∧ ng.tvec = m.tvec ∧
        ng.priv = (g.priv && decide (m.skey = 0)) ∧ ng.run = .running ∧ (ng.die, ng.cx, ng.cy) = o ∧ (s.grove gid).live = false ∧
        (∀ c ∈ ng.clusters, (s.coreOf c).grove = none ∧ (t.coreOf c).grove = some gid ∧ (t.coreOf c).code = tabGet m.code (ng.indexOf c) []) ∧
        (∀ q ∈ ng.threads, match m.threads.find? (fun e => e.1 = ng.threadIndex q) with
          | some e => (t.thr q).status = .ready ∧ (t.thr q).pc = 4 * e.2.2 ∧ (t.thr q).role = e.2.1
          | none => (t.thr q).status = .halted) ∧
        ∀ k, k ≠ gid → t.grove k = s.grove k)) ∧
      (good = false → CanTrap s vec → Runs (.gload d a b) s (fun t => t.me.cause = 0x2C5 ∧ t.me.pc = vec ∧ t.me.epc = s.me.issuePc ∧
        (∀ r, t.me.reg r = s.me.reg r) ∧ SameCounters s.me t.me ∧ SameMemory s t ∧ t.groves = s.groves)))) ∧
 (∀ (s : State) (d a b : Reg) (nm1 : BitVec 2) (vec mine gid v : Nat) (head : List Byte) (e : StageEnt) (rest : List StageEnt) (o1 o : Origin)
    (ents : List (Nat × StageEnt)),
    Issues s { srcs := [a, b], dst := some d } → ownStoresDone s s.focus = true → HasRoom s .mx → s.groveOfThread s.focus = some mine →
    let g := s.grove mine
    let w := (s.me.reg b).toNat
    let n := nm1.toNat + 1
    let h := headerOf (ofBytes head)
    let g1 := { g with key := (loadFor s w).1, troot := (loadFor s w).2 }
    placeFault g.priv w = none → readRecord s g (s.me.reg a).toNat (32 * n) = .ok v →
    ((List.range n).any (fun i => (stageOf s g1 (v / 2 ^ (256 * i) % 2 ^ 256)).isNone) = true → CanTrap s vec →
      Runs (.gstage d a b nm1) s (Trapped s 0x2C8 0 vec)) ∧
    ((List.range n).map (fun i => stageOf s g1 (v / 2 ^ (256 * i) % 2 ^ 256)) = ents.map some →
      fetchHeader (vaFetch s g ((ents.head?.map Prod.fst).getD 0)) = .ok head → freeGrove s = some gid → findPlace s w h.gw h.gh h.dsr = some o1 →
      (∀ k bad, k ≠ 0 → stageImages s g (loadFor s w).1 ents = .error (k, bad) → CanTrap s vec → Runs (.gstage d a b nm1) s (Trapped s k (BitVec.ofNat 64 bad) vec)) ∧
      (ents ≠ [] → otherOwner s h (loadFor s w).1 = true →
        stageImages s g (loadFor s w).1 ents = .error (0x2C8, 0)) ∧
      (stageImages s g (loadFor s w).1 ents = .ok (e :: rest) →
      (stagesAgree (e :: rest) = false → CanTrap s vec → Runs (.gstage d a b nm1) s (Trapped s 0x2C8 0 vec)) ∧
      (stagesAgree (e :: rest) = true → e.image.gw = h.gw → e.image.gh = h.gh →
        findPlace s w h.gw h.gh (h.dsr + (e :: rest).foldl (fun k x => k + x.image.copyRegions) 0) = some o →
        Runs (.gstage d a b nm1) s (fun t => (t.grove gid).live = true ∧ (t.grove gid).image = e.image ∧ (t.grove gid).stages = e :: rest ∧
          (t.grove gid).stage = 0 ∧ (∀ c ∈ (t.grove gid).clusters, (t.coreOf c).grove = some gid) ∧
          t.me.reg d = (if d = 0 then 0 else BitVec.ofNat 64 (gid + 1)) ∧ OtherRegs s.me t.me d ∧ t.me.mx = s.me.mx + 1 ∧ t.me.pc = s.me.next ∧ SameMemory s t))))) ∧
 (∀ (s : State) (gid k : Nat) (e e' : StageEnt),
    let g := s.grove gid
    g.live = true → g.run = .running → g.stages[g.stage]? = some e →
    (quiescent s g e = false → Runs (.stageQuiescenceCheck gid) s (fun t => t = s.setGrove gid { g with quietAt := none })) ∧
    (quiescent s g e = true → (∀ q, g.quietAt = some q → q + 4096 ≤ s.now) → nextStage s g = none → Runs (.stageQuiescenceCheck gid) s (fun t =>
      t = s.setGrove gid { g with quietAt := some s.now })) ∧
    (∀ q, quiescent s g e = true → g.quietAt = some q → s.now < q + 4096 → Runs (.stageQuiescenceCheck gid) s (· = s)) ∧
    (quiescent s g e = true → (∀ q, g.quietAt = some q → q + 4096 ≤ s.now) → nextStage s g = some k → g.stages[k]? = some e' → e'.image.gw = g.image.gw → e'.image.gh = g.image.gh →
      e'.thr ≤ occupancy s g e' ∧ Runs (.stageQuiescenceCheck gid) s (fun t => (t.grove gid).stage = k ∧
        (t.grove gid).image = { e'.image with dsr := g.image.dsr } ∧
        ((e'.loaded = true ∨ ∀ x ∈ e'.image.data, x.store ≠ 2) → (t.die g.die).store =
          ((g.threads.foldl (fun u q => windowPut u g (threadSlot g g.stage q) 512 (threadSave g (s.coreOf (q / 8)).ageM (s.thr q)))
            (g.tiles.foldl (fun u x => windowPut u g (tileSlot g g.stage x) 8192 (tileSave (s.tile x))) s)).die g.die).store) ∧
        (t.grove gid).stages.length = g.stages.length ∧ SameMemory s t ∧ (e'.loaded = false → (t.grove gid).tvec = e'.image.tvec) ∧
        (∀ x ∈ g.sites, siteIsSlice x = false → (t.tile x).cfg = e'.image.site (g.relCol x) (g.relRow x) ∧ (t.tile x).gen = (s.tile x).gen) ∧
        ∀ q ∈ g.threads, (declared g e'.image q).isSome = true → (t.thr q).status = .ready)))

/-- R161, R324: gsplice of a running grove with a good successor of its shape, mode and owner: the grove is splicing, and every site and core awaits its
part; another shape, mode or owner is 0x2C7, and a handle that names no such grove, or one that an ember waits for, 0x2CE. R161: a tile that
end-of-kernel has left takes its successor's frames, with its ports empty and its store and generation as they were; a box with nothing bound
switches to the successor's bindings. -/
def Obligations.SplicesRun : Prop :=
 (∀ (s : State) (a b : Reg) (vec gid : Nat) (head : List Byte) (m : Image),
    Issues s { srcs := [a, b] } → ownStoresDone s s.focus = true → HasRoom s .mx →
    let g := s.grove gid
    let rd := vaFetch s (myGrove s) (s.me.reg b).toNat
    let h := headerOf (ofBytes head)
    let same := h.gw = g.image.gw ∧ h.gh = g.image.gh ∧ h.exact = g.exact ∧ otherOwner s h g.key = false
    (handleGrove s (s.me.reg a).toNat = none → CanTrap s vec → Runs (.gsplice a b) s (Trapped s 0x2CE 0 vec)) ∧
    (handleGrove s (s.me.reg a).toNat = some gid → g.emberWait.isSome = true → CanTrap s vec → Runs (.gsplice a b) s (Trapped s 0x2CE 0 vec)) ∧
    (handleGrove s (s.me.reg a).toNat = some gid → g.emberWait = none → g.run = .running → fetchHeader rd = .ok head →
      (¬same → CanTrap s vec → Runs (.gsplice a b) s (Trapped s 0x2C7 0 vec)) ∧
      (same → verifyImage s rd head g.key = .ok (m, true) → m.copyRegions ≤ (freeRegions s g.die).length → Runs (.gsplice a b) s (fun t =>
        (t.grove gid).run = .splicing ∧ (t.grove gid).succ = some (m, s.nextId) ∧ (t.grove gid).image = g.image ∧ (t.grove gid).newCopies.length = m.copyRegions ∧
        (∀ x ∈ g.sites, if siteIsSlice x then (t.slice x).next = some (m.site (g.relCol x) (g.relRow x)) ∧ (t.slice x).store = (s.slice x).store
          else (t.tile x).next = some (m.site (g.relCol x) (g.relRow x)) ∧ (t.tile x).gen = (s.tile x).gen ∧ (t.tile x).store = (s.tile x).store) ∧
        (∀ c ∈ g.clusters, (t.coreOf c).next = true ∧ (t.coreOf c).code = (s.coreOf c).code) ∧
        t.me.mx = s.me.mx + 1 ∧ RetiredAt s.me t.me s.me.next ∧ (∀ r, t.me.reg r = s.me.reg r) ∧ SameMemory s t)))) ∧
 (∀ (s : State) (site gid op : Nat) (m : Image) (c : SiteCfg) (b : List (Nat × Nat)) (e : BitVec 4),
    s.groveOfSite site = some gid → (s.grove gid).succ = some (m, op) → (s.coreOf (siteCluster site)).next = false →
    let t0 := s.tile site
    (t0.next = some c → t0.eok = true → (∃ p : Fin 4, (t0.cfg.ins[p]).isSome = true) → (∀ d ∈ m.data, (s.grove gid).siteRel d.col d.row ≠ some site) → Runs (.tileSpliceSwitch site) s (fun t =>
      (t.tile site).cfg = { c with binds := t0.cfg.binds, border := t0.cfg.border } ∧ (t.tile site).next = none ∧ (t.tile site).firing = none ∧
      (t.tile site).ins = Vector.replicate 4 {} ∧ (t.tile site).gen = t0.gen ∧ (t.tile site).store = t0.store ∧ (t.tile site).accs = t0.accs ∧
      t.threads = s.threads ∧ SameMemory s t)) ∧
    (t0.next = some c → t0.eok = false → (∃ p : Fin 4, (t0.cfg.ins[p]).isSome = true) → Runs (.tileSpliceSwitch site) s (· = s)) ∧
    (siteIsSlice site = false → t0.next = none → t0.box = some (b, e) → t0.cfg.binds = [] → Runs (.switchBoxSplice site) s (fun t =>
      t.tile site = { t0 with cfg := { t0.cfg with binds := b, border := e }, box := none } ∧ t.threads = s.threads ∧ SameMemory s t ∧
      ∀ z, z ≠ site → t.tile z = s.tile z)))

/-- R90, R335: grelease frees a grove whose writes have landed: its record is gone, its clusters hold no grove, its threads are free, and each site
keeps its store and its generation; one that an ember waits for is 0x2CE. The mode command sets MODE while no stream is bound and no marker pending,
else 0x2CF; while none is bound but under an open generation, it waits (R174); a reserved bit is 0x061. R164, R342: leave.req answers an H between
the old one and the request, and never below the base when more than that is asked; leave.ret lowers H, and more than H is 0x340; a request above
65,535 is 0x061 by log entry 40. -/
def Obligations.GrovesEndAndSlots : Prop :=
 (∀ (s : State) (a b : Reg) (vec gid : Nat),
    let g := s.grove gid
    let v := (s.me.reg b).toNat
    let went := fun (t : State) => t.me.pc = s.me.next ∧ t.me.status = .ready ∧ (∀ r, t.me.reg r = s.me.reg r) ∧ SameCounters s.me t.me ∧ SameMemory s t
    (Issues s { srcs := [a] } →
      (handleGrove s (s.me.reg a).toNat = some gid → g.emberWait.isSome = true → CanTrap s vec → Runs (.grelease a) s (Trapped s 0x2CE 0 vec)) ∧
      (handleGrove s (s.me.reg a).toNat = some gid → g.emberWait = none → groveLanded s gid g.threads = true → gid ≠ myGroveId s → s.focus ∉ g.threads →
        Runs (.grelease a) s (fun t => went t ∧ (t.grove gid).live = false ∧ (∀ c ∈ g.clusters, (t.coreOf c).grove = none) ∧
          (∀ q ∈ g.threads, (t.thr q).status = .free) ∧ (∀ k, k ≠ gid → t.grove k = s.grove k) ∧
          ∀ x, (t.tile x).gen = (s.tile x).gen ∧ (t.tile x).store = (s.tile x).store ∧ (t.slice x).store = (s.slice x).store)) ∧
      (handleGrove s (s.me.reg a).toNat = some gid → g.emberWait = none → groveLanded s gid g.threads = false → Runs (.grelease a) s (Stalled s)) ∧
      (handleGrove s (s.me.reg a).toNat = none → CanTrap s vec → Runs (.grelease a) s (Trapped s 0x2CE 0 vec))) ∧
    (Issues s { srcs := [a, b] } → handleGrove s (s.me.reg a).toNat = some gid →
      (v < 2 → groveStreams s g = [] → markerPending s g = false → (v = 1 → exactRefused s g = false) → Runs (.setMode a b) s (fun t => went t ∧
        t.grove gid = { g with exact := decide (v = 1) } ∧ (∀ k, k ≠ gid → t.grove k = s.grove k) ∧ t.tiles = s.tiles ∧ t.slices = s.slices)) ∧
      (2 ≤ v → CanTrap s vec → Runs (.setMode a b) s (Trapped s 0x061 0 vec)) ∧
      (v < 2 → groveStreams s g ≠ [] → (∀ l ∈ groveStreams s g, l.2.gen.isSome = true) → markerPending s g = false → Runs (.setMode a b) s (Stalled s)) ∧
      (v < 2 → (∃ l ∈ groveStreams s g, l.2.gen = none) ∨ markerPending s g = true → CanTrap s vec → Runs (.setMode a b) s (Trapped s 0x2CF 0 vec)))) ∧
 (∀ (s : State) (d a : Reg) (vec mine : Nat), s.groveOfThread s.focus = some mine →
    let g := s.grove mine
    let n := (s.me.reg a).toNat
    (Issues s { srcs := [a], dst := some d } →
      (n ≤ 65535 → Runs (.leaveReq d a) s (fun t => ∃ h, (t.grove mine) = { g with h := h } ∧ t.me.reg d = (if d = 0 then 0 else BitVec.ofNat 64 h) ∧
        OtherRegs s.me t.me d ∧ RetiredAt s.me t.me s.me.next ∧ SameSystem s.me t.me ∧ SameCounters s.me t.me ∧ SameMemory s t ∧
        g.h ≤ h ∧ h ≤ max g.h n ∧ min n (baseGrant s g) ≤ h ∧ (n ≤ g.h → h = g.h) ∧ (∀ k, k ≠ mine → t.grove k = s.grove k))) ∧
      (65535 < n → CanTrap s vec → Runs (.leaveReq d a) s (Trapped s 0x061 0 vec))) ∧
    (Issues s { srcs := [a] } →
      (n ≤ g.h → Runs (.leaveRet a) s (fun t => t.grove mine = { g with h := g.h - n } ∧ t.me.pc = s.me.next ∧ (∀ r, t.me.reg r = s.me.reg r) ∧
        SameSystem s.me t.me ∧ SameCounters s.me t.me ∧ SameMemory s t ∧ ∀ k, k ≠ mine → t.grove k = s.grove k)) ∧
      (g.h < n → CanTrap s vec → Runs (.leaveRet a) s (Trapped s 0x340 0 vec))))

/-- R344, R345, R169: mfsnap asks for the stores of the 2,048 bytes of a manifest, a line at a time, each of which writes its own bytes and no other;
the first word is magic and version. mfcmp, once its thread's earlier accesses to what it touches are performed, answers 0 for a stored manifest
whose fields all agree, the first index that differs, and 0xFFFF with nothing written where the first word is another; before that its operation
stays open; misaligned addresses are 0x2CE. R25, R343: tinv counts on mx and waits for the end of its operation; a length of 0 completes at once; a
range above 2^48 is 0x201. At its end no translation of the grove's cores meets the range, its generators' sets that met it have been walked again
in the current table, and its operation is done; while the thread's earlier accesses to those tables are to be performed, that end waits (R169). -/
def Obligations.ManifestsAndTranslations : Prop :=
 (∀ (s : State) (d a b : Reg) (vec gid pa : Nat) (stored : List Byte), Inv s →
    let g := myGrove s
    let bytes := manifestBytes (manifestFields s (s.grove gid))
    let va := (s.me.reg a).toNat
    let out := (s.me.reg b).toNat
    let answers := fun (v : Nat) (t : State) => t.me.reg d = (if d = 0 then 0 else BitVec.ofNat 64 v) ∧ OtherRegs s.me t.me d ∧ t.me.ld = s.me.ld + 1 ∧
      RetiredAt s.me t.me s.me.next
    (Issues s { srcs := [a, b] } → HasRoom s .st → handleGrove s out = some gid →
      (va % 64 ≠ 0 → CanTrap s vec → Runs (.mfsnap a b) s (Trapped s 0x2CE 0 vec)) ∧
      (va % 64 = 0 → storeChunks s g 3 va 2048 = .ok [(pa, 2048)] → Runs (.mfsnap a b) s (fun t => ∃ r, Asked s s r .st t ∧
        r.kind = .manifest (ofBytes bytes) ∧ r.va = va ∧ r.key = g.key ∧ bytes.length = 2048 ∧ ofBytes (bytes.take 8) = 0x4D465331 + 2 ^ 32 ∧
        (pa % 64 = 0 → r.pieces = (List.range 32).map (fun i => (64 * i, 64, pa + 64 * i)))))) ∧
    (∀ (r : MemReq) (off n x : Nat) (rest : List (Nat × Nat × Nat)), r.kind = .manifest (ofBytes bytes) → off + n ≤ 2048 →
      let t := performPiece s r off n x rest
      (∀ i, i < n → t.byteAt r.key (x + i) = bytes.getD (off + i) 0) ∧ (∀ y, y < x ∨ x + n ≤ y → t.byteAt r.key y = s.byteAt r.key y) ∧ t.threads = s.threads) ∧
    (Issues s { srcs := [a, b], dst := some d } → HasRoom s .ld →
      (va % 64 ≠ 0 ∨ out % 64 ≠ 0 → CanTrap s vec → Runs (.mfcmp d a b) s (Trapped s 0x2CE 0 vec)) ∧
      (va % 64 = 0 → out % 64 = 0 → readVa s g 3 va 2048 = .ok stored → (earlierDone s g va 2048 && earlierDone s g out 128) = false →
        ofBytes (stored.take 6) ≠ 0x4D465331 + 2 ^ 32 → Runs (.mfcmp d a b) s (fun t => t.me.ld = s.me.ld + 1 ∧ RetiredAt s.me t.me s.me.next ∧ SameMemory s t ∧
          (d ≠ 0 → (t.me.regs[d]).pend = some s.nextId) ∧ ∃ o ∈ t.ops, o.id = s.nextId ∧ o.thread = s.focus ∧ o.ctr = some .ld ∧ o.done = false ∧ o.todo = some (va, out))) ∧
      (va % 64 = 0 → out % 64 = 0 → readVa s g 3 va 2048 = .ok stored → (earlierDone s g va 2048 && earlierDone s g out 128) = true →
        (ofBytes (stored.take 6) ≠ 0x4D465331 + 2 ^ 32 → Runs (.mfcmp d a b) s (fun t => answers 0xFFFF t ∧ SameMemory s t)) ∧
        (ofBytes (stored.take 6) = 0x4D465331 + 2 ^ 32 →
          ((∀ f ∈ manifestFields s g, f.1 ≠ 0 → (stored.drop f.2.1).take f.2.2.length = f.2.2) → Runs (.mfcmp d a b) s (fun t => answers 0 t ∧ SameMemory s t)) ∧
          (∀ f, firstDiff stored (manifestFields s g) = some f → storeChunks s g 3 out 128 = .ok [(pa, 128)] →
            Runs (.mfcmp d a b) s (fun t => answers f.1 t ∧ (∀ i, i < 64 → t.byteAt g.key (pa + 64 + i) = f.2.2.getD i 0) ∧
              (∀ x, x < pa ∨ pa + 128 ≤ x → t.byteAt g.key x = s.byteAt g.key x))))))) ∧
 (∀ (s : State) (a b : Reg) (vec id gid lo hi : Nat),
    let va := (s.me.reg a).toNat
    let n := (s.me.reg b).toNat
    let counted := fun (t : State) => t.me.mx = s.me.mx + 1 ∧ RetiredAt s.me t.me s.me.next ∧ (∀ r, t.me.reg r = s.me.reg r) ∧ SameMemory s t
    (Issues s { srcs := [a, b] } → HasRoom s .mx →
      (n ≠ 0 → va + n ≤ 2 ^ 48 → Runs (.tinv a b) s (fun t => counted t ∧
        t.tinvs = s.tinvs ++ [(s.nextId, myGroveId s, va / 4096 * 4096, (va + n + 4095) / 4096 * 4096)])) ∧
      (n = 0 → Runs (.tinv a b) s (fun t => counted t ∧ t.tinvs = s.tinvs ∧ ∃ p ∈ t.ops, p.id = s.nextId ∧ p.done = true)) ∧
      (n ≠ 0 → 2 ^ 48 < va + n → CanTrap s vec → Runs (.tinv a b) s (Trapped s 0x201 (s.me.reg a) vec))) ∧
    (s.tinvs.find? (fun v => v.1 = id) = some (id, gid, lo, hi) → tinvReady s id gid lo hi = false → Runs (.tinvComplete id) s (· = s)) ∧
    (s.tinvs.find? (fun v => v.1 = id) = some (id, gid, lo, hi) → tinvReady s id gid lo hi = true → Runs (.tinvComplete id) s (fun t =>
      t.tinvs = s.tinvs.filter (fun v => v.1 ≠ id) ∧ t.threads = s.threads ∧ SameMemory s t ∧ t.tiles = s.tiles ∧
      t.ops = s.ops.map (fun o => if o.id = id then { o with done := true } else o) ∧
      (∀ x k st, x ∈ (s.grove gid).slices → k < 8 → genStream s x k = some st →
        genStream t x k = some (if (st.ext ++ st.nextExt).any (fun e => meets e.va e.len lo hi) then st.rewalk s else st)) ∧
      ∀ c ∈ (s.grove gid).clusters, (t.coreOf c).tlb = (s.coreOf c).tlb.filter (fun e => decide (hi ≤ e.va ∨ e.va + e.size ≤ lo)))))

/-- R195, R336, R160, R346: ember of a grove with room for its save counts on mx, awaits its handle in rd and takes the save's regions. Of a running
grove it begins: the grove is embering, and each slice puts a marker on its circuits, behind the tokens its nodes have sent (the model's reading,
log entry 73); of one that splices, is frozen or halted it waits, and begins once the grove runs. Without room it is 0x2D1; a handle that names no
such grove, or one being embered, is 0x2CE. R195, R355: in the first cycle after its marker in which no firing runs or ends and nothing is staged,
with no round marker ready, a tile saves and sends the marker on, but not in the cycle in which a round marker has left; until then it waits; it
saves once. R195, R196, R199, R346: an ember that waited begins once its grove runs. Once all is quiet the hearth waits 64 cycles, counted from its
first look that finds it so (the model's reading, log entry 73), then closes the ember: one save more, with a new nonzero handle, the grove's
clusters free, its threads free, and its window and copy held by the save. A grove that is not embering is left alone. -/
def Obligations.EmbersRun : Prop :=
 (∀ (s : State) (d a : Reg) (vec gid : Nat), Issues s { srcs := [a], dst := some d } → HasRoom s .mx →
    let g := s.grove gid
    let self := decide (gid = myGroveId s)
    let taken := fun (t : State) (regs : List Nat) => (∀ k, k ≠ gid → t.grove k = s.grove k) ∧
      (∀ r ∈ regs, tabGet (t.die g.die).holder r 0 = 2000 + s.saveCount) ∧
      t.me.mx = s.me.mx + 1 ∧ RetiredAt s.me t.me s.me.next ∧ (∀ r, t.me.reg r = s.me.reg r) ∧ (d ≠ 0 → t.me.regs[d].pend = some s.nextId) ∧
      (∃ p ∈ t.ops, p.id = s.nextId ∧ p.thread = s.focus ∧ p.ctr = some .mx ∧ p.dst = some d ∧ p.done = false) ∧ t.tiles = s.tiles ∧ SameMemory s t
    (handleGrove s (s.me.reg a).toNat = none → CanTrap s vec → Runs (.ember d a) s (Trapped s 0x2CE 0 vec)) ∧
    (handleGrove s (s.me.reg a).toNat = some gid → g.run = .embering ∨ g.emberWait.isSome = true → CanTrap s vec → Runs (.ember d a) s (Trapped s 0x2CE 0 vec)) ∧
    (handleGrove s (s.me.reg a).toNat = some gid → g.run ≠ .embering → g.emberWait = none →
      (saveFree s g = none → CanTrap s vec → Runs (.ember d a) s (Trapped s 0x2D1 0 vec)) ∧
      (∀ regs, saveFree s g = some regs →
        (g.run = .running → Runs (.ember d a) s (fun t => taken t regs ∧
          t.grove gid = { g with run := .embering, emberOp := some s.nextId, emberSelf := self, emberAt := s.now, emberLast := none, saveRegs := regs } ∧
          ∀ x ∈ g.slices, ∀ q y id lat, q < 4 → (y, id, lat) ∈ sinksOf s x (0x40 + q) →
            ∃ fl ∈ t.flights, fl.sink = sinkNo y id ∧ fl.tok = markTok 3 ∧ fl.due = outFree s x q + lat)) ∧
        (g.run ≠ .running → Runs (.ember d a) s (fun t => taken t regs ∧ t.grove gid = { g with emberWait := some (regs, s.nextId, self) } ∧
          t.flights = s.flights ∧ t.slices = s.slices))))) ∧
 (∀ (s : State) (site m : Nat),
    let t0 := s.tile site
    (t0.ember = .saved → Runs (.tileEmberSave site) s (· = s)) ∧
    (t0.ember = .marked m →
      (s.now < t0.roundAt ∨ s.now ≤ m ∨ t0.firing.isSome = true ∨ t0.ending ≠ [] → Runs (.tileEmberSave site) s (· = s)) ∧
      (m < s.now → t0.firing = none → t0.ending = [] → stagingEmpty s.now t0 = true → unitsRun s site = true → roundReady t0 = false → t0.roundAt ≤ s.now →
        Runs (.tileEmberSave site) s (fun t => (t.tile site).ember = .saved ∧ (t.tile site).store = t0.store ∧ (t.tile site).ins = t0.ins ∧
          (t.tile site).actors = t0.actors ∧ (t.tile site).mq = t0.mq ∧ t.threads = s.threads ∧ SameMemory s t ∧ (∀ z, z ≠ site → t.tile z = s.tile z) ∧
          ∀ (p : Fin 4) (y id lat : Nat), (t0.cfg.outs[p]).isSome = true → (y, id, lat) ∈ sinksOf s site (0x40 + p.val) →
            ∃ fl ∈ t.flights, fl.sink = sinkNo y id ∧ fl.tok = markTok 3 ∧ fl.due = max s.now (t0.outs[p]).busyTo + lat)))) ∧
 (∀ (s : State) (gid at_ : Nat),
    let g := s.grove gid
    (g.run ≠ .embering → g.run ≠ .running ∨ g.emberWait = none → Runs (.emberClose gid) s (· = s)) ∧
    (∀ regs op self, g.run = .running → g.emberWait = some (regs, op, self) → Runs (.emberClose gid) s (fun t => t.threads = s.threads ∧ t.tiles = s.tiles ∧
      t.grove gid = { g with run := .embering, emberOp := some op, emberSelf := self, emberAt := s.now, emberWait := none, emberLast := none, saveRegs := regs })) ∧
    (g.run = .embering → withdrawWords s g = s → emberQuiet s gid = true →
      (g.emberLast = none → Runs (.emberClose gid) s (fun t => t = s.setGrove gid { g with emberLast := some s.now })) ∧
      (g.emberLast = some at_ → s.now < at_ + 64 → Runs (.emberClose gid) s (· = s)) ∧
      (g.emberLast = some at_ → at_ + 64 ≤ s.now → Runs (.emberClose gid) s (fun t => ∃ v : Save, t.saves = s.saves ++ [v] ∧ t.saveCount = s.saveCount + 1 ∧
        v.grove = g ∧ v.handle = nextHandle s ∧ v.threads = g.threads.map (fun q => (q, savedThread (s.thr q))) ∧ v.tiles = g.tiles.map (fun x => (x, s.tile x)) ∧
        (t.grove gid).live = false ∧ (∀ k, k ≠ gid → t.grove k = s.grove k) ∧ (∀ c ∈ g.clusters, (t.coreOf c).grove = none) ∧
        (∀ q ∈ g.threads, (t.thr q).status = .free) ∧ (∀ r ∈ g.window ++ g.copies ++ g.saveRegs, tabGet (t.die g.die).holder r 0 = 2000 + s.saveCount)))) ∧
    (s.saveCount + 1 < 2 ^ 32 → nextHandle s ≠ 0))

/-- R197, R336, R158: rekindle of a save that its word may place brings it back as a running grove at the first place that fits: its image, mode and key
as saved; rd holds the handle and the save is gone; with no place rd is 0 and it stays. An uncorrectable save area is 0x2CA, which the model leaves
open; a handle of no save is 0x2CE. -/
def Obligations.SavesAreRekindled : Prop :=
  ∀ (s : State) (d a b : Reg) (vec mine gid : Nat) (v : Save) (o : Origin),
    Issues s { srcs := [a, b], dst := some d } → ownStoresDone s s.focus = true → HasRoom s .mx → s.groveOfThread s.focus = some mine →
    let g := s.grove mine
    let w := (s.me.reg b).toNat
    let found := s.saves.find? (fun v => v.handle.toNat = (s.me.reg a).toNat)
    let answers := fun (n : Nat) (t : State) => t.me.reg d = (if d = 0 then 0 else BitVec.ofNat 64 n) ∧ OtherRegs s.me t.me d ∧ t.me.mx = s.me.mx + 1 ∧
      t.me.pc = s.me.next ∧ SameSystem s.me t.me
    placeFault g.priv w = none →
    (found = none → CanTrap s vec → Runs (.rekindle d a b) s (Trapped s 0x2CE 0 vec)) ∧
    (found = some v → ∀ c, rekindleFault g w v = some c → CanTrap s vec → Runs (.rekindle d a b) s (Trapped s c 0 vec)) ∧
    (found = some v → rekindleFault g w v = none →
      (freeGrove s = none ∨ rekindlePlace s w v = none → Runs (.rekindle d a b) s (fun t => answers 0 t ∧ t.saves = s.saves ∧ t.groves = s.groves ∧ SameMemory s t)) ∧
      (let mv : Move := { old := v.grove, new := rekindledGrove s v o (rekindleRegions s v o.1) g.priv, gid := gid }
       freeGrove s = some gid → rekindlePlace s w v = some o → CanTrap s vec → (∀ k ∈ v.threads, mv.thread k.1 ≠ s.focus) →
       Runs (.rekindle d a b) s (fun t => t.fresh = s.fresh + 1 ∧
        ((t.me.cause = 0x2CA ∧ t.me.pc = vec ∧ t.saves = s.saves ∧ t.groves = s.groves) ∨
         (answers (gid + 1) t ∧ t.saves = s.saves.filter (fun q => q.handle ≠ v.handle) ∧ (t.grove gid).live = v.grove.live ∧ (t.grove gid).run = .running ∧
          (t.grove gid).image = v.grove.image ∧ (t.grove gid).exact = v.grove.exact ∧ (t.grove gid).key = v.grove.key ∧
          ((t.grove gid).die, (t.grove gid).cx, (t.grove gid).cy) = o)))))

/-- R192: a grove with a stream paused, or a token withheld by a node, for longer than its drain limit is embered by the hearth where the die has room
for its save; else, once its writes have landed (the model's reading, log entry 75; that a node's token withheld counts is log entry 92), it is
released with an event record, or a count of one lost. A grove with none goes on. R198, R199, R213: the scrub of a running grove's configuration
looks at its frames and their signature: errors repaired are counted, and a frame that cannot be repaired or a signature that does not match freezes
the grove and counts an integrity event; a word of one of its code stores that cannot be corrected is marked and counted. A resume goes on with the
frames of the reload copy, or leaves the grove frozen for good; an internal error of the hearth freezes every grove that is live for good. Which
bits have flipped is open, and the marks left in a code store are the model's choice (log entry 76), as is what freezes for good (log entry 104).
(No thread waits in a reduction.) -/
def Obligations.DrainsFreezesResumes : Prop :=
 (∀ (s : State) (gid sid : Nat),
    let g := s.grove gid
    g.live = true → g.run = .running → g.emberWait = none →
    (drainedStream s g = none → Runs (.drainLimitExpiry gid) s (· = s)) ∧
    (drainedStream s g = some sid →
      ((∃ l ∈ groveStreams s g, l.2.sid = sid ∧ l.2.paused.isSome = true ∧ l.2.pausedAt + 2400 * g.tdrain < s.now) ∨
        (∃ x ∈ g.slices, ∃ n ∈ (s.slice x).nodes.toList, ∃ w at_, n.withheld = some (w, at_) ∧ w.sid = sid ∧ at_ + 2400 * g.tdrain < s.now)) ∧
      (∀ regs, saveFree s g = some regs → Runs (.drainLimitExpiry gid) s (fun t => (t.grove gid).run = .embering ∧ (t.grove gid).emberOp = none ∧
        (t.grove gid).saveRegs = regs ∧ t.threads = s.threads ∧ t.tiles = s.tiles ∧ SameMemory s t)) ∧
      (saveFree s g = none → groveLanded s gid g.threads = true → Runs (.drainLimitExpiry gid) s (fun t => (t.grove gid).live = false ∧
        (∀ c ∈ g.clusters, (t.coreOf c).grove = none) ∧ (∀ q ∈ g.threads, (t.thr q).status = .free) ∧
        t.mgmt.evHead + t.mgmt.evLost = (if s.mgmt.ringReady && decide (s.mgmt.evHead - s.mgmt.evTail < 2 ^ s.mgmt.evSize.toNat)
          then s.mgmt.evHead + 1 else s.mgmt.evHead + s.mgmt.evLost + 1) ∧
        (Inv s → s.mgmt.ringReady = true → s.mgmt.evHead - s.mgmt.evTail < 2 ^ s.mgmt.evSize.toNat →
          t.numAt 0 (s.mgmt.evBase.toNat + s.mgmt.evHead % 2 ^ s.mgmt.evSize.toNat * 32) 32 / 2 ^ 246 = 0x2D1))) ∧
      (saveFree s g = none → groveLanded s gid g.threads = false → Runs (.drainLimitExpiry gid) s (· = s)))) ∧
 (∀ (s : State) (gid : Nat),
    let g := s.grove gid
    let kept := fun (t : State) => t.threads = s.threads ∧ (∀ k, k ≠ gid → t.grove k = s.grove k)
    let found := fun (e : List (Nat × Nat)) => judgeFrames (flipBits g.image.frames e) g.crc
    (mayFreeze g = true → Runs (.configurationScrub gid) s (fun t => kept t ∧ SameMemory s t ∧ t.tiles = s.tiles ∧ s.fresh < t.fresh ∧
      ∃ (e : List (Nat × Nat)) (n m : Nat), n + m ≤ 1 ∧
        t.mgmt = { s.mgmt with corrected := s.mgmt.corrected + n + (found e).1, uncorrected := s.mgmt.uncorrected + m } ∧
        t.grove gid = (if (found e).2 then { g with run := .frozen, was := g.run, unfixed := false, integrity := min 0xFFFFFFFF (g.integrity + 1) } else g) ∧
        (m = 0 → t.cores = s.cores) ∧ (m = 1 → g.clusters ≠ [] → ∃ c w, c ∈ g.clusters ∧ w < 16384 ∧
          t.cores = (s.setCore c { s.coreOf c with badCode := w :: (s.coreOf c).badCode }).cores))) ∧
    (mayFreeze g = false → Runs (.configurationScrub gid) s (· = s)) ∧
    (g.live = true → g.run = .frozen → g.unfixed = false → g.succ = none → (∀ c ∈ g.clusters, (s.coreOf c).redWait = []) →
      Runs (.freezeResume gid) s (fun t => kept t ∧ t.fresh = s.fresh + 1 ∧
        ∃ e, ((found e).2 = true ∧ t.grove gid = { g with unfixed := true }) ∨
          ((found e).2 = false ∧ t.grove gid = { g with run := g.was } ∧ SameMemory s t ∧
            ∀ x ∈ g.sites, siteIsSlice x = false → (t.tile x).cfg = g.image.site (g.relCol x) (g.relRow x) ∧ (t.tile x).store = (s.tile x).store))) ∧
    (g.unfixed = true → Runs (.freezeResume gid) s (· = s)) ∧
    ((∀ c, (s.coreOf c).redWait = []) → Runs .hearthInternalError s (fun t => t.threads = s.threads ∧ t.tiles = s.tiles ∧
      ∀ k, ((s.grove k).live = false → t.grove k = s.grove k) ∧
        ((s.grove k).live = true → t.grove k = { s.grove k with
          run := .frozen, unfixed := true, was := if (s.grove k).run = .frozen ∨ (s.grove k).run = .halted then (s.grove k).was else (s.grove k).run }))))

/-- R203: every command of the management window: before the part is ready it has no effect; while one runs it is refused with 0x381, and nothing else
changes. R203, R317, R16: a command whose argument breaks its range completes at once without effect, with 0x387 and vector 1. R21, R76, R203, R212:
frame clear zeroes its frame as its key reads it and empties its presence bits, and no other; register signing key fills its slot; clear trim
counters clears those of its router alone; each leaves its command busy. CARG1 as the low word of a key is the model's reading (log entry 78). R203:
at its end a command's busy bit clears, its cause and its CARG5 stand, and vector 1 fires; a release frees its grove once its writes have landed,
and until then the command runs on. -/
def Obligations.CommandsRun : Prop :=
 (∀ (s : State), ∀ i ∈ [Instr.frameClear, .migrate, .registerSigningKey, .clearTrimCounters, .quote, .debugAttach, .loadImage, .releaseGrove],
    (s.mgmt.ready = false → Runs i s (· = s)) ∧
    (s.mgmt.ready = true → s.mgmt.busy = true → Runs i s (fun t => t = { s with mgmt := { s.mgmt with result := 0x381 } }))) ∧
 (∀ (s : State), s.mgmt.ready = true → s.mgmt.busy = false →
    let arg := fun (n : Fin 6) => (s.mgmt.carg[n]).toNat
    let ended := fun (i : Instr) => Runs i s (fun t => t.mgmt.result = 0x387 ∧ t.mgmt.busy = false ∧ t.mgmt.vec1 = s.mgmt.vec1 + 1 ∧ t.mgmt.carg = s.mgmt.carg ∧
      t.mgmt.keys = s.mgmt.keys ∧ { t with mgmt := s.mgmt } = s)
    (arg 0 % 4096 ≠ 0 ∨ 1023 < arg 1 → ended .frameClear) ∧ (31 < arg 0 ∨ (arg 0 ≠ 0 ∧ 1023 < arg 5) → ended .registerSigningKey) ∧ (3 < arg 0 ∨ 119 < arg 1 → ended .clearTrimCounters) ∧
    (1 < arg 2 ∨ arg 0 % 4096 ≠ 0 ∨ (0x018000000000 ≤ arg 0 ∧ arg 0 < 2 ^ 56) ∨ 2 ^ 48 ≤ arg 1 → ended .migrate) ∧
    (1023 < arg 1 ∨ arg 3 % 4096 ≠ 0 ∨ (0x018000000000 ≤ arg 3 ∧ arg 3 < 2 ^ 56) → ended .loadImage)) ∧
 (∀ (s : State), Inv s → s.mgmt.ready = true → s.mgmt.busy = false →
    let arg := fun (n : Fin 6) => (s.mgmt.carg[n]).toNat
    let runs := fun (code : Nat) (t : State) => t.mgmt.busy = true ∧ t.mgmt.cmd = BitVec.ofNat 64 code ∧ t.mgmt.carg = s.mgmt.carg ∧ t.mgmt.next = 0 ∧
      t.threads = s.threads ∧ t.tiles = s.tiles ∧ t.groves = s.groves
    (arg 0 % 4096 = 0 → arg 0 < 0x018000000000 → arg 1 ≤ 1023 → Runs .frameClear s (fun t => runs 1 t ∧
      (∀ x, arg 0 ≤ x → x < arg 0 + 4096 → t.byteAt (arg 1) x = 0 ∧ t.isFull x = false) ∧
      ∀ x, x < arg 0 ∨ arg 0 + 4096 ≤ x → t.byteAt (arg 1) x = s.byteAt (arg 1) x ∧ t.isFull x = s.isFull x)) ∧
    (∀ n : Fin 32, arg 0 = n.val → (n.val = 0 ∨ arg 5 ≤ 1023) → Runs .registerSigningKey s (fun t => runs 3 t ∧ SameMemory s t ∧
      t.mgmt.keys = s.mgmt.keys.set n (some { owner := arg 5 % 1024, key := BitVec.ofNat 256 (arg 1 + arg 2 * 2 ^ 64 + arg 3 * 2 ^ 128 + arg 4 * 2 ^ 192) }))) ∧
    (arg 0 ≤ 3 → arg 1 ≤ 119 → Runs .clearTrimCounters s (fun t => runs 4 t ∧ SameMemory s t ∧
      ∀ k, tabFind t.trims k = (if k / 8 = arg 0 * 120 + arg 1 then none else tabFind s.trims k)))) ∧
 (∀ (s : State), s.mgmt.busy = true →
    let ended := fun (t : State) => t.mgmt.busy = false ∧ t.mgmt.result = s.mgmt.next ∧ t.mgmt.vec1 = s.mgmt.vec1 + 1 ∧
      t.mgmt.carg[5] = (s.mgmt.next5).getD (s.mgmt.carg[5]) ∧ ∀ n : Fin 5, t.mgmt.carg[n] = s.mgmt.carg[n]
    (s.mgmt.job = none → s.mgmt.cmd ≠ 2 → Runs .hostCommandComplete s (fun t => ended t ∧ { t with mgmt := s.mgmt } = s)) ∧
    (∀ gid, s.mgmt.job = some gid → (s.grove gid).live = true →
      (groveLanded s gid (s.grove gid).threads = true → Runs .hostCommandComplete s (fun t => ended t ∧ (t.grove gid).live = false ∧
        ∀ c ∈ (s.grove gid).clusters, (t.coreOf c).grove = none)) ∧
      (groveLanded s gid (s.grove gid).threads = false → Runs .hostCommandComplete s (· = s))))

/-- R208, R211, R213: a quote is written behind its nonce and raises the counter; a debug attach with a good capability attaches Huash, and another
leaves the cause 0x385. R203, R204: a load command's image becomes a grove as gload's would, with its handle to come in CARG5, or its fault or 0
with no place; a release command of a running grove waits until it may be released and completes with it gone; of no running grove, or of one being
embered, it is over at once with 0x386. -/
def Obligations.QuotesAttachmentsHostLoads : Prop :=
 (∀ (s : State), Inv s → s.mgmt.ready = true → s.mgmt.busy = false →
    let pa := localPa s.dev (s.mgmt.carg[0]).toNat
    regionOf s.dev pa = .host →
    Runs .quote s (fun t => t.mgmt.quotes = s.mgmt.quotes + 1 ∧ t.mgmt.busy = true ∧ (∀ i, i < 32 → t.byteAt 0 (pa + 32 + i) = s.byteAt 0 (pa + i)) ∧
      (∀ x, x < pa + 32 ∨ pa + 288 ≤ x → t.byteAt 0 x = s.byteAt 0 x) ∧ t.threads = s.threads) ∧
    (∀ c, capOf s (s.bytesAt 0 pa 96) = some c → Runs .debugAttach s (fun t => t.huash.attached = true ∧ t.huash.caps = s.huash.caps ++ [c] ∧ t.mgmt.next = 0 ∧
      t.mgmt.busy = true ∧ SameMemory s t ∧ t.threads = s.threads)) ∧
    (capOf s (s.bytesAt 0 pa 96) = none → Runs .debugAttach s (fun t => t.huash = s.huash ∧ t.mgmt.next = 0x385 ∧ t.mgmt.busy = true ∧ SameMemory s t))) ∧
 (∀ (s : State), s.mgmt.ready = true → s.mgmt.busy = false →
    let arg := fun (n : Fin 6) => (s.mgmt.carg[n]).toNat
    let h := arg 0
    let s0 : State := { s with mgmt := { s.mgmt with cmd := 7, next := 0, next5 := none, job := none, busy := true } }
    (arg 1 ≤ 1023 → arg 3 % 4096 = 0 → arg 3 < 0x018000000000 → placeFault true (loadWord s) = none → (regionOf s.dev (arg 0) = .lpddr ∨ regionOf s.dev (arg 0) = .host) →
      (∀ s1 gid, loadGrove s0 (paFetch s0 (arg 1) (arg 0)) (loadWord s) (arg 1) (arg 3) true = .grove s1 gid → Runs .loadImage s (fun t =>
        t.mgmt.busy = true ∧ t.mgmt.next = 0 ∧ t.mgmt.next5 = some (BitVec.ofNat 64 (gid + 1)) ∧ (t.grove gid).live = true ∧ (t.grove gid).key = arg 1 ∧
        (t.grove gid).troot = arg 3 ∧ (s.grove gid).live = false ∧ (∀ c ∈ (t.grove gid).clusters, (t.coreOf c).grove = some gid) ∧ SameMemory s t)) ∧
      (loadGrove s0 (paFetch s0 (arg 1) (arg 0)) (loadWord s) (arg 1) (arg 3) true = .nowhere → Runs .loadImage s (fun t =>
        (t.mgmt.next = 0 ∨ t.mgmt.next = 0x2D1) ∧ t.mgmt.next5 = some 0 ∧ t.groves = s.groves ∧ t.threads = s.threads ∧ SameMemory s t))) ∧
    (1 ≤ h → h ≤ 128 → (s.grove (h - 1)).live = true → (s.grove (h - 1)).run ≠ .embering → (s.grove (h - 1)).emberWait = none → Runs .releaseGrove s (fun t =>
      t.mgmt.busy = true ∧ t.mgmt.job = some (h - 1) ∧ { t with mgmt := s.mgmt } = s)) ∧
    (h = 0 ∨ 128 < h ∨ (s.grove (h - 1)).live = false ∨ (s.grove (h - 1)).run = .embering ∨ (s.grove (h - 1)).emberWait.isSome = true → Runs .releaseGrove s (fun t =>
      t.mgmt.result = 0x386 ∧ t.mgmt.busy = false ∧ t.mgmt.vec1 = s.mgmt.vec1 + 1 ∧ { t with mgmt := s.mgmt } = s)))

/-- R21, R201, R313: the host reads and writes device memory through its lowest window, under that window's key, once what came before it at those
points is performed; a write of eight aligned bytes also fills the word, whatever page maps it (the model's choice, log entry 101); outside every
window a read brings ones, a write changes no memory, and an event record is counted as lost while the ring is not set up (the model's choice, log
entry 7). R202, R203, R207, R209: registers of the management window take what is written in 8 aligned bytes; read-only ones, misaligned accesses,
narrower ones and values of PLIMIT outside 1,200 to 3,600 do not; a code written to CMD starts its command; a read brings the register, or zero
where it is misaligned or narrow; before ready only ID and STATUS respond. -/
def Obligations.HostAccesses : Prop :=
 (∀ (s : State) (addr pa key : Nat) (data : List Byte), Inv s → s.mgmt.ready = true →
    (windowAt s.mgmt addr = some (pa, key) → hostWaits s pa data.length = true → ∀ wr, Runs (.hostMemoryAccess addr wr data) s (· = s)) ∧
    (windowAt s.mgmt addr = some (pa, key) → hostWaits s pa data.length = false →
      Runs (.hostMemoryAccess addr false data) s (fun t => t.mgmt.hostRead = s.bytesAt key pa data.length ∧ { t with mgmt := s.mgmt } = s) ∧
      Runs (.hostMemoryAccess addr true data) s (fun t => (∀ i, i < data.length → t.byteAt key (pa + i) = data.getD i 0) ∧
        (∀ x, x < pa ∨ pa + data.length ≤ x → t.byteAt key x = s.byteAt key x) ∧ t.mgmt = s.mgmt ∧ ((∀ r ∈ s.reqs, r.parked = false) → t.threads = s.threads) ∧
        ((data.length ≠ 8 ∨ pa % 8 ≠ 0) → ∀ x, t.isFull x = s.isFull x) ∧
        (data.length = 8 → pa % 8 = 0 → (∀ r ∈ s.reqs, r.parked = false ∨ r.pieces ≠ [(0, 8, pa)]) → t.isFull pa = true))) ∧
    (windowAt s.mgmt addr = none → s.mgmt.ringReady = false →
      Runs (.hostMemoryAccess addr false data) s (fun t => t.mgmt.hostRead = data.map (fun _ => 0xFF) ∧ t.mgmt.evLost = s.mgmt.evLost + 1 ∧ SameMemory s t) ∧
      Runs (.hostMemoryAccess addr true data) s (fun t => t.mgmt.hostRead = s.mgmt.hostRead ∧ t.mgmt.evLost = s.mgmt.evLost + 1 ∧ SameMemory s t))) ∧
 (∀ (s : State) (v : Word64) (off n : Nat),
    let left := fun (i : Instr) (m : Mgmt) => Runs i s (fun t => t = { s with mgmt := m })
    let reads := fun (off v : Nat) => left (.registerWrite off ⟨8, none⟩) { s.mgmt with hostRead := bytesOf 8 v }
    let starts := fun (code : Nat) (i : Instr) => exec (.registerWrite 0x70 ⟨8, some (BitVec.ofNat 64 code)⟩) s = exec i s
    (s.mgmt.ready = true →
      (∀ n : Fin 6, left (.registerWrite (0x40 + 8 * n.val) ⟨8, some v⟩) { s.mgmt with carg := s.mgmt.carg.set n v } ∧ reads (0x40 + 8 * n.val) (s.mgmt.carg[n]).toNat) ∧
      left (.registerWrite 0x100 ⟨8, some v⟩) { s.mgmt with evBase := v } ∧ left (.registerWrite 0x108 ⟨8, some v⟩) { s.mgmt with evSize := v } ∧
      left (.registerWrite 0x118 ⟨8, some v⟩) { s.mgmt with evTail := v.toNat } ∧
      (∀ n : Fin 16, left (.registerWrite (0x1000 + 16 * n.val) ⟨8, some v⟩) { s.mgmt with hwin := s.mgmt.hwin.set n (v, (s.mgmt.hwin[n]).2) } ∧
        left (.registerWrite (0x1008 + 16 * n.val) ⟨8, some v⟩) { s.mgmt with hwin := s.mgmt.hwin.set n ((s.mgmt.hwin[n]).1, v) }) ∧
      left (.registerWrite 0x00 ⟨8, some v⟩) s.mgmt ∧ left (.registerWrite 0x08 ⟨8, some v⟩) s.mgmt ∧ left (.registerWrite 0x78 ⟨8, some v⟩) s.mgmt ∧
      left (.registerWrite 0x110 ⟨8, some v⟩) s.mgmt ∧
      (s.mgmt.busy = true → left (.registerWrite 0x70 ⟨8, some v⟩) { s.mgmt with result := 0x381 }) ∧
      starts 1 .frameClear ∧ starts 2 .migrate ∧ starts 3 .registerSigningKey ∧ starts 4 .clearTrimCounters ∧ starts 5 .quote ∧ starts 6 .debugAttach ∧
      starts 7 .loadImage ∧ starts 8 .releaseGrove ∧
      reads 0x10 s.mgmt.plimit ∧ reads 0x70 s.mgmt.cmd.toNat ∧ reads 0x78 (s.mgmt.busy.toNat * 2 ^ 63 + s.mgmt.result.toNat) ∧
      (1200 ≤ v.toNat ∧ v.toNat ≤ 3600 → left (.registerWrite 0x10 ⟨8, some v⟩) { s.mgmt with plimit := v.toNat } ∧ left (.plimitWrite v) { s.mgmt with plimit := v.toNat }) ∧
      (¬(1200 ≤ v.toNat ∧ v.toNat ≤ 3600) → left (.registerWrite 0x10 ⟨8, some v⟩) s.mgmt ∧ left (.plimitWrite v) s.mgmt)) ∧
    (s.mgmt.ready = false → left (.registerWrite off ⟨n, some v⟩) s.mgmt ∧ left (.plimitWrite v) s.mgmt ∧ (off ≠ 0 → off ≠ 8 → reads off 0)) ∧
    (off % 8 ≠ 0 ∨ n ≠ 8 → left (.registerWrite off ⟨n, some v⟩) s.mgmt ∧
      left (.registerWrite off ⟨n, none⟩) { s.mgmt with hostRead := List.replicate n 0 }) ∧
    reads 0x00 (Config.part.toNat * 2 ^ 48 + Config.stepping.toNat * 2 ^ 40 + s.mgmt.devId) ∧
    reads 0x08 (s.mgmt.stage % 16 + s.mgmt.fail % 256 * 2 ^ 8 + s.mgmt.ready.toNat * 2 ^ 16))

/-- R28, R29, R203: a device fault handler's request for a page of its grove joins the queue. A migrate command of a page that no request is waiting for
starts at once: a page that is where it is asked to go, pinned or not, and a page of another device are not moved (the model's choice, log entry
94); a pinned page is refused with 0x382; before its floor is over it waits; else every entry of the page is in transit. -/
def Obligations.MigrationsStart : Prop :=
  ∀ (s : State) (gid va : Nat) (toHost : Bool),
    let asks : Migration := { id := s.nextId, root := (s.grove gid).troot, va := va, toHost := toHost, since := s.now }
    ((s.grove gid).live = true → Runs (.migrationRequest gid va toHost) s (fun t => t = { s with migs := s.migs ++ [asks], nextId := s.nextId + 1 })) ∧
    ((s.grove gid).live = false → Runs (.migrationRequest gid va toHost) s (· = s)) ∧
    (s.mgmt.ready = true → s.mgmt.busy = false →
      let root := (s.mgmt.carg[0]).toNat
      let page := (s.mgmt.carg[1]).toNat
      let dir := (s.mgmt.carg[2]).toNat
      let m : Migration := { id := s.nextId, root := root, va := page, toHost := decide (dir = 1), byHost := true, since := s.now }
      let only := fun (c : Cause) (t : State) => t.mgmt.next = c ∧ t.mgmt.busy = true ∧ t.migs = s.migs ∧ { t with mgmt := s.mgmt, nextId := s.nextId } = s
      ∀ l : Nat × Nat × Nat, dir ≤ 1 → root % 4096 = 0 → root < 0x018000000000 → findLeaf s page 4 root = some l →
        (∀ q ∈ s.migs, q.id ≠ s.nextId ∧ (findLeaf s q.va 4 q.root).map (·.1) ≠ some l.1) →
        let e := ownNum s l.1 8
        let there := 2 ^ 56 ≤ ptePa s.dev e ∨ inHost s (ptePa s.dev e) = decide (dir = 1)
        let free := (tabFind s.floors l.1).all (fun f => decide (f ≤ s.now)) = true
        (there → Runs .migrate s (only 0)) ∧
        (¬there → pteMig e = 2 → Runs .migrate s (only 0x382)) ∧
        (¬there → pteMig e ≠ 2 → ¬free → Runs .migrate s (fun t => t.mgmt.busy = true ∧ m ∈ t.migs ∧ t.migs.length = s.migs.length + 1 ∧
          { t with mgmt := s.mgmt, nextId := s.nextId, migs := s.migs } = s)) ∧
        (¬there → pteMig e ≠ 2 → free → Runs .migrate s (fun t => t.mgmt.busy = true ∧ { m with active := true } ∈ t.migs ∧ t.migs.length = s.migs.length + 1 ∧
          t.threads = s.threads ∧ t.tiles = s.tiles ∧
          (Inv s → ∀ i, i < l.2.1 → ownNum t (l.1 + 8 * i) 8 = withMig (ownNum s (l.1 + 8 * i) 8) 1))))

/-- R28, R29: a request that waits is looked at again in a later cycle, once no earlier one for its page stands before it: it ends without a move (so
for a page of another device, and for a pinned one already there, the model's choice, log entry 94), or refused with 0x382 for a pinned page, waits
on while the floor lasts, or its page is in transit. How a device's requester is told is the model's choice (log entry 77). R28, R29: at its end a
migration has copied its page under its key, the page's entries name the new frame, settled, its floor of 120,000 cycles begins, and its requester
is told (how, log entry 77). Where the page goes is open; it is on the side that was asked for. -/
def Obligations.MigrationsEnd : Prop :=
 (∀ (s : State) (m : Migration) (l : Nat × Nat × Nat), s.migs.find? (fun q => q.id = m.id) = some m → m.active = false → m.since < s.now →
    findLeaf s m.va 4 m.root = some l → (∀ q ∈ s.migs.takeWhile (fun q => q.id ≠ m.id), (findLeaf s q.va 4 q.root).map (·.1) ≠ some l.1) →
    let e := ownNum s l.1 8
    let there := 2 ^ 56 ≤ ptePa s.dev e ∨ inHost s (ptePa s.dev e) = m.toHost
    let free := (tabFind s.floors l.1).all (fun f => decide (f ≤ s.now)) = true
    let ends := fun (c : Cause) (t : State) => t.migs = s.migs.filter (fun q => q.id ≠ m.id) ∧ (m.byHost = true → t.mgmt.next = c) ∧
      (m.byHost = false → t = { s with migs := s.migs.filter (fun q => q.id ≠ m.id), migDone := tabPut s.migDone m.id c })
    (there → Runs (.residenceFloorExpiry m.id) s (ends 0)) ∧
    (¬there → pteMig e = 2 → Runs (.residenceFloorExpiry m.id) s (ends 0x382)) ∧
    (¬there → pteMig e ≠ 2 → ¬free → Runs (.residenceFloorExpiry m.id) s (· = s)) ∧
    (¬there → pteMig e ≠ 2 → free → Runs (.residenceFloorExpiry m.id) s (fun t =>
      t.migs = s.migs.map (fun q => if q.id = m.id then { q with active := true } else q) ∧ t.threads = s.threads ∧ t.tiles = s.tiles ∧ t.mgmt = s.mgmt ∧
      (Inv s → m.root % 4096 = 0 → ∀ i, i < l.2.1 → ownNum t (l.1 + 8 * i) 8 = withMig (ownNum s (l.1 + 8 * i) 8) 1)))) ∧
 (∀ (s : State) (m : Migration) (l : Nat × Nat × Nat), s.migs.find? (fun q => q.id = m.id && q.active) = some m → findLeaf s m.va 4 m.root = some l →
    let e := ownNum s l.1 8
    let size := l.2.1 * l.2.2
    let old := ptePa s.dev e
    Runs (.migrationComplete m.id) s (fun t => t.migs = s.migs.filter (fun q => q.id ≠ m.id) ∧ tabFind t.floors l.1 = some (s.now + 120000) ∧ t.fresh = s.fresh + 1 ∧
      t.threads = s.threads ∧ t.tiles = s.tiles ∧ (m.byHost = true → t.mgmt.next = 0) ∧ (m.byHost = false → tabFind t.migDone m.id = some 0) ∧
      ∃ new, new % size = 0 ∧ (m.toHost = true → 2 ^ 47 ≤ new) ∧
        (Inv s → m.root % 4096 = 0 → (l.1 + 8 * l.2.1 ≤ new ∨ new + size ≤ l.1) →
          (∀ i, i < size → t.byteAt (pteKey e) (new + i) = s.byteAt (pteKey e) (old + i)) ∧
          ∀ i, i < l.2.1 → ownNum t (l.1 + 8 * i) 8 = withMig (withFrame (ownNum s (l.1 + 8 * i) 8) (new / 4096 + i * (l.2.2 / 4096))) 0)))

/-- R206, R207: reset of a ready part, or of one whose bring-up has failed, leaves no grove, no thread, no site and the management registers at their
reset values, and main memory as it was (the model's reading, log entry 79); the stages of bring-up follow one another, each may fail, the second
gives the device id and the device table, of links below 18, and the fourth sets ready. R93, R206, R210: a patrol finds nothing, corrects and counts
an error, or counts one that it cannot correct, which stands from then on in the granule or line it looked at, whose value is as it was (the mark is
the model's choice, log entry 76); a recalibration changes nothing visible; telemetry writes its block, its cycle count first; one of the 18 links
goes down, for good or for a time, and one that has been down for 1 ms leaves the device table. -/
def Obligations.ResetAndBackground : Prop :=
 (∀ (s : State),
    (s.mgmt.ready = true ∨ s.mgmt.fail ≠ 0 → Runs .resetPart s (fun t => t.groves = [] ∧ t.threads = [] ∧ t.tiles = [] ∧ t.slices = [] ∧ t.cores = [] ∧ t.saves = [] ∧
      t.reqs = [] ∧ t.packets = [] ∧ t.devTable = [] ∧ t.mgmt = {} ∧ t.mgmt.plimit = 3600 ∧ t.mgmt.ready = false ∧ t.mgmt.stage = 0 ∧ t.mgmt.devId = 0 ∧ SameMemory s t)) ∧
    (s.mgmt.ready = false → s.mgmt.fail = 0 → Runs .resetPart s (fun t => { t with mgmt := s.mgmt, fresh := s.fresh, devTable := s.devTable } = s ∧
      t.mgmt.stage = s.mgmt.stage + 1 ∧ (s.mgmt.stage ≠ 1 → t.devTable = s.devTable ∧ t.mgmt.devId = s.mgmt.devId) ∧
      (s.mgmt.stage = 1 → t.mgmt.fail = 0 → ∀ k ∈ t.devTable, k.1 < 256 ∧ ∀ n ∈ k.2, n < 18) ∧
      ((t.mgmt.fail = s.mgmt.stage + 1 ∧ t.mgmt.ready = false) ∨ (t.mgmt.fail = 0 ∧ t.mgmt.ready = decide (s.mgmt.stage = 3)))))) ∧
 (∀ (s : State) (site granule line channel link : Nat) (back : Option Nat),
    let looked : State := { s with fresh := s.fresh + 1 }
    let fixed : State := { looked with mgmt := { s.mgmt with corrected := s.mgmt.corrected + 1 } }
    let found : State := { looked with mgmt := { s.mgmt with uncorrected := s.mgmt.uncorrected + 1 } }
    let was := tabGet (s.tile site).store granule {}
    (site < siteCount → siteIsSlice site = false → granule < 2 ^ 11 → Runs (.sramPatrolScrub site granule) s (fun t => t = looked ∨ t = fixed ∨
      ∃ g : Gran, t = found.setTile site { s.tile site with store := tabPut (s.tile site).store granule g } ∧ g.val = was.val ∧ g.gen = was.gen ∧
        (g.bad ≠ 0 ∨ g.lost ≠ 0))) ∧
    (siteCount + 4 ≤ site → Runs (.sramPatrolScrub site granule) s (· = s)) ∧
    (256 * line < 0x018000000000 → Runs (.lpddrPatrolScrub line) s (fun t => t = looked ∨ t = fixed ∨
      (t = { found with badLine := t.badLine } ∧ ∀ q, q ∈ t.badLine ↔ q ∈ s.badLine ∨ q / 8 = line))) ∧
    (0x018000000000 ≤ 256 * line → Runs (.lpddrPatrolScrub line) s (· = s)) ∧
    Runs (.lpddrRecalibration channel) s (· = s) ∧
    Runs .telemetry s (fun t => { t with mgmt := s.mgmt } = s ∧ { t.mgmt with tele := s.mgmt.tele } = s.mgmt ∧ t.mgmt.tele.take 8 = bytesOf 8 s.now) ∧
    (link < 18 → linkIsDown s link = false → Runs (.linkDown ⟨link, back⟩) s (fun t =>
      t = { s with linkDown := tabPut s.linkDown link (s.now, back.map (· + s.now)) } ∧ (back ≠ some 0 → linkIsDown t link = true))) ∧
    (18 ≤ link ∨ linkIsDown s link = true → Runs (.linkDown ⟨link, back⟩) s (· = s)) ∧
    (∀ q b, tabFind s.linkDown link = some (q, b) → s.devTable.any (fun k => k.2.contains link) = true →
      (q + 2400000 ≤ s.now → b.all (fun r => decide (q + 2400000 ≤ r)) = true → Runs (.linkRemoval link) s (fun t =>
        t.devTable = s.devTable.map (fun k => (k.1, k.2.filter (fun l => l ≠ link))) ∧ t.threads = s.threads)) ∧
      (s.now < q + 2400000 ∨ b.any (fun r => decide (r < q + 2400000)) = true → Runs (.linkRemoval link) s (· = s))))

/-- R92, R207, R213: a command of Huash that only looks prints its one line and changes nothing of the part: what of a grove's sites, threads, memory
and saves stands as it did. Before the part is ready it does not respond. The lines of numbers are the model's choice (log entry 81). R92, R198,
R213, R349, R351, R354, R358: what the commands print of the selected grove: an actor's counts, the stop state and the grove's integrity events, the
matrix status, a slot's owner and counters, a thread's register as its tenant reads it, so a stale one as zero, and an actor's draw key and counter.
The lines of numbers are the model's choice (log entry 81). R213, R349: a session selects its grove, arms a trace of a site of it from the next
cycle, and sets breakpoints, and changes nothing else. -/
def Obligations.HuashLooks : Prop :=
 (∀ (s : State) (site port n off count thread va slice branch actor : Nat) (cyc lane : Option Nat) (names : List Nat) (slots : List (Nat × Nat)) (of : TraceOf)
    (tof : TrimOf) (eng : Fin 2),
    let looks := fun (i : Instr) (cmd : String) =>
      (s.mgmt.ready = true → Runs i s (fun t => ∃ vals, t.huash.lines = s.huash.lines ++ [{ cmd := cmd, vals := vals }] ∧
        t.huash.attached = true ∧ t = { s with huash := { s.huash with attached := true, lines := t.huash.lines } })) ∧
      (s.mgmt.ready = false → Runs i s (· = s))
    looks (.portShow site port cyc) "q" ∧ looks (.tileShow site) "tile" ∧ looks (.regsShow thread names) "regs" ∧ looks (.memShow va count lane) "mem" ∧
    looks (.winShow slice eng branch) "win" ∧ looks (.slotShow slots) "slot" ∧ looks (.barShow slice off) "bar" ∧ looks (.boundsShow slots) "bounds" ∧
    looks (.msShow site) "ms" ∧ looks (.trimShow tof) "trim" ∧ looks (.rwShow slice eng) "rw" ∧ looks .savesShow "saves" ∧ looks (.svShow site n) "sv" ∧
    looks (.tsShow site off count) "ts" ∧ looks (.dstateShow site actor) "dstate" ∧ looks (.traceShow of) "trace") ∧
 (∀ (s : State) (site x th q : Nat) (n : Fin 8) (r : Reg) (a : ActorCfg) (i : Fin 8), s.mgmt.ready = true →
    let printed := fun (i : Instr) (vals : List Nat) => Runs i s (fun t => (t.huash.lines.getLast?).map (·.vals) = some vals)
    let t0 := s.tile x
    (selSite s site = some x →
      (actorsOf t0 = [(i.val, a)] → printed (.tileShow site) [i.val, (actorSt t0 i).count, (actorSt t0 i).wc, (actorSt t0 i).wl, t0.stopped.toNat, (s.grove s.huash.sel).integrity]) ∧
      (printed (.msShow site) [t0.ms.cl, t0.ms.snan.toNat, t0.ms.inf.toNat, t0.ms.nan.toNat, t0.ms.psp.toNat]) ∧
      (privPath s = false → (t0.slots[n]).gen ≠ t0.gen → printed (.slotShow [(site, n.val)])
        [((t0.slots[n]).claim.map (· + 1)).getD 0, (t0.slots[n]).pending, (t0.slots[n]).use, 0]) ∧
      (t0.cfg.actors[i] = some a → printed (.dstateShow site i.val) [a.kh.toNat, a.kl.toNat, (actorSt t0 i).ctr.toNat / 2 ^ 64, (actorSt t0 i).ctr.toNat % 2 ^ 64])) ∧
    (selThread s th = some q → privPath s = false → printed (.regsShow th [r.val]) [((s.thr q).reg r).toNat])) ∧
 (∀ (s : State) (id : Nat) (on : BreakOn) (of k : TraceOf), s.mgmt.ready = true →
    Runs (.groveSelect id) s (fun t => t = { s with huash := { s.huash with attached := true, sel := id } }) ∧
    Runs (.breakOn on) s (fun t => ∃ base, t = { s with huash := { s.huash with attached := true, breaks := s.huash.breaks ++ [(match on with | .ember (some g) => g | _ => s.huash.sel, on, base)] } }) ∧
    (traceSite s of = some k → Runs (.traceArm of) s (fun t =>
      t = { s with huash := { s.huash with attached := true, traces := s.huash.traces ++ [(s.now + 1, k)] } })))

/-- R213, R351, R356, R358: a breakpoint that holds, and has not stopped its grove already while it held, halts its grove and prints the cycle, the
grove and what it found; it stands, and waits until it holds anew (the model's reading, log entry 44); with none the grove runs on. go lets every
halted grove go on as it stood (log entry 44), and what its tiles held in staging leaves. R213, R354, R356: in cycles and by a core's pc: a
breakpoint on a cycle holds in that cycle, one on a thread's pc when it is there, one on an ember when every marker is in. -/
def Obligations.BreakpointsHalt : Prop :=
 (∀ (s : State) (gid : Nat),
    let g := s.grove gid
    let holds := fun (b : Nat × BreakOn × Nat) => b.1 = gid ∧ (gid, b.2.1) ∉ s.huash.hot ∧ (breakHit s gid b.2).isSome = true
    (g.live = true → g.run ≠ .halted → (∃ b ∈ s.huash.breaks, holds b) → Runs (.breakpointHalt gid) s (fun t => (t.grove gid).run = .halted ∧
      (t.grove gid).was = g.run ∧ (t.grove gid).haltedAt = some s.now ∧ t.huash.breaks.map (fun b => (b.1, b.2.1)) = s.huash.breaks.map (fun b => (b.1, b.2.1)) ∧
      (∃ b ∈ s.huash.breaks, ∃ vals, holds b ∧ breakHit s gid b.2 = some vals ∧ t.huash.hot = (gid, b.2.1) :: s.huash.hot ∧
        t.huash.lines = s.huash.lines ++ [{ cmd := "stopped", vals := s.now :: gid :: vals }]) ∧ t.threads = s.threads ∧ t.tiles = s.tiles ∧
      SameMemory s t ∧ ∀ k, k ≠ gid → t.grove k = s.grove k)) ∧
    ((g.live = false ∨ g.run = .halted ∨ ∀ b ∈ s.huash.breaks, ¬holds b) → Runs (.breakpointHalt gid) s (· = s)) ∧
    (s.mgmt.ready = true → g.live = true → g.run = .halted → Runs .go s (fun t =>
      t.grove gid = { g with run := g.was, haltedAt := none } ∧ t.threads = s.threads ∧ SameMemory s t ∧
      (∀ k, (s.grove k).live = false ∨ (s.grove k).run ≠ .halted → t.grove k = s.grove k) ∧
      (∀ x, t.tile x = { s.tile x with outs := (t.tile x).outs, qbusy := (t.tile x).qbusy, qwait := (t.tile x).qwait }) ∧
      ((g.was = .running ∨ g.was = .splicing) → ∀ x ∈ g.tiles, s.groveOfSite x = some gid →
        (∀ p : Fin 4, ((t.tile x).outs[p]).waiting = []) ∧ ∀ q : Fin 4, (t.tile x).qwait[q] = [])))) ∧
 (∀ (s : State) (gid n th a q : Nat) (o : Option Nat),
    (s.now ≠ n → breakHit s gid (.cycle n, 0) = none) ∧ (s.now = n → breakHit s gid (.cycle n, 0) = some [8, n]) ∧
    ((s.grove gid).threads[th]? = some q → breakHit s gid (.pc th a, 0) = (if (s.thr q).pc = a then some [6, th, a] else none)) ∧
    (breakHit s gid (.ember o, 0) = (if (s.grove gid).run = .embering ∧ markersIn s (s.grove gid) = true then some [2, gid] else none)))

/-- R8, R116, R152, R236, R240: a core's turn issues, of the thread R152 picks, the instruction that the word at its pc decodes to: it is exec of it,
with that thread in focus and its gives that have retired in its FIFOs; a word that does not decode (R240), one that is uncorrectable (R194), or a
pc past the code store, traps it precisely. A tile's turn is exec of the word at its firing's pc; an event's turn is exec of that event. The
schedule is the model's choice (log entry 1): a listed turn is taken in its cycle; before a cycle ends, a turn that a tile owes in it, and then a
halt at a breakpoint that holds, comes first; with no turn listed, the default agent has the turn after the cycle. -/
def Obligations.StepRunsTheDecodedInstruction : Prop :=
  let acts := fun (who : Agent) (s0 : State) (r : Host.Outcome State Fault Refusal) =>
    (∀ c q, who = .core c → c < 480 → (s0.coreOf c).issuedAt ≠ some s0.now → pickThread s0 c = some q → ∃ s1 : State,
      q / 8 = c ∧ s1.focus = q ∧ s1 = { s0 with focus := q, threads := s1.threads, cores := s1.cores } ∧
      s1.thr q = ({ s0.thr q with status := .ready, since := s0.now + 1 } : Thread).ripen s0.now ∧ s1.coreOf c = { s0.coreOf c with issuedAt := some s0.now } ∧
      (∀ p, p ≠ q → s1.thr p = { s0.thr p with status := (s1.thr p).status, since := (s1.thr p).since }) ∧ (∀ d, d ≠ c → s1.coreOf d = s0.coreOf d) ∧
      let whole := (s0.coreOf c).badCode.contains ((s0.thr q).pc / 4) = false
      ((s0.thr q).pc < 0x10000 → whole → ∀ i, decodeControl (codeWord s0 c (s0.thr q).pc) = .ok i → r = exec i s1) ∧
      ((s0.thr q).pc < 0x10000 → ¬whole → r = .next (trapMe s1 0x3C1 0)) ∧
      ((s0.thr q).pc < 0x10000 → whole → ∀ e, decodeControl (codeWord s0 c (s0.thr q).pc) = .error e → r = .next (trapMe s1 e 0)) ∧
      (0x10000 ≤ (s0.thr q).pc → r = .next (trapMe s1 0x064 0))) ∧
    (∀ x f, who = .tile x → (s0.tile x).firing = some f → f.busyTo ≤ s0.now → atBrk s0 x (s0.tile x) f = false →
      (f.pc < 512 → ∀ i, decodeTile (tileWord (s0.tile x) f.pc) = .ok i → r = exec i { s0 with site := x }) ∧
      (f.pc < 512 → ∀ e, decodeTile (tileWord (s0.tile x) f.pc) = .error e → r = .next (firingFault s0 x (s0.tile x) f e 0 0)) ∧
      (512 ≤ f.pc → r = .next (firingFault s0 x (s0.tile x) f 0x041 0 0))) ∧
    (∀ c, who = .core c → 480 ≤ c → r = .fault .noSuchAgent) ∧
    (∀ i, who = .event i → i.isEvent = true → r = exec i s0)
  ∀ (s : State) (n : Nat) (who : Agent) (rest : List Turn),
    (s.agenda = { dt := 0, who := who } :: rest → acts who { s with agenda := rest } (step s)) ∧
    (forced s = none →
      (s.agenda = { dt := 1, who := who } :: rest → acts who (advance { s with agenda := rest }) (step s)) ∧
      (s.agenda = { dt := n + 2, who := who } :: rest → step s = .next (advance { s with agenda := { dt := n + 1, who := who } :: rest })) ∧
      (s.agenda = [] → acts (defaultAgent (advance s)) (advance s) (step s))) ∧
    (s.agenda = [] ∨ s.agenda = { dt := n + 1, who := who } :: rest →
      (∀ a, owed s = some a → acts a s (step s)) ∧
      (owed s = none → ∀ k, s.groves.find? (fun k => (breakDue s k.1).isSome) = some k → step s = execBreakpointHalt k.1 s))

/-- R202, R207: after reset the management registers hold their reset values, no grove is loaded, every thread is free, nothing is on its way, and
bring-up has not begun. (Log entries 2 and 3, the model's choice: memory reads zero, and every register without a reset value in the spec is zero.)
Main memory is in its canonical form. -/
def Obligations.ResetState : Prop :=
  let m := State.reset.mgmt
  (m.stage = 0 ∧ m.fail = 0 ∧ m.ready = false ∧ m.plimit = 3600 ∧ m.cmd = 0 ∧ m.busy = false ∧ m.result = 0 ∧ m.evBase = 0 ∧ m.evSize = 0 ∧ m.evHead = 0 ∧ m.evTail = 0 ∧
    (∀ i : Fin 6, m.carg[i] = 0) ∧ ∀ i : Fin 16, m.hwin[i] = (0, 0)) ∧
  (∀ g, (State.reset.grove g).live = false) ∧ (∀ q, (State.reset.thr q).status = .free ∧ ∀ r, (State.reset.thr q).reg r = 0) ∧
  (∀ c, (State.reset.coreOf c).grove = none) ∧ (State.reset.reqs = [] ∧ State.reset.packets = [] ∧ State.reset.flights = [] ∧ State.reset.ops = [] ∧ State.reset.saves = []) ∧
  (∀ key a, State.reset.byteAt key a = 0 ∧ State.reset.isFull a = false) ∧ Inv State.reset ∧ goesOn State.reset

/-- Log entry 2, R12, R21: every step that answers a next state keeps main memory in its canonical form: addresses strictly rising, and no entry equal
to what an unlisted address reads as. -/
def Obligations.InvKeptByStep : Prop :=
  ∀ s t : State, Inv s → step s = .next t → Inv t

/-- R231-R240, R263, R267, R278, R281, R284, R289: every well-formed instruction, with every operand at every value its encoding admits, decodes from
its own word; and every word that decodes to an assigned instruction is the word of exactly that well-formed instruction. -/
def Obligations.DecodeEncode : Prop :=
  (∀ i : Instr, i.wf = true → decodeBytes (encode i) = some (.ok i)) ∧
  ∀ (bs : List Byte) (i : Instr), decodeBytes bs = some (.ok i) → i ≠ .unassignedControlOpcode → i ≠ .unassignedTileOpcode → i.wf = true ∧ encode i = bs

/-- R240, R237, R267, R285, R289: the words that the spec writes out decode to the instructions it writes beside them. -/
def Obligations.DecodingRightWords : Prop :=
  decodeTableWord 32 0x2C248010 = some (.ldD 2 9 16) ∧ decodeTableWord 32 0xFE000000 = some .prefixWord ∧ decodeTableWord 32 0x04320000 = some (.addi 3 4 0) ∧
  decodeTableWord 32 0xFD200000 = some (.markTake 1) ∧
  decodeTableWord 64 0x5900000000000000 = some .nop ∧ decodeTableWord 64 0x5600000000000000 = some .endFiring ∧
  decodeTableWord 64 0x5500000000000803 = some (.loop 0 1 3) ∧ decodeTableWord 64 0x6000000003000000 = some (.claim 3) ∧
  decodeTableWord 64 0x6200000000200100 = some (.mma ⟨0, 0, 1, 0, 256⟩) ∧ decodeTableWord 64 0x63000000007F8028 = some (.mmaC ⟨0, 0, 0, 255, 5⟩) ∧
  decodeTableWord 64 0x6400000000200000 = some (.mmas 0 0 1) ∧ decodeTableWord 64 0x6500000008000000 = some (.azero 1) ∧
  decodeTableWord 64 0x6600000010001000 = some (.aload 2 0x1000) ∧ decodeTableWord 64 0x6700006008000000 = some (.drain 1 3) ∧
  decodeTableWord 64 0x6700000004000000 = some (.drainSteer 0) ∧ decodeTableWord 64 0x680000000A000000 = some (.steer 1 1) ∧
  decodeTableWord 64 0x6900000002000000 = some (.cutb 2 ⟨0, false⟩) ∧ decodeTableWord 64 0x6A00000000000001 = some (.mstat 1 ⟨0, false⟩) ∧
  decodeTableWord 64 0x6B00000000240000 = some (.mwait ⟨1, 2, 0, ⟨0, false⟩⟩)
end

