-- ==== Sys2Proof/Laws/State.lean ====
section
/-! SUPPORT. One lemma for each field of State, and each accessor, under each update of a part of it; what a table reads after an entry is put; and one lemma for each
field of a thread under the updates that every instruction shares. -/

namespace Sys2Proof.Machine

/-! ## Tables -/

@[simp] theorem tabFind_put {α : Type} (t : Tab α) (k : Nat) (v : α) : tabFind (tabPut t k v) k = some v := by
  induction t with
  | nil => simp [tabPut, tabFind]
  | cons p rest ih =>
    obtain ⟨q, w⟩ := p
    simp only [tabPut]
    split
    · simp [tabFind]
    · split
      · simp [tabFind]
      · simp [tabFind, ih]; omega

theorem tabFind_put_ne {α : Type} (t : Tab α) (k q : Nat) (v : α) (h : q ≠ k) : tabFind (tabPut t k v) q = tabFind t q := by
  induction t with
  | nil => simp [tabPut, tabFind, h.symm]
  | cons p rest ih =>
    obtain ⟨r, w⟩ := p
    simp only [tabPut]
    split
    · simp [tabFind, h.symm]
    · split
      · rename_i e; subst e; simp [tabFind, h.symm]
      · simp [tabFind, ih]

@[simp] theorem tabGet_put {α : Type} (t : Tab α) (k : Nat) (v d : α) : tabGet (tabPut t k v) k d = v := by simp [tabGet]

theorem tabGet_put_ne {α : Type} (t : Tab α) (k q : Nat) (v d : α) (h : q ≠ k) : tabGet (tabPut t k v) q d = tabGet t q d := by
  simp [tabGet, tabFind_put_ne t k q v h]

theorem at_get {α : Type} {n : Nat} (v : Vector α n) (i : Nat) (f : α → α) (j : Nat) (h : j < n) :
    (at_ v i f)[j] = if j = i then f v[j] else v[j] := by simp [at_]

/-! ## State -/

@[simp] theorem State.setThr_now (s : State) (t : Nat) (x : Thread) : (s.setThr t x).now = s.now := rfl
@[simp] theorem State.setThr_agenda (s : State) (t : Nat) (x : Thread) : (s.setThr t x).agenda = s.agenda := rfl
@[simp] theorem State.setThr_focus (s : State) (t : Nat) (x : Thread) : (s.setThr t x).focus = s.focus := rfl
@[simp] theorem State.setThr_site (s : State) (t : Nat) (x : Thread) : (s.setThr t x).site = s.site := rfl
@[simp] theorem State.setThr_fresh (s : State) (t : Nat) (x : Thread) : (s.setThr t x).fresh = s.fresh := rfl
@[simp] theorem State.setThr_nextId (s : State) (t : Nat) (x : Thread) : (s.setThr t x).nextId = s.nextId := rfl
@[simp] theorem State.setThr_mem (s : State) (t : Nat) (x : Thread) : (s.setThr t x).mem = s.mem := rfl
@[simp] theorem State.setThr_blockKey (s : State) (t : Nat) (x : Thread) : (s.setThr t x).blockKey = s.blockKey := rfl
@[simp] theorem State.setThr_full (s : State) (t : Nat) (x : Thread) : (s.setThr t x).full = s.full := rfl
@[simp] theorem State.setThr_badLine (s : State) (t : Nat) (x : Thread) : (s.setThr t x).badLine = s.badLine := rfl
@[simp] theorem State.setThr_reqs (s : State) (t : Nat) (x : Thread) : (s.setThr t x).reqs = s.reqs := rfl
@[simp] theorem State.setThr_ops (s : State) (t : Nat) (x : Thread) : (s.setThr t x).ops = s.ops := rfl
@[simp] theorem State.setThr_smoves (s : State) (t : Nat) (x : Thread) : (s.setThr t x).smoves = s.smoves := rfl
@[simp] theorem State.setThr_halos (s : State) (t : Nat) (x : Thread) : (s.setThr t x).halos = s.halos := rfl
@[simp] theorem State.setThr_tinvs (s : State) (t : Nat) (x : Thread) : (s.setThr t x).tinvs = s.tinvs := rfl
@[simp] theorem State.setThr_migs (s : State) (t : Nat) (x : Thread) : (s.setThr t x).migs = s.migs := rfl
@[simp] theorem State.setThr_floors (s : State) (t : Nat) (x : Thread) : (s.setThr t x).floors = s.floors := rfl
@[simp] theorem State.setThr_migDone (s : State) (t : Nat) (x : Thread) : (s.setThr t x).migDone = s.migDone := rfl
@[simp] theorem State.setThr_packets (s : State) (t : Nat) (x : Thread) : (s.setThr t x).packets = s.packets := rfl
@[simp] theorem State.setThr_trims (s : State) (t : Nat) (x : Thread) : (s.setThr t x).trims = s.trims := rfl
@[simp] theorem State.setThr_permits (s : State) (t : Nat) (x : Thread) : (s.setThr t x).permits = s.permits := rfl
@[simp] theorem State.setThr_links (s : State) (t : Nat) (x : Thread) : (s.setThr t x).links = s.links := rfl
@[simp] theorem State.setThr_flights (s : State) (t : Nat) (x : Thread) : (s.setThr t x).flights = s.flights := rfl
@[simp] theorem State.setThr_ctls (s : State) (t : Nat) (x : Thread) : (s.setThr t x).ctls = s.ctls := rfl
@[simp] theorem State.setThr_groves (s : State) (t : Nat) (x : Thread) : (s.setThr t x).groves = s.groves := rfl
@[simp] theorem State.setThr_saves (s : State) (t : Nat) (x : Thread) : (s.setThr t x).saves = s.saves := rfl
@[simp] theorem State.setThr_saveCount (s : State) (t : Nat) (x : Thread) : (s.setThr t x).saveCount = s.saveCount := rfl
@[simp] theorem State.setThr_cores (s : State) (t : Nat) (x : Thread) : (s.setThr t x).cores = s.cores := rfl
@[simp] theorem State.setThr_tiles (s : State) (t : Nat) (x : Thread) : (s.setThr t x).tiles = s.tiles := rfl
@[simp] theorem State.setThr_slices (s : State) (t : Nat) (x : Thread) : (s.setThr t x).slices = s.slices := rfl
@[simp] theorem State.setThr_dies (s : State) (t : Nat) (x : Thread) : (s.setThr t x).dies = s.dies := rfl
@[simp] theorem State.setThr_mgmt (s : State) (t : Nat) (x : Thread) : (s.setThr t x).mgmt = s.mgmt := rfl
@[simp] theorem State.setThr_devTable (s : State) (t : Nat) (x : Thread) : (s.setThr t x).devTable = s.devTable := rfl
@[simp] theorem State.setThr_linkDown (s : State) (t : Nat) (x : Thread) : (s.setThr t x).linkDown = s.linkDown := rfl
@[simp] theorem State.setThr_huash (s : State) (t : Nat) (x : Thread) : (s.setThr t x).huash = s.huash := rfl
@[simp] theorem State.setThr_coreOf (s : State) (t : Nat) (x : Thread) (q : Nat) : (s.setThr t x).coreOf q = s.coreOf q := rfl
@[simp] theorem State.setThr_tile (s : State) (t : Nat) (x : Thread) (q : Nat) : (s.setThr t x).tile q = s.tile q := rfl
@[simp] theorem State.setThr_slice (s : State) (t : Nat) (x : Thread) (q : Nat) : (s.setThr t x).slice q = s.slice q := rfl
@[simp] theorem State.setThr_grove (s : State) (t : Nat) (x : Thread) (q : Nat) : (s.setThr t x).grove q = s.grove q := rfl
@[simp] theorem State.setThr_die (s : State) (t : Nat) (x : Thread) (q : Nat) : (s.setThr t x).die q = s.die q := rfl
@[simp] theorem State.setThr_groveOfCluster (s : State) (t : Nat) (x : Thread) (q : Nat) : (s.setThr t x).groveOfCluster q = s.groveOfCluster q := rfl
@[simp] theorem State.setThr_groveOfThread (s : State) (t : Nat) (x : Thread) (q : Nat) : (s.setThr t x).groveOfThread q = s.groveOfThread q := rfl
@[simp] theorem State.setThr_groveOfSite (s : State) (t : Nat) (x : Thread) (q : Nat) : (s.setThr t x).groveOfSite q = s.groveOfSite q := rfl
@[simp] theorem State.setThr_dev (s : State) (t : Nat) (x : Thread) : (s.setThr t x).dev = s.dev := rfl
@[simp] theorem State.setThr_byteAt (s : State) (t : Nat) (x : Thread) (key a : Nat) : (s.setThr t x).byteAt key a = s.byteAt key a := rfl
@[simp] theorem State.setThr_isFull (s : State) (t : Nat) (x : Thread) (a : Nat) : (s.setThr t x).isFull a = s.isFull a := rfl
@[simp] theorem State.setMe_now (s : State) (x : Thread) : (s.setMe x).now = s.now := rfl
@[simp] theorem State.setMe_agenda (s : State) (x : Thread) : (s.setMe x).agenda = s.agenda := rfl
@[simp] theorem State.setMe_focus (s : State) (x : Thread) : (s.setMe x).focus = s.focus := rfl
@[simp] theorem State.setMe_site (s : State) (x : Thread) : (s.setMe x).site = s.site := rfl
@[simp] theorem State.setMe_fresh (s : State) (x : Thread) : (s.setMe x).fresh = s.fresh := rfl
@[simp] theorem State.setMe_nextId (s : State) (x : Thread) : (s.setMe x).nextId = s.nextId := rfl
@[simp] theorem State.setMe_mem (s : State) (x : Thread) : (s.setMe x).mem = s.mem := rfl
@[simp] theorem State.setMe_blockKey (s : State) (x : Thread) : (s.setMe x).blockKey = s.blockKey := rfl
@[simp] theorem State.setMe_full (s : State) (x : Thread) : (s.setMe x).full = s.full := rfl
@[simp] theorem State.setMe_badLine (s : State) (x : Thread) : (s.setMe x).badLine = s.badLine := rfl
@[simp] theorem State.setMe_reqs (s : State) (x : Thread) : (s.setMe x).reqs = s.reqs := rfl
@[simp] theorem State.setMe_ops (s : State) (x : Thread) : (s.setMe x).ops = s.ops := rfl
@[simp] theorem State.setMe_smoves (s : State) (x : Thread) : (s.setMe x).smoves = s.smoves := rfl
@[simp] theorem State.setMe_halos (s : State) (x : Thread) : (s.setMe x).halos = s.halos := rfl
@[simp] theorem State.setMe_tinvs (s : State) (x : Thread) : (s.setMe x).tinvs = s.tinvs := rfl
@[simp] theorem State.setMe_migs (s : State) (x : Thread) : (s.setMe x).migs = s.migs := rfl
@[simp] theorem State.setMe_floors (s : State) (x : Thread) : (s.setMe x).floors = s.floors := rfl
@[simp] theorem State.setMe_migDone (s : State) (x : Thread) : (s.setMe x).migDone = s.migDone := rfl
@[simp] theorem State.setMe_packets (s : State) (x : Thread) : (s.setMe x).packets = s.packets := rfl
@[simp] theorem State.setMe_trims (s : State) (x : Thread) : (s.setMe x).trims = s.trims := rfl
@[simp] theorem State.setMe_permits (s : State) (x : Thread) : (s.setMe x).permits = s.permits := rfl
@[simp] theorem State.setMe_links (s : State) (x : Thread) : (s.setMe x).links = s.links := rfl
@[simp] theorem State.setMe_flights (s : State) (x : Thread) : (s.setMe x).flights = s.flights := rfl
@[simp] theorem State.setMe_ctls (s : State) (x : Thread) : (s.setMe x).ctls = s.ctls := rfl
@[simp] theorem State.setMe_groves (s : State) (x : Thread) : (s.setMe x).groves = s.groves := rfl
@[simp] theorem State.setMe_saves (s : State) (x : Thread) : (s.setMe x).saves = s.saves := rfl
@[simp] theorem State.setMe_saveCount (s : State) (x : Thread) : (s.setMe x).saveCount = s.saveCount := rfl
@[simp] theorem State.setMe_cores (s : State) (x : Thread) : (s.setMe x).cores = s.cores := rfl
@[simp] theorem State.setMe_tiles (s : State) (x : Thread) : (s.setMe x).tiles = s.tiles := rfl
@[simp] theorem State.setMe_slices (s : State) (x : Thread) : (s.setMe x).slices = s.slices := rfl
@[simp] theorem State.setMe_dies (s : State) (x : Thread) : (s.setMe x).dies = s.dies := rfl
@[simp] theorem State.setMe_mgmt (s : State) (x : Thread) : (s.setMe x).mgmt = s.mgmt := rfl
@[simp] theorem State.setMe_devTable (s : State) (x : Thread) : (s.setMe x).devTable = s.devTable := rfl
@[simp] theorem State.setMe_linkDown (s : State) (x : Thread) : (s.setMe x).linkDown = s.linkDown := rfl
@[simp] theorem State.setMe_huash (s : State) (x : Thread) : (s.setMe x).huash = s.huash := rfl
@[simp] theorem State.setMe_coreOf (s : State) (x : Thread) (q : Nat) : (s.setMe x).coreOf q = s.coreOf q := rfl
@[simp] theorem State.setMe_tile (s : State) (x : Thread) (q : Nat) : (s.setMe x).tile q = s.tile q := rfl
@[simp] theorem State.setMe_slice (s : State) (x : Thread) (q : Nat) : (s.setMe x).slice q = s.slice q := rfl
@[simp] theorem State.setMe_grove (s : State) (x : Thread) (q : Nat) : (s.setMe x).grove q = s.grove q := rfl
@[simp] theorem State.setMe_die (s : State) (x : Thread) (q : Nat) : (s.setMe x).die q = s.die q := rfl
@[simp] theorem State.setMe_groveOfCluster (s : State) (x : Thread) (q : Nat) : (s.setMe x).groveOfCluster q = s.groveOfCluster q := rfl
@[simp] theorem State.setMe_groveOfThread (s : State) (x : Thread) (q : Nat) : (s.setMe x).groveOfThread q = s.groveOfThread q := rfl
@[simp] theorem State.setMe_groveOfSite (s : State) (x : Thread) (q : Nat) : (s.setMe x).groveOfSite q = s.groveOfSite q := rfl
@[simp] theorem State.setMe_dev (s : State) (x : Thread) : (s.setMe x).dev = s.dev := rfl
@[simp] theorem State.setMe_byteAt (s : State) (x : Thread) (key a : Nat) : (s.setMe x).byteAt key a = s.byteAt key a := rfl
@[simp] theorem State.setMe_isFull (s : State) (x : Thread) (a : Nat) : (s.setMe x).isFull a = s.isFull a := rfl
@[simp] theorem State.setCore_now (s : State) (c : Nat) (x : Core) : (s.setCore c x).now = s.now := rfl
@[simp] theorem State.setCore_agenda (s : State) (c : Nat) (x : Core) : (s.setCore c x).agenda = s.agenda := rfl
@[simp] theorem State.setCore_focus (s : State) (c : Nat) (x : Core) : (s.setCore c x).focus = s.focus := rfl
@[simp] theorem State.setCore_site (s : State) (c : Nat) (x : Core) : (s.setCore c x).site = s.site := rfl
@[simp] theorem State.setCore_fresh (s : State) (c : Nat) (x : Core) : (s.setCore c x).fresh = s.fresh := rfl
@[simp] theorem State.setCore_nextId (s : State) (c : Nat) (x : Core) : (s.setCore c x).nextId = s.nextId := rfl
@[simp] theorem State.setCore_mem (s : State) (c : Nat) (x : Core) : (s.setCore c x).mem = s.mem := rfl
@[simp] theorem State.setCore_blockKey (s : State) (c : Nat) (x : Core) : (s.setCore c x).blockKey = s.blockKey := rfl
@[simp] theorem State.setCore_full (s : State) (c : Nat) (x : Core) : (s.setCore c x).full = s.full := rfl
@[simp] theorem State.setCore_badLine (s : State) (c : Nat) (x : Core) : (s.setCore c x).badLine = s.badLine := rfl
@[simp] theorem State.setCore_reqs (s : State) (c : Nat) (x : Core) : (s.setCore c x).reqs = s.reqs := rfl
@[simp] theorem State.setCore_ops (s : State) (c : Nat) (x : Core) : (s.setCore c x).ops = s.ops := rfl
@[simp] theorem State.setCore_smoves (s : State) (c : Nat) (x : Core) : (s.setCore c x).smoves = s.smoves := rfl
@[simp] theorem State.setCore_halos (s : State) (c : Nat) (x : Core) : (s.setCore c x).halos = s.halos := rfl
@[simp] theorem State.setCore_tinvs (s : State) (c : Nat) (x : Core) : (s.setCore c x).tinvs = s.tinvs := rfl
@[simp] theorem State.setCore_migs (s : State) (c : Nat) (x : Core) : (s.setCore c x).migs = s.migs := rfl
@[simp] theorem State.setCore_floors (s : State) (c : Nat) (x : Core) : (s.setCore c x).floors = s.floors := rfl
@[simp] theorem State.setCore_migDone (s : State) (c : Nat) (x : Core) : (s.setCore c x).migDone = s.migDone := rfl
@[simp] theorem State.setCore_packets (s : State) (c : Nat) (x : Core) : (s.setCore c x).packets = s.packets := rfl
@[simp] theorem State.setCore_trims (s : State) (c : Nat) (x : Core) : (s.setCore c x).trims = s.trims := rfl
@[simp] theorem State.setCore_permits (s : State) (c : Nat) (x : Core) : (s.setCore c x).permits = s.permits := rfl
@[simp] theorem State.setCore_links (s : State) (c : Nat) (x : Core) : (s.setCore c x).links = s.links := rfl
@[simp] theorem State.setCore_flights (s : State) (c : Nat) (x : Core) : (s.setCore c x).flights = s.flights := rfl
@[simp] theorem State.setCore_ctls (s : State) (c : Nat) (x : Core) : (s.setCore c x).ctls = s.ctls := rfl
@[simp] theorem State.setCore_groves (s : State) (c : Nat) (x : Core) : (s.setCore c x).groves = s.groves := rfl
@[simp] theorem State.setCore_saves (s : State) (c : Nat) (x : Core) : (s.setCore c x).saves = s.saves := rfl
@[simp] theorem State.setCore_saveCount (s : State) (c : Nat) (x : Core) : (s.setCore c x).saveCount = s.saveCount := rfl
@[simp] theorem State.setCore_threads (s : State) (c : Nat) (x : Core) : (s.setCore c x).threads = s.threads := rfl
@[simp] theorem State.setCore_tiles (s : State) (c : Nat) (x : Core) : (s.setCore c x).tiles = s.tiles := rfl
@[simp] theorem State.setCore_slices (s : State) (c : Nat) (x : Core) : (s.setCore c x).slices = s.slices := rfl
@[simp] theorem State.setCore_dies (s : State) (c : Nat) (x : Core) : (s.setCore c x).dies = s.dies := rfl
@[simp] theorem State.setCore_mgmt (s : State) (c : Nat) (x : Core) : (s.setCore c x).mgmt = s.mgmt := rfl
@[simp] theorem State.setCore_devTable (s : State) (c : Nat) (x : Core) : (s.setCore c x).devTable = s.devTable := rfl
@[simp] theorem State.setCore_linkDown (s : State) (c : Nat) (x : Core) : (s.setCore c x).linkDown = s.linkDown := rfl
@[simp] theorem State.setCore_huash (s : State) (c : Nat) (x : Core) : (s.setCore c x).huash = s.huash := rfl
@[simp] theorem State.setCore_thr (s : State) (c : Nat) (x : Core) (q : Nat) : (s.setCore c x).thr q = s.thr q := rfl
@[simp] theorem State.setCore_tile (s : State) (c : Nat) (x : Core) (q : Nat) : (s.setCore c x).tile q = s.tile q := rfl
@[simp] theorem State.setCore_slice (s : State) (c : Nat) (x : Core) (q : Nat) : (s.setCore c x).slice q = s.slice q := rfl
@[simp] theorem State.setCore_grove (s : State) (c : Nat) (x : Core) (q : Nat) : (s.setCore c x).grove q = s.grove q := rfl
@[simp] theorem State.setCore_die (s : State) (c : Nat) (x : Core) (q : Nat) : (s.setCore c x).die q = s.die q := rfl
@[simp] theorem State.setCore_me (s : State) (c : Nat) (x : Core) : (s.setCore c x).me = s.me := rfl
@[simp] theorem State.setCore_dev (s : State) (c : Nat) (x : Core) : (s.setCore c x).dev = s.dev := rfl
@[simp] theorem State.setCore_byteAt (s : State) (c : Nat) (x : Core) (key a : Nat) : (s.setCore c x).byteAt key a = s.byteAt key a := rfl
@[simp] theorem State.setCore_isFull (s : State) (c : Nat) (x : Core) (a : Nat) : (s.setCore c x).isFull a = s.isFull a := rfl
@[simp] theorem State.setTile_now (s : State) (y : Nat) (x : Tile) : (s.setTile y x).now = s.now := rfl
@[simp] theorem State.setTile_agenda (s : State) (y : Nat) (x : Tile) : (s.setTile y x).agenda = s.agenda := rfl
@[simp] theorem State.setTile_focus (s : State) (y : Nat) (x : Tile) : (s.setTile y x).focus = s.focus := rfl
@[simp] theorem State.setTile_site (s : State) (y : Nat) (x : Tile) : (s.setTile y x).site = s.site := rfl
@[simp] theorem State.setTile_fresh (s : State) (y : Nat) (x : Tile) : (s.setTile y x).fresh = s.fresh := rfl
@[simp] theorem State.setTile_nextId (s : State) (y : Nat) (x : Tile) : (s.setTile y x).nextId = s.nextId := rfl
@[simp] theorem State.setTile_mem (s : State) (y : Nat) (x : Tile) : (s.setTile y x).mem = s.mem := rfl
@[simp] theorem State.setTile_blockKey (s : State) (y : Nat) (x : Tile) : (s.setTile y x).blockKey = s.blockKey := rfl
@[simp] theorem State.setTile_full (s : State) (y : Nat) (x : Tile) : (s.setTile y x).full = s.full := rfl
@[simp] theorem State.setTile_badLine (s : State) (y : Nat) (x : Tile) : (s.setTile y x).badLine = s.badLine := rfl
@[simp] theorem State.setTile_reqs (s : State) (y : Nat) (x : Tile) : (s.setTile y x).reqs = s.reqs := rfl
@[simp] theorem State.setTile_ops (s : State) (y : Nat) (x : Tile) : (s.setTile y x).ops = s.ops := rfl
@[simp] theorem State.setTile_smoves (s : State) (y : Nat) (x : Tile) : (s.setTile y x).smoves = s.smoves := rfl
@[simp] theorem State.setTile_halos (s : State) (y : Nat) (x : Tile) : (s.setTile y x).halos = s.halos := rfl
@[simp] theorem State.setTile_tinvs (s : State) (y : Nat) (x : Tile) : (s.setTile y x).tinvs = s.tinvs := rfl
@[simp] theorem State.setTile_migs (s : State) (y : Nat) (x : Tile) : (s.setTile y x).migs = s.migs := rfl
@[simp] theorem State.setTile_floors (s : State) (y : Nat) (x : Tile) : (s.setTile y x).floors = s.floors := rfl
@[simp] theorem State.setTile_migDone (s : State) (y : Nat) (x : Tile) : (s.setTile y x).migDone = s.migDone := rfl
@[simp] theorem State.setTile_packets (s : State) (y : Nat) (x : Tile) : (s.setTile y x).packets = s.packets := rfl
@[simp] theorem State.setTile_trims (s : State) (y : Nat) (x : Tile) : (s.setTile y x).trims = s.trims := rfl
@[simp] theorem State.setTile_permits (s : State) (y : Nat) (x : Tile) : (s.setTile y x).permits = s.permits := rfl
@[simp] theorem State.setTile_links (s : State) (y : Nat) (x : Tile) : (s.setTile y x).links = s.links := rfl
@[simp] theorem State.setTile_flights (s : State) (y : Nat) (x : Tile) : (s.setTile y x).flights = s.flights := rfl
@[simp] theorem State.setTile_ctls (s : State) (y : Nat) (x : Tile) : (s.setTile y x).ctls = s.ctls := rfl
@[simp] theorem State.setTile_groves (s : State) (y : Nat) (x : Tile) : (s.setTile y x).groves = s.groves := rfl
@[simp] theorem State.setTile_saves (s : State) (y : Nat) (x : Tile) : (s.setTile y x).saves = s.saves := rfl
@[simp] theorem State.setTile_saveCount (s : State) (y : Nat) (x : Tile) : (s.setTile y x).saveCount = s.saveCount := rfl
@[simp] theorem State.setTile_cores (s : State) (y : Nat) (x : Tile) : (s.setTile y x).cores = s.cores := rfl
@[simp] theorem State.setTile_threads (s : State) (y : Nat) (x : Tile) : (s.setTile y x).threads = s.threads := rfl
@[simp] theorem State.setTile_slices (s : State) (y : Nat) (x : Tile) : (s.setTile y x).slices = s.slices := rfl
@[simp] theorem State.setTile_dies (s : State) (y : Nat) (x : Tile) : (s.setTile y x).dies = s.dies := rfl
@[simp] theorem State.setTile_mgmt (s : State) (y : Nat) (x : Tile) : (s.setTile y x).mgmt = s.mgmt := rfl
@[simp] theorem State.setTile_devTable (s : State) (y : Nat) (x : Tile) : (s.setTile y x).devTable = s.devTable := rfl
@[simp] theorem State.setTile_linkDown (s : State) (y : Nat) (x : Tile) : (s.setTile y x).linkDown = s.linkDown := rfl
@[simp] theorem State.setTile_huash (s : State) (y : Nat) (x : Tile) : (s.setTile y x).huash = s.huash := rfl
@[simp] theorem State.setTile_thr (s : State) (y : Nat) (x : Tile) (q : Nat) : (s.setTile y x).thr q = s.thr q := rfl
@[simp] theorem State.setTile_coreOf (s : State) (y : Nat) (x : Tile) (q : Nat) : (s.setTile y x).coreOf q = s.coreOf q := rfl
@[simp] theorem State.setTile_slice (s : State) (y : Nat) (x : Tile) (q : Nat) : (s.setTile y x).slice q = s.slice q := rfl
@[simp] theorem State.setTile_grove (s : State) (y : Nat) (x : Tile) (q : Nat) : (s.setTile y x).grove q = s.grove q := rfl
@[simp] theorem State.setTile_die (s : State) (y : Nat) (x : Tile) (q : Nat) : (s.setTile y x).die q = s.die q := rfl
@[simp] theorem State.setTile_me (s : State) (y : Nat) (x : Tile) : (s.setTile y x).me = s.me := rfl
@[simp] theorem State.setTile_groveOfCluster (s : State) (y : Nat) (x : Tile) (q : Nat) : (s.setTile y x).groveOfCluster q = s.groveOfCluster q := rfl
@[simp] theorem State.setTile_groveOfThread (s : State) (y : Nat) (x : Tile) (q : Nat) : (s.setTile y x).groveOfThread q = s.groveOfThread q := rfl
@[simp] theorem State.setTile_groveOfSite (s : State) (y : Nat) (x : Tile) (q : Nat) : (s.setTile y x).groveOfSite q = s.groveOfSite q := rfl
@[simp] theorem State.setTile_dev (s : State) (y : Nat) (x : Tile) : (s.setTile y x).dev = s.dev := rfl
@[simp] theorem State.setTile_byteAt (s : State) (y : Nat) (x : Tile) (key a : Nat) : (s.setTile y x).byteAt key a = s.byteAt key a := rfl
@[simp] theorem State.setTile_isFull (s : State) (y : Nat) (x : Tile) (a : Nat) : (s.setTile y x).isFull a = s.isFull a := rfl
@[simp] theorem State.setSlice_now (s : State) (y : Nat) (x : Slice) : (s.setSlice y x).now = s.now := rfl
@[simp] theorem State.setSlice_agenda (s : State) (y : Nat) (x : Slice) : (s.setSlice y x).agenda = s.agenda := rfl
@[simp] theorem State.setSlice_focus (s : State) (y : Nat) (x : Slice) : (s.setSlice y x).focus = s.focus := rfl
@[simp] theorem State.setSlice_site (s : State) (y : Nat) (x : Slice) : (s.setSlice y x).site = s.site := rfl
@[simp] theorem State.setSlice_fresh (s : State) (y : Nat) (x : Slice) : (s.setSlice y x).fresh = s.fresh := rfl
@[simp] theorem State.setSlice_nextId (s : State) (y : Nat) (x : Slice) : (s.setSlice y x).nextId = s.nextId := rfl
@[simp] theorem State.setSlice_mem (s : State) (y : Nat) (x : Slice) : (s.setSlice y x).mem = s.mem := rfl
@[simp] theorem State.setSlice_blockKey (s : State) (y : Nat) (x : Slice) : (s.setSlice y x).blockKey = s.blockKey := rfl
@[simp] theorem State.setSlice_full (s : State) (y : Nat) (x : Slice) : (s.setSlice y x).full = s.full := rfl
@[simp] theorem State.setSlice_badLine (s : State) (y : Nat) (x : Slice) : (s.setSlice y x).badLine = s.badLine := rfl
@[simp] theorem State.setSlice_reqs (s : State) (y : Nat) (x : Slice) : (s.setSlice y x).reqs = s.reqs := rfl
@[simp] theorem State.setSlice_ops (s : State) (y : Nat) (x : Slice) : (s.setSlice y x).ops = s.ops := rfl
@[simp] theorem State.setSlice_smoves (s : State) (y : Nat) (x : Slice) : (s.setSlice y x).smoves = s.smoves := rfl
@[simp] theorem State.setSlice_halos (s : State) (y : Nat) (x : Slice) : (s.setSlice y x).halos = s.halos := rfl
@[simp] theorem State.setSlice_tinvs (s : State) (y : Nat) (x : Slice) : (s.setSlice y x).tinvs = s.tinvs := rfl
@[simp] theorem State.setSlice_migs (s : State) (y : Nat) (x : Slice) : (s.setSlice y x).migs = s.migs := rfl
@[simp] theorem State.setSlice_floors (s : State) (y : Nat) (x : Slice) : (s.setSlice y x).floors = s.floors := rfl
@[simp] theorem State.setSlice_migDone (s : State) (y : Nat) (x : Slice) : (s.setSlice y x).migDone = s.migDone := rfl
@[simp] theorem State.setSlice_packets (s : State) (y : Nat) (x : Slice) : (s.setSlice y x).packets = s.packets := rfl
@[simp] theorem State.setSlice_trims (s : State) (y : Nat) (x : Slice) : (s.setSlice y x).trims = s.trims := rfl
@[simp] theorem State.setSlice_permits (s : State) (y : Nat) (x : Slice) : (s.setSlice y x).permits = s.permits := rfl
@[simp] theorem State.setSlice_links (s : State) (y : Nat) (x : Slice) : (s.setSlice y x).links = s.links := rfl
@[simp] theorem State.setSlice_flights (s : State) (y : Nat) (x : Slice) : (s.setSlice y x).flights = s.flights := rfl
@[simp] theorem State.setSlice_ctls (s : State) (y : Nat) (x : Slice) : (s.setSlice y x).ctls = s.ctls := rfl
@[simp] theorem State.setSlice_groves (s : State) (y : Nat) (x : Slice) : (s.setSlice y x).groves = s.groves := rfl
@[simp] theorem State.setSlice_saves (s : State) (y : Nat) (x : Slice) : (s.setSlice y x).saves = s.saves := rfl
@[simp] theorem State.setSlice_saveCount (s : State) (y : Nat) (x : Slice) : (s.setSlice y x).saveCount = s.saveCount := rfl
@[simp] theorem State.setSlice_cores (s : State) (y : Nat) (x : Slice) : (s.setSlice y x).cores = s.cores := rfl
@[simp] theorem State.setSlice_threads (s : State) (y : Nat) (x : Slice) : (s.setSlice y x).threads = s.threads := rfl
@[simp] theorem State.setSlice_tiles (s : State) (y : Nat) (x : Slice) : (s.setSlice y x).tiles = s.tiles := rfl
@[simp] theorem State.setSlice_dies (s : State) (y : Nat) (x : Slice) : (s.setSlice y x).dies = s.dies := rfl
@[simp] theorem State.setSlice_mgmt (s : State) (y : Nat) (x : Slice) : (s.setSlice y x).mgmt = s.mgmt := rfl
@[simp] theorem State.setSlice_devTable (s : State) (y : Nat) (x : Slice) : (s.setSlice y x).devTable = s.devTable := rfl
@[simp] theorem State.setSlice_linkDown (s : State) (y : Nat) (x : Slice) : (s.setSlice y x).linkDown = s.linkDown := rfl
@[simp] theorem State.setSlice_huash (s : State) (y : Nat) (x : Slice) : (s.setSlice y x).huash = s.huash := rfl
@[simp] theorem State.setSlice_thr (s : State) (y : Nat) (x : Slice) (q : Nat) : (s.setSlice y x).thr q = s.thr q := rfl
@[simp] theorem State.setSlice_coreOf (s : State) (y : Nat) (x : Slice) (q : Nat) : (s.setSlice y x).coreOf q = s.coreOf q := rfl
@[simp] theorem State.setSlice_tile (s : State) (y : Nat) (x : Slice) (q : Nat) : (s.setSlice y x).tile q = s.tile q := rfl
@[simp] theorem State.setSlice_grove (s : State) (y : Nat) (x : Slice) (q : Nat) : (s.setSlice y x).grove q = s.grove q := rfl
@[simp] theorem State.setSlice_die (s : State) (y : Nat) (x : Slice) (q : Nat) : (s.setSlice y x).die q = s.die q := rfl
@[simp] theorem State.setSlice_me (s : State) (y : Nat) (x : Slice) : (s.setSlice y x).me = s.me := rfl
@[simp] theorem State.setSlice_groveOfCluster (s : State) (y : Nat) (x : Slice) (q : Nat) : (s.setSlice y x).groveOfCluster q = s.groveOfCluster q := rfl
@[simp] theorem State.setSlice_groveOfThread (s : State) (y : Nat) (x : Slice) (q : Nat) : (s.setSlice y x).groveOfThread q = s.groveOfThread q := rfl
@[simp] theorem State.setSlice_groveOfSite (s : State) (y : Nat) (x : Slice) (q : Nat) : (s.setSlice y x).groveOfSite q = s.groveOfSite q := rfl
@[simp] theorem State.setSlice_dev (s : State) (y : Nat) (x : Slice) : (s.setSlice y x).dev = s.dev := rfl
@[simp] theorem State.setSlice_byteAt (s : State) (y : Nat) (x : Slice) (key a : Nat) : (s.setSlice y x).byteAt key a = s.byteAt key a := rfl
@[simp] theorem State.setSlice_isFull (s : State) (y : Nat) (x : Slice) (a : Nat) : (s.setSlice y x).isFull a = s.isFull a := rfl
@[simp] theorem State.setGrove_now (s : State) (g : Nat) (x : Grove) : (s.setGrove g x).now = s.now := rfl
@[simp] theorem State.setGrove_agenda (s : State) (g : Nat) (x : Grove) : (s.setGrove g x).agenda = s.agenda := rfl
@[simp] theorem State.setGrove_focus (s : State) (g : Nat) (x : Grove) : (s.setGrove g x).focus = s.focus := rfl
@[simp] theorem State.setGrove_site (s : State) (g : Nat) (x : Grove) : (s.setGrove g x).site = s.site := rfl
@[simp] theorem State.setGrove_fresh (s : State) (g : Nat) (x : Grove) : (s.setGrove g x).fresh = s.fresh := rfl
@[simp] theorem State.setGrove_nextId (s : State) (g : Nat) (x : Grove) : (s.setGrove g x).nextId = s.nextId := rfl
@[simp] theorem State.setGrove_mem (s : State) (g : Nat) (x : Grove) : (s.setGrove g x).mem = s.mem := rfl
@[simp] theorem State.setGrove_blockKey (s : State) (g : Nat) (x : Grove) : (s.setGrove g x).blockKey = s.blockKey := rfl
@[simp] theorem State.setGrove_full (s : State) (g : Nat) (x : Grove) : (s.setGrove g x).full = s.full := rfl
@[simp] theorem State.setGrove_badLine (s : State) (g : Nat) (x : Grove) : (s.setGrove g x).badLine = s.badLine := rfl
@[simp] theorem State.setGrove_reqs (s : State) (g : Nat) (x : Grove) : (s.setGrove g x).reqs = s.reqs := rfl
@[simp] theorem State.setGrove_ops (s : State) (g : Nat) (x : Grove) : (s.setGrove g x).ops = s.ops := rfl
@[simp] theorem State.setGrove_smoves (s : State) (g : Nat) (x : Grove) : (s.setGrove g x).smoves = s.smoves := rfl
@[simp] theorem State.setGrove_halos (s : State) (g : Nat) (x : Grove) : (s.setGrove g x).halos = s.halos := rfl
@[simp] theorem State.setGrove_tinvs (s : State) (g : Nat) (x : Grove) : (s.setGrove g x).tinvs = s.tinvs := rfl
@[simp] theorem State.setGrove_migs (s : State) (g : Nat) (x : Grove) : (s.setGrove g x).migs = s.migs := rfl
@[simp] theorem State.setGrove_floors (s : State) (g : Nat) (x : Grove) : (s.setGrove g x).floors = s.floors := rfl
@[simp] theorem State.setGrove_migDone (s : State) (g : Nat) (x : Grove) : (s.setGrove g x).migDone = s.migDone := rfl
@[simp] theorem State.setGrove_packets (s : State) (g : Nat) (x : Grove) : (s.setGrove g x).packets = s.packets := rfl
@[simp] theorem State.setGrove_trims (s : State) (g : Nat) (x : Grove) : (s.setGrove g x).trims = s.trims := rfl
@[simp] theorem State.setGrove_permits (s : State) (g : Nat) (x : Grove) : (s.setGrove g x).permits = s.permits := rfl
@[simp] theorem State.setGrove_links (s : State) (g : Nat) (x : Grove) : (s.setGrove g x).links = s.links := rfl
@[simp] theorem State.setGrove_flights (s : State) (g : Nat) (x : Grove) : (s.setGrove g x).flights = s.flights := rfl
@[simp] theorem State.setGrove_ctls (s : State) (g : Nat) (x : Grove) : (s.setGrove g x).ctls = s.ctls := rfl
@[simp] theorem State.setGrove_saves (s : State) (g : Nat) (x : Grove) : (s.setGrove g x).saves = s.saves := rfl
@[simp] theorem State.setGrove_saveCount (s : State) (g : Nat) (x : Grove) : (s.setGrove g x).saveCount = s.saveCount := rfl
@[simp] theorem State.setGrove_cores (s : State) (g : Nat) (x : Grove) : (s.setGrove g x).cores = s.cores := rfl
@[simp] theorem State.setGrove_threads (s : State) (g : Nat) (x : Grove) : (s.setGrove g x).threads = s.threads := rfl
@[simp] theorem State.setGrove_tiles (s : State) (g : Nat) (x : Grove) : (s.setGrove g x).tiles = s.tiles := rfl
@[simp] theorem State.setGrove_slices (s : State) (g : Nat) (x : Grove) : (s.setGrove g x).slices = s.slices := rfl
@[simp] theorem State.setGrove_dies (s : State) (g : Nat) (x : Grove) : (s.setGrove g x).dies = s.dies := rfl
@[simp] theorem State.setGrove_mgmt (s : State) (g : Nat) (x : Grove) : (s.setGrove g x).mgmt = s.mgmt := rfl
@[simp] theorem State.setGrove_devTable (s : State) (g : Nat) (x : Grove) : (s.setGrove g x).devTable = s.devTable := rfl
@[simp] theorem State.setGrove_linkDown (s : State) (g : Nat) (x : Grove) : (s.setGrove g x).linkDown = s.linkDown := rfl
@[simp] theorem State.setGrove_huash (s : State) (g : Nat) (x : Grove) : (s.setGrove g x).huash = s.huash := rfl
@[simp] theorem State.setGrove_thr (s : State) (g : Nat) (x : Grove) (q : Nat) : (s.setGrove g x).thr q = s.thr q := rfl
@[simp] theorem State.setGrove_coreOf (s : State) (g : Nat) (x : Grove) (q : Nat) : (s.setGrove g x).coreOf q = s.coreOf q := rfl
@[simp] theorem State.setGrove_tile (s : State) (g : Nat) (x : Grove) (q : Nat) : (s.setGrove g x).tile q = s.tile q := rfl
@[simp] theorem State.setGrove_slice (s : State) (g : Nat) (x : Grove) (q : Nat) : (s.setGrove g x).slice q = s.slice q := rfl
@[simp] theorem State.setGrove_die (s : State) (g : Nat) (x : Grove) (q : Nat) : (s.setGrove g x).die q = s.die q := rfl
@[simp] theorem State.setGrove_me (s : State) (g : Nat) (x : Grove) : (s.setGrove g x).me = s.me := rfl
@[simp] theorem State.setGrove_groveOfCluster (s : State) (g : Nat) (x : Grove) (q : Nat) : (s.setGrove g x).groveOfCluster q = s.groveOfCluster q := rfl
@[simp] theorem State.setGrove_groveOfThread (s : State) (g : Nat) (x : Grove) (q : Nat) : (s.setGrove g x).groveOfThread q = s.groveOfThread q := rfl
@[simp] theorem State.setGrove_groveOfSite (s : State) (g : Nat) (x : Grove) (q : Nat) : (s.setGrove g x).groveOfSite q = s.groveOfSite q := rfl
@[simp] theorem State.setGrove_dev (s : State) (g : Nat) (x : Grove) : (s.setGrove g x).dev = s.dev := rfl
@[simp] theorem State.setGrove_byteAt (s : State) (g : Nat) (x : Grove) (key a : Nat) : (s.setGrove g x).byteAt key a = s.byteAt key a := rfl
@[simp] theorem State.setGrove_isFull (s : State) (g : Nat) (x : Grove) (a : Nat) : (s.setGrove g x).isFull a = s.isFull a := rfl
@[simp] theorem State.setDie_now (s : State) (d : Nat) (x : Die) : (s.setDie d x).now = s.now := rfl
@[simp] theorem State.setDie_agenda (s : State) (d : Nat) (x : Die) : (s.setDie d x).agenda = s.agenda := rfl
@[simp] theorem State.setDie_focus (s : State) (d : Nat) (x : Die) : (s.setDie d x).focus = s.focus := rfl
@[simp] theorem State.setDie_site (s : State) (d : Nat) (x : Die) : (s.setDie d x).site = s.site := rfl
@[simp] theorem State.setDie_fresh (s : State) (d : Nat) (x : Die) : (s.setDie d x).fresh = s.fresh := rfl
@[simp] theorem State.setDie_nextId (s : State) (d : Nat) (x : Die) : (s.setDie d x).nextId = s.nextId := rfl
@[simp] theorem State.setDie_mem (s : State) (d : Nat) (x : Die) : (s.setDie d x).mem = s.mem := rfl
@[simp] theorem State.setDie_blockKey (s : State) (d : Nat) (x : Die) : (s.setDie d x).blockKey = s.blockKey := rfl
@[simp] theorem State.setDie_full (s : State) (d : Nat) (x : Die) : (s.setDie d x).full = s.full := rfl
@[simp] theorem State.setDie_badLine (s : State) (d : Nat) (x : Die) : (s.setDie d x).badLine = s.badLine := rfl
@[simp] theorem State.setDie_reqs (s : State) (d : Nat) (x : Die) : (s.setDie d x).reqs = s.reqs := rfl
@[simp] theorem State.setDie_ops (s : State) (d : Nat) (x : Die) : (s.setDie d x).ops = s.ops := rfl
@[simp] theorem State.setDie_smoves (s : State) (d : Nat) (x : Die) : (s.setDie d x).smoves = s.smoves := rfl
@[simp] theorem State.setDie_halos (s : State) (d : Nat) (x : Die) : (s.setDie d x).halos = s.halos := rfl
@[simp] theorem State.setDie_tinvs (s : State) (d : Nat) (x : Die) : (s.setDie d x).tinvs = s.tinvs := rfl
@[simp] theorem State.setDie_migs (s : State) (d : Nat) (x : Die) : (s.setDie d x).migs = s.migs := rfl
@[simp] theorem State.setDie_floors (s : State) (d : Nat) (x : Die) : (s.setDie d x).floors = s.floors := rfl
@[simp] theorem State.setDie_migDone (s : State) (d : Nat) (x : Die) : (s.setDie d x).migDone = s.migDone := rfl
@[simp] theorem State.setDie_packets (s : State) (d : Nat) (x : Die) : (s.setDie d x).packets = s.packets := rfl
@[simp] theorem State.setDie_trims (s : State) (d : Nat) (x : Die) : (s.setDie d x).trims = s.trims := rfl
@[simp] theorem State.setDie_permits (s : State) (d : Nat) (x : Die) : (s.setDie d x).permits = s.permits := rfl
@[simp] theorem State.setDie_links (s : State) (d : Nat) (x : Die) : (s.setDie d x).links = s.links := rfl
@[simp] theorem State.setDie_flights (s : State) (d : Nat) (x : Die) : (s.setDie d x).flights = s.flights := rfl
@[simp] theorem State.setDie_ctls (s : State) (d : Nat) (x : Die) : (s.setDie d x).ctls = s.ctls := rfl
@[simp] theorem State.setDie_groves (s : State) (d : Nat) (x : Die) : (s.setDie d x).groves = s.groves := rfl
@[simp] theorem State.setDie_saves (s : State) (d : Nat) (x : Die) : (s.setDie d x).saves = s.saves := rfl
@[simp] theorem State.setDie_saveCount (s : State) (d : Nat) (x : Die) : (s.setDie d x).saveCount = s.saveCount := rfl
@[simp] theorem State.setDie_cores (s : State) (d : Nat) (x : Die) : (s.setDie d x).cores = s.cores := rfl
@[simp] theorem State.setDie_threads (s : State) (d : Nat) (x : Die) : (s.setDie d x).threads = s.threads := rfl
@[simp] theorem State.setDie_tiles (s : State) (d : Nat) (x : Die) : (s.setDie d x).tiles = s.tiles := rfl
@[simp] theorem State.setDie_slices (s : State) (d : Nat) (x : Die) : (s.setDie d x).slices = s.slices := rfl
@[simp] theorem State.setDie_mgmt (s : State) (d : Nat) (x : Die) : (s.setDie d x).mgmt = s.mgmt := rfl
@[simp] theorem State.setDie_devTable (s : State) (d : Nat) (x : Die) : (s.setDie d x).devTable = s.devTable := rfl
@[simp] theorem State.setDie_linkDown (s : State) (d : Nat) (x : Die) : (s.setDie d x).linkDown = s.linkDown := rfl
@[simp] theorem State.setDie_huash (s : State) (d : Nat) (x : Die) : (s.setDie d x).huash = s.huash := rfl
@[simp] theorem State.setDie_thr (s : State) (d : Nat) (x : Die) (q : Nat) : (s.setDie d x).thr q = s.thr q := rfl
@[simp] theorem State.setDie_coreOf (s : State) (d : Nat) (x : Die) (q : Nat) : (s.setDie d x).coreOf q = s.coreOf q := rfl
@[simp] theorem State.setDie_tile (s : State) (d : Nat) (x : Die) (q : Nat) : (s.setDie d x).tile q = s.tile q := rfl
@[simp] theorem State.setDie_slice (s : State) (d : Nat) (x : Die) (q : Nat) : (s.setDie d x).slice q = s.slice q := rfl
@[simp] theorem State.setDie_grove (s : State) (d : Nat) (x : Die) (q : Nat) : (s.setDie d x).grove q = s.grove q := rfl
@[simp] theorem State.setDie_me (s : State) (d : Nat) (x : Die) : (s.setDie d x).me = s.me := rfl
@[simp] theorem State.setDie_groveOfCluster (s : State) (d : Nat) (x : Die) (q : Nat) : (s.setDie d x).groveOfCluster q = s.groveOfCluster q := rfl
@[simp] theorem State.setDie_groveOfThread (s : State) (d : Nat) (x : Die) (q : Nat) : (s.setDie d x).groveOfThread q = s.groveOfThread q := rfl
@[simp] theorem State.setDie_groveOfSite (s : State) (d : Nat) (x : Die) (q : Nat) : (s.setDie d x).groveOfSite q = s.groveOfSite q := rfl
@[simp] theorem State.setDie_dev (s : State) (d : Nat) (x : Die) : (s.setDie d x).dev = s.dev := rfl
@[simp] theorem State.setDie_byteAt (s : State) (d : Nat) (x : Die) (key a : Nat) : (s.setDie d x).byteAt key a = s.byteAt key a := rfl
@[simp] theorem State.setDie_isFull (s : State) (d : Nat) (x : Die) (a : Nat) : (s.setDie d x).isFull a = s.isFull a := rfl
@[simp] theorem State.setThr_thr (s : State) (t : Nat) (x : Thread) : (s.setThr t x).thr t = x := by simp [State.setThr, State.thr]
theorem State.setThr_thr_ne (s : State) (t : Nat) (x : Thread) (q : Nat) (h : q ≠ t) : (s.setThr t x).thr q = s.thr q := by
  simp [State.setThr, State.thr, tabGet_put_ne _ _ _ _ _ h]
@[simp] theorem State.setMe_me (s : State) (x : Thread) : (s.setMe x).me = x := by simp [State.me, State.setMe, State.setThr, State.thr]
theorem State.setMe_thr_ne (s : State) (x : Thread) (q : Nat) (h : q ≠ s.focus) : (s.setMe x).thr q = s.thr q := by
  simp [State.setMe, State.setThr, State.thr, tabGet_put_ne _ _ _ _ _ h]
@[simp] theorem State.setCore_coreOf (s : State) (c : Nat) (x : Core) : (s.setCore c x).coreOf c = x := by simp [State.setCore, State.coreOf]
theorem State.setCore_coreOf_ne (s : State) (c : Nat) (x : Core) (q : Nat) (h : q ≠ c) : (s.setCore c x).coreOf q = s.coreOf q := by
  simp [State.setCore, State.coreOf, tabGet_put_ne _ _ _ _ _ h]
@[simp] theorem State.setTile_tile (s : State) (y : Nat) (x : Tile) : (s.setTile y x).tile y = x := by simp [State.setTile, State.tile]
theorem State.setTile_tile_ne (s : State) (y : Nat) (x : Tile) (q : Nat) (h : q ≠ y) : (s.setTile y x).tile q = s.tile q := by
  simp [State.setTile, State.tile, tabGet_put_ne _ _ _ _ _ h]
@[simp] theorem State.setSlice_slice (s : State) (y : Nat) (x : Slice) : (s.setSlice y x).slice y = x := by simp [State.setSlice, State.slice]
theorem State.setSlice_slice_ne (s : State) (y : Nat) (x : Slice) (q : Nat) (h : q ≠ y) : (s.setSlice y x).slice q = s.slice q := by
  simp [State.setSlice, State.slice, tabGet_put_ne _ _ _ _ _ h]
@[simp] theorem State.setGrove_grove (s : State) (g : Nat) (x : Grove) : (s.setGrove g x).grove g = x := by simp [State.setGrove, State.grove]
theorem State.setGrove_grove_ne (s : State) (g : Nat) (x : Grove) (q : Nat) (h : q ≠ g) : (s.setGrove g x).grove q = s.grove q := by
  simp [State.setGrove, State.grove, tabGet_put_ne _ _ _ _ _ h]
@[simp] theorem State.setDie_die (s : State) (d : Nat) (x : Die) : (s.setDie d x).die d = x := by simp [State.setDie, State.die]
theorem State.setDie_die_ne (s : State) (d : Nat) (x : Die) (q : Nat) (h : q ≠ d) : (s.setDie d x).die q = s.die q := by
  simp [State.setDie, State.die, tabGet_put_ne _ _ _ _ _ h]
@[simp] theorem State.send_now (s : State) (p : Packet) : (s.send p).now = s.now := rfl
@[simp] theorem State.send_agenda (s : State) (p : Packet) : (s.send p).agenda = s.agenda := rfl
@[simp] theorem State.send_focus (s : State) (p : Packet) : (s.send p).focus = s.focus := rfl
@[simp] theorem State.send_site (s : State) (p : Packet) : (s.send p).site = s.site := rfl
@[simp] theorem State.send_fresh (s : State) (p : Packet) : (s.send p).fresh = s.fresh := rfl
@[simp] theorem State.send_mem (s : State) (p : Packet) : (s.send p).mem = s.mem := rfl
@[simp] theorem State.send_blockKey (s : State) (p : Packet) : (s.send p).blockKey = s.blockKey := rfl
@[simp] theorem State.send_full (s : State) (p : Packet) : (s.send p).full = s.full := rfl
@[simp] theorem State.send_badLine (s : State) (p : Packet) : (s.send p).badLine = s.badLine := rfl
@[simp] theorem State.send_reqs (s : State) (p : Packet) : (s.send p).reqs = s.reqs := rfl
@[simp] theorem State.send_ops (s : State) (p : Packet) : (s.send p).ops = s.ops := rfl
@[simp] theorem State.send_smoves (s : State) (p : Packet) : (s.send p).smoves = s.smoves := rfl
@[simp] theorem State.send_halos (s : State) (p : Packet) : (s.send p).halos = s.halos := rfl
@[simp] theorem State.send_tinvs (s : State) (p : Packet) : (s.send p).tinvs = s.tinvs := rfl
@[simp] theorem State.send_migs (s : State) (p : Packet) : (s.send p).migs = s.migs := rfl
@[simp] theorem State.send_floors (s : State) (p : Packet) : (s.send p).floors = s.floors := rfl
@[simp] theorem State.send_migDone (s : State) (p : Packet) : (s.send p).migDone = s.migDone := rfl
@[simp] theorem State.send_trims (s : State) (p : Packet) : (s.send p).trims = s.trims := rfl
@[simp] theorem State.send_permits (s : State) (p : Packet) : (s.send p).permits = s.permits := rfl
@[simp] theorem State.send_links (s : State) (p : Packet) : (s.send p).links = s.links := rfl
@[simp] theorem State.send_flights (s : State) (p : Packet) : (s.send p).flights = s.flights := rfl
@[simp] theorem State.send_ctls (s : State) (p : Packet) : (s.send p).ctls = s.ctls := rfl
@[simp] theorem State.send_groves (s : State) (p : Packet) : (s.send p).groves = s.groves := rfl
@[simp] theorem State.send_saves (s : State) (p : Packet) : (s.send p).saves = s.saves := rfl
@[simp] theorem State.send_saveCount (s : State) (p : Packet) : (s.send p).saveCount = s.saveCount := rfl
@[simp] theorem State.send_cores (s : State) (p : Packet) : (s.send p).cores = s.cores := rfl
@[simp] theorem State.send_threads (s : State) (p : Packet) : (s.send p).threads = s.threads := rfl
@[simp] theorem State.send_tiles (s : State) (p : Packet) : (s.send p).tiles = s.tiles := rfl
@[simp] theorem State.send_slices (s : State) (p : Packet) : (s.send p).slices = s.slices := rfl
@[simp] theorem State.send_dies (s : State) (p : Packet) : (s.send p).dies = s.dies := rfl
@[simp] theorem State.send_mgmt (s : State) (p : Packet) : (s.send p).mgmt = s.mgmt := rfl
@[simp] theorem State.send_devTable (s : State) (p : Packet) : (s.send p).devTable = s.devTable := rfl
@[simp] theorem State.send_linkDown (s : State) (p : Packet) : (s.send p).linkDown = s.linkDown := rfl
@[simp] theorem State.send_huash (s : State) (p : Packet) : (s.send p).huash = s.huash := rfl
@[simp] theorem State.send_thr (s : State) (p : Packet) (q : Nat) : (s.send p).thr q = s.thr q := rfl
@[simp] theorem State.send_coreOf (s : State) (p : Packet) (q : Nat) : (s.send p).coreOf q = s.coreOf q := rfl
@[simp] theorem State.send_tile (s : State) (p : Packet) (q : Nat) : (s.send p).tile q = s.tile q := rfl
@[simp] theorem State.send_slice (s : State) (p : Packet) (q : Nat) : (s.send p).slice q = s.slice q := rfl
@[simp] theorem State.send_grove (s : State) (p : Packet) (q : Nat) : (s.send p).grove q = s.grove q := rfl
@[simp] theorem State.send_die (s : State) (p : Packet) (q : Nat) : (s.send p).die q = s.die q := rfl

/-! ## Threads -/

@[simp] theorem Thread.endGroup_status (th : Thread) : th.endGroup.status = th.status := rfl
@[simp] theorem Thread.endGroup_pc (th : Thread) : th.endGroup.pc = th.pc := rfl
@[simp] theorem Thread.endGroup_regs (th : Thread) : th.endGroup.regs = th.regs := rfl
@[simp] theorem Thread.endGroup_gen (th : Thread) : th.endGroup.gen = th.gen := rfl
@[simp] theorem Thread.endGroup_strict (th : Thread) : th.endGroup.strict = th.strict := rfl
@[simp] theorem Thread.endGroup_cause (th : Thread) : th.endGroup.cause = th.cause := rfl
@[simp] theorem Thread.endGroup_epc (th : Thread) : th.endGroup.epc = th.epc := rfl
@[simp] theorem Thread.endGroup_tval (th : Thread) : th.endGroup.tval = th.tval := rfl
@[simp] theorem Thread.endGroup_trapActive (th : Thread) : th.endGroup.trapActive = th.trapActive := rfl
@[simp] theorem Thread.endGroup_role (th : Thread) : th.endGroup.role = th.role := rfl
@[simp] theorem Thread.endGroup_ld (th : Thread) : th.endGroup.ld = th.ld := rfl
@[simp] theorem Thread.endGroup_st (th : Thread) : th.endGroup.st = th.st := rfl
@[simp] theorem Thread.endGroup_cp (th : Thread) : th.endGroup.cp = th.cp := rfl
@[simp] theorem Thread.endGroup_mx (th : Thread) : th.endGroup.mx = th.mx := rfl
@[simp] theorem Thread.endGroup_fifos (th : Thread) : th.endGroup.fifos = th.fifos := rfl
@[simp] theorem Thread.endGroup_fifoGen (th : Thread) : th.endGroup.fifoGen = th.fifoGen := rfl
@[simp] theorem Thread.endGroup_specs (th : Thread) : th.endGroup.specs = th.specs := rfl
@[simp] theorem Thread.endGroup_since (th : Thread) : th.endGroup.since = th.since := rfl
@[simp] theorem Thread.endGroup_entry (th : Thread) : th.endGroup.entry = th.entry := rfl
@[simp] theorem Thread.endGroup_hasRun (th : Thread) : th.endGroup.hasRun = th.hasRun := rfl
@[simp] theorem Thread.endGroup_frsrc (th : Thread) : th.endGroup.frsrc = th.frsrc := rfl
@[simp] theorem Thread.endGroup_frec (th : Thread) : th.endGroup.frec = th.frec := rfl
@[simp] theorem Thread.endGroup_fences (th : Thread) : th.endGroup.fences = th.fences := rfl
@[simp] theorem Thread.endGroup_gives (th : Thread) : th.endGroup.gives = th.gives := rfl
@[simp] theorem Thread.endGroup_trapAt (th : Thread) : th.endGroup.trapAt = th.trapAt := rfl
@[simp] theorem Thread.endGroup_reg (th : Thread) (r : Reg) : th.endGroup.reg r = th.reg r := rfl
@[simp] theorem Thread.haltAt_pc (th : Thread) : th.haltAt.pc = th.pc := rfl
@[simp] theorem Thread.haltAt_regs (th : Thread) : th.haltAt.regs = th.regs := rfl
@[simp] theorem Thread.haltAt_gen (th : Thread) : th.haltAt.gen = th.gen := rfl
@[simp] theorem Thread.haltAt_strict (th : Thread) : th.haltAt.strict = th.strict := rfl
@[simp] theorem Thread.haltAt_cause (th : Thread) : th.haltAt.cause = th.cause := rfl
@[simp] theorem Thread.haltAt_epc (th : Thread) : th.haltAt.epc = th.epc := rfl
@[simp] theorem Thread.haltAt_tval (th : Thread) : th.haltAt.tval = th.tval := rfl
@[simp] theorem Thread.haltAt_trapActive (th : Thread) : th.haltAt.trapActive = th.trapActive := rfl
@[simp] theorem Thread.haltAt_role (th : Thread) : th.haltAt.role = th.role := rfl
@[simp] theorem Thread.haltAt_ld (th : Thread) : th.haltAt.ld = th.ld := rfl
@[simp] theorem Thread.haltAt_st (th : Thread) : th.haltAt.st = th.st := rfl
@[simp] theorem Thread.haltAt_cp (th : Thread) : th.haltAt.cp = th.cp := rfl
@[simp] theorem Thread.haltAt_mx (th : Thread) : th.haltAt.mx = th.mx := rfl
@[simp] theorem Thread.haltAt_fifos (th : Thread) : th.haltAt.fifos = th.fifos := rfl
@[simp] theorem Thread.haltAt_fifoGen (th : Thread) : th.haltAt.fifoGen = th.fifoGen := rfl
@[simp] theorem Thread.haltAt_specs (th : Thread) : th.haltAt.specs = th.specs := rfl
@[simp] theorem Thread.haltAt_since (th : Thread) : th.haltAt.since = th.since := rfl
@[simp] theorem Thread.haltAt_entry (th : Thread) : th.haltAt.entry = th.entry := rfl
@[simp] theorem Thread.haltAt_frsrc (th : Thread) : th.haltAt.frsrc = th.frsrc := rfl
@[simp] theorem Thread.haltAt_frec (th : Thread) : th.haltAt.frec = th.frec := rfl
@[simp] theorem Thread.haltAt_fences (th : Thread) : th.haltAt.fences = th.fences := rfl
@[simp] theorem Thread.haltAt_gives (th : Thread) : th.haltAt.gives = th.gives := rfl
@[simp] theorem Thread.haltAt_trapAt (th : Thread) : th.haltAt.trapAt = th.trapAt := rfl
@[simp] theorem Thread.haltAt_reg (th : Thread) (r : Reg) : th.haltAt.reg r = th.reg r := rfl
@[simp] theorem Thread.returnTrap_regs (th : Thread) : th.returnTrap.regs = th.regs := rfl
@[simp] theorem Thread.returnTrap_gen (th : Thread) : th.returnTrap.gen = th.gen := rfl
@[simp] theorem Thread.returnTrap_strict (th : Thread) : th.returnTrap.strict = th.strict := rfl
@[simp] theorem Thread.returnTrap_cause (th : Thread) : th.returnTrap.cause = th.cause := rfl
@[simp] theorem Thread.returnTrap_epc (th : Thread) : th.returnTrap.epc = th.epc := rfl
@[simp] theorem Thread.returnTrap_tval (th : Thread) : th.returnTrap.tval = th.tval := rfl
@[simp] theorem Thread.returnTrap_role (th : Thread) : th.returnTrap.role = th.role := rfl
@[simp] theorem Thread.returnTrap_ld (th : Thread) : th.returnTrap.ld = th.ld := rfl
@[simp] theorem Thread.returnTrap_st (th : Thread) : th.returnTrap.st = th.st := rfl
@[simp] theorem Thread.returnTrap_cp (th : Thread) : th.returnTrap.cp = th.cp := rfl
@[simp] theorem Thread.returnTrap_mx (th : Thread) : th.returnTrap.mx = th.mx := rfl
@[simp] theorem Thread.returnTrap_fifos (th : Thread) : th.returnTrap.fifos = th.fifos := rfl
@[simp] theorem Thread.returnTrap_fifoGen (th : Thread) : th.returnTrap.fifoGen = th.fifoGen := rfl
@[simp] theorem Thread.returnTrap_specs (th : Thread) : th.returnTrap.specs = th.specs := rfl
@[simp] theorem Thread.returnTrap_since (th : Thread) : th.returnTrap.since = th.since := rfl
@[simp] theorem Thread.returnTrap_entry (th : Thread) : th.returnTrap.entry = th.entry := rfl
@[simp] theorem Thread.returnTrap_hasRun (th : Thread) : th.returnTrap.hasRun = th.hasRun := rfl
@[simp] theorem Thread.returnTrap_frsrc (th : Thread) : th.returnTrap.frsrc = th.frsrc := rfl
@[simp] theorem Thread.returnTrap_frec (th : Thread) : th.returnTrap.frec = th.frec := rfl
@[simp] theorem Thread.returnTrap_fences (th : Thread) : th.returnTrap.fences = th.fences := rfl
@[simp] theorem Thread.returnTrap_gives (th : Thread) : th.returnTrap.gives = th.gives := rfl
@[simp] theorem Thread.returnTrap_trapAt (th : Thread) : th.returnTrap.trapAt = th.trapAt := rfl
@[simp] theorem Thread.returnTrap_reg (th : Thread) (r : Reg) : th.returnTrap.reg r = th.reg r := rfl
@[simp] theorem Thread.enterTrap_regs (th : Thread) (vec : Nat) (c : Cause) (e : Nat) (v : Word64) : (th.enterTrap vec c e v).regs = th.regs := rfl
@[simp] theorem Thread.enterTrap_gen (th : Thread) (vec : Nat) (c : Cause) (e : Nat) (v : Word64) : (th.enterTrap vec c e v).gen = th.gen := rfl
@[simp] theorem Thread.enterTrap_strict (th : Thread) (vec : Nat) (c : Cause) (e : Nat) (v : Word64) : (th.enterTrap vec c e v).strict = th.strict := rfl
@[simp] theorem Thread.enterTrap_role (th : Thread) (vec : Nat) (c : Cause) (e : Nat) (v : Word64) : (th.enterTrap vec c e v).role = th.role := rfl
@[simp] theorem Thread.enterTrap_ld (th : Thread) (vec : Nat) (c : Cause) (e : Nat) (v : Word64) : (th.enterTrap vec c e v).ld = th.ld := rfl
@[simp] theorem Thread.enterTrap_st (th : Thread) (vec : Nat) (c : Cause) (e : Nat) (v : Word64) : (th.enterTrap vec c e v).st = th.st := rfl
@[simp] theorem Thread.enterTrap_cp (th : Thread) (vec : Nat) (c : Cause) (e : Nat) (v : Word64) : (th.enterTrap vec c e v).cp = th.cp := rfl
@[simp] theorem Thread.enterTrap_mx (th : Thread) (vec : Nat) (c : Cause) (e : Nat) (v : Word64) : (th.enterTrap vec c e v).mx = th.mx := rfl
@[simp] theorem Thread.enterTrap_fifos (th : Thread) (vec : Nat) (c : Cause) (e : Nat) (v : Word64) : (th.enterTrap vec c e v).fifos = th.fifos := rfl
@[simp] theorem Thread.enterTrap_fifoGen (th : Thread) (vec : Nat) (c : Cause) (e : Nat) (v : Word64) : (th.enterTrap vec c e v).fifoGen = th.fifoGen := rfl
@[simp] theorem Thread.enterTrap_specs (th : Thread) (vec : Nat) (c : Cause) (e : Nat) (v : Word64) : (th.enterTrap vec c e v).specs = th.specs := rfl
@[simp] theorem Thread.enterTrap_since (th : Thread) (vec : Nat) (c : Cause) (e : Nat) (v : Word64) : (th.enterTrap vec c e v).since = th.since := rfl
@[simp] theorem Thread.enterTrap_entry (th : Thread) (vec : Nat) (c : Cause) (e : Nat) (v : Word64) : (th.enterTrap vec c e v).entry = th.entry := rfl
@[simp] theorem Thread.enterTrap_hasRun (th : Thread) (vec : Nat) (c : Cause) (e : Nat) (v : Word64) : (th.enterTrap vec c e v).hasRun = th.hasRun := rfl
@[simp] theorem Thread.enterTrap_frsrc (th : Thread) (vec : Nat) (c : Cause) (e : Nat) (v : Word64) : (th.enterTrap vec c e v).frsrc = th.frsrc := rfl
@[simp] theorem Thread.enterTrap_frec (th : Thread) (vec : Nat) (c : Cause) (e : Nat) (v : Word64) : (th.enterTrap vec c e v).frec = th.frec := rfl
@[simp] theorem Thread.enterTrap_fences (th : Thread) (vec : Nat) (c : Cause) (e : Nat) (v : Word64) : (th.enterTrap vec c e v).fences = th.fences := rfl
@[simp] theorem Thread.enterTrap_gives (th : Thread) (vec : Nat) (c : Cause) (e : Nat) (v : Word64) : (th.enterTrap vec c e v).gives = th.gives := rfl
@[simp] theorem Thread.enterTrap_trapAt (th : Thread) (vec : Nat) (c : Cause) (e : Nat) (v : Word64) : (th.enterTrap vec c e v).trapAt = th.trapAt := rfl
@[simp] theorem Thread.enterTrap_reg (th : Thread) (vec : Nat) (c : Cause) (e : Nat) (v : Word64) (r : Reg) : (th.enterTrap vec c e v).reg r = th.reg r := rfl
@[simp] theorem Thread.ranTo_regs (th : Thread) (pc : Nat) : (th.ranTo pc).regs = th.regs := rfl
@[simp] theorem Thread.ranTo_gen (th : Thread) (pc : Nat) : (th.ranTo pc).gen = th.gen := rfl
@[simp] theorem Thread.ranTo_strict (th : Thread) (pc : Nat) : (th.ranTo pc).strict = th.strict := rfl
@[simp] theorem Thread.ranTo_cause (th : Thread) (pc : Nat) : (th.ranTo pc).cause = th.cause := rfl
@[simp] theorem Thread.ranTo_epc (th : Thread) (pc : Nat) : (th.ranTo pc).epc = th.epc := rfl
@[simp] theorem Thread.ranTo_tval (th : Thread) (pc : Nat) : (th.ranTo pc).tval = th.tval := rfl
@[simp] theorem Thread.ranTo_trapActive (th : Thread) (pc : Nat) : (th.ranTo pc).trapActive = th.trapActive := rfl
@[simp] theorem Thread.ranTo_role (th : Thread) (pc : Nat) : (th.ranTo pc).role = th.role := rfl
@[simp] theorem Thread.ranTo_ld (th : Thread) (pc : Nat) : (th.ranTo pc).ld = th.ld := rfl
@[simp] theorem Thread.ranTo_st (th : Thread) (pc : Nat) : (th.ranTo pc).st = th.st := rfl
@[simp] theorem Thread.ranTo_cp (th : Thread) (pc : Nat) : (th.ranTo pc).cp = th.cp := rfl
@[simp] theorem Thread.ranTo_mx (th : Thread) (pc : Nat) : (th.ranTo pc).mx = th.mx := rfl
@[simp] theorem Thread.ranTo_fifos (th : Thread) (pc : Nat) : (th.ranTo pc).fifos = th.fifos := rfl
@[simp] theorem Thread.ranTo_fifoGen (th : Thread) (pc : Nat) : (th.ranTo pc).fifoGen = th.fifoGen := rfl
@[simp] theorem Thread.ranTo_specs (th : Thread) (pc : Nat) : (th.ranTo pc).specs = th.specs := rfl
@[simp] theorem Thread.ranTo_since (th : Thread) (pc : Nat) : (th.ranTo pc).since = th.since := rfl
@[simp] theorem Thread.ranTo_entry (th : Thread) (pc : Nat) : (th.ranTo pc).entry = th.entry := rfl
@[simp] theorem Thread.ranTo_frsrc (th : Thread) (pc : Nat) : (th.ranTo pc).frsrc = th.frsrc := rfl
@[simp] theorem Thread.ranTo_frec (th : Thread) (pc : Nat) : (th.ranTo pc).frec = th.frec := rfl
@[simp] theorem Thread.ranTo_fences (th : Thread) (pc : Nat) : (th.ranTo pc).fences = th.fences := rfl
@[simp] theorem Thread.ranTo_gives (th : Thread) (pc : Nat) : (th.ranTo pc).gives = th.gives := rfl
@[simp] theorem Thread.ranTo_trapAt (th : Thread) (pc : Nat) : (th.ranTo pc).trapAt = th.trapAt := rfl
@[simp] theorem Thread.ranTo_reg (th : Thread) (pc : Nat) (r : Reg) : (th.ranTo pc).reg r = th.reg r := rfl
@[simp] theorem Thread.fifoPop_status (th : Thread) (f : Fin 8) : (th.fifoPop f).status = th.status := rfl
@[simp] theorem Thread.fifoPop_pc (th : Thread) (f : Fin 8) : (th.fifoPop f).pc = th.pc := rfl
@[simp] theorem Thread.fifoPop_regs (th : Thread) (f : Fin 8) : (th.fifoPop f).regs = th.regs := rfl
@[simp] theorem Thread.fifoPop_gen (th : Thread) (f : Fin 8) : (th.fifoPop f).gen = th.gen := rfl
@[simp] theorem Thread.fifoPop_strict (th : Thread) (f : Fin 8) : (th.fifoPop f).strict = th.strict := rfl
@[simp] theorem Thread.fifoPop_cause (th : Thread) (f : Fin 8) : (th.fifoPop f).cause = th.cause := rfl
@[simp] theorem Thread.fifoPop_epc (th : Thread) (f : Fin 8) : (th.fifoPop f).epc = th.epc := rfl
@[simp] theorem Thread.fifoPop_tval (th : Thread) (f : Fin 8) : (th.fifoPop f).tval = th.tval := rfl
@[simp] theorem Thread.fifoPop_trapActive (th : Thread) (f : Fin 8) : (th.fifoPop f).trapActive = th.trapActive := rfl
@[simp] theorem Thread.fifoPop_role (th : Thread) (f : Fin 8) : (th.fifoPop f).role = th.role := rfl
@[simp] theorem Thread.fifoPop_ld (th : Thread) (f : Fin 8) : (th.fifoPop f).ld = th.ld := rfl
@[simp] theorem Thread.fifoPop_st (th : Thread) (f : Fin 8) : (th.fifoPop f).st = th.st := rfl
@[simp] theorem Thread.fifoPop_cp (th : Thread) (f : Fin 8) : (th.fifoPop f).cp = th.cp := rfl
@[simp] theorem Thread.fifoPop_mx (th : Thread) (f : Fin 8) : (th.fifoPop f).mx = th.mx := rfl
@[simp] theorem Thread.fifoPop_fifoGen (th : Thread) (f : Fin 8) : (th.fifoPop f).fifoGen = th.fifoGen := rfl
@[simp] theorem Thread.fifoPop_specs (th : Thread) (f : Fin 8) : (th.fifoPop f).specs = th.specs := rfl
@[simp] theorem Thread.fifoPop_imm (th : Thread) (f : Fin 8) : (th.fifoPop f).imm = th.imm := rfl
@[simp] theorem Thread.fifoPop_mark (th : Thread) (f : Fin 8) : (th.fifoPop f).mark = th.mark := rfl
@[simp] theorem Thread.fifoPop_group (th : Thread) (f : Fin 8) : (th.fifoPop f).group = th.group := rfl
@[simp] theorem Thread.fifoPop_since (th : Thread) (f : Fin 8) : (th.fifoPop f).since = th.since := rfl
@[simp] theorem Thread.fifoPop_entry (th : Thread) (f : Fin 8) : (th.fifoPop f).entry = th.entry := rfl
@[simp] theorem Thread.fifoPop_hasRun (th : Thread) (f : Fin 8) : (th.fifoPop f).hasRun = th.hasRun := rfl
@[simp] theorem Thread.fifoPop_frsrc (th : Thread) (f : Fin 8) : (th.fifoPop f).frsrc = th.frsrc := rfl
@[simp] theorem Thread.fifoPop_frec (th : Thread) (f : Fin 8) : (th.fifoPop f).frec = th.frec := rfl
@[simp] theorem Thread.fifoPop_fences (th : Thread) (f : Fin 8) : (th.fifoPop f).fences = th.fences := rfl
@[simp] theorem Thread.fifoPop_gives (th : Thread) (f : Fin 8) : (th.fifoPop f).gives = th.gives := rfl
@[simp] theorem Thread.fifoPop_trapAt (th : Thread) (f : Fin 8) : (th.fifoPop f).trapAt = th.trapAt := rfl
@[simp] theorem Thread.fifoPop_reg (th : Thread) (f : Fin 8) (r : Reg) : (th.fifoPop f).reg r = th.reg r := rfl
@[simp] theorem Thread.fifoReserve_status (th : Thread) (f : Fin 8) : (th.fifoReserve f).status = th.status := rfl
@[simp] theorem Thread.fifoReserve_pc (th : Thread) (f : Fin 8) : (th.fifoReserve f).pc = th.pc := rfl
@[simp] theorem Thread.fifoReserve_regs (th : Thread) (f : Fin 8) : (th.fifoReserve f).regs = th.regs := rfl
@[simp] theorem Thread.fifoReserve_gen (th : Thread) (f : Fin 8) : (th.fifoReserve f).gen = th.gen := rfl
@[simp] theorem Thread.fifoReserve_strict (th : Thread) (f : Fin 8) : (th.fifoReserve f).strict = th.strict := rfl
@[simp] theorem Thread.fifoReserve_cause (th : Thread) (f : Fin 8) : (th.fifoReserve f).cause = th.cause := rfl
@[simp] theorem Thread.fifoReserve_epc (th : Thread) (f : Fin 8) : (th.fifoReserve f).epc = th.epc := rfl
@[simp] theorem Thread.fifoReserve_tval (th : Thread) (f : Fin 8) : (th.fifoReserve f).tval = th.tval := rfl
@[simp] theorem Thread.fifoReserve_trapActive (th : Thread) (f : Fin 8) : (th.fifoReserve f).trapActive = th.trapActive := rfl
@[simp] theorem Thread.fifoReserve_role (th : Thread) (f : Fin 8) : (th.fifoReserve f).role = th.role := rfl
@[simp] theorem Thread.fifoReserve_ld (th : Thread) (f : Fin 8) : (th.fifoReserve f).ld = th.ld := rfl
@[simp] theorem Thread.fifoReserve_st (th : Thread) (f : Fin 8) : (th.fifoReserve f).st = th.st := rfl
@[simp] theorem Thread.fifoReserve_cp (th : Thread) (f : Fin 8) : (th.fifoReserve f).cp = th.cp := rfl
@[simp] theorem Thread.fifoReserve_mx (th : Thread) (f : Fin 8) : (th.fifoReserve f).mx = th.mx := rfl
@[simp] theorem Thread.fifoReserve_fifoGen (th : Thread) (f : Fin 8) : (th.fifoReserve f).fifoGen = th.fifoGen := rfl
@[simp] theorem Thread.fifoReserve_specs (th : Thread) (f : Fin 8) : (th.fifoReserve f).specs = th.specs := rfl
@[simp] theorem Thread.fifoReserve_imm (th : Thread) (f : Fin 8) : (th.fifoReserve f).imm = th.imm := rfl
@[simp] theorem Thread.fifoReserve_mark (th : Thread) (f : Fin 8) : (th.fifoReserve f).mark = th.mark := rfl
@[simp] theorem Thread.fifoReserve_group (th : Thread) (f : Fin 8) : (th.fifoReserve f).group = th.group := rfl
@[simp] theorem Thread.fifoReserve_since (th : Thread) (f : Fin 8) : (th.fifoReserve f).since = th.since := rfl
@[simp] theorem Thread.fifoReserve_entry (th : Thread) (f : Fin 8) : (th.fifoReserve f).entry = th.entry := rfl
@[simp] theorem Thread.fifoReserve_hasRun (th : Thread) (f : Fin 8) : (th.fifoReserve f).hasRun = th.hasRun := rfl
@[simp] theorem Thread.fifoReserve_frsrc (th : Thread) (f : Fin 8) : (th.fifoReserve f).frsrc = th.frsrc := rfl
@[simp] theorem Thread.fifoReserve_frec (th : Thread) (f : Fin 8) : (th.fifoReserve f).frec = th.frec := rfl
@[simp] theorem Thread.fifoReserve_fences (th : Thread) (f : Fin 8) : (th.fifoReserve f).fences = th.fences := rfl
@[simp] theorem Thread.fifoReserve_gives (th : Thread) (f : Fin 8) : (th.fifoReserve f).gives = th.gives := rfl
@[simp] theorem Thread.fifoReserve_trapAt (th : Thread) (f : Fin 8) : (th.fifoReserve f).trapAt = th.trapAt := rfl
@[simp] theorem Thread.fifoReserve_reg (th : Thread) (f : Fin 8) (r : Reg) : (th.fifoReserve f).reg r = th.reg r := rfl
@[simp] theorem Thread.fifoPush_status (th : Thread) (f : Fin 8) : (th.fifoPush f).status = th.status := rfl
@[simp] theorem Thread.fifoPush_pc (th : Thread) (f : Fin 8) : (th.fifoPush f).pc = th.pc := rfl
@[simp] theorem Thread.fifoPush_regs (th : Thread) (f : Fin 8) : (th.fifoPush f).regs = th.regs := rfl
@[simp] theorem Thread.fifoPush_gen (th : Thread) (f : Fin 8) : (th.fifoPush f).gen = th.gen := rfl
@[simp] theorem Thread.fifoPush_strict (th : Thread) (f : Fin 8) : (th.fifoPush f).strict = th.strict := rfl
@[simp] theorem Thread.fifoPush_cause (th : Thread) (f : Fin 8) : (th.fifoPush f).cause = th.cause := rfl
@[simp] theorem Thread.fifoPush_epc (th : Thread) (f : Fin 8) : (th.fifoPush f).epc = th.epc := rfl
@[simp] theorem Thread.fifoPush_tval (th : Thread) (f : Fin 8) : (th.fifoPush f).tval = th.tval := rfl
@[simp] theorem Thread.fifoPush_trapActive (th : Thread) (f : Fin 8) : (th.fifoPush f).trapActive = th.trapActive := rfl
@[simp] theorem Thread.fifoPush_role (th : Thread) (f : Fin 8) : (th.fifoPush f).role = th.role := rfl
@[simp] theorem Thread.fifoPush_ld (th : Thread) (f : Fin 8) : (th.fifoPush f).ld = th.ld := rfl
@[simp] theorem Thread.fifoPush_st (th : Thread) (f : Fin 8) : (th.fifoPush f).st = th.st := rfl
@[simp] theorem Thread.fifoPush_cp (th : Thread) (f : Fin 8) : (th.fifoPush f).cp = th.cp := rfl
@[simp] theorem Thread.fifoPush_mx (th : Thread) (f : Fin 8) : (th.fifoPush f).mx = th.mx := rfl
@[simp] theorem Thread.fifoPush_fifoGen (th : Thread) (f : Fin 8) : (th.fifoPush f).fifoGen = th.fifoGen := rfl
@[simp] theorem Thread.fifoPush_specs (th : Thread) (f : Fin 8) : (th.fifoPush f).specs = th.specs := rfl
@[simp] theorem Thread.fifoPush_imm (th : Thread) (f : Fin 8) : (th.fifoPush f).imm = th.imm := rfl
@[simp] theorem Thread.fifoPush_mark (th : Thread) (f : Fin 8) : (th.fifoPush f).mark = th.mark := rfl
@[simp] theorem Thread.fifoPush_group (th : Thread) (f : Fin 8) : (th.fifoPush f).group = th.group := rfl
@[simp] theorem Thread.fifoPush_since (th : Thread) (f : Fin 8) : (th.fifoPush f).since = th.since := rfl
@[simp] theorem Thread.fifoPush_entry (th : Thread) (f : Fin 8) : (th.fifoPush f).entry = th.entry := rfl
@[simp] theorem Thread.fifoPush_hasRun (th : Thread) (f : Fin 8) : (th.fifoPush f).hasRun = th.hasRun := rfl
@[simp] theorem Thread.fifoPush_frsrc (th : Thread) (f : Fin 8) : (th.fifoPush f).frsrc = th.frsrc := rfl
@[simp] theorem Thread.fifoPush_frec (th : Thread) (f : Fin 8) : (th.fifoPush f).frec = th.frec := rfl
@[simp] theorem Thread.fifoPush_fences (th : Thread) (f : Fin 8) : (th.fifoPush f).fences = th.fences := rfl
@[simp] theorem Thread.fifoPush_gives (th : Thread) (f : Fin 8) : (th.fifoPush f).gives = th.gives := rfl
@[simp] theorem Thread.fifoPush_trapAt (th : Thread) (f : Fin 8) : (th.fifoPush f).trapAt = th.trapAt := rfl
@[simp] theorem Thread.fifoPush_reg (th : Thread) (f : Fin 8) (r : Reg) : (th.fifoPush f).reg r = th.reg r := rfl
@[simp] theorem Thread.setReg_status (th : Thread) (r : Reg) (v : Word64) (n : Nat) : (th.setReg r v n).status = th.status := by unfold Thread.setReg; split <;> rfl
@[simp] theorem Thread.setReg_pc (th : Thread) (r : Reg) (v : Word64) (n : Nat) : (th.setReg r v n).pc = th.pc := by unfold Thread.setReg; split <;> rfl
@[simp] theorem Thread.setReg_gen (th : Thread) (r : Reg) (v : Word64) (n : Nat) : (th.setReg r v n).gen = th.gen := by unfold Thread.setReg; split <;> rfl
@[simp] theorem Thread.setReg_strict (th : Thread) (r : Reg) (v : Word64) (n : Nat) : (th.setReg r v n).strict = th.strict := by unfold Thread.setReg; split <;> rfl
@[simp] theorem Thread.setReg_cause (th : Thread) (r : Reg) (v : Word64) (n : Nat) : (th.setReg r v n).cause = th.cause := by unfold Thread.setReg; split <;> rfl
@[simp] theorem Thread.setReg_epc (th : Thread) (r : Reg) (v : Word64) (n : Nat) : (th.setReg r v n).epc = th.epc := by unfold Thread.setReg; split <;> rfl
@[simp] theorem Thread.setReg_tval (th : Thread) (r : Reg) (v : Word64) (n : Nat) : (th.setReg r v n).tval = th.tval := by unfold Thread.setReg; split <;> rfl
@[simp] theorem Thread.setReg_trapActive (th : Thread) (r : Reg) (v : Word64) (n : Nat) : (th.setReg r v n).trapActive = th.trapActive := by unfold Thread.setReg; split <;> rfl
@[simp] theorem Thread.setReg_role (th : Thread) (r : Reg) (v : Word64) (n : Nat) : (th.setReg r v n).role = th.role := by unfold Thread.setReg; split <;> rfl
@[simp] theorem Thread.setReg_ld (th : Thread) (r : Reg) (v : Word64) (n : Nat) : (th.setReg r v n).ld = th.ld := by unfold Thread.setReg; split <;> rfl
@[simp] theorem Thread.setReg_st (th : Thread) (r : Reg) (v : Word64) (n : Nat) : (th.setReg r v n).st = th.st := by unfold Thread.setReg; split <;> rfl
@[simp] theorem Thread.setReg_cp (th : Thread) (r : Reg) (v : Word64) (n : Nat) : (th.setReg r v n).cp = th.cp := by unfold Thread.setReg; split <;> rfl
@[simp] theorem Thread.setReg_mx (th : Thread) (r : Reg) (v : Word64) (n : Nat) : (th.setReg r v n).mx = th.mx := by unfold Thread.setReg; split <;> rfl
@[simp] theorem Thread.setReg_fifos (th : Thread) (r : Reg) (v : Word64) (n : Nat) : (th.setReg r v n).fifos = th.fifos := by unfold Thread.setReg; split <;> rfl
@[simp] theorem Thread.setReg_fifoGen (th : Thread) (r : Reg) (v : Word64) (n : Nat) : (th.setReg r v n).fifoGen = th.fifoGen := by unfold Thread.setReg; split <;> rfl
@[simp] theorem Thread.setReg_specs (th : Thread) (r : Reg) (v : Word64) (n : Nat) : (th.setReg r v n).specs = th.specs := by unfold Thread.setReg; split <;> rfl
@[simp] theorem Thread.setReg_imm (th : Thread) (r : Reg) (v : Word64) (n : Nat) : (th.setReg r v n).imm = th.imm := by unfold Thread.setReg; split <;> rfl
@[simp] theorem Thread.setReg_mark (th : Thread) (r : Reg) (v : Word64) (n : Nat) : (th.setReg r v n).mark = th.mark := by unfold Thread.setReg; split <;> rfl
@[simp] theorem Thread.setReg_group (th : Thread) (r : Reg) (v : Word64) (n : Nat) : (th.setReg r v n).group = th.group := by unfold Thread.setReg; split <;> rfl
@[simp] theorem Thread.setReg_since (th : Thread) (r : Reg) (v : Word64) (n : Nat) : (th.setReg r v n).since = th.since := by unfold Thread.setReg; split <;> rfl
@[simp] theorem Thread.setReg_entry (th : Thread) (r : Reg) (v : Word64) (n : Nat) : (th.setReg r v n).entry = th.entry := by unfold Thread.setReg; split <;> rfl
@[simp] theorem Thread.setReg_hasRun (th : Thread) (r : Reg) (v : Word64) (n : Nat) : (th.setReg r v n).hasRun = th.hasRun := by unfold Thread.setReg; split <;> rfl
@[simp] theorem Thread.setReg_frsrc (th : Thread) (r : Reg) (v : Word64) (n : Nat) : (th.setReg r v n).frsrc = th.frsrc := by unfold Thread.setReg; split <;> rfl
@[simp] theorem Thread.setReg_frec (th : Thread) (r : Reg) (v : Word64) (n : Nat) : (th.setReg r v n).frec = th.frec := by unfold Thread.setReg; split <;> rfl
@[simp] theorem Thread.setReg_fences (th : Thread) (r : Reg) (v : Word64) (n : Nat) : (th.setReg r v n).fences = th.fences := by unfold Thread.setReg; split <;> rfl
@[simp] theorem Thread.setReg_gives (th : Thread) (r : Reg) (v : Word64) (n : Nat) : (th.setReg r v n).gives = th.gives := by unfold Thread.setReg; split <;> rfl
@[simp] theorem Thread.setReg_trapAt (th : Thread) (r : Reg) (v : Word64) (n : Nat) : (th.setReg r v n).trapAt = th.trapAt := by unfold Thread.setReg; split <;> rfl
@[simp] theorem Thread.pendReg_status (th : Thread) (r : Reg) (id : Nat) : (th.pendReg r id).status = th.status := by unfold Thread.pendReg; split <;> rfl
@[simp] theorem Thread.pendReg_pc (th : Thread) (r : Reg) (id : Nat) : (th.pendReg r id).pc = th.pc := by unfold Thread.pendReg; split <;> rfl
@[simp] theorem Thread.pendReg_gen (th : Thread) (r : Reg) (id : Nat) : (th.pendReg r id).gen = th.gen := by unfold Thread.pendReg; split <;> rfl
@[simp] theorem Thread.pendReg_strict (th : Thread) (r : Reg) (id : Nat) : (th.pendReg r id).strict = th.strict := by unfold Thread.pendReg; split <;> rfl
@[simp] theorem Thread.pendReg_cause (th : Thread) (r : Reg) (id : Nat) : (th.pendReg r id).cause = th.cause := by unfold Thread.pendReg; split <;> rfl
@[simp] theorem Thread.pendReg_epc (th : Thread) (r : Reg) (id : Nat) : (th.pendReg r id).epc = th.epc := by unfold Thread.pendReg; split <;> rfl
@[simp] theorem Thread.pendReg_tval (th : Thread) (r : Reg) (id : Nat) : (th.pendReg r id).tval = th.tval := by unfold Thread.pendReg; split <;> rfl
@[simp] theorem Thread.pendReg_trapActive (th : Thread) (r : Reg) (id : Nat) : (th.pendReg r id).trapActive = th.trapActive := by unfold Thread.pendReg; split <;> rfl
@[simp] theorem Thread.pendReg_role (th : Thread) (r : Reg) (id : Nat) : (th.pendReg r id).role = th.role := by unfold Thread.pendReg; split <;> rfl
@[simp] theorem Thread.pendReg_ld (th : Thread) (r : Reg) (id : Nat) : (th.pendReg r id).ld = th.ld := by unfold Thread.pendReg; split <;> rfl
@[simp] theorem Thread.pendReg_st (th : Thread) (r : Reg) (id : Nat) : (th.pendReg r id).st = th.st := by unfold Thread.pendReg; split <;> rfl
@[simp] theorem Thread.pendReg_cp (th : Thread) (r : Reg) (id : Nat) : (th.pendReg r id).cp = th.cp := by unfold Thread.pendReg; split <;> rfl
@[simp] theorem Thread.pendReg_mx (th : Thread) (r : Reg) (id : Nat) : (th.pendReg r id).mx = th.mx := by unfold Thread.pendReg; split <;> rfl
@[simp] theorem Thread.pendReg_fifos (th : Thread) (r : Reg) (id : Nat) : (th.pendReg r id).fifos = th.fifos := by unfold Thread.pendReg; split <;> rfl
@[simp] theorem Thread.pendReg_fifoGen (th : Thread) (r : Reg) (id : Nat) : (th.pendReg r id).fifoGen = th.fifoGen := by unfold Thread.pendReg; split <;> rfl
@[simp] theorem Thread.pendReg_specs (th : Thread) (r : Reg) (id : Nat) : (th.pendReg r id).specs = th.specs := by unfold Thread.pendReg; split <;> rfl
@[simp] theorem Thread.pendReg_imm (th : Thread) (r : Reg) (id : Nat) : (th.pendReg r id).imm = th.imm := by unfold Thread.pendReg; split <;> rfl
@[simp] theorem Thread.pendReg_mark (th : Thread) (r : Reg) (id : Nat) : (th.pendReg r id).mark = th.mark := by unfold Thread.pendReg; split <;> rfl
@[simp] theorem Thread.pendReg_group (th : Thread) (r : Reg) (id : Nat) : (th.pendReg r id).group = th.group := by unfold Thread.pendReg; split <;> rfl
@[simp] theorem Thread.pendReg_since (th : Thread) (r : Reg) (id : Nat) : (th.pendReg r id).since = th.since := by unfold Thread.pendReg; split <;> rfl
@[simp] theorem Thread.pendReg_entry (th : Thread) (r : Reg) (id : Nat) : (th.pendReg r id).entry = th.entry := by unfold Thread.pendReg; split <;> rfl
@[simp] theorem Thread.pendReg_hasRun (th : Thread) (r : Reg) (id : Nat) : (th.pendReg r id).hasRun = th.hasRun := by unfold Thread.pendReg; split <;> rfl
@[simp] theorem Thread.pendReg_frsrc (th : Thread) (r : Reg) (id : Nat) : (th.pendReg r id).frsrc = th.frsrc := by unfold Thread.pendReg; split <;> rfl
@[simp] theorem Thread.pendReg_frec (th : Thread) (r : Reg) (id : Nat) : (th.pendReg r id).frec = th.frec := by unfold Thread.pendReg; split <;> rfl
@[simp] theorem Thread.pendReg_fences (th : Thread) (r : Reg) (id : Nat) : (th.pendReg r id).fences = th.fences := by unfold Thread.pendReg; split <;> rfl
@[simp] theorem Thread.pendReg_gives (th : Thread) (r : Reg) (id : Nat) : (th.pendReg r id).gives = th.gives := by unfold Thread.pendReg; split <;> rfl
@[simp] theorem Thread.pendReg_trapAt (th : Thread) (r : Reg) (id : Nat) : (th.pendReg r id).trapAt = th.trapAt := by unfold Thread.pendReg; split <;> rfl
@[simp] theorem Thread.addCtr_status (th : Thread) (c : Ctr) (n : Nat) : (th.addCtr c n).status = th.status := by cases c <;> rfl
@[simp] theorem Thread.addCtr_pc (th : Thread) (c : Ctr) (n : Nat) : (th.addCtr c n).pc = th.pc := by cases c <;> rfl
@[simp] theorem Thread.addCtr_regs (th : Thread) (c : Ctr) (n : Nat) : (th.addCtr c n).regs = th.regs := by cases c <;> rfl
@[simp] theorem Thread.addCtr_gen (th : Thread) (c : Ctr) (n : Nat) : (th.addCtr c n).gen = th.gen := by cases c <;> rfl
@[simp] theorem Thread.addCtr_strict (th : Thread) (c : Ctr) (n : Nat) : (th.addCtr c n).strict = th.strict := by cases c <;> rfl
@[simp] theorem Thread.addCtr_cause (th : Thread) (c : Ctr) (n : Nat) : (th.addCtr c n).cause = th.cause := by cases c <;> rfl
@[simp] theorem Thread.addCtr_epc (th : Thread) (c : Ctr) (n : Nat) : (th.addCtr c n).epc = th.epc := by cases c <;> rfl
@[simp] theorem Thread.addCtr_tval (th : Thread) (c : Ctr) (n : Nat) : (th.addCtr c n).tval = th.tval := by cases c <;> rfl
@[simp] theorem Thread.addCtr_trapActive (th : Thread) (c : Ctr) (n : Nat) : (th.addCtr c n).trapActive = th.trapActive := by cases c <;> rfl
@[simp] theorem Thread.addCtr_role (th : Thread) (c : Ctr) (n : Nat) : (th.addCtr c n).role = th.role := by cases c <;> rfl
@[simp] theorem Thread.addCtr_fifos (th : Thread) (c : Ctr) (n : Nat) : (th.addCtr c n).fifos = th.fifos := by cases c <;> rfl
@[simp] theorem Thread.addCtr_fifoGen (th : Thread) (c : Ctr) (n : Nat) : (th.addCtr c n).fifoGen = th.fifoGen := by cases c <;> rfl
@[simp] theorem Thread.addCtr_specs (th : Thread) (c : Ctr) (n : Nat) : (th.addCtr c n).specs = th.specs := by cases c <;> rfl
@[simp] theorem Thread.addCtr_imm (th : Thread) (c : Ctr) (n : Nat) : (th.addCtr c n).imm = th.imm := by cases c <;> rfl
@[simp] theorem Thread.addCtr_mark (th : Thread) (c : Ctr) (n : Nat) : (th.addCtr c n).mark = th.mark := by cases c <;> rfl
@[simp] theorem Thread.addCtr_group (th : Thread) (c : Ctr) (n : Nat) : (th.addCtr c n).group = th.group := by cases c <;> rfl
@[simp] theorem Thread.addCtr_since (th : Thread) (c : Ctr) (n : Nat) : (th.addCtr c n).since = th.since := by cases c <;> rfl
@[simp] theorem Thread.addCtr_entry (th : Thread) (c : Ctr) (n : Nat) : (th.addCtr c n).entry = th.entry := by cases c <;> rfl
@[simp] theorem Thread.addCtr_hasRun (th : Thread) (c : Ctr) (n : Nat) : (th.addCtr c n).hasRun = th.hasRun := by cases c <;> rfl
@[simp] theorem Thread.addCtr_frsrc (th : Thread) (c : Ctr) (n : Nat) : (th.addCtr c n).frsrc = th.frsrc := by cases c <;> rfl
@[simp] theorem Thread.addCtr_frec (th : Thread) (c : Ctr) (n : Nat) : (th.addCtr c n).frec = th.frec := by cases c <;> rfl
@[simp] theorem Thread.addCtr_fences (th : Thread) (c : Ctr) (n : Nat) : (th.addCtr c n).fences = th.fences := by cases c <;> rfl
@[simp] theorem Thread.addCtr_gives (th : Thread) (c : Ctr) (n : Nat) : (th.addCtr c n).gives = th.gives := by cases c <;> rfl
@[simp] theorem Thread.addCtr_trapAt (th : Thread) (c : Ctr) (n : Nat) : (th.addCtr c n).trapAt = th.trapAt := by cases c <;> rfl
@[simp] theorem Thread.subCtr_status (th : Thread) (c : Ctr) (n : Nat) : (th.subCtr c n).status = th.status := by cases c <;> rfl
@[simp] theorem Thread.subCtr_pc (th : Thread) (c : Ctr) (n : Nat) : (th.subCtr c n).pc = th.pc := by cases c <;> rfl
@[simp] theorem Thread.subCtr_regs (th : Thread) (c : Ctr) (n : Nat) : (th.subCtr c n).regs = th.regs := by cases c <;> rfl
@[simp] theorem Thread.subCtr_gen (th : Thread) (c : Ctr) (n : Nat) : (th.subCtr c n).gen = th.gen := by cases c <;> rfl
@[simp] theorem Thread.subCtr_strict (th : Thread) (c : Ctr) (n : Nat) : (th.subCtr c n).strict = th.strict := by cases c <;> rfl
@[simp] theorem Thread.subCtr_cause (th : Thread) (c : Ctr) (n : Nat) : (th.subCtr c n).cause = th.cause := by cases c <;> rfl
@[simp] theorem Thread.subCtr_epc (th : Thread) (c : Ctr) (n : Nat) : (th.subCtr c n).epc = th.epc := by cases c <;> rfl
@[simp] theorem Thread.subCtr_tval (th : Thread) (c : Ctr) (n : Nat) : (th.subCtr c n).tval = th.tval := by cases c <;> rfl
@[simp] theorem Thread.subCtr_trapActive (th : Thread) (c : Ctr) (n : Nat) : (th.subCtr c n).trapActive = th.trapActive := by cases c <;> rfl
@[simp] theorem Thread.subCtr_role (th : Thread) (c : Ctr) (n : Nat) : (th.subCtr c n).role = th.role := by cases c <;> rfl
@[simp] theorem Thread.subCtr_fifos (th : Thread) (c : Ctr) (n : Nat) : (th.subCtr c n).fifos = th.fifos := by cases c <;> rfl
@[simp] theorem Thread.subCtr_fifoGen (th : Thread) (c : Ctr) (n : Nat) : (th.subCtr c n).fifoGen = th.fifoGen := by cases c <;> rfl
@[simp] theorem Thread.subCtr_specs (th : Thread) (c : Ctr) (n : Nat) : (th.subCtr c n).specs = th.specs := by cases c <;> rfl
@[simp] theorem Thread.subCtr_imm (th : Thread) (c : Ctr) (n : Nat) : (th.subCtr c n).imm = th.imm := by cases c <;> rfl
@[simp] theorem Thread.subCtr_mark (th : Thread) (c : Ctr) (n : Nat) : (th.subCtr c n).mark = th.mark := by cases c <;> rfl
@[simp] theorem Thread.subCtr_group (th : Thread) (c : Ctr) (n : Nat) : (th.subCtr c n).group = th.group := by cases c <;> rfl
@[simp] theorem Thread.subCtr_since (th : Thread) (c : Ctr) (n : Nat) : (th.subCtr c n).since = th.since := by cases c <;> rfl
@[simp] theorem Thread.subCtr_entry (th : Thread) (c : Ctr) (n : Nat) : (th.subCtr c n).entry = th.entry := by cases c <;> rfl
@[simp] theorem Thread.subCtr_hasRun (th : Thread) (c : Ctr) (n : Nat) : (th.subCtr c n).hasRun = th.hasRun := by cases c <;> rfl
@[simp] theorem Thread.subCtr_frsrc (th : Thread) (c : Ctr) (n : Nat) : (th.subCtr c n).frsrc = th.frsrc := by cases c <;> rfl
@[simp] theorem Thread.subCtr_frec (th : Thread) (c : Ctr) (n : Nat) : (th.subCtr c n).frec = th.frec := by cases c <;> rfl
@[simp] theorem Thread.subCtr_fences (th : Thread) (c : Ctr) (n : Nat) : (th.subCtr c n).fences = th.fences := by cases c <;> rfl
@[simp] theorem Thread.subCtr_gives (th : Thread) (c : Ctr) (n : Nat) : (th.subCtr c n).gives = th.gives := by cases c <;> rfl
@[simp] theorem Thread.subCtr_trapAt (th : Thread) (c : Ctr) (n : Nat) : (th.subCtr c n).trapAt = th.trapAt := by cases c <;> rfl

end Sys2Proof.Machine
end

