-- ==== Sys2Proof/Laws/Memory.lean ====
section
/-! SUPPORT. Main memory: every operation keeps the canonical form; a read after a write; what a write under a key leaves of every other byte under every key. -/

namespace Sys2Proof.Machine

/-! ## Cells -/

theorem cellsAbove_weaken {m : List Host.Cell} {l : Option Nat} {a : Nat} (h : cellsAbove (some a) m = true) (hl : ∀ b, l = some b → b ≤ a) :
    cellsAbove l m = true := by
  cases m with
  | nil => rfl
  | cons p rest =>
    obtain ⟨b, v⟩ := p
    cases l with
    | none => simp_all [cellsAbove]
    | some c =>
      have := hl c rfl
      simp only [cellsAbove, Bool.and_eq_true, decide_eq_true_eq] at h ⊢
      exact ⟨⟨by omega, h.1.2⟩, h.2⟩

theorem cellWrite_above {m : List Host.Cell} {l : Option Nat} {a : Nat} {v : Byte} (h : cellsAbove l m = true) (hl : ∀ b, l = some b → b < a) :
    cellsAbove l (cellWrite m a v) = true := by
  induction m generalizing l with
  | nil =>
    by_cases hv : v = unlistedByte
    · simp [cellWrite, hv, cellsAbove]
    · cases l <;> simp_all [cellWrite, cellsAbove]
  | cons p rest ih =>
    obtain ⟨b, w⟩ := p
    have hb : cellsAbove (some b) rest = true := by simp only [cellsAbove, Bool.and_eq_true] at h; exact h.2
    have hw : w ≠ unlistedByte := by simp only [cellsAbove, Bool.and_eq_true, decide_eq_true_eq] at h; exact h.1.2
    have hlow : ∀ c, l = some c → c < b := by
      intro c e; subst e; simp only [cellsAbove, Bool.and_eq_true, decide_eq_true_eq] at h; exact h.1.1
    have put : ∀ (q : Nat) (x : Byte) (r : List Host.Cell), x ≠ unlistedByte → cellsAbove (some q) r = true → (∀ c, l = some c → c < q) →
        cellsAbove l ((q, x) :: r) = true := by
      intro q x r hx hr hq
      cases l with
      | none => simp [cellsAbove, hx, hr]
      | some c => simp [cellsAbove, hx, hr, hq c rfl]
    simp only [cellWrite]
    split
    · split
      · exact h
      · rename_i h1 h2
        refine put a v _ h2 ?_ hl
        simp [cellsAbove, h1, hw, hb]
    · split
      · split
        · exact cellsAbove_weaken hb (fun c e => Nat.le_of_lt (hlow c e))
        · rename_i e hv
          subst e
          exact put a v _ hv hb hlow
      · exact put b w _ hw (ih hb (fun c e => by cases e; omega)) hlow

theorem cellWrite_wf {m : List Host.Cell} (a : Nat) (v : Byte) (h : Memory.wf m = true) : Memory.wf (cellWrite m a v) = true :=
  cellWrite_above h (fun _ e => by cases e)

theorem cellsWrite_wf (l : List Byte) {m : List Host.Cell} (a : Nat) (h : Memory.wf m = true) : Memory.wf (cellsWrite m a l) = true := by
  induction l generalizing m a with
  | nil => exact h
  | cons b rest ih => exact ih (a + 1) (cellWrite_wf a b h)

theorem cellRead_below {m : List Host.Cell} {a b : Nat} (h : cellsAbove (some b) m = true) (hab : a ≤ b) : cellRead m a = unlistedByte := by
  cases m with
  | nil => rfl
  | cons p rest =>
    obtain ⟨c, w⟩ := p
    simp only [cellsAbove, Bool.and_eq_true, decide_eq_true_eq] at h
    have : a < c := by omega
    simp [cellRead, this]

theorem cellRead_write {m : List Host.Cell} {l : Option Nat} (a : Nat) (v : Byte) (h : cellsAbove l m = true) (b : Nat) :
    cellRead (cellWrite m a v) b = if b = a then v else cellRead m b := by
  induction m generalizing l with
  | nil =>
    by_cases hv : v = unlistedByte
    · subst hv; simp [cellWrite, cellRead]
    · by_cases hb : b = a
      · subst hb; simp [cellWrite, hv, cellRead]
      · simp [cellWrite, hv, cellRead, hb]
  | cons p rest ih =>
    obtain ⟨c, w⟩ := p
    have hc : cellsAbove (some c) rest = true := by simp only [cellsAbove, Bool.and_eq_true] at h; exact h.2
    simp only [cellWrite]
    split
    · rename_i hac
      split
      · rename_i hv
        subst hv
        by_cases hb : b = a
        · subst hb; simp [cellRead, hac]
        · simp [hb]
      · by_cases hb : b = a
        · subst hb; simp [cellRead]
        · simp only [hb, if_false]
          by_cases hlt : b < a
          · have : b < c := by omega
            simp [cellRead, hlt, this]
          · rw [cellRead]; simp [hlt, hb]
    · split
      · rename_i h1 e
        subst e
        by_cases hb : b = a
        · subst hb
          split
          · rename_i hv; subst hv; simp [cellRead_below hc (Nat.le_refl _)]
          · simp [cellRead]
        · simp only [hb, if_false]
          split
          · by_cases hlt : b < a
            · simp [cellRead, hlt, cellRead_below hc (Nat.le_of_lt hlt)]
            · simp [cellRead, hlt, hb]
          · simp [cellRead, hb]
      · rename_i h1 h2
        simp only [cellRead]
        by_cases hlt : b < c
        · have : b ≠ a := by omega
          simp [hlt, this]
        · by_cases he : b = c
          · have : b ≠ a := by omega
            have h2' : ¬c = a := fun e => h2 e.symm
            simp [he, h2']
          · simp [hlt, he, ih hc]

/-! ## Bytes -/

@[simp] theorem bytesOf_length (n v : Nat) : (bytesOf n v).length = n := by
  induction n generalizing v with
  | zero => rfl
  | succ n ih => simp [bytesOf, ih]

@[simp] theorem bytesAt_length (s : State) (key pa n : Nat) : (s.bytesAt key pa n).length = n := by
  induction n generalizing pa with
  | zero => rfl
  | succ n ih => simp [State.bytesAt, ih]

theorem bytesAt_get (s : State) (key : Nat) (n : Nat) (pa i : Nat) (h : i < n) : (s.bytesAt key pa n)[i]? = some (s.byteAt key (pa + i)) := by
  induction n generalizing pa i with
  | zero => omega
  | succ n ih =>
    cases i with
    | zero => simp [State.bytesAt]
    | succ i => simp only [State.bytesAt, List.getElem?_cons_succ]; rw [ih (pa + 1) i (by omega), Nat.add_assoc, Nat.add_comm 1 i]

/-- What consecutive bytes read as once they are written. -/
theorem cellRead_writes (l : List Byte) {m : List Host.Cell} (a : Nat) (h : Memory.wf m = true) (b : Nat) :
    cellRead (cellsWrite m a l) b = if a ≤ b ∧ b < a + l.length then (l[b - a]?).getD 0 else cellRead m b := by
  induction l generalizing m a with
  | nil => simp [cellsWrite] <;> omega
  | cons v rest ih =>
    simp only [cellsWrite]
    rw [ih (a + 1) (cellWrite_wf a v h), cellRead_write a v h]
    by_cases hb : b = a
    · subst hb; simp <;> (intro e; omega)
    · by_cases h2 : a + 1 ≤ b ∧ b < a + 1 + rest.length
      · have h3 : a ≤ b ∧ b < a + (v :: rest).length := by simp only [List.length_cons]; omega
        rw [if_pos h2, if_pos h3]
        have : b - a = (b - (a + 1)) + 1 := by omega
        simp [this]
      · have h3 : ¬(a ≤ b ∧ b < a + (v :: rest).length) := by simp only [List.length_cons]; omega
        rw [if_neg h2, if_neg h3]; simp [hb]

/-! ## Blocks and keys (R14, R15) -/

theorem blockBits_congr {m m1 : List Host.Cell} {q : Nat} (h : ∀ i, i < 16 → cellRead m1 (q * 16 + i) = cellRead m (q * 16 + i)) :
    blockBits m1 q = blockBits m q := by
  unfold blockBits
  rw [List.map_congr_left (fun i hi => h i (List.mem_range.mp hi))]

/-- What an access reads at an address is fixed by the key its block was last written under and by the bytes of the block. -/
theorem byteAt_congr {s t : State} {k a : Nat} (hk : tabFind t.blockKey (a / 16) = tabFind s.blockKey (a / 16))
    (hm : ∀ i, i < 16 → cellRead t.mem (a / 16 * 16 + i) = cellRead s.mem (a / 16 * 16 + i)) : t.byteAt k a = s.byteAt k a := by
  have h1 : cellRead t.mem a = cellRead s.mem a := by
    have := hm (a % 16) (by omega)
    rwa [show a / 16 * 16 + a % 16 = a by omega] at this
  unfold State.byteAt
  rw [hk, h1, blockBits_congr hm]

theorem takeBlock_wf {s : State} (key pa : Nat) (h : Memory.wf s.mem = true) : Memory.wf (s.takeBlock key pa).mem = true := by
  unfold State.takeBlock
  split
  · split
    · split
      · exact h
      · dsimp only
        generalize s.bytesAt key (pa / 16 * 16) 16 = l
        exact cellsWrite_wf l _ h
    · exact h
  · exact h

theorem inLpddr_block {a b : Nat} (h : a / 16 = b / 16) : inLpddr a = inLpddr b := by
  unfold inLpddr ownPa
  have : (2 ^ 56 ≤ a) = (2 ^ 56 ≤ b) := by simp only [eq_iff_iff]; omega
  by_cases h1 : 2 ^ 56 ≤ b
  · rw [if_pos h1, if_pos (this ▸ h1)]; congr 1; simp only [eq_iff_iff]; omega
  · rw [if_neg h1, if_neg (this ▸ h1)]; congr 1; simp only [eq_iff_iff]; omega

/-- The block taken over reads under its new key as before, and every other block reads as before under every key. -/
theorem takeBlock_byteAt {s : State} (key pa : Nat) (h : Memory.wf s.mem = true) (k a : Nat) (hk : k = key ∨ a / 16 ≠ pa / 16) :
    (s.takeBlock key pa).byteAt k a = s.byteAt k a := by
  unfold State.takeBlock
  split
  · rename_i hl
    split
    · rename_i old ho
      split
      · rfl
      · rename_i hne
        by_cases hq : a / 16 = pa / 16
        · obtain rfl := hk.resolve_right (fun e => e hq)
          have ha : inLpddr a = true := (inLpddr_block hq).trans hl
          have e : (State.byteAt { s with mem := cellsWrite s.mem (pa / 16 * 16) (s.bytesAt k (pa / 16 * 16) 16),
                                          blockKey := tabPut s.blockKey (pa / 16) k } k a) =
              cellRead (cellsWrite s.mem (pa / 16 * 16) (s.bytesAt k (pa / 16 * 16) 16)) a := by
            unfold State.byteAt
            simp only [ha, if_true, hq, tabFind_put]
          rw [e, cellRead_writes _ _ h]
          simp only [bytesAt_length]
          rw [if_pos (by omega), bytesAt_get _ _ _ _ _ (by omega), show pa / 16 * 16 + (a - pa / 16 * 16) = a by omega, Option.getD_some]
        · refine byteAt_congr (tabFind_put_ne _ _ _ _ hq) (fun i hi => ?_)
          dsimp only
          rw [cellRead_writes _ _ h]
          simp only [bytesAt_length]
          rw [if_neg (by omega)]
    · rename_i ho
      by_cases hq : a / 16 = pa / 16
      · obtain rfl := hk.resolve_right (fun e => e hq)
        unfold State.byteAt
        simp [hq, ho]
      · exact byteAt_congr (tabFind_put_ne _ _ _ _ hq) (fun _ _ => rfl)
  · rfl

theorem takeBlock_key {s : State} (key pa : Nat) (h : inLpddr pa = true) : tabFind (s.takeBlock key pa).blockKey (pa / 16) = some key := by
  unfold State.takeBlock
  simp only [h, if_true]
  split
  · rename_i k hk
    split
    · rename_i e; subst e; exact hk
    · simp
  · simp

theorem writeBytes_wf (l : List Byte) {s : State} (key pa : Nat) (h : Memory.wf s.mem = true) : Memory.wf (s.writeBytes key pa l).mem = true := by
  induction l generalizing s pa with
  | nil => exact h
  | cons b rest ih => exact ih (pa + 1) (cellWrite_wf _ _ (takeBlock_wf key pa h))

theorem writeNum_wf {s : State} (key pa n v : Nat) (h : Memory.wf s.mem = true) : Memory.wf (s.writeNum key pa n v).mem = true :=
  writeBytes_wf _ _ _ h

/-- One byte written under a key: it reads as written under that key; the rest of its block reads as before under that key, and every other block as before
under every key. -/
theorem writeByte_byteAt {s : State} (key pa : Nat) (b : Byte) (h : Memory.wf s.mem = true) (k a : Nat) (hk : k = key ∨ a / 16 ≠ pa / 16) :
    (s.writeBytes key pa [b]).byteAt k a = if a = pa then b else s.byteAt k a := by
  have h1 := takeBlock_wf key pa h
  have hr := cellRead_write pa b h1
  have h2 := takeBlock_byteAt key pa h k a hk
  simp only [State.writeBytes]
  by_cases hq : a / 16 = pa / 16
  · obtain rfl := hk.resolve_right (fun e => e hq)
    by_cases ha : a = pa
    · subst ha
      unfold State.byteAt
      by_cases hl : inLpddr a = true
      · simp only [hl, if_true]
        rw [takeBlock_key _ _ hl]
        simp [hr]
      · simp [hl, hr]
    · rw [if_neg ha, ← h2]
      unfold State.byteAt
      by_cases hl : inLpddr a = true
      · have hb := takeBlock_key (s := s) k pa ((inLpddr_block hq).symm.trans hl)
        simp only [hl, if_true, hq, hb, hr, ha, if_false]
      · simp [hl, hr, ha]
  · have ha : a ≠ pa := fun e => hq (by rw [e])
    rw [if_neg ha, ← h2]
    refine byteAt_congr rfl (fun i hi => ?_)
    rw [hr, if_neg (by omega)]

/-- Bytes written under a key: they read as written under that key; every other byte reads as before under that key, and bytes of blocks not written as before
under every key. -/
theorem writeBytes_byteAt (l : List Byte) {s : State} (key pa : Nat) (h : Memory.wf s.mem = true) (k a : Nat)
    (hk : k = key ∨ ∀ i, i < l.length → a / 16 ≠ (pa + i) / 16) :
    (s.writeBytes key pa l).byteAt k a = if pa ≤ a ∧ a < pa + l.length then (l[a - pa]?).getD 0 else s.byteAt k a := by
  induction l generalizing s pa with
  | nil => simp [State.writeBytes] <;> omega
  | cons b rest ih =>
    have e : s.writeBytes key pa (b :: rest) = (s.writeBytes key pa [b]).writeBytes key (pa + 1) rest := rfl
    have hw := writeBytes_wf [b] key pa h
    have hk1 : k = key ∨ a / 16 ≠ pa / 16 := hk.imp id (fun f => by simpa using f 0 (by simp))
    rw [e, ih (pa + 1) hw (hk.imp id (fun f i hi => by
      have := f (i + 1) (by simpa using hi)
      rwa [show pa + 1 + i = pa + (i + 1) by omega])), writeByte_byteAt key pa b h k a hk1]
    by_cases ha : a = pa
    · subst ha; simp <;> (intro e; omega)
    · by_cases h2 : pa + 1 ≤ a ∧ a < pa + 1 + rest.length
      · have h3 : pa ≤ a ∧ a < pa + (b :: rest).length := by simp only [List.length_cons]; omega
        rw [if_pos h2, if_pos h3]
        have : a - pa = (a - (pa + 1)) + 1 := by omega
        simp [this]
      · have h3 : ¬(pa ≤ a ∧ a < pa + (b :: rest).length) := by simp only [List.length_cons]; omega
        rw [if_neg h2, if_neg h3, if_neg ha]

theorem takeBlock_rest (s : State) (key pa : Nat) : ∃ m l, s.takeBlock key pa = { s with mem := m, blockKey := l } := by
  unfold State.takeBlock
  split
  · split
    · split
      · exact ⟨s.mem, s.blockKey, rfl⟩
      · exact ⟨_, _, rfl⟩
    · exact ⟨s.mem, _, rfl⟩
  · exact ⟨s.mem, s.blockKey, rfl⟩

/-- Writes of bytes change main memory and the keys of its blocks, and nothing else. -/
theorem writeBytes_rest (l : List Byte) (s : State) (key pa : Nat) : ∃ m k, s.writeBytes key pa l = { s with mem := m, blockKey := k } := by
  induction l generalizing s pa with
  | nil => exact ⟨s.mem, s.blockKey, rfl⟩
  | cons b rest ih =>
    obtain ⟨m, k, e⟩ := takeBlock_rest s key pa
    simp only [State.writeBytes, e]
    obtain ⟨m1, k1, e1⟩ := ih ({ s with mem := cellWrite m pa b, blockKey := k } : State) (pa + 1)
    exact ⟨m1, k1, e1⟩

/-- Memory right after reset has the canonical form. -/
theorem reset_wf : Memory.wf State.reset.mem = true := rfl

end Sys2Proof.Machine
end

