-- ==== Sys2Proof/Laws/Ops.lean ====
section
/-! SUPPORT. What each shared operation does, said once: the issue and the retirement of a control instruction, register writes, taking an exception, memory requests and
operations started, records sent, streams and nodes replaced, tokens taken from circuits, and the answer of a tile instruction. -/

namespace Sys2Proof.Machine

/-! ## Issue, results, exceptions -/

/-- Putting the issuing thread back changes only that thread. -/
theorem onlyMe_setMe (s : State) (x : Thread) : OnlyMe s (s.setMe x) := by
  refine ⟨?_, ?_, ?_, ?_⟩
  · simp
  · intro q h; exact State.setThr_thr_ne _ _ _ _ h
  · intro key a; rfl
  · intro a; rfl

/-- A register written reads as written; g0 reads zero. -/
theorem reg_setReg (th : Thread) (d : Reg) (v : Word64) (n : Nat) : (th.setReg d v n).reg d = if d = 0 then 0 else v := by
  unfold Thread.setReg Thread.reg
  by_cases h : d = 0 <;> simp [h]

/-- Every other register reads as before. -/
theorem reg_setReg_ne (th : Thread) (d r : Reg) (v : Word64) (n : Nat) (h : r ≠ d) : (th.setReg d v n).reg r = th.reg r := by
  unfold Thread.setReg Thread.reg
  by_cases h0 : d = 0 <;> simp [h0]
  have : (d : Nat) ≠ r := fun e => h (Fin.ext e.symm)
  simp [this]

/-- Everything retiring an instruction does: the thread is ready at `pc`, its group is over, its give is pushed or its take popped; no register, system register or counter changes. -/
theorem retireNow_spec (th : Thread) (pc : Nat) :
    (∀ r, (th.retireNow pc).reg r = th.reg r) ∧ (th.retireNow pc).regs = th.regs ∧ RetiredAt th (th.retireNow pc) pc ∧ SameSystem th (th.retireNow pc) ∧
      SameCounters th (th.retireNow pc) := by
  unfold Thread.retireNow Thread.retire
  rcases h : th.mark with _ | ⟨_ | _, f⟩ <;>
    refine ⟨fun r => rfl, rfl, ?_⟩ <;>
    simp [h, RetiredAt, SameSystem, SameCounters, Thread.ranTo, Thread.endGroup, Thread.fifoPop, Thread.fifoReserve, Thread.fifoPush]

/-- Writing a register changes no system register, counter, mark or token FIFO. -/
theorem setReg_system (th : Thread) (d : Reg) (v : Word64) (n : Nat) : SameSystem th (th.setReg d v n) ∧ SameCounters th (th.setReg d v n)
   ∧ (th.setReg d v n).mark = th.mark ∧ (th.setReg d v n).fifos = th.fifos ∧ (th.setReg d v n).gives = th.gives := by
  unfold Thread.setReg; split <;> simp [SameSystem, SameCounters]
theorem next_setReg (th : Thread) (d : Reg) (v : Word64) (n : Nat) : (th.setReg d v n).next = th.next := by
  unfold Thread.setReg Thread.next; split <;> rfl

/-- Everything retiring an instruction that completes at a later cycle does: the same, but that its give waits for that cycle (R155). -/
theorem retireAt_spec (th : Thread) (pc n : Nat) :
    (∀ r, (th.retireAt pc n).reg r = th.reg r) ∧ (th.retireAt pc n).regs = th.regs ∧ RetiredAt th (th.retireAt pc n) pc ∧ SameSystem th (th.retireAt pc n) ∧
      SameCounters th (th.retireAt pc n) ∧
      (th.retireAt pc n).gives = th.gives ++ (match th.mark with
        | some (false, f) => [(n, f)]
        | _ => []) := by
  unfold Thread.retireAt Thread.retire
  rcases h : th.mark with _ | ⟨_ | _, f⟩ <;>
    refine ⟨fun r => rfl, rfl, ?_⟩ <;>
    simp [h, RetiredAt, SameSystem, SameCounters, Thread.ranTo, Thread.endGroup, Thread.fifoPop, Thread.fifoReserve]

/-- Everything `finish` does. -/
theorem wrote_finish (s : State) (d : Reg) (v : Word64) (lat : Nat) : Wrote s d v lat s.me.next (finish s d v lat) := by
  have h1 := retireAt_spec (s.me.setReg d v (s.now + lat)) s.me.next (s.now + lat)
  have h2 := setReg_system s.me d v (s.now + lat)
  unfold finish
  refine ⟨onlyMe_setMe _ _, ?_, ?_, ?_, ?_, ?_, ?_⟩ <;> simp only [State.setMe_me]
  · rw [h1.1, reg_setReg]
  · intro r hr; rw [h1.1, reg_setReg_ne _ _ _ _ _ hr]
  · intro hd; simp only [h1.2.1]; simp [Thread.setReg, hd]
  · obtain ⟨a, b, c, d, e, f⟩ := h1.2.2.1
    exact ⟨a, b, c, d, e, fun hm => by rw [(f (by rw [h2.2.2.1]; exact hm)).1, (f (by rw [h2.2.2.1]; exact hm)).2, h2.2.2.2.1, h2.2.2.2.2]; exact ⟨rfl, rfl⟩⟩
  · obtain ⟨a1, a2, a3, a4, a5, a6, a7, a8, a9, aa, ab⟩ := h1.2.2.2.1
    obtain ⟨b1, b2, b3, b4, b5, b6, b7, b8, b9, ba, bb⟩ := h2.1
    simp_all [SameSystem]
  · have := h1.2.2.2.2.1; have := h2.2.1; simp_all [SameCounters]

/-- An instruction that issues runs its body. -/
theorem issue_eq (s : State) (n : Needs) (body : State → State) (h : Issues s n) : issue n body s = body s := by
  obtain ⟨h1, h2⟩ := h
  simp [issue, h1, h2]

/-- What an answered next state holds. -/
theorem runs_next {i : Instr} {s t : State} {P : State → Prop} (h : exec i s = .next t) (hp : P t) : Runs i s P := ⟨t, h, hp⟩

/-- An instruction whose meaning is an issue, once it issues. -/
theorem runs_issue {i : Instr} {s : State} {n : Needs} {body : State → State} {P : State → Prop} (e : exec i s = .next (issue n body s))
   (h : Issues s n) (hp : P (body s)) : Runs i s P := ⟨body s, by rw [e, issue_eq s n body h], hp⟩
theorem wrote_congr {s t : State} {d : Reg} {v w : Word64} {l p : Nat} (h : Wrote s d v l p t) (e : v = w) : Wrote s d w l p t := e ▸ h

/-- Retiring without a result goes on and changes no register. -/
theorem goes_retire (s : State) (pc : Nat) : WentOn s pc (s.setMe (s.me.retireNow pc)) := by
  have h1 := retireNow_spec s.me pc
  refine ⟨onlyMe_setMe _ _, ?_, ?_, ?_, ?_⟩ <;> simp only [State.setMe_me]
  · exact h1.1
  · exact h1.2.2.1
  · exact h1.2.2.2.1
  · exact h1.2.2.2.2

/-- A fault of the issuing instruction in a thread that can trap: everything taking the exception does (R190). -/
theorem trapped_trapMe (s : State) (c : Cause) (tval : Word64) (vec : Nat) (h : CanTrap s vec) : Trapped s c tval vec (trapMe s c tval) := by
  obtain ⟨⟨g, hg, hv⟩, ht, hs⟩ := h
  have e : trapMe s c tval = s.setMe (({ s.me with trapAt := s.now + 1 } : Thread).enterTrap vec c s.me.issuePc tval) := by
    have ht' : (s.thr s.focus).trapActive = false := ht
    have hs' : (s.thr s.focus).specs = [] := hs
    simp only [trapMe, State.me, hs', takeTrap, hg, ht', hv, State.setMe, List.isEmpty_nil, if_true, Bool.false_eq_true, if_false]
    rfl
  rw [e]
  refine ⟨onlyMe_setMe _ _, ?_⟩
  simp only [State.setMe_me]
  exact ⟨rfl, rfl, rfl, rfl, rfl, rfl, fun r => rfl⟩

/-- A stalled instruction. -/
theorem stalled_stall (s : State) : Stalled s (stall s) := ⟨onlyMe_setMe _ _, State.setMe_me _ _⟩

/-- Everything a jump with a link does. -/
theorem wrote_jump (s : State) (d : Reg) (v : Word64) (pc : Nat) : Wrote s d v 1 pc (s.setMe ((s.me.setReg d v (s.now + 1)).retireNow pc)) := by
  have h1 := retireNow_spec (s.me.setReg d v (s.now + 1)) pc
  have h2 := setReg_system s.me d v (s.now + 1)
  refine ⟨onlyMe_setMe _ _, ?_, ?_, ?_, ?_, ?_, ?_⟩ <;> simp only [State.setMe_me]
  · rw [h1.1, reg_setReg]
  · intro r hr; rw [h1.1, reg_setReg_ne _ _ _ _ _ hr]
  · intro hd; simp only [h1.2.1]; simp [Thread.setReg, hd]
  · obtain ⟨a, b, c, d, e, f⟩ := h1.2.2.1
    exact ⟨a, b, c, d, e, fun hm => by rw [(f (by rw [h2.2.2.1]; exact hm)).1, (f (by rw [h2.2.2.1]; exact hm)).2, h2.2.2.2.1, h2.2.2.2.2]; exact ⟨rfl, rfl⟩⟩
  · obtain ⟨a1, a2, a3, a4, a5, a6, a7, a8, a9, aa, ab⟩ := h1.2.2.2.1
    obtain ⟨b1, b2, b3, b4, b5, b6, b7, b8, b9, ba, bb⟩ := h2.1
    simp_all [SameSystem]
  · have := h1.2.2.2.2; have := h2.2.1; simp_all [SameCounters]
theorem setReg_zero (th : Thread) (v : Word64) (n : Nat) : th.setReg 0 v n = th := by simp [Thread.setReg]

/-- The invariant holds right after reset. -/
theorem inv_reset : Inv State.reset := reset_wf

/-! ## Taking an exception in general (R190) -/

/-- Everything taking an exception does: in a grove with a vector the thread enters it; inside a handler, in a grove without a vector or outside any grove it halts, and only in the
last case is nothing sent. The debugger sees the cycle of it (R213). -/
theorem takeTrap_cases (s : State) (t : Nat) (c : Cause) (tval : Word64) :
    ∃ th : Thread, th = { s.thr t with trapAt := s.now + 1 } ∧
    ((∃ g vec, s.groveOfThread t = some g ∧ (s.thr t).trapActive = false ∧ (s.grove g).tvec = some vec ∧
      takeTrap s t c tval = s.setThr t (th.enterTrap vec c th.issuePc tval)) ∨
    (∃ g r, s.groveOfThread t = some g ∧ (s.thr t).trapActive = true ∧ r.dbl = true ∧ r.cause = c ∧
      takeTrap s t c tval = (s.setThr t { (s.thr t).haltAt with pc := (s.thr t).issuePc }).sendRecord g r) ∨
    (∃ g arg, s.groveOfThread t = some g ∧ (s.thr t).trapActive = false ∧ (s.grove g).tvec = none ∧
      takeTrap s t c tval = (s.setThr t { th.haltAt with cause := c, epc := th.issuePc, tval := tval, pc := th.issuePc }).logEvent c g 0 arg) ∨
    (s.groveOfThread t = none ∧
      takeTrap s t c tval = s.setThr t { th.haltAt with cause := c, epc := th.issuePc, tval := tval, pc := th.issuePc })) := by
  refine ⟨_, rfl, ?_⟩
  unfold takeTrap
  dsimp only
  cases hg : s.groveOfThread t with
  | none => exact .inr (.inr (.inr ⟨rfl, rfl⟩))
  | some g =>
    dsimp only
    cases ha : (s.thr t).trapActive with
    | true =>
      rw [if_pos rfl]
      exact .inr (.inl ⟨g, _, rfl, rfl, rfl, rfl, rfl⟩)
    | false =>
      rw [if_neg (by simp)]
      cases hv : (s.grove g).tvec with
      | some vec => exact .inl ⟨g, vec, rfl, rfl, hv, rfl⟩
      | none => exact .inr (.inr (.inl ⟨g, _, rfl, rfl, hv, rfl⟩))

/-- Everything an event record does: one entry more in the ring, or one record more counted as lost. -/
theorem logEvent_cases (s : State) (c : Cause) (grove handle arg : Nat) :
    (∃ m k, s.logEvent c grove handle arg = { s with mem := m, blockKey := k, mgmt := { s.mgmt with evHead := s.mgmt.evHead + 1, evLost := 0, vec0 := s.mgmt.vec0 + 1 } } ∧
      (Memory.wf s.mem = true → Memory.wf m = true)) ∨
    s.logEvent c grove handle arg = { s with mgmt := { s.mgmt with evLost := s.mgmt.evLost + 1 } } := by
  unfold State.logEvent
  dsimp only
  split
  · generalize hs : s.writeNum 0 _ 32 _ = s1
    have hk : ∃ m k, s1 = { s with mem := m, blockKey := k } ∧ (Memory.wf s.mem = true → Memory.wf m = true) := by
      subst hs
      unfold State.writeNum
      generalize bytesOf 32 _ = l
      obtain ⟨m, k, e⟩ := writeBytes_rest l s 0 (s.mgmt.evBase.toNat + s.mgmt.evHead % 2 ^ s.mgmt.evSize.toNat * 32)
      refine ⟨m, k, e, fun h => ?_⟩
      have := writeBytes_wf l 0 (s.mgmt.evBase.toNat + s.mgmt.evHead % 2 ^ s.mgmt.evSize.toNat * 32) h
      rwa [e] at this
    obtain ⟨m, k, rfl, h⟩ := hk
    exact .inl ⟨m, k, rfl, h⟩
  · exact .inr rfl

/-- Everything a fault record does: one packet more, for the fault vector of the grove. -/
theorem sendRecord_eq (s : State) (g : Nat) (r : FaultRec) : ∃ p : Packet, s.sendRecord g r = { s with packets := s.packets ++ [p], nextId := s.nextId + 1 } ∧
    p.type = 6 ∧ p.cls = 15 ∧ p.vl = 3 ∧ p.grove = g ∧ p.pay = [r.bits] ∧ p.dclu = cluCode (s.grove g).cluster0 ∧ p.id = s.nextId :=
  ⟨_, rfl, rfl, rfl, rfl, rfl, rfl, rfl, rfl⟩

/-! ## Requests and operations -/

/-- Answers set out change the requests' own states, the packets on their way and the next number, and nothing else. -/
theorem answerAll_rest (s : State) : ∃ q p n, answerAll s = { s with reqs := q, packets := p, nextId := n } := by
  unfold answerAll
  generalize s.reqs.filter _ = l
  induction l generalizing s with
  | nil => exact ⟨s.reqs, s.packets, s.nextId, rfl⟩
  | cons r rest ih =>
    simp only [List.foldl_cons]
    generalize h : (ite (r.direct = true) _ _ : State) = s1
    obtain ⟨q, p, n, e⟩ : ∃ q p n, s1 = { s with reqs := q, packets := p, nextId := n } := by
      subst h
      split
      · exact ⟨_, _, _, rfl⟩
      · split
        · exact ⟨_, _, _, rfl⟩
        · exact ⟨_, _, _, rfl⟩
    subst e
    obtain ⟨q1, p1, n1, e1⟩ := ih { s with reqs := q, packets := p, nextId := n }
    exact ⟨q1, p1, n1, e1⟩

/-- A request set on its way changes the requests, their permits, the packets on their way and the next number, and nothing else. -/
theorem addReq_rest (s : State) (r : MemReq) : ∃ q p n k, addReq s r = { s with reqs := q, packets := p, nextId := n, permits := k } := by
  unfold addReq
  dsimp only
  split
  · generalize hs : ({ s with reqs := _ } : State) = s1
    obtain ⟨q, p, n, e⟩ := answerAll_rest s1
    subst hs
    exact ⟨q, p, n, s.permits, e⟩
  · split
    · exact ⟨_, s.packets, s.nextId, s.permits, rfl⟩
    · cases r.permit with
      | none => cases r.direct <;> exact ⟨_, _, _, _, rfl⟩
      | some k => cases r.direct <;> exact ⟨_, _, _, _, rfl⟩

/-- A request with an event to perform stands last among the requests: it has left when its permit was free, and a core's request to a slice of its own cluster is at
its node at once. -/
theorem addReq_reqs (s : State) (r : MemReq) (h : r.pieces ≠ []) :
    ∃ sent arr, (addReq s r).reqs = s.reqs ++ [{ r with ans := 0, sent := sent, arr := arr }] := by
  have he : r.pieces.isEmpty = false := by cases hp : r.pieces <;> simp_all
  unfold addReq
  simp only [he, Bool.false_eq_true, if_false]
  split
  · exact ⟨_, _, rfl⟩
  · cases r.permit with
    | none => cases hd : r.direct <;> exact ⟨_, _, rfl⟩
    | some k => cases hd : r.direct <;> exact ⟨_, _, rfl⟩

/-- A request of a control core to the hearth spends no permit: its packet leaves on lane 2 at once (R70, R72, R75). -/
theorem addReq_free (s : State) (r : MemReq) (h : r.pieces ≠ []) (hp : r.permit = none) (hd : r.direct = false) :
    addReq s r = ({ s with reqs := s.reqs ++ [{ r with ans := 0, sent := true, arr := none }] } : State).send
      (requestPacket s { r with ans := 0, sent := true, arr := none }) := by
  have he : r.pieces.isEmpty = false := by cases hp : r.pieces <;> simp_all
  simp [addReq, he, hp, hd]

/-- Everything a new request does: it is on its way with its id and source, counts, and its thread has retired the instruction with its destination pending. -/
theorem putReq_eq (s : State) (r : MemReq) (c : Ctr) : ∃ th : Thread, ∃ give : Option (Fin 8),
    putReq s r c = addReq { s.setMe th with nextId := s.nextId + 1 } { r with id := s.nextId, src := s.focus, give := give } ∧
    th.pc = s.me.next ∧ th.status = .ready ∧ th.mark = none ∧ th.imm = none ∧ th.group = none ∧ (∀ k, th.ctr k = s.me.ctr k + if k = c then 1 else 0) := by
  refine ⟨_, _, rfl, ?_, ?_, ?_, ?_, ?_, ?_⟩ <;> unfold Thread.retire <;> cases s.me.mark with
  | none => cases r.dst <;> cases c <;> simp [Thread.ranTo, Thread.endGroup, Thread.addCtr, Thread.pendReg, Thread.ctr] <;> (try split) <;> (try intro k) <;> (try cases k) <;> simp
  | some m =>
    obtain ⟨a, f⟩ := m
    cases a <;> cases r.dst <;> cases c <;> simp [Thread.ranTo, Thread.endGroup, Thread.addCtr, Thread.pendReg, Thread.ctr, Thread.fifoPop, Thread.fifoReserve] <;>
      (try split) <;> (try intro k) <;> (try cases k) <;> simp

/-! ## Streams, nodes, circuits -/

@[simp] theorem genStream_setGen (s : State) (x k : Nat) (v : Option Stream) (h : k < 8) : genStream (setGen s x k v) x k = v := by
  have hk : k / 4 < 2 := by omega
  have hm : k % 4 < 4 := by omega
  simp [genStream, setGen, setEngine, engineOf, at_, hk, hm]

theorem genStream_setGen_ne (s : State) (x k : Nat) (v : Option Stream) (y j : Nat) (h : y ≠ x ∨ j ≠ k) : genStream (setGen s x k v) y j = genStream s y j := by
  by_cases hy : y = x
  · subst hy
    have hj : j ≠ k := h.resolve_left (fun e => e rfl)
    simp only [genStream, setGen, setEngine, engineOf, State.setSlice_slice]
    by_cases hq : j / 4 < 2
    · simp only [at_, Vector.toList_ofFn, List.getElem?_ofFn, hq, dite_true]
      by_cases he : j / 4 = k / 4
      · have hm : j % 4 ≠ k % 4 := by omega
        have hm4 : j % 4 < 4 := by omega
        simp [he, hm, hm4, he ▸ hq]
      · simp [he, hq]
    · simp [at_, hq]
  · simp [genStream, setGen, setEngine, engineOf, State.setSlice_slice_ne _ _ _ _ hy]

/-- Everything taking a token from a circuit's sink does: the token is one that is due there, and it alone has left the tracks. -/
theorem takeFlight_spec {s s1 : State} {sink : Nat} {f : Flight} (h : takeFlight s sink = some (f, s1)) :
    f.sink = sink ∧ f.due ≤ s.now ∧ f ∈ s.flights ∧ ∃ k, s.flights[k]? = some f ∧ s1 = { s with flights := s.flights.eraseIdx k } := by
  unfold takeFlight at h
  split at h
  · cases h
  · rename_i k hk
    cases hf : s.flights[k]? with
    | none => simp [hf] at h
    | some g =>
      simp only [hf, Option.map_some, Option.some.injEq, Prod.mk.injEq] at h
      obtain ⟨rfl, rfl⟩ := h
      have := List.findIdx?_eq_some_iff_getElem.mp hk
      obtain ⟨hl, hp, -⟩ := this
      have hg : s.flights[k] = g := by have := List.getElem?_eq_getElem hl; rw [this] at hf; simpa using hf
      rw [hg] at hp
      simp only [Bool.and_eq_true, decide_eq_true_eq] at hp
      exact ⟨hp.1, hp.2, hg ▸ List.getElem_mem hl, k, hf, rfl⟩

/-! ## Tile instructions -/

/-- Everything a tile instruction's answer can be: it holds issue, its firing faults, or the tile and the firing it leaves stand with the issue cycles spent. -/
theorem tileStep_cases (body : State → Nat → Tile → Firing → Except TStop (Tile × Firing × Nat)) (s : State) (f : Firing) (h : Fires s f) :
    (body s s.site (onTile s) f = .error .wait ∧ tileStep body s = .next s) ∨
    (∃ c q b, body s s.site (onTile s) f = .error (.fault c q b) ∧ tileStep body s = .next (firingFault s s.site (onTile s) f c q b)) ∨
    (∃ t1 f1 n, body s s.site (onTile s) f = .ok (t1, f1, n) ∧
      tileStep body s = .next (s.setTile s.site { t1 with firing := some { f1 with busyTo := s.now + n } })) := by
  have hf : (s.tile s.site).firing = some f := h
  unfold tileStep onTile
  simp only [hf]
  cases hb : body s s.site (s.tile s.site) f with
  | ok r => obtain ⟨t1, f1, n⟩ := r; exact .inr (.inr ⟨t1, f1, n, rfl, rfl⟩)
  | error e =>
    cases e with
    | wait => exact .inl ⟨rfl, rfl⟩
    | fault c q b => exact .inr (.inl ⟨c, q, b, rfl, rfl⟩)

end Sys2Proof.Machine
end

