-- ==== Sys2Proof/Tests/Slice0.lean ====
section
/-! SUPPORT. Tests: words written out from the spec's encodings decode to their instructions, ill-formed terms are refused,
single steps give the results of the spec's worked cases, and every hypothesis of a statement has a witness. -/

namespace Sys2Proof.Machine

set_option Elab.async false

/-! ## Small states -/

/-- What holds of the next state an answer gives; false of a stop. -/
def nextIs (o : Res) (p : State → Bool) : Bool :=
  match o with
  | .next t => p t
  | _ => false

/-- An answer without a fault, of which something holds. -/
def okIs {ε α : Type} (e : Except ε α) (p : α → Bool) : Bool :=
  match e with
  | .ok v => p v
  | .error _ => false

theorem exists_ok {ε α : Type} {e : Except ε α} {p : α → Bool} (h : okIs e p = true) : ∃ v, e = .ok v ∧ p v = true := by
  cases e with
  | ok v => exact ⟨v, rfl, h⟩
  | error _ => cases h

theorem exists_ok_true {ε α : Type} {e : Except ε α} (h : okIs e (fun _ => true) = true) : ∃ v, e = .ok v :=
  (exists_ok h).imp (fun _ k => k.1)

def wThread : Thread := { status := .ready, gen := 1 }
def wRegs (l : List (Nat × Nat)) : Vector GReg 32 :=
  l.foldl (fun v p => at_ v p.1 (fun _ => { val := BitVec.ofNat 64 p.2, gen := 1 })) (Vector.replicate 32 {})
def wWith (l : List (Nat × Nat)) : Thread := { wThread with regs := wRegs l }
def wGrove : Grove := { live := true, tvec := some 0x800 }
def wState (g : Grove) (th : Thread) : State := { groves := [(0, g)], cores := [(0, { grove := some 0 })], threads := [(0, th)] }
/-- One thread of a loaded grove, with nothing on its way. -/
def w0 : State := wState wGrove wThread
/-- The same with values in its registers. -/
def wr (l : List (Nat × Nat)) : State := wState wGrove (wWith l)
theorem canTrap_wState (g : Grove) (th : Thread) (h : g.tvec = some 0x800) (ht : th.trapActive = false) (hs : th.specs = []) : CanTrap (wState g th) 0x800 :=
  ⟨⟨0, by simp [wState, State.groveOfThread, State.groveOfCluster, State.coreOf, tabGet, tabFind], h⟩, ht, hs⟩
/-- A page at VA 0x1000, in the translation buffer: physical 0x10000, writable, full-empty if asked. -/
def wPage (fe : Bool) : TlbEntry :=
  { va := 0x1000, size := 4096, pa := 0x10000, leaf := BitVec.ofNat 64 (2 ^ 63 + 2 ^ 62 + 2 ^ 59 + (if fe then 2 ^ 57 else 0) + 16) }
def wMapped (fe : Bool) (l : List (Nat × Nat)) : State := (wr l).setCore 0 { grove := some 0, tlb := [wPage fe] }

/-! ## Witnesses: control instructions -/

theorem witness_alu : Issues w0 { srcs := [1, 2], dst := some 3, spec := true } := ⟨rfl, rfl⟩
theorem witness_divide : Issues w0 { srcs := [1, 2], dst := some 3, spec := true } ∧ (w0.coreOf 0).divTo ≤ w0.now ∧
    Issues (w0.setCore 0 { grove := some 0, divTo := 1 }) { srcs := [1, 2], dst := some 3, spec := true } ∧
    (w0.setCore 0 { grove := some 0, divTo := 1 }).now < ((w0.setCore 0 { grove := some 0, divTo := 1 }).coreOf 0).divTo :=
  ⟨⟨rfl, rfl⟩, by decide, ⟨rfl, rfl⟩, by decide⟩
theorem witness_immediate : Issues w0 { srcs := [31], dst := some 0, spec := true } := ⟨rfl, rfl⟩
def wStale : State := wState wGrove { wThread with strict := true }
def wPoison : State := wState wGrove { wThread with regs := at_ (wRegs [(1, 5)]) 1 (fun r => { r with poison := some 0x1000 }) }
theorem witness_sources : CanTrap wStale 0x800 ∧ sourceFault wStale.me [1, 2] = some (0x1C0, 0) ∧
    mustWait wStale { srcs := [1, 2], dst := some 3, spec := true } = false ∧ mustWait wStale { srcs := [1, 2], mem := true } = false ∧ HasRoom wStale .st ∧
    CanTrap wPoison 0x800 ∧ sourceFault wPoison.me [1, 2] = some (0x1C3, 0x1000) ∧ mustWait wPoison { srcs := [1, 2], dst := some 3, spec := true } = false :=
  ⟨canTrap_wState _ _ rfl rfl rfl, rfl, rfl, rfl, rfl, canTrap_wState _ _ rfl rfl rfl, rfl, rfl⟩
/-- The last word of the code store is a good target; the one after it, one before 0, and an odd address are not. -/
theorem witness_branches :
    (let s := wState wGrove { wWith [(1, 0xFFFC)] with pc := 0xFFF8 }
     Issues s { srcs := [1, 2], spec := true } ∧ (s.me.pc : Int) + 4 * (1 : BitVec 13).toInt = 0xFFFC ∧ Issues s { dst := some 3, spec := true } ∧
       Issues s { srcs := [1], dst := some 3, spec := true } ∧ (s.me.reg 1).toNat = 0xFFFC) :=
  ⟨⟨rfl, rfl⟩, rfl, ⟨rfl, rfl⟩, ⟨rfl, rfl⟩, rfl⟩
theorem witness_jumps_out :
    (let s := wState wGrove { wWith [(1, 0x10000), (2, 6)] with pc := 0xFFFC }
     CanTrap s 0x800 ∧ Issues s { srcs := [1, 2], spec := true } ∧ (s.me.pc : Int) + 4 * (1 : BitVec 13).toInt = 0x10000 ∧ s.me.reg 1 ≠ s.me.reg 2 ∧ s.me.reg 3 = s.me.reg 4 ∧
       0x10000 ≤ (s.me.reg 1).toNat ∧ (s.me.reg 2).toNat % 4 ≠ 0) ∧
    (w0.me.pc : Int) + 4 * (-1 : BitVec 13).toInt = -4 :=
  ⟨⟨canTrap_wState _ _ rfl rfl rfl, ⟨rfl, rfl⟩, rfl, by decide, rfl, by decide, by decide⟩, rfl⟩
def wAwait : State :=
  { wState wGrove { wThread with regs := at_ (Vector.replicate 32 {}) 1 (fun r => { r with pend := some 7 }) } with reqs := [{ id := 7, kind := .load 8 false, dst := some 1 }] }
theorem witness_hinted : wAwait.me.busyReg wAwait.now 1 = true ∧ freeGenNum wAwait.me = some 1 ∧
    (awaitedLoad wAwait wAwait.me 1).or (awaitedLoad wAwait wAwait.me 2) = some 7 ∧ wAwait.me.mark = none ∧ speculable wAwait wAwait.me 1 = true ∧
    speculable wAwait wAwait.me 2 = true := ⟨rfl, rfl, rfl, rfl, rfl, rfl⟩
theorem witness_system : Issues w0 { dst := some 1 } ∧ Issues w0 { srcs := [1] } ∧ ((wState { wGrove with priv := true } wThread).grove 0).priv = true :=
  ⟨⟨rfl, rfl⟩, ⟨rfl, rfl⟩, rfl⟩
theorem witness_system_ranges : (wr [(1, 1023)]).me.reg 1 = 1023 ∧ (wr [(1, 0xFFFC)]).me.reg 1 = 0xFFFC ∧ (wr [(1, 2)]).me.reg 1 = 2 ∧ (wr [(1, 16)]).me.reg 1 = 16 ∧
    (wr [(1, 65535)]).me.reg 1 = 65535 ∧ (wr [(1, 0x17FFFFFFF000)]).me.reg 1 = 0x17FFFFFFF000 ∧ (wr [(1, 3)]).me.reg 1 = 3 :=
  ⟨rfl, rfl, rfl, rfl, rfl, rfl, rfl⟩
theorem witness_privilege : CanTrap w0 0x800 ∧ (w0.grove ((w0.groveOfThread w0.focus).getD 0)).priv = false ∧ Issues w0 { dst := some 1 } ∧ Issues w0 { srcs := [1] } :=
  ⟨canTrap_wState _ _ rfl rfl rfl, rfl, ⟨rfl, rfl⟩, ⟨rfl, rfl⟩⟩
theorem witness_trap : Issues w0 {} ∧ CanTrap w0 0x800 := ⟨⟨rfl, rfl⟩, canTrap_wState _ _ rfl rfl rfl⟩
theorem witness_no_handler :
    (let s := wState wGrove { wThread with trapActive := true }
     Issues s {} ∧ s.groveOfThread s.focus = some 0 ∧ s.me.specs = [] ∧ s.me.trapActive = true) ∧
    (let s := wState { live := true } wThread
     Issues s {} ∧ s.groveOfThread s.focus = some 0 ∧ s.me.specs = [] ∧ s.me.trapActive = false ∧ (s.grove 0).tvec = none) :=
  ⟨⟨⟨rfl, rfl⟩, rfl, rfl, rfl⟩, ⟨rfl, rfl⟩, rfl, rfl, rfl, rfl⟩
theorem witness_halt_wait : Issues w0 {} ∧ ownDone w0 w0.focus = true ∧ Issues { w0 with reqs := [{ kind := .store 8 0 }] } {} ∧
    ownDone { w0 with reqs := [{ kind := .store 8 0 }] } 0 = false ∧ (w0.me.ld ≤ (0 : BitVec 5).toNat) ∧
    ¬((wState wGrove { wThread with st := 31 }).me.st ≤ (30 : BitVec 5).toNat) := ⟨⟨rfl, rfl⟩, rfl, ⟨rfl, rfl⟩, rfl, by decide, by decide⟩

/-! ## Witnesses: memory -/

theorem witness_access : HasRoom (wMapped false [(1, 0x1FF8)]) .ld ∧ HasRoom (wMapped false [(1, 0x1FF8)]) .st ∧
    Issues (wMapped false [(1, 0x1FF8)]) { srcs := [1], dst := some 2, mem := true } ∧ Issues (wMapped false [(1, 0x1FF8)]) { srcs := [1, 2], mem := true } ∧
    (∃ ps s1, translatePieces (wMapped false [(1, 0x1FF8)]) 0 .load 0x1FF8 (piecesOf 0x1FF8 8) = (.ok ps, s1)) ∧
    ∃ ps s1, translatePieces (wMapped false [(1, 0x1FF8)]) 0 .store 0x1FF8 (piecesOf 0x1FF8 8) = (.ok ps, s1) :=
  ⟨rfl, rfl, ⟨rfl, rfl⟩, ⟨rfl, rfl⟩, ⟨_, _, rfl⟩, ⟨_, _, rfl⟩⟩
/-- A fence of its thread that waits for an access outstanding holds an access in its scope. -/
def wFenced : State := { wState wGrove { wThread with fences := [(7, some .package)] } with reqs := [{ id := 7, pieces := [(0, 8, 0)], points := [.channel 0] }] }
theorem witness_fenced : fenced wFenced [.channel 1] = true ∧ fenced w0 [.channel 1] = false ∧ fenced wFenced [.slice 7] = true ∧ fenced w0 [.slice 7] = false ∧
    fenced w0 [.record 0] = false := by decide +kernel
/-- An access whose second piece lies on the next page, which is not mapped. -/
theorem witness_access_fault : CanTrap (wMapped false [(1, 0x1FFC)]) 0x800 ∧
    ∃ s1, translatePieces (wMapped false [(1, 0x1FFC)]) 0 .load 0x1FFC (piecesOf 0x1FFC 8) = (.error (0x200, 0x2000), s1) :=
  ⟨⟨⟨0, rfl, rfl⟩, rfl, rfl⟩, _, rfl⟩
theorem witness_causes : regionOf w0.dev 0x1000 = .lpddr ∧ (0x1000 : Nat) % 4096 = 0 ∧ w0.numAt 0 (0x1000 + 8 * (0 / 2 ^ 39 % 512)) 8 < 2 ^ 63 ∧
    regionOf w0.dev (wPage false).pa = .lpddr ∧ pteW (wPage false).leaf.toNat = true ∧ pteFe (wPage false).leaf.toNat = false ∧ regionOf w0.dev 0x800000000000 = .host :=
  ⟨rfl, rfl, by decide, rfl, rfl, rfl, rfl⟩
def wReq (k : MemKind) : MemReq := { id := 7, kind := k, pieces := [(0, 8, 0x10000)] }
theorem witness_perform (k : MemKind) (h : k = .load 8 false ∨ k = .store 8 5 ∨ k = .amo 4 8 1 2 ∨ k = .ldf ∨ k = .ldt ∨ k = .fill 5) :
    Inv { w0 with now := 1, reqs := [wReq k] } ∧ (wReq k).nextPoint { w0 with now := 1, reqs := [wReq k] } = some (.channel 256) ∧ (wReq k).parked = false ∧
    mayPerform { w0 with now := 1, reqs := [wReq k] } (wReq k) (.channel 256) = true := by
  rcases h with rfl | rfl | rfl | rfl | rfl | rfl <;> exact ⟨rfl, rfl, rfl, rfl⟩
theorem witness_full_empty_perform : ({ w0 with reqs := [wReq .ldf], full := [0x2000] } : State).isFull 0x10000 = true ∧ w0.isFull 0x10000 = false := ⟨rfl, rfl⟩
theorem witness_load_returns :
    (let r : MemReq := { id := 7, kind := .load 1 true, res := 0xFF, dst := some 1 }
     let s : State := { wAwait with reqs := [r] }
     s.reqs.find? (fun q => q.id = r.id) = some r ∧ r.res < 2 ^ (8 * 1) ∧ (s.thr r.src).specs = [] ∧ (s.thr r.src).regs[1].pend = some r.id) := ⟨rfl, by decide, rfl, rfl⟩
theorem witness_atomic : HasRoom (wMapped false [(1, 0x1FF8)]) .st ∧ Issues (wMapped false [(1, 0x1FF8)]) { srcs := [1, 2, 3], dst := some 3, mem := true } ∧
    (∃ ps s1, translatePieces (wMapped false [(1, 0x1FF8)]) 0 .amo 0x1FF8 [(0x1FF8, 8)] = (.ok ps, s1)) ∧ ((wr [(1, 0x1FFC)]).me.reg 1).toNat % 8 ≠ 0 :=
  ⟨rfl, ⟨rfl, rfl⟩, ⟨_, _, rfl⟩, by decide⟩
theorem witness_full_empty : Inv (wMapped true [(1, 0x1FF8)]) ∧ (∃ s1, feAddress (wMapped true [(1, 0x1FF8)]) .fe 0x1FF8 = (.ok 0x10FF8, s1)) ∧
    (∃ s1, feAddress (wMapped true [(1, 0x1FF8)]) .feStore 0x1FF8 = (.ok 0x10FF8, s1)) ∧ packagePerformed (wMapped true [(1, 0x1FF8)]) 0 = true ∧
    (wMapped true [(1, 0x1FF8)]).isFull 0x10FF8 = false ∧ (∀ k, (wMapped true [(1, 0x1FF8)]).me.status ≠ .waiting (.word k)) ∧
    packagePerformed { wMapped true [(1, 0x1FF8)] with reqs := [{ wReq .ldf with points := [.channel 0] }] } 0 = false ∧
    ({ wMapped true [(1, 0x1FF8)] with full := [0x10FF8 / 8] } : State).isFull 0x10FF8 = true ∧ CanTrap { wMapped true [(1, 0x1FF8)] with full := [0x10FF8 / 8] } 0x800 :=
  ⟨rfl, ⟨_, rfl⟩, ⟨_, rfl⟩, rfl, rfl, (fun _ h => nomatch h), rfl, rfl, ⟨⟨0, rfl, rfl⟩, rfl, rfl⟩⟩
/-- A request of an earlier source came to the word's node in the cycle before, or none did. -/
theorem witness_behind :
    behindAt (wMapped true []) (pointOf 0 0x10FF8) (threadRank 0) = false ∧
    (let r : MemReq := { id := 7, kind := .engineRead 7 0, pieces := [(0, 8, 0x10FF8)], points := [pointOf 0 0x10FF8] }
     behindAt { wMapped true [] with now := 1, reqs := [r] } (pointOf 0 0x10FF8) (threadRank 0) = true ∧
     behindAt { wMapped true [] with now := 1, reqs := [r] } (pointOf 0 0x10FF8) hostRank = true) := by decide +kernel
/-- A barrier object of slice 0 with `n` participants and one arrival left. -/
def wBarrier : State := (wr [(1, 0), (2, 1)]).setSlice 7 { store := storeWrite 0 1 [] 0 16 (2 * 2 ^ 96 + 1 * 2 ^ 64) }
theorem witness_barrier : barrierAt (wBarrier.grove 0) 0 = .ok (7, 0) ∧ HasRoom wBarrier .st ∧ Issues wBarrier { srcs := [1, 2], mem := true } ∧
    Issues wBarrier { srcs := [1], dst := some 3, mem := true } ∧ packagePerformed wBarrier 0 = true ∧ pointPerformed wBarrier 0 (.slice 7) = true ∧
    (∃ v, (wBarrier.slice 7).read 0 16 = .ok v ∧ decide (field v 96 32 = 2 ∧ field v 32 32 = 0) = true) ∧ permitFree wBarrier (slicePermit 0 7) = true ∧
    permitFree { wBarrier with permits := [((slicePermit 0 7).1, 4)] } (slicePermit 0 7) = false ∧
    pointPerformed { wBarrier with reqs := [{ kind := .barInit 7 0 1, pieces := [(0, 0, 0)], points := [.slice 7] }] } 0 (.slice 7) = false :=
  ⟨rfl, rfl, ⟨rfl, rfl⟩, ⟨rfl, rfl⟩, rfl, rfl, exists_ok (by decide +kernel), rfl, rfl, rfl⟩
/-- What else an arrive and an await wait for: a copy's write of the cycle; a write of the cycle; neither. -/
theorem witness_barrier_waits :
    (wBarrier.slice 7).taken wBarrier.now 0 = false ∧ (wBarrier.slice 7).fresh wBarrier.now 0 = false ∧ behindAt wBarrier (.slice 7) (threadRank 0) = false ∧
    ((wBarrier.slice 7).put 0 rankSmove 0 32 0 false).taken 0 0 = true ∧ ((wBarrier.slice 7).put 0 rankNode 0 16 0 false).fresh 0 0 = true := by decide +kernel
theorem witness_group : HasRoom (wr [(1, 63)]) .st ∧ Issues (wr [(1, 63)]) { srcs := [1], mem := true } ∧ ((wr [(1, 63)]).me.reg 1).toNat ≤ 63 ∧
    63 < ((wr [(1, 64)]).me.reg 1).toNat ∧ Issues (wr [(1, 63)]) { srcs := [1], dst := some 2, mem := true } := ⟨rfl, ⟨rfl, rfl⟩, by decide, by decide, ⟨rfl, rfl⟩⟩
/-- What a slice and the grove's hearth record perform. -/
theorem witness_slice_performs :
    ∀ k ∈ [MemKind.barInit 7 0 2, .gjoin 0 63, .gleave 0 0, .gsize 0 63],
      (let r : MemReq := { id := 7, kind := k, pieces := [(0, 0, 0)] }
       let s : State := { w0 with now := 1, reqs := [r] }
       s.reqs.find? (fun q => q.id = r.id) = some r ∧ ((r.nextPoint s).map (mayPerform s r)) = some true ∧ r.parked = false) := by decide +kernel
/-- A prefix before an addi whose immediate is 0, one before an addi of 1, and one whose immediate word is uncorrectable; a mark that stands. -/
def wWords (w : Word32) (bad : List Nat) : State := { w0 with cores := [(0, { grove := some 0, code := [(1, 7), (2, w)], badCode := bad })] }
theorem witness_group_words :
    ((wWords 0x04320000 []).coreOf 0).badCode.contains ((0 + 4) / 4) = false ∧ ((wWords 0x04320000 []).coreOf 0).badCode.contains ((0 + 8) / 4) = false ∧
    (wWords 0x04320000 []).me.pc = 0 ∧ (wWords 0x04320000 []).me.imm = none ∧ prefixable (field 0x04320000 25 7) = true ∧ field 0x04320000 0 15 = 0 ∧ field 0x04320001 0 15 ≠ 0 ∧
    ((wWords 0x04320000 [1]).coreOf 0).badCode.contains ((0 + 4) / 4) = true ∧ w0.me.specs = [] ∧ w0.me.mark = none ∧
    CanTrap (wWords 0x04320001 [1]) 0x800 ∧ CanTrap (wState wGrove { wThread with mark := some (true, 7) }) 0x800 :=
  ⟨by decide, by decide, rfl, rfl, by decide, by decide, by decide, by decide, rfl, rfl, ⟨⟨0, rfl, rfl⟩, rfl, rfl⟩, canTrap_wState _ _ rfl rfl rfl⟩
/-- A message to a tile of the thread's cluster, not yet received, and an access in scope: a fence takes both. -/
theorem witness_fence :
    (let s : State := { w0 with reqs := [{ id := 7, points := [.channel 0] }], ops := [{ id := 3, thread := 0 }],
                                packets := [{ id := 9, type := 6, dclu := cluCode 0, dep := epOf 0 0, op := 3 }] }
     9 ∈ tileSends s 0 ∧ (∀ q ∈ s.reqs, q.src = 0 ∧ q.ofEngine = false ∧ q.points.any (scopeHas .package 0) = true)) := by decide +kernel

/-! ## Witnesses: tile instructions -/

/-- An actor that owns every port and may produce four records on each output, its first counter loaded with 3. -/
def wActor : ActorCfg := { ownerOfAll with po := Vector.replicate 4 4, k := #v[3, 0, 0, 0] }
def wSite : SiteCfg := { actors := at_ (Vector.replicate 8 none) 0 (fun _ => some wActor) }
/-- A firing that holds one record of one token with payload `v` at its first port, and one control token, true, at its first control input. -/
def wFiring (v : Vec) : Firing :=
  { gen := 1, held := #v[[.record { toks := [{ pay := v }] } .queue true false], [], [], []], ctl := #v[[true], [false], [], []], k := #v[3, 1, 0, 0] }
def wTile (v : Vec) : Tile := { cfg := wSite, gen := 1, firing := some (wFiring v) }
def wt (v : Vec) : State := { w0 with tiles := [(0, wTile v)] }
/-- The firing once its held token is read. -/
def wTaken (v : Vec) : Firing := { wFiring v with ri := #v[1, 0, 0, 0], lastW := 1 }
theorem wt_fires (v : Vec) : Fires (wt v) (wFiring v) := rfl
theorem wt_reads (v : Vec) (sels : List Sel) (imm : BitVec 21) (omsk : BitVec 4) (settle : Bool) (f1 : Firing) (vs : List Vec)
    (ho : ownsAll wActor sels omsk = true) (h : readSels 0 (wTile v) imm (wFiring v) sels = .ok (f1, vs)) :
    Reads (wt v) sels imm omsk settle f1 vs := ⟨wFiring v, rfl, ho, fun _ => rfl, h⟩
theorem w_room : ∀ p : Fin 4, ((Vector.replicate 4 ({} : Stage))[p]).pos = 0 ∧ ((Vector.replicate 4 ({} : Stage))[p]).recs < wActor.po[p] ∧
    1 ≤ ((wSite.outs[p]).getD 1) := by decide
theorem wt_room (v : Vec) (f : Firing) (omsk : BitVec 4) (ha : f.actor = 0) (h : f.stage = Vector.replicate 4 {}) : RoomOn (onTile (wt v)) f omsk := by
  have hc : actorCfg (onTile (wt v)) f = wActor := by simp only [actorCfg, ha]; rfl
  intro p _
  left
  rw [hc, h]
  exact w_room p

/-- A lane word that reads a held token, a counter and a constant, and gives out on every port. -/
def wLane : Lane := { sa := .port 0, sb := .ctr 0, sc := .imm, omsk := 15, imm := 0x1FFFFF }
theorem witness_lanes (v : Vec) (rsr : Bool) :
    Reads (wt v) (laneSels wLane 1) wLane.imm wLane.omsk rsr (wTaken v) [v] ∧
    Reads (wt v) (laneSels wLane 2) wLane.imm wLane.omsk rsr (wTaken v) [v, splat 3] ∧
    Reads (wt v) (laneSels wLane 3) wLane.imm wLane.omsk rsr (wTaken v) [v, splat 3, splat 0xFFFFFFFF] ∧
    RoomOn (onTile (wt v)) (wTaken v) wLane.omsk :=
  ⟨wt_reads _ _ _ _ _ _ _ rfl rfl, wt_reads _ _ _ _ _ _ _ rfl rfl, wt_reads _ _ _ _ _ _ _ rfl rfl, wt_room v _ _ rfl rfl⟩
theorem witness_conversions :
    let v : Vec := splat 1
    Fires (wt v) (wFiring v) ∧ ownsAll (actorCfg (onTile (wt v)) (wFiring v)) (laneSels wLane 2) wLane.omsk = true ∧
    fmtSlot (siteGrove (wt v) (wt v).site) 0 = 0 ∧
    (let s := { wt v with groves := [(0, { wGrove with image := { fmts := [0x80] } })] }
     fmtSlot (siteGrove s s.site) 0 ≠ 0 ∧ Fires s (wFiring v)) := ⟨rfl, by decide +kernel, by decide +kernel, by decide +kernel, rfl⟩
theorem witness_moves_and_draws (v : Vec) :
    Reads (wt v) [] 0 15 false (wFiring v) [] ∧ Reads (wt v) [.ctr 0] 0 15 true (wFiring v) [splat 3] ∧
    Reads (wt v) [.byp 5, .imm] 7 15 false (wFiring v) [0, splat 7] ∧ RoomOn (onTile (wt v)) (wFiring v) 15 :=
  ⟨wt_reads _ _ _ _ _ _ _ rfl rfl, wt_reads _ _ _ _ _ _ _ rfl rfl, wt_reads _ _ _ _ _ _ _ rfl rfl, wt_room v _ _ rfl rfl⟩
/-- A tile whose first output carries records of two tokens, with none open or with one open. -/
def wOpen : Firing := { wFiring 0 with stage := (wFiring 0).stage.set 0 { toks := [({} : Tok)], pos := 1, recs := 1, opened := true, req := 1 } }
def wLong (f : Firing) : State :=
  { wt 0 with tiles := [(0, { wTile 0 with cfg := { wSite with outs := #v[some 2, none, none, none] }, firing := some f })] }
/-- What `ash` reads for two records of weight 1 each. -/
def wTwo : Vec := BitVec.ofNat 256 (2 + 2 * 2 ^ 32 + 2 * 2 ^ 96)
/-- A weight of 1, the least, and of 0, none; an ash token of two records; an open record. -/
theorem witness_records :
    (Reads (wLong (wFiring 0)) [.port 0, .imm] 1 1 false (wTaken 0) [0, splat 1] ∧ Reads (wLong (wFiring 0)) [.port 0, .zero] 0 1 false (wTaken 0) [0, 0] ∧
      Fires (wLong (wFiring 0)) (wFiring 0) ∧ ((wTaken 0).stage[0]).pos = 0 ∧
      ((wTaken 0).stage[0]).recs < (actorCfg (onTile (wLong (wFiring 0))) (wTaken 0)).po[0] ∧ outRl (onTile (wLong (wFiring 0))) 0 = 2 ∧ (laneAt (splat 1) 0).toNat = 1) ∧
    (Reads (wt wTwo) [.port 0] 0 1 false (wTaken wTwo) [wTwo] ∧ (ashFields wTwo).cnt = 2 ∧ (ashFields wTwo).uw = (ashFields wTwo).dw) ∧
    (Reads (wLong wOpen) [.imm] 1 0 false wOpen [splat 1] ∧ (∀ f0, Fires (wLong wOpen) f0 → (actorCfg (onTile (wLong wOpen)) f0).ownO.getLsbD 0 = true) ∧
      (wOpen.stage[0]).opened = true ∧ (wOpen.stage[0]).kind = 0 ∧ (wOpen.stage[0]).pos ≠ 0) :=
  ⟨⟨⟨wFiring 0, rfl, rfl, fun _ => rfl, rfl⟩, ⟨wFiring 0, rfl, rfl, fun _ => rfl, rfl⟩, rfl, rfl, by decide +kernel, by decide +kernel, by decide +kernel⟩,
   ⟨wt_reads _ _ _ _ _ _ _ rfl rfl, by decide +kernel, by decide +kernel⟩,
   ⟨⟨wOpen, rfl, rfl, fun _ => rfl, rfl⟩, (fun f0 h => by rw [← Option.some.inj (show some wOpen = some f0 from h)]; decide +kernel), rfl, rfl, by decide +kernel⟩⟩
/-- A record of `rl` tokens open, its first token staged, with a weight of `q` asked for. -/
def wOpenQ (q : Nat) : Firing := { wOpen with stage := wOpen.stage.set 0 { toks := [({} : Tok)], pos := 1, recs := 1, opened := true, req := q } }
def wGoing (q rl : Nat) : State := { wt 0 with tiles := [(0, { wTile 0 with cfg := { wSite with outs := #v[some rl, none, none, none] }, firing := some (wOpenQ q) })] }
/-- Records of one token: a weight of 1, of 65,535 and of 65,536; the token of a record of three that goes on; the last of a record whose weight is past 65,535. -/
theorem witness_record_tokens :
    (∀ i ∈ [(1 : BitVec 21), 65535, 65536], Reads (wt 0) [.port 0, .imm] i 1 false (wTaken 0) [0, splat (i.setWidth 32)]) ∧ outRl (onTile (wt 0)) 0 = 1 ∧
    ((wTaken 0).stage[0]).pos = 0 ∧ ((wTaken 0).stage[0]).recs + 2 ≤ (actorCfg (onTile (wt 0)) (wTaken 0)).po[0] ∧
    (∀ p ∈ [(1, 3), (65535, 2), (65536, 2)], Reads (wGoing p.1 p.2) [.imm, .imm] 1 1 false (wOpenQ p.1) [splat 1, splat 1] ∧ ((wOpenQ p.1).stage[0]).pos = 1 ∧
      ((wOpenQ p.1).stage[0]).req = p.1 ∧ outRl (onTile (wGoing p.1 p.2)) 0 = p.2 ∧ ((wOpenQ p.1).stage[0]).recs + 1 ≤ (actorCfg (onTile (wGoing p.1 p.2)) (wOpenQ p.1)).po[0]) := by
  refine ⟨?_, by decide +kernel, rfl, by decide +kernel, ?_⟩
  · intro i h
    rcases List.mem_cons.mp h with rfl | h
    · exact wt_reads _ _ _ _ _ _ _ rfl rfl
    rcases List.mem_cons.mp h with rfl | h
    · exact wt_reads _ _ _ _ _ _ _ rfl rfl
    rw [List.mem_singleton.mp h]; exact wt_reads _ _ _ _ _ _ _ rfl rfl
  · intro p h
    rcases List.mem_cons.mp h with rfl | h
    · exact ⟨⟨_, rfl, rfl, fun _ => rfl, rfl⟩, rfl, rfl, rfl, by decide +kernel⟩
    rcases List.mem_cons.mp h with rfl | h
    · exact ⟨⟨_, rfl, rfl, fun _ => rfl, rfl⟩, rfl, rfl, rfl, by decide +kernel⟩
    rw [List.mem_singleton.mp h]; exact ⟨⟨_, rfl, rfl, fun _ => rfl, rfl⟩, rfl, rfl, rfl, by decide +kernel⟩
theorem witness_records_read :
    Reads (wt 0) [] 0 15 true (wFiring 0) [] ∧ Reads (wt 0) [.imm] 0 15 true (wFiring 0) [splat 0] ∧ Reads (wt 0) [.imm] 0 0 false (wFiring 0) [splat 0] ∧
    (actorCfg (onTile (wt 0)) (wFiring 0)).ownI.getLsbD 0 = true ∧ (nextTok (wFiring 0) 0).isSome = true ∧ (nextTok (wFiring 0) 1).isNone = true ∧
    (∃ r, readState (wt 0).now (onTile (wt 0)) (wFiring 0) 7 = .ok r) :=
  ⟨wt_reads _ _ _ _ _ _ _ rfl rfl, wt_reads _ _ _ _ _ _ _ rfl rfl, wt_reads _ _ _ _ _ _ _ rfl rfl, by decide +kernel, rfl, rfl,
   exists_ok_true (by decide +kernel)⟩
/-- Addresses: the last word below the state area, its first, the first past the store. -/
theorem witness_store :
    (∃ x, ((onTile (wt 0)).before (wt 0).now).read 0x1FEE0 32 = .ok x) ∧ 0x1FEE0 % 32 = 0 ∧ 0x1FEE0 < stateBase ∧ stateBase = 0x1FF00 ∧
    (∀ v, Reads (wt v) [.port 0] 0 15 false (wTaken v) [v] ∧ Reads (wt v) [.ctr 0, .port 0] 0 0 false (wTaken v) [splat 3, v]) ∧
    (∀ a ∈ [0x1FEE0, 0x1FF00, 0x20000], (laneAt (splat (BitVec.ofNat 32 a)) 0).toNat = a) ∧
    (1 : BitVec 17).toNat % 32 ≠ 0 ∧ (∃ x, gatherLanes ((onTile (wt 0)).before (wt 0).now) 0 255 (splat 0x1FEFC) 8 0 = .ok x) ∧ (onTile (wt 0)).strict = false :=
  ⟨exists_ok_true (by decide +kernel), rfl, by decide, rfl, fun v => ⟨wt_reads _ _ _ _ _ _ _ rfl rfl, wt_reads _ _ _ _ _ _ _ rfl rfl⟩,
   by decide +kernel, by decide, exists_ok_true (by decide +kernel), rfl⟩
theorem witness_control :
    Fires (wt 0) (wFiring 0) ∧ (actorCfg (onTile (wt 0)) (wFiring 0)).ownC.getLsbD 0 = true ∧ ((wFiring 0).ctl[0])[(wFiring 0).ci[0]]? = some true ∧
    1 < (wFiring 0).k[0] ∧ (wFiring 0).k[0] < 65536 ∧ (wFiring 0).k[1] = 1 ∧ Reads (wt 0) [.port 0] 0 0 false (wTaken 0) [0] ∧
    (actorCfg (onTile (wt 0)) (wFiring 0)).ownQ.getLsbD 3 = true ∧ ((wTaken 0).qout[3]).length < 32 ∧ (wt 0).huash.attached = false ∧
    (∀ p : Fin 4, ((wFiring 0).stage[p]).pos = 0) ∧ Fires (wLong wOpen) wOpen ∧ (wOpen.stage[0]).pos ≠ 0 :=
  ⟨rfl, by decide +kernel, rfl, by decide +kernel, by decide +kernel, rfl, wt_reads _ _ _ _ _ _ _ rfl rfl, by decide +kernel, by decide +kernel, rfl,
   by decide +kernel, rfl, by decide +kernel⟩
/-- Counters for a loop through two of them, and one at 0. -/
theorem witness_loops :
    (let f : Firing := { wFiring 0 with k := #v[1, 3, 0, 0] }
     Fires { wt 0 with tiles := [(0, { wTile 0 with firing := some f })] } f ∧ f.k[0] = 1 ∧ 1 < f.k[1] ∧ f.k[1] < 65536 ∧ f.k[2] = 0) := ⟨rfl, rfl, by decide, by decide, rfl⟩
/-- A tile whose actor owns no port. -/
def wBare : State := { wt 0 with tiles := [(0, { wTile 0 with cfg := {} })] }
theorem witness_tile_faults : Fires wBare (wFiring 0) ∧ (actorCfg (onTile wBare) (wFiring 0)).ownI.getLsbD 0 = false := ⟨rfl, by decide +kernel⟩
/-- Two tiles side by side, the first's tmove output bound east to the second's tmove input. -/
def wPair (m : Option Mover) : State :=
  { wt (splat 32) with
    tiles := [(0, { wTile (splat 32) with cfg := { wSite with binds := [(16, 0x44)] }, mover := m }), (1, { gen := 1, cfg := { binds := [(0x45, 48)] } })] }
theorem witness_moves :
    Reads (wPair none) [.imm, .imm, .port 0] 0 0 false (wTaken (splat 32)) [splat 0, splat 0, splat 32] ∧ (onTile (wPair none)).mover = none ∧
    moveTarget (wPair none) 0 1 = some 1 ∧ (∃ x, ((onTile (wPair none)).before (wPair none).now).read 0 32 = .ok x) ∧
    neighbour 0 1 1 = some 1 ∧ (1 : Nat) ≠ 0 ∧ ((wPair (some { len := 32, dir := 1 })).tile 0).mover = some { len := 32, dir := 1 } ∧
    (wPair none).halos.any (fun h => h.from_ = 0) = false ∧ ({ wPair none with halos := [{ from_ := 0 }] } : State).halos.any (fun h => h.from_ = 0) = true :=
  ⟨⟨wFiring (splat 32), rfl, rfl, fun _ => rfl, rfl⟩, rfl, by decide +kernel, exists_ok_true (by decide +kernel), rfl, by decide, rfl, rfl, by decide⟩
/-- A copy in flight: its last token, with and without a notification; one of two tokens; a control input that holds eight runs. -/
def wMoving (len : Nat) (n : Option Nat) (q : List (Bool × Nat)) : State :=
  { wPair (some { len := len, dir := 1, notify := n }) with
    tiles := [(0, { wTile (splat 32) with mover := some { len := len, dir := 1, notify := n } }), (1, { gen := 1, cin := #v[q, [], [], []] })] }
def wRuns : List (Bool × Nat) := [(true, 1), (false, 1), (true, 1), (false, 1), (true, 1), (false, 1), (true, 1), (false, 1)]
theorem witness_moves_land :
    (∀ p ∈ [(32, none, []), (64, none, []), (32, some 0, []), (32, some 0, wRuns)],
      ((wMoving p.1 p.2.1 p.2.2).tile 0).mover = some { len := p.1, dir := 1, notify := p.2.1 }) ∧ neighbour 0 1 1 = some 1 ∧ 0 ≤ (wMoving 32 none []).now ∧
    runPush (((wMoving 32 (some 0) wRuns).tile 1).put 0 (rankSide 3) 0 32 0 false).cin[0] true = none ∧
    (runPush (((wMoving 32 (some 0) []).tile 1).put 0 (rankSide 3) 0 32 0 false).cin[0] true).isSome = true ∧
    okIs (moveRead (((wMoving 64 none []).tile 0).before 0) 32) (fun _ => true) = true ∧ ¬(0 + 32 < 32) ∧ 0 + 32 < 64 := by decide +kernel
/-- A firing from before the tile was allocated again, live and under STRICT; a session is attached; a lane that no arrival of the cycle has written. -/
theorem witness_stale_firing :
    (∀ e ∈ [false, true],
      (let s : State := { wt 0 with tiles := [(0, { wTile 0 with gen := 2, strict := e })], huash := { attached := true } }
       Fires s (wFiring 0) ∧ (wFiring 0).gen ≠ (onTile s).gen ∧ (onTile s).strict = e ∧ s.groveOfSite s.site = some 0 ∧ s.huash.attached = true)) ∧
    (wFiring 0).gen = (onTile (wt 0)).gen ∧ tabGet (onTile (wt 0)).log.ranks ((0 + 4 * 7) / 4) 0 = 0 := by
  refine ⟨?_, rfl, by decide +kernel⟩
  intro e h
  rcases List.mem_cons.mp h with rfl | h
  · exact ⟨rfl, by decide, rfl, rfl, rfl⟩
  · rw [List.mem_singleton.mp h]; exact ⟨rfl, by decide, rfl, rfl, rfl⟩

/-! ## Witnesses: the matrix unit -/

/-- A tile whose first output carries records of 16 tokens and is its port for a steer of 0. -/
def wMat : State :=
  { wt 0 with groves := [(0, { wGrove with h := 1 })],
              tiles := [(0, { wTile 0 with cfg := { wSite with outs := #v[some 16, none, none, none], pm := #v[1, 0, 0, 0] } })] }
theorem witness_matrix_staged :
    (wMat.tile 0).firing = some (wFiring 0) ∧ (wFiring 0).cmds.length < 8 ∧ (actorCfg (wMat.tile 0) (wFiring 0)).ownO.getLsbD 0 = true ∧
    ((wFiring 0).stage[0]).recs + 32 / outRl (wMat.tile 0) 0 ≤ (actorCfg (wMat.tile 0) (wFiring 0)).po[0] ∧ steerPorts (wMat.tile 0) = 1#4 <<< 0 ∧
    (actorCfg (wMat.tile 0) (wFiring 0)).ownC.getLsbD 1 = true ∧ ((wFiring 0).ctl[0])[(wFiring 0).ci[0]]? = some true ∧
    ((wFiring 0).ctl[1])[(wFiring 0).ci[1]]? = some false ∧ 8 ≤ ({ wFiring 0 with cmds := List.replicate 8 {} } : Firing).cmds.length := by decide +kernel
def wMwait : MwaitOp := { slots := 1, accs := 1, limit := 5, out := { omsk := 15 } }
/-- The firing of `wMat` at an mwait since cycle 1, its queue holding an azero. -/
def wWaiting (now : Nat) : State :=
  { wMat with now := now,
              tiles := [(0, { wTile 0 with cfg := { wSite with code := [(0, BitVec.ofNat 64 ((encodeTile (.mwait wMwait)).getD 0))] }, mq := [{ op := .azero 0 }], firing := some { wFiring 0 with wait := some 1 } })] }
theorem witness_matrix_read :
    (Reads (wt 0) [] 0 15 false (wFiring 0) [] ∧ RoomOn (onTile (wt 0)) (wFiring 0) 15) ∧ mwaitIdle (onTile (wt 0)) wMwait = true ∧
    mwaitIdle ((wWaiting 6).tile 0) wMwait = false ∧ mwaitEnds (wWaiting 6) 0 ((wWaiting 6).tile 0) { wFiring 0 with wait := some 1 } wMwait = true ∧
    mwaitEnds (wWaiting 5) 0 ((wWaiting 5).tile 0) { wFiring 0 with wait := some 1 } wMwait = false ∧
    (decodeTile (tileWord ((wWaiting 6).tile 0) 0)).toOption = some (.mwait wMwait) :=
  ⟨⟨wt_reads _ _ _ _ _ _ _ rfl rfl, wt_room 0 _ _ rfl rfl⟩, by decide +kernel, by decide +kernel, by decide +kernel, by decide +kernel, by decide +kernel⟩
def wQueue (op : MatOp) : State := { wMat with now := 9, tiles := [(0, { wTile 0 with mq := [{ op := op, actor := 0, since := 8 }] })] }
theorem witness_matrix_starts :
    (∀ op ∈ [MatOp.mma 0 0 1 0 32, .mmac 0 0 1 0 32 0, .azero 0, .claim 0, .steer 0],
      (((wQueue op).tile 0).mq = [{ op := op, actor := 0, since := 8 }] ∧ ((wQueue op).tile 0).run = none ∧ ((wQueue op).tile 0).mqStop = false ∧
       ((wQueue op).tile 0).ember ≠ .saved ∧ ((wQueue op).tile 0).mqFrom ≤ (wQueue op).now) ∧
      headWaits (wQueue op) 0 ((wQueue op).tile 0) { op := op, actor := 0, since := 8 } = false ∧
      runFault ((wQueue op).tile 0) { op := op, actor := 0, since := 8 } = none) ∧
    headWaits (wQueue (.release 0)) 0 ((wQueue (.release 0)).tile 0) { op := .release 0, since := 8 } = false ∧
    runFault ((wQueue (.release 0)).tile 0) { op := .release 0, since := 8 } = some 0x141 := by decide +kernel
def wRun (op : MatOp) (res : Option Acc) (follow : Option (Nat × Nat)) : State :=
  { wMat with now := 9, tiles := [(0, { wTile 0 with run := some { cmd := { op := op, follow := follow }, doneAt := 9, res := res } })] }
/-- In its cycle, a command of each kind; one cycle earlier it has not completed. -/
theorem witness_matrix_completes :
    (∀ p ∈ [(MatOp.mma 0 0 1 0 32, some {}, none), (.mmas 0 0 1, some {}, none), (.azero 3, some ({} : Acc), some (0, 1)), (.claim 7, none, none), (.release 0, none, none),
      (.steer 2, none, none)],
      ((wRun p.1 p.2.1 p.2.2).tile 0).run = some { cmd := { op := p.1, follow := p.2.2 }, doneAt := 9, res := p.2.1 }) ∧
    (8 : Nat) < 9 ∧ 9 ≤ (wRun (.claim 7) none none).now := by
  refine ⟨?_, by decide, by decide⟩
  intro p _
  rfl
/-- A drain on its first cycle, its last token written, and in its last cycle. -/
def wDraining (now sent : Nat) : State :=
  { wMat with now := now, tiles := [(0, { wMat.tile 0 with run := some { cmd := { op := .drain 0 false 1 }, startAt := 9, doneAt := 41, res := some {}, mask := 1, sent := sent } })] }
theorem witness_drains :
    (∀ p ∈ [(9, 0), (40, 31), (41, 32)], ((wDraining p.1 p.2).tile 0).run =
      some { cmd := { op := .drain 0 false 1 }, startAt := 9, doneAt := 41, res := some {}, mask := 1, sent := p.2 }) ∧
    (9 : Nat) < 41 ∧ 9 = 9 + 0 ∧ 40 = 9 + 31 ∧ 41 ≤ (wDraining 41 32).now ∧ outRl ((wDraining 9 0).tile 0) 0 = 16 := by
  refine ⟨?_, by decide, by decide, by decide, by decide, by decide +kernel⟩
  intro p _
  rfl

/-! ## Witnesses: channels and firings -/

/-- A tile with a first input of capacity 1 under the policy `pol`, holding `items`, and `tok` due there. -/
def wPort (pol : Nat) (items : List Item) (tok : Tok) : State :=
  { wt 0 with now := 5, flights := [{ sink := 0x40, tok := tok, due := 5 }],
              tiles := [(0, { wTile 0 with cfg := { wSite with ins := #v[some { cap := 1, pol := pol }, none, none, none] },
                                           ins := #v[{ items := items, seq := 1, ids := 1 }, {}, {}, {}] })] }
def wHeldRec : Item := .record { toks := [{}], seq := 0 } .queue false false
theorem witness_arrivals :
    (∀ p ∈ [(0, [], ({} : Tok)), (1, [wHeldRec], {}), (0, [], { kind := 1 }), (0, [], { kind := 2 }), (0, [], { kind := 3 }), (0, [], { kind := 4 }), (0, [], { kind := 5 }),
        (0, [], { first := false })],
      (takeFlight (wPort p.1 p.2.1 p.2.2) (sinkNo 0 (0x40 + 0))).isSome = true ∧
      (((wPort p.1 p.2.1 p.2.2).tile 0).cfg.ins[0]) = some { cap := 1, pol := p.1 } ∧ ((wPort p.1 p.2.1 p.2.2).tile 0).ember = .no ∧
      (siteGrove (wPort p.1 p.2.1 p.2.2) 0).exact = false ∧ ((wPort p.1 p.2.1 p.2.2).tile 0).ins[0].asm = none ∧
      (wPort p.1 p.2.1 p.2.2).groveOfSite 0 = some 0 ∧ ((wPort p.1 p.2.1 p.2.2).tile 0).ins[0].markers < 8 ∧ ((wPort p.1 p.2.1 p.2.2).tile 0).ins[0].waiting = false ∧
      endDue 5 ((wPort p.1 p.2.1 p.2.2).tile 0) = false ∧ (returning 5 ((wPort p.1 p.2.1 p.2.2).tile 0) 0).isSome = false ∧
      ((wPort p.1 p.2.1 p.2.2).tile 0).ins[0].blkN = 0 ∧ ((wPort p.1 p.2.1 p.2.2).tile 0).ins[0].engaged = false) ∧
    ((wPort 0 [] {}).tile 0).ins[0].occ < 1 ∧ ((wPort 1 [wHeldRec] {}).tile 0).ins[0].occ = 1 ∧ wHeldRec.hasId 1 = false ∧
    (∀ r1 a h1 n1, Item.record r1 a h1 n1 ∈ ((wPort 1 [wHeldRec] {}).tile 0).ins[0].items → a = .queue) := by
  refine ⟨by decide +kernel, by decide +kernel, by decide +kernel, by decide +kernel, ?_⟩
  intro r1 a h1 n1 h
  have e : Item.record r1 a h1 n1 = wHeldRec := List.mem_singleton.mp h
  cases e
  rfl
def wCtl (q : List (Bool × Nat)) : State :=
  { wt 0 with now := 5, ctls := [{ sink := 0xC0, bit := true, due := 5 }], tiles := [(0, { wTile 0 with cin := #v[q, [], [], []] })] }
theorem witness_control_tokens :
    (∀ q ∈ [[], [(true, 65534)], [(false, 3)], [(true, 1), (false, 1), (true, 1), (false, 1), (true, 1), (false, 1), (true, 1), (false, 1)]],
      (takeBit (wCtl q) (sinkNo 0 (0xC0 + 0))).isSome = true ∧ ((wCtl q).tile 0).cin[0] = q ∧ (wCtl q).groveOfSite 0 = some 0) ∧
    ([(true, 1), (false, 1), (true, 1), (false, 1), (true, 1), (false, 1), (true, 1), (false, 1)] : List (Bool × Nat)).length = 8 := by decide +kernel
/-- An actor that takes one record and produces one, its record there since cycle 4. -/
def wFireCfg (fire : Bool) : SiteCfg :=
  { actors := at_ (Vector.replicate 8 none) 0 (fun _ => some { wActor with ci := #v[1, 0, 0, 0], po := #v[1, 0, 0, 0] }),
    ins := #v[some { cap := 1, fire := fire }, none, none, none], outs := #v[some 1, none, none, none] }
def wFire (fire : Bool) (items : List Item) : State :=
  { wt 0 with now := 5, tiles := [(0, { cfg := wFireCfg fire, gen := 1, ins := #v[{ items := items, seq := 1 }, {}, {}, {}] })] }
theorem witness_firing_starts :
    mayFire (wFire true [.record { toks := [{}], arr := 4 } .queue false false]) 0 ((wFire true [.record { toks := [{}], arr := 4 } .queue false false]).tile 0) = true ∧
    ((pickActor (wFire true [.record { toks := [{}], arr := 4 } .queue false false]) 0 ((wFire true [.record { toks := [{}], arr := 4 } .queue false false]).tile 0)).map (·.1)) = some 0 := by
  decide +kernel
def wEnding (exact : Bool) : State :=
  { wt 0 with now := 5, groves := [(0, { wGrove with exact := exact, image := { exact := exact } })],
              tiles := [(0, { cfg := wSite, gen := 1, ending := [{ wFiring 0 with endAt := some 5, writes := [(3, 7)], wcc := true, held := #v[[], [], [], []] }] })] }
theorem witness_firing_ends :
    (∀ e ∈ [true, false], ((wEnding e).tile 0).ending = [{ wFiring 0 with endAt := some 5, writes := [(3, 7)], wcc := true, held := #v[[], [], [], []] }] ∧
      unitsRun (wEnding e) 0 = true ∧ siteExact (wEnding e) 0 = e) ∧ (wFiring 0).cmds = [] ∧
    (∀ r ∈ [RunState.frozen, .halted], unitsRun { wEnding true with groves := [(0, { wGrove with run := r })] } 0 = false) := by decide +kernel
theorem witness_ash_steps :
    (let s := wFire false [.ash { cnt := 3, fseq := 1, arr := some 4 } false false]
     let a : ActorCfg := { wActor with ci := #v[1, 0, 0, 0], po := #v[1, 0, 0, 0] }
     (s.tile 0).cfg.actors[0]? = some (some a) ∧ stepInputs a = [0] ∧ ashPass (s.tile 0) 0 = true ∧
     headAsh (s.tile 0).ins[0] (siteExact s 0) (s.now + 1) = some { cnt := 3, fseq := 1, arr := some 4 } ∧ (s.tile 0).firing = none ∧ (s.tile 0).ending = [] ∧
     endDue s.now (s.tile 0) = false ∧ (returning s.now (s.tile 0) 0).isSome = false ∧ arrivalDue s 0 0 = false ∧
     (s.tile 0).stopped = false ∧ (s.tile 0).ember = .no ∧ unitsRun s 0 = true) := by decide +kernel
theorem witness_markers :
    (∀ k ∈ [2, 4, 5],
     (let s := wFire true [.marker k]
      (s.tile 0).stopped = false ∧ (s.tile 0).ember = .no ∧ unitsRun s 0 = true ∧ ((s.tile 0).cfg.ins[0]).isSome = true ∧
      (∀ p : Fin 4, ((s.tile 0).cfg.ins[p]).isSome = true → ((s.tile 0).ins[p]).items.head? = some (.marker k)) ∧ betweenFirings s.now (s.tile 0) = true ∧
      stagingEmpty s.now (s.tile 0) = true ∧ (s.tile 0).commands = [])) := by decide +kernel
/-- A port of capacity 1 with `front` in its list and then one parked record of one token, the last return in `backAt`. -/
def wParked (front : List Item) (pl : Place) (toks : List Tok) (backAt : Option Nat) : State :=
  { wt 0 with now := 5,
              tiles := [(0, { wTile 0 with cfg := { wSite with ins := #v[some { cap := 1, spn := 2, dsz := 2 }, none, none, none] },
                                           ins := #v[{ items := front ++ [.record { toks := toks, id := 9 } pl false false, .marker 2], backAt := backAt }, {}, {}, {}] })] }
theorem witness_parked :
    (∀ pl ∈ [Place.spill, .defer, .recorded],
     (let s := wParked [.marker 4] pl [{}] (some 4)
      (s.tile 0).cfg.ins[0] = some { cap := 1, spn := 2, dsz := 2 } ∧
      ((s.tile 0).ins[0]).items = [.marker 4] ++ .record { toks := [{}], id := 9 } pl false false :: [.marker 2] ∧ parked pl = true ∧ (Item.marker 4).isParked = false ∧
      (((s.tile 0).ins[0]).items.filterMap (fun i => match i with
        | .record r _ _ _ => some r.id
        | _ => none)) = [9] ∧
      (s.tile 0).ember = .no ∧ endDue s.now (s.tile 0) = false ∧ ((s.tile 0).ins[0]).occ < 1 ∧ 1 ≤ [({} : Tok)].length ∧ ((s.tile 0).ins[0]).backAt ≠ some s.now)) ∧
    (((wParked [] .spill [{}] none).tile 0).ins[0]).actedAt ≠ some 5 ∧ ({ (((wParked [] .spill [{}] none).tile 0).ins[0]) with actedAt := some 5 } : InPort).actedAt = some 5 ∧
    1 ≤ (((wParked [wHeldRec] .spill [{}] none).tile 0).ins[0]).occ ∧ ([] : List Tok).length < 1 ∧
    (((wParked [] .spill [{}] (some 5)).tile 0).ins[0]).backAt = some (wParked [] .spill [{}] (some 5)).now := by decide +kernel

/-! ## Witnesses: stream commands -/

/-- Page tables from 0x10000 that map VA 0x1000 to PA 0x20000 with the format `fmt`, writable, and what stands from 0x20000 on. -/
def wTables (fmt : Nat) (data : List Host.Cell) : List Host.Cell :=
  [(0x10000, 0x11), (0x10007, 0x80), (0x11000, 0x12), (0x11007, 0x80), (0x12000, 0x13), (0x12007, 0x80), (0x13008, 0x20)] ++
    (if fmt = 0 then [] else [(0x1300D, BitVec.ofNat 8 (2 * fmt))]) ++ [(0x1300F, 0xC8)] ++ data
/-- A thread of a grove with those tables. -/
def wd (l : List (Nat × Nat)) (fmt : Nat) (data : List Host.Cell) : State :=
  { wr l with groves := [(0, { wGrove with troot := 0x10000, h := 1 })], mem := wTables fmt data }
/-- The same with the first slice's output 0 bound west to the fill input of the tile beside it, whose slots are claimed; template 1 of the slice is an
empty pattern; node 1 is a scatter node and node 2 a gather node. -/
def wBind (sw fmt : Nat) (data : List Host.Cell) : State :=
  { wd [(1, 0x1000), (2, sw)] fmt data with
    tiles := [(6, { gen := 1, cfg := { binds := [(0x44, 16)] }, slots := Vector.replicate 8 { gen := 1, claim := some 0 } })],
    slices := [(7, { cfg := { binds := [(48, 0x40)], temps := [(1, {})], nodes := #v[{}, { kind := 1 }, { kind := 2 }, {}] } })] }
/-- A cut record of a panel of one column with a budget of 4. -/
def wCutRecord : List Host.Cell := [(0x20016, 4), (0x20017, 0x10), (0x2001C, 32), (0x20021, 0x10), (0x20029, 0x10), (0x20031, 0x10), (0x20039, 0x10)]
def wCutWord : Nat := 2 ^ 22 + 2 * 2 ^ 19 + 3 * 2 ^ 16
/-- A load, a fill, a store and a gather from the empty template, a scatter, a cut. -/
theorem witness_binds :
    (∀ p ∈ [(StreamKind.load, 2 ^ 27 + 2 ^ 23, 0, []), (.fill, 2 ^ 27 + 2 ^ 23, 0, []), (.store, 2 ^ 27 + 2 ^ 23, 0, []), (.gather, 2 ^ 27 + 2 ^ 23 + 2 * 2 ^ 11, 0, []),
        (.scatter, 2 ^ 11, 0, []), (.cut, wCutWord, 30, wCutRecord)],
      okIs (bindCheck (wBind p.2.1 p.2.2.1 p.2.2.2) p.1 0x1000 p.2.1)
        (fun r => !ctrFull (wBind p.2.1 p.2.2.1 p.2.2.2).me .mx (followCount (wBind p.2.1 p.2.2.1 p.2.2.2) r.1 r.2) && decide (r.2.sid / 256 % 2 < 2)) = true ∧
      recordRead (wBind p.2.1 p.2.2.1 p.2.2.2) p.1 0x1000 p.2.1 = true ∧ ((wBind p.2.1 p.2.2.1 p.2.2.2).coreOf 0).cmdq.length < 1024 ∧
      mustWait (wBind p.2.1 p.2.2.1 p.2.2.2) { srcs := [1, 2], dst := some 3, mem := true, spec := true } = false ∧
      sourceFault (wBind p.2.1 p.2.2.1 p.2.2.2).me [1, 2] = none) ∧
    bindsAhead (wBind 0 0 []) {} = false ∧
    HasRoom (wBind 0 0 []) .ld ∧ HasRoom (wBind 0 0 []) .st ∧ CanTrap (wBind 0 0 []) 0x800 ∧ okIs (bindCheck (wBind (2 ^ 28) 0 []) .load 0x1000 (2 ^ 28)) (fun _ => true) = false :=
  ⟨by decide +kernel, by decide +kernel, rfl, rfl, ⟨⟨0, rfl, rfl⟩, rfl, rfl⟩, by decide +kernel⟩
/-- An earlier bind of another thread on the engine is under an open generation. -/
theorem witness_binds_ahead :
    (let s : State := { wBind 0 0 [] with slices := [(7, { engines := Vector.replicate 2 { gens := #v[some { gen := some 1, thread := 1 }, none, none, none] } })] }
     bindsAhead s {} = true) := by decide +kernel
theorem witness_stream_words :
    (myGrove (wBind 0 0 [])).slices.length = 4 ∧ (myGrove (wBind 0 0 [])).slices[0]? = some 7 ∧ (2 ^ 16 : Nat) / 2 ^ 16 % 128 ≠ 0 ∧ (2 ^ 28 : Nat) / 2 ^ 28 % 4 ≠ 0 ∧
    (2 ^ 10 : Nat) / 2 ^ 10 % 2 = 1 := by decide +kernel
/-- A load command in the queue, and four streams that take every generator of its engine. -/
def wQueued (busy : Bool) : State :=
  { wBind 0 0 [] with cores := [(0, { grove := some 0, cmdq := [{ slice := 7, eng := 0, stream := { kind := .load, empty := true } }] })],
                      slices := [(7, { engines := if busy then Vector.replicate 2 { gens := Vector.replicate 4 (some {}) } else Vector.replicate 2 {} })] }
theorem witness_dequeue :
    (mayBind (wQueued false) { slice := 7, eng := 0, stream := { kind := .load, empty := true } } = true ∧ freeGen (wQueued false) 7 0 = some 0 ∧
      ((wQueued false).coreOf 0).grove = some 0 ∧ ((wQueued false).grove 0).run ≠ .embering) ∧
    mayBind (wQueued true) { slice := 7, eng := 0, stream := { kind := .load, empty := true } } = false := by decide +kernel
/-- A stream of kind `k` with the id 0, bound in generator 0 of the first slice. -/
def wBound (k : StreamKind) (exact : Bool) (v : Nat) (paused : Option (Cause × Nat)) : State :=
  { wr [(1, 0), (2, v)] with
    groves := [(0, { wGrove with exact := exact })],
    slices := [(7, { engines := Vector.replicate 2 { gens := #v[some { kind := k, paused := paused, toks := 4, emit := 1, win := [{ idx := 1 }], branches := [(0, 5), (7, 5)] }, none, none, none] } })] }
theorem witness_stream_controls :
    (∀ k ∈ [StreamKind.load, .fill, .gather, .store, .scatter, .cut], ∀ e ∈ [false, true], ∀ p ∈ [none, some (0x200, 0)],
      (findStream (wBound k e (2 ^ 20 - 1) p) (myGrove (wBound k e (2 ^ 20 - 1) p)) 0).map (fun q => decide (q.1 = .gen 7 0) && decide (q.2.kind = k) && decide (q.2.paused = p)) = some true) ∧
    ((wBound .load true 1 none).me.reg 2).toNat = 1 ∧ ((wBound .load true (2 ^ 20) none).me.reg 2).toNat = 2 ^ 20 ∧ ((wBound .load true 0 none).me.reg 2).toNat = 0 ∧
    ((wBound .load true (2 ^ 20 + 1) none).me.reg 2).toNat = 2 ^ 20 + 1 ∧ ((wBound .load true 0 none).grove 0).exact = true ∧
    (findStream w0 (myGrove w0) 0).isNone = true ∧ mustWait (wBound .load true 1 none) { srcs := [1, 2] } = false ∧ sourceFault (wBound .load true 1 none).me [1, 2] = none := by
  decide +kernel
/-- The last tile of a one-cluster grove, the first value past its rows, the first that is no site, and the slice at its first row. -/
theorem witness_resume :
    (let s := wr [(1, 6 * 64 + 3)]
     Issues s { srcs := [1] } ∧ 6 * 64 + 3 < 2 ^ 12 ∧ (6 * 64 + 3) / 64 < 8 * (myGrove s).image.gw ∧ (6 * 64 + 3) % 64 < 4 * (myGrove s).image.gh ∧
       siteIsSlice (siteAt 0 6 3) = false ∧ ¬(4 < 4 * (myGrove s).image.gh) ∧ siteIsSlice (siteAt 0 7 0) = true ∧ (wr [(1, 4096)]).me.reg 1 = 4096) :=
  ⟨⟨rfl, rfl⟩, by decide +kernel⟩

/-! ## Witnesses: operations, copies, messages -/

theorem witness_operations :
    (∀ d ∈ [false, true], ∀ f ∈ [none, some (3 : Fin 8)],
      (let o : Op := { id := 7, thread := 0, ctr := some .cp, dst := some 5, done := d, give := f }
       let s : State := { wr [(5, 1)] with ops := [o] }
       s.ops.find? (fun q => q.id = o.id) = some o ∧ o.ctr = some Ctr.cp ∧ ((s.thr 0).regs[1]).pend ≠ some o.id)) ∧
    ((wAwait.thr 0).regs[1]).pend = some 7 := by decide +kernel
/-- Records at VA 0x1000: a copy of 32 bytes and one of none; a misaligned source, one past tile store, one past slice store. -/
theorem witness_smove :
    (∀ d ∈ [[((0x20018, 32) : Host.Cell)], [], [(0x20010, 1), (0x20018, 32)], [(0x20012, 2), (0x20018, 32)], [(0x20012, 0x10), (0x20018, 32), (0x2001F, 0x50)]],
      okIs (readRecord (wd [(1, 0x1000)] 0 d) (myGrove (wd [(1, 0x1000)] 0 d)) 0x1000 32) (fun v =>
        okIs (moveSite wGrove (v / 2 ^ 254 % 4) (v / 2 ^ 240 % 2 ^ 12)) (fun _ => true) && okIs (moveSite wGrove (v / 2 ^ 252 % 4) (v / 2 ^ 228 % 2 ^ 12)) (fun _ => true) &&
        decide (v / 2 ^ 254 % 4 < 3 ∧ v / 2 ^ 224 % 16 = 0 ∧ v % 2 ^ 64 = 0 ∧ v / 2 ^ 240 % 2 ^ 12 = 0 ∧ v / 2 ^ 228 % 2 ^ 12 = 0)) = true) ∧
    okIs (readRecord (wd [(1, 0x1000)] 0 [(0x20000, 1)]) (myGrove (wd [] 0 [])) 0x1000 32) (fun v => decide (v % 2 ^ 64 ≠ 0)) = true ∧
    okIs (readRecord (wd [(1, 0x1000)] 0 [(0x20018, 32)]) (myGrove (wd [] 0 [])) 0x1000 32) (fun v => sideFault wGrove (v / 2 ^ 254 % 4) (v / 2 ^ 128 % 2 ^ 64) (v / 2 ^ 192 % 2 ^ 32) = none &&
      decide (v / 2 ^ 192 % 2 ^ 32 = 32)) = true ∧
    okIs (readRecord (wd [(1, 0x1000)] 0 [(0x20012, 2), (0x20018, 32)]) (myGrove (wd [] 0 [])) 0x1000 32) (fun v => decide (v / 2 ^ 128 % 2 ^ 64 + 32 = 0x20020)) = true ∧
    okIs (readRecord (wd [(1, 0x1000)] 0 [(0x20012, 0x10), (0x20018, 32), (0x2001F, 0x50)]) (myGrove (wd [] 0 [])) 0x1000 32) (fun v =>
      decide (v / 2 ^ 128 % 2 ^ 64 + 32 = 2 ^ 20 + 32 ∧ v / 2 ^ 254 % 4 = 1 ∧ v / 2 ^ 252 % 4 = 1)) = true ∧
    mustWait (wd [(1, 0x1000)] 0 []) { srcs := [1], mem := true } = false ∧ sourceFault (wd [(1, 0x1000)] 0 []).me [1] = none ∧ earlierDone (wd [(1, 0x1000)] 0 []) ((wd [] 0 []).grove 0) 0x1000 64 = true ∧
    earlierDone (wd [(1, 0x1000)] 0 []) ((wd [] 0 []).grove 0) 0x1000 32 = true ∧
    ctrFull (wd [(1, 0x1000)] 0 []).me .cp 1 = false := by decide +kernel
theorem witness_smove_traps : CanTrap (wd [(1, 0x1000)] 0 []) 0x800 ∧ Issues (wd [(1, 0x1000)] 0 []) { srcs := [1] } ∧ HasRoom (wd [(1, 0x1000)] 0 []) .cp :=
  ⟨⟨⟨0, rfl, rfl⟩, rfl, rfl⟩, ⟨rfl, rfl⟩, rfl⟩
/-- A copy of two tokens from tile, slice or main memory to each of them, its first token still to be read, or to be written; the last of them; one that waits. -/
theorem witness_smove_tokens :
    (∀ a ∈ [0, 1, 3], ∀ b ∈ [0, 1, 3], ∀ f ∈ [none, some (5, false)],
      (let m : Smove := { op := 7, ssp := a, dsp := b, ssite := if a = 1 then 7 else 0, dsite := if b = 1 then 7 else 0, len := 64, segs := [(0, 0, 64, 0x20000), (1, 0, 64, 0x20040)], fly := f }
       let s : State := { wd [] 0 [] with smoves := [m] }
       Memory.wf s.mem = true ∧ s.smoves.find? (fun q => q.op = m.op) = some m ∧ forkReady s m.thread m.op (m.point s (if m.fly.isNone then 0 else 1)) = true ∧
         (a = 0 → okIs (((s.tile 0).before s.now).read 0 32) (fun v => decide (v = 0)) = true) ∧ (a = 1 → okIs (((s.slice 7).before s.now).read 0 32) (fun v => decide (v = 0)) = true) ∧
         m.early s = false ∧ s.badAt (m.pa 0 m.done) 32 = false)) ∧ ({} : State).now < ({ due := 1 } : Smove).due ∧
    (0 : Nat) + 32 < 64 ∧ (64 : Nat) ≤ 32 + 32 ∧
    (let m : Smove := { op := 7, ssp := 3, dsp := 3, len := 32, segs := [(0, 0, 32, 0x20000), (1, 0, 32, 0x20020)] }
     let s : State := { wd [] 0 [] with smoves := [m], reqs := [{ id := 3, kind := .store 8 5, pieces := [(0, 8, 0x20000)], points := [pointOf 0 0x20000] }] }
     forkReady s m.thread m.op (m.point s 0) = false) := by decide +kernel
/-- A halo record of two tiles by one; the tiles bound both ways, or not. -/
def wHalo (bound : Bool) (hb : Nat) : State :=
  { wd [(1, 0x1000)] 0 [(0x2003D, 0x81)] with
    tiles := if bound then [(0, { gen := 1, cfg := { binds := [(16, 0x44), (0x45, 16)] } }), (1, { gen := 1, hb := hb, hbGen := 1, cfg := { binds := [(48, 0x44), (0x45, 48)] } })] else [] }
theorem witness_shalo :
    okIs (readRecord (wHalo true 0) (myGrove (wHalo true 0)) 0x1000 64) (fun v => decide (haloTiles (myGrove (wHalo true 0)) v = some [0, 1]) &&
      (List.range 4).all (fun i => (stripFault (stripOf v i)).isNone) &&
      decide (v / 2 ^ 480 % 2 ^ 6 = 0 ∧ v % 2 ^ 160 = 0 ∧ 1 ≤ v / 2 ^ 494 % 2 ^ 6 ∧ 1 ≤ v / 2 ^ 488 % 2 ^ 6 ∧ v / 2 ^ 488 % 2 ^ 6 ≤ 60) &&
      (List.range 4).all (fun i => decide (v / 2 ^ (400 - 80 * i) % 2 ^ 5 = 0))) = true ∧ (0 : Nat) / 2 ^ 488 % 2 ^ 6 < 1 ∧
    haloBound (wHalo true 0) [0, 1] = true ∧ haloBound (wHalo false 0) [0, 1] = false ∧ ((wHalo true 0).tile 1).halo = 0 ∧ ((wHalo true 32).tile 1).halo ≠ 0 := by decide +kernel
theorem witness_halo_lands :
    (let h : HaloTok := { id := 9, from_ := 0, site := 1, sent := true, fly := some (5, false) }
     let s : State := { wHalo true 32 with halos := [h] }
     s.halos.find? (fun q => q.id = h.id) = some h ∧ (s.halos.find? (fun q => q.from_ = h.from_)).map (·.id) = some h.id ∧ h.due ≤ s.now ∧ haloReady s h h.site = true ∧ (s.tile 1).halo ≤ 32 ∧ 32 < ((wHalo true 64).tile 1).halo ∧ h.cin < 4) ∧
    runPush [(true, 1), (false, 1), (true, 1), (false, 1), (true, 1), (false, 1), (true, 1), (false, 1)] true = none := by decide +kernel
/-- Class 13 to cluster 0, with no payload or one flit; class 14; a set reserved bit. -/
theorem witness_messages :
    (∀ w ∈ [13, 14, 2 ^ 19], ((wMapped false [(1, 0x1000), (2, w)]).me.reg 2).toNat = w) ∧ ((wMapped false [(1, 0x1000)]).me.reg 1).toNat % 32 = 0 ∧
    (myGrove (wMapped false [])).image.gw * (myGrove (wMapped false [])).image.gh = 1 ∧ (8 : BitVec 4).toNat ≤ 8 ∧
    mustWait (wMapped false [(1, 0x1000), (2, 13)]) { srcs := [1, 2], mem := true } = false ∧ ctrFull (wMapped false []).me .st 1 = false := by decide +kernel
theorem witness_message_read : ∃ ps s1, translatePieces (wMapped false [(1, 0x1000)]) 0 .load 0x1000 ((List.range 1).map (fun i => (0x1000 + 32 * i, 32))) = (.ok ps, s1) := ⟨_, _, rfl⟩
theorem witness_masks : (∀ k ∈ [0, 13, 14], ((wr [(1, k)]).me.reg 1).toNat = k) ∧ mustWait (wr [(1, 13)]) { srcs := [1] } = false := by decide +kernel
/-- Cluster 0's class 3 goes to thread 0 at word 5, and class 4 to nobody. -/
def wHandled (p : Packet) (n : Nat) (th : Thread) : State :=
  { wState { wGrove with image := { handlers := [(3, .thread 0 0 5)] } } th with packets := [p], cores := [(0, { grove := some 0, inbox := List.replicate n p })] }
theorem witness_taken :
    (∀ cls ∈ [3, 4], (let p : Packet := { id := 7, type := 6, cls := cls, dep := coreEp, dclu := cluCode 0 }
      (wHandled p 0 wThread).packet p.id = some p ∧ p.at_ = .delivered ∧ firstOfClass (wHandled p 0 wThread) p = true ∧ ((wHandled p 0 wThread).grove p.grove).live = true)) ∧
    (let p : Packet := { id := 7, type := 6, cls := 3, dep := coreEp, dclu := cluCode 0 }
     (tabFind ((wHandled p 0 wThread).grove 0).image.handlers 3 = some (.thread 0 0 5)) ∧ ((wHandled p 0 wThread).grove 0).indexOf (cluDecode p.dclu) = 0 ∧
     tabFind ((wHandled p 0 wThread).grove 0).image.handlers 4 = none ∧ (((wHandled p 15 wThread).coreOf 0).inbox.filter (fun q => q.cls = p.cls)).length < 16 ∧
     16 ≤ (((wHandled p 16 wThread).coreOf 0).inbox.filter (fun q => q.cls = p.cls)).length) := by decide +kernel
theorem witness_dispatch :
    (let p : Packet := { id := 7, type := 6, cls := 3, dep := coreEp, dclu := cluCode 0 }
     let s := wHandled p 1 { wThread with status := .halted }
     s.groveOfThread 0 = some 0 ∧ (s.thr 0).dispatchable = true ∧ groveRuns (s.grove 0) = true ∧
     (s.coreOf 0).inbox.find? (fun q => (handlerEntry (s.grove 0) (s.coreOf 0) s.now 0 q).isSome) = some p ∧ handlerEntry (s.grove 0) (s.coreOf 0) s.now 0 p = some 5) := by decide +kernel
theorem witness_records_trap :
    (∀ cls ∈ [14, 15], (let p : Packet := { id := 7, type := 6, cls := cls }
      (wHandled p 1 wThread).grove 0 = { wGrove with image := { handlers := [(3, .thread 0 0 5)] } } ∧ groveRuns ((wHandled p 1 wThread).grove 0) = true ∧
      ((wHandled p 1 wThread).coreOf 0).inbox.find? (fun q => 14 ≤ q.cls) = some p ∧ ((wHandled p 1 wThread).thr 0).specs = [] ∧ ((wHandled p 1 wThread).thr 0).trapActive = false ∧
      ((wHandled p 1 wThread).thr 0).group = none ∧ ((wHandled p 1 { wThread with trapActive := true }).thr 0).trapActive = true)) := by decide +kernel
theorem witness_reductions :
    (∀ w ∈ [0, 1, 2, 2 ^ 48 + 1], ((wr [(1, 9), (2, w)]).me.reg 2).toNat = w ∧ mustWait (wr [(1, 9), (2, w)]) { srcs := [1, 2, 3], dst := some 3 } = false ∧
      sourceFault (wr [(1, 9), (2, w)]).me [1, 2, 3] = none ∧ redWaits (wr [(1, 9), (2, w)]) (myGrove (wr [])) 0 = [] ∧ ((wr [(1, 9), (2, w)]).coreOf 0).redWait = [] ∧ liveClusters (myGrove (wr [(1, 9), (2, w)])) = 1) ∧
    (let r : RedNode := { tag := 3, n := 2, val := 5 }
     let p : Packet := { id := 7, type := 8, dclu := cluCode 0, pay := [redFlit r true] }
     let q : RedWait := { thread := 0, tag := 3, n := 2, rd := 4, done := true }
     let s : State := { w0 with packets := [p], cores := [(0, { grove := some 0, redWait := [q] })] }
     s.packet p.id = some p ∧ p.at_ = .delivered ∧ q.away = false ∧ p.red = (r, true) ∧
     (s.coreOf (cluDecode p.dclu)).redWait.find? (fun x => x.tag = r.tag && x.n = r.n && x.done && x.result.isNone) = some q) := by decide +kernel
/-- A grove of two clusters: rank 0 or 1 of two issues, alone or with the other waiting; a rank of 2, with one that waits; partials that arrive. -/
def wTwoRanks (w : Nat) (other : List RedWait) (reds : List RedNode) (packets : List Packet) : State :=
  { wr [(1, 9), (2, w)] with groves := [(0, { wGrove with image := { gw := 2 } })], cores := [(0, { grove := some 0, reds := reds }), (1, { grove := some 0, redWait := other })],
                             threads := [(0, wWith [(1, 9), (2, w)]), (8, wThread)], packets := packets }
theorem witness_two_ranks :
    (∀ rank ∈ [0, 1], ∀ l ∈ [[], [({ thread := 8, n := 2, rank := 1 - rank } : RedWait)]],
      (let s := wTwoRanks (2 + rank * 2 ^ 16) l [] []
       (s.me.reg 2).toNat = 2 + rank * 2 ^ 16 ∧ liveClusters (myGrove s) = 2 ∧ redWaits s (myGrove s) 0 = l.map (fun q => (1, q)) ∧ (s.coreOf 0).redWait = [] ∧ (s.coreOf 0).reds = [] ∧
       mustWait s { srcs := [1, 2, 3], dst := some 3 } = false ∧ mustWait s { srcs := [1, 2], dst := some 3 } = false ∧ sourceFault s.me [1, 2, 3] = none)) ∧
    (let q : RedWait := { thread := 8, n := 2, rank := 1 }
     let s := wTwoRanks (2 + 2 * 2 ^ 16) [q] [] []
     redWaits s (myGrove s) 0 = [(1, q)] ∧ q.away = false ∧ q.thread ≠ s.focus ∧ s.groveOfThread 8 = s.groveOfThread 0 ∧ (s.thr 8).trapActive = false) ∧
    rootLevel 2 = 1 ∧ 1 / 2 ^ 0 % 2 = 1 := by decide +kernel
theorem witness_partials :
    (∀ l ∈ [[], [({ tag := 3, n := 2, val := 5 } : RedNode)]],
      (let r : RedNode := { tag := 3, n := 2, index := 1, val := 7 }
       let p : Packet := { id := 7, type := 8, dclu := cluCode 0, pay := [redFlit r false] }
       let q : RedWait := { thread := 0, tag := 3, n := 2, rd := 4 }
       let s : State := { wTwoRanks 0 [{ thread := 8, tag := 3, n := 2, rank := 1 }] l [p] with
                          cores := [(0, { grove := some 0, reds := l, redWait := [q] }), (1, { grove := some 0, redWait := [{ thread := 8, tag := 3, n := 2, rank := 1 }] })] }
       s.packet p.id = some p ∧ p.at_ = .delivered ∧ p.red = (r, false) ∧
       (s.coreOf 0).reds.find? (fun x => x.tag = r.tag && x.level = r.level && x.index + 1 = r.index) = l.head? ∧ rootLevel r.n ≤ r.level + 1 ∧ 0 ∈ (s.grove p.grove).clusters ∧
       (s.coreOf 0).redWait.filter (fun y => y.tag = r.tag) = [q] ∧ q.away = false ∧ q.done = false)) := by decide +kernel

/-! ## Witnesses: grove commands -/

/-- The cells of bytes from an address on. -/
def wCells (pa : Nat) (l : List Byte) : List Host.Cell := (l.zipIdx.filter (fun p => p.1 ≠ 0)).map (fun p => (pa + p.2, p.1))
/-- A header of one cluster, one region of die store, one frame (R157), and the end frame (R216, R217). -/
def wHead (exact : Bool) : Nat :=
  0x4D4C4431 * 2 ^ 480 + 2 ^ 464 + 2 ^ 460 + 2 ^ 456 + exact.toNat * 2 ^ 455 + 2 ^ 445 + 2 ^ 408 + 64 * 2 ^ 376 + 192 * 2 ^ 344 + 256 * 2 ^ 312 + 320 * 2 ^ 280
def wEndFrame : Nat := 15 * 2 ^ 252 + crc16 (15 * 2 ^ 236) 240 0 * 2 ^ 216
/-- A stage list entry at VA 0x1200: the image at 0x1000, its queue object at 0x1400, the threshold `thr`. -/
def wStage (thr : Nat) : Nat := 0x1000 * 2 ^ 192 + 0x1400 * 2 ^ 128 + thr * 2 ^ 96
/-- That image at VA 0x1000, that stage list, and key slot 0; `signed`: the slot holds the key 1, the neutral point, under which the signature of the
neutral point and the factor 0 verifies (RFC 8032). -/
def wImage (l : List (Nat × Nat)) (exact signed : Bool) (thr : Nat) : State :=
  { wd l 0 (wCells 0x20000 (bytesOf 64 (wHead exact)) ++ wCells 0x20100 (bytesOf 64 1) ++ wCells 0x20140 (bytesOf 32 wEndFrame) ++ wCells 0x20200 (bytesOf 32 (wStage thr))) with
    mgmt := { keys := (Vector.replicate 32 none).set 0 (if signed then some { key := 1 } else none) } }
def wAt (exact signed : Bool) : State := wImage [(1, 0x1000), (2, 2 ^ 63)] exact signed 1
theorem witness_image :
    (∀ e ∈ [false, true], okIs (fetchHeader (vaFetch (wAt e true) ((wAt e true).grove 0) 0x1000)) (fun head =>
      decide (head = bytesOf 64 (wHead e)) && okIs (verifyImage (wAt e true) (vaFetch (wAt e true) ((wAt e true).grove 0) 0x1000) head 0) (fun r =>
        r.2 && decide (r.1.gw = 1) && decide (r.1.gh = 1) && decide (r.1.copyRegions ≤ 1) &&
        (findPlace (wAt e true) (2 ^ 63) 1 1 ((headerOf (ofBytes head)).dsr + r.1.copyRegions)).isSome)) = true) ∧
    okIs (verifyImage (wAt false false) (vaFetch (wAt false false) ((wAt false false).grove 0) 0x1000) (bytesOf 64 (wHead false)) 0) (fun r => !r.2) = true ∧
    (placeFault false (2 ^ 63)).isNone = true ∧ freeGrove (wAt false true) = some 1 ∧ (findPlace (wAt false true) (2 ^ 63) 1 1 1).isSome = true ∧
    mustWait (wAt false true) { srcs := [1, 2], dst := some 3, mem := true } = false ∧ sourceFault (wAt false true).me [1, 2] = none ∧ ownStoresDone (wAt false true) 0 = true ∧
    ctrFull (wAt false true).me .mx 1 = false ∧ (wAt false true).groveOfThread 0 = some 0 := by decide +kernel
/-- At an origin that a grove holds there is no place. -/
theorem witness_no_place : (placeFault false 0).isNone = true ∧ (findPlace (wAt false true) 0 1 1 1).isNone = true := by decide +kernel
def wStaged (thr : Nat) : State := wImage [(1, 0x1200), (2, 2 ^ 63)] false true thr
theorem witness_stages :
    okIs (readRecord (wStaged 1) ((wStaged 1).grove 0) 0x1200 32) (fun v => decide (stageOf (wStaged 1) ((wStaged 1).grove 0) v = some (0x1000, { qva := 0x1400, thr := 1 }))) = true ∧
    okIs (stageImages (wStaged 1) ((wStaged 1).grove 0) 0 [(0x1000, { qva := 0x1400, thr := 1 })]) (fun l => stagesAgree l &&
      (findPlace (wStaged 1) (2 ^ 63) 1 1 (1 + l.foldl (fun k x => k + x.image.copyRegions) 0)).isSome) = true ∧ stagesAgree [{}] = false ∧
    okIs (readRecord (wStaged 0) ((wStaged 0).grove 0) 0x1200 32) (fun v => (stageOf (wStaged 0) ((wStaged 0).grove 0) v).isNone) = true := by decide +kernel
/-- The same list with an image whose header names slot 1, which serves owner 5. -/
def wForeign : State :=
  { wd [(1, 0x1200), (2, 2 ^ 63)] 0 (wCells 0x20000 (bytesOf 64 (wHead false + 2 ^ 440)) ++ wCells 0x20200 (bytesOf 32 (wStage 1))) with
    mgmt := { keys := (Vector.replicate 32 none).set 1 (some { key := 1, owner := 5 }) } }
theorem witness_other_owner :
    okIs (fetchHeader (vaFetch wForeign (wForeign.grove 0) 0x1000)) (fun head => otherOwner wForeign (headerOf (ofBytes head)) 0 &&
      (findPlace wForeign (2 ^ 63) 1 1 (headerOf (ofBytes head)).dsr).isSome) = true ∧
    otherOwner wForeign (headerOf (wHead false)) 0 = false := by decide +kernel
def wSplice (exact : Bool) : State := wImage [(1, 0), (2, 0x1000)] exact true 1
theorem witness_splices :
    handleGrove (wSplice false) 0 = some 0 ∧ ((wSplice false).grove 0).run = .running ∧ ((wSplice false).grove 0).image.gw = 1 ∧ ((wSplice false).grove 0).exact = false ∧
    (headerOf (wHead false)).exact = false ∧ (headerOf (wHead true)).exact = true ∧ handleGrove (wr [(1, 2)]) 2 = none ∧ 1 ≤ (freeRegions (wSplice false) 0).length := by decide +kernel
/-- Grove 1 at cluster 1, of the same owner, seen from grove 0. -/
def wTwoGroves (l : List (Nat × Nat)) (reqs : List MemReq) : State :=
  { wr l with groves := [(0, wGrove), (1, { wGrove with cx := 1 })], cores := [(0, { grove := some 0 }), (1, { grove := some 1 })], reqs := reqs }
theorem witness_release :
    handleGrove (wTwoGroves [(1, 2)] []) 2 = some 1 ∧ groveLanded (wTwoGroves [] []) 1 ((wTwoGroves [] []).grove 1).threads = true ∧ (1 : Nat) ≠ myGroveId (wTwoGroves [] []) ∧
    ¬(0 ∈ ((wTwoGroves [] []).grove 1).threads) ∧ groveLanded (wTwoGroves [] [{ src := 8, pieces := [(0, 8, 0)] }]) 1 ((wTwoGroves [] []).grove 1).threads = false ∧
    groveStreams (wTwoGroves [] []) ((wTwoGroves [] []).grove 1) = [] ∧ markerPending (wTwoGroves [] []) ((wTwoGroves [] []).grove 1) = false ∧
    exactRefused (wTwoGroves [] []) ((wTwoGroves [] []).grove 1) = false ∧
    markerPending { wTwoGroves [] [] with tiles := [(siteAt 0 8 0, { ins := #v[{ items := [.marker 2] }, {}, {}, {}] })] } ((wTwoGroves [] []).grove 1) = true := by decide +kernel
/-- A stream bound, or bound under an open generation alone. -/
theorem witness_mode_streams :
    (∀ n ∈ [none, some 1],
      (let s : State := { wTwoGroves [(1, 1), (2, 0)] [] with slices := [(7, { engines := Vector.replicate 2 { gens := #v[some { gen := n }, none, none, none] } })] }
       handleGrove s 1 = some 0 ∧ groveStreams s (s.grove 0) ≠ [] ∧ (groveStreams s (s.grove 0)).all (fun l => decide (l.2.gen = n)) = true ∧ markerPending s (s.grove 0) = false)) := by
  decide +kernel
theorem witness_heavy_slots :
    (∀ n ∈ [0, 1, 65535, 65536], ((wd [(1, n)] 0 []).me.reg 1).toNat = n) ∧ ((wd [] 0 []).grove 0).h = 1 ∧ (wd [] 0 []).groveOfThread 0 = some 0 := by decide +kernel
/-- What stands at VA 0x1000; the first word of a manifest. -/
def wManifest (l : List Byte) : State := wd [(1, 0x1000), (2, 0x1800)] 0 (wCells 0x20000 l)
def wMagic : List Byte := bytesOf 6 (0x4D465331 + 2 ^ 32)
def wLeaf : TlbEntry := { va := 0x1000, size := 4096, pa := 0x20000, leaf := BitVec.ofNat 64 (2 ^ 63 + 2 ^ 62 + 2 ^ 59 + 0x20) }
theorem readVa_page {s : State} {g : Grove} {va n : Nat} {e : TlbEntry} (hw : s.walkG g va = .ok e) (ha : accessFault s .load e = none) (hn : n ≠ 0)
    (hk : n ≤ e.va + e.size - va) : readVa s g 3 va n = .ok (s.bytesAt g.key (e.at_ va) n ++ []) := by
  have hm : Nat.min n (e.va + e.size - va) = n := Nat.min_eq_left hk
  simp only [readVa, hn, if_false, hw, ha, hm, Nat.sub_self, if_true]
theorem wManifest_walk (l : List Byte) (hl : l = [] ∨ l = wMagic) : (wManifest l).walkG ((wManifest l).grove 0) 0x1000 = .ok wLeaf := by
  rcases hl with rfl | rfl
  · obtain ⟨v, hv, he⟩ := exists_ok (e := (wManifest []).walkG ((wManifest []).grove 0) 0x1000) (p := fun v => decide (v = wLeaf)) (by decide +kernel)
    rw [hv, of_decide_eq_true he]
  · obtain ⟨v, hv, he⟩ := exists_ok (e := (wManifest wMagic).walkG ((wManifest wMagic).grove 0) 0x1000) (p := fun v => decide (v = wLeaf)) (by decide +kernel)
    rw [hv, of_decide_eq_true he]
/-- A page without X, whose words no code store takes (R20). -/
theorem witness_code_page : (wManifest []).walkG ((wManifest []).grove 0) (0x1000 + 0) = .ok wLeaf ∧ regionOf (wManifest []).dev wLeaf.pa = .lpddr ∧
    pteX wLeaf.leaf.toNat = false ∧ (0 : Nat) < 8 := ⟨wManifest_walk [] (.inl rfl), rfl, rfl, by decide⟩
theorem witness_manifests :
    okIs (storeChunks (wManifest []) ((wManifest []).grove 0) 3 0x1000 2048) (fun l => decide (l = [(0x20000, 2048)])) = true ∧
    okIs (storeChunks (wManifest []) ((wManifest []).grove 0) 3 0x1800 128) (fun l => decide (l = [(0x20800, 128)])) = true ∧
    okIs (readVa (wManifest []) ((wManifest []).grove 0) 3 0x1000 2048) (fun l => decide (ofBytes (l.take 6) ≠ 0x4D465331 + 2 ^ 32)) = true ∧
    okIs (readVa (wManifest wMagic) ((wManifest wMagic).grove 0) 3 0x1000 2048) (fun l => decide (ofBytes (l.take 6) = 0x4D465331 + 2 ^ 32)) = true := by decide +kernel
theorem drop_ne (L : List Byte) (h : L[0x140]? = some 0) : (L.drop 0x140).take (bytesOf 8 (256 + 16)).length ≠ bytesOf 8 (256 + 16) := by
  intro hc
  have h1 := congrArg (fun l => l[0]?) hc
  simp only [List.getElem?_take, List.getElem?_drop, bytesOf_length, Nat.add_zero, h] at h1
  revert h1; decide +kernel
theorem shape_field (s : State) (g : Grove) (h : g.image.gw * 256 + g.image.gh * 16 + g.exact.toNat * 8 + g.image.strict.toNat * 4 = 256 + 16) :
    (6, 0x140, bytesOf 8 (256 + 16)) ∈ manifestFields s g := by
  rw [← h]; exact .tail _ (.tail _ (.tail _ (.tail _ (.tail _ (.tail _ (.head _))))))
/-- That first word alone differs from the grove's manifest: its shape, at 0x140, is not zero. -/
theorem witness_manifest_differs : ∃ l f, readVa (wManifest wMagic) ((wManifest wMagic).grove 0) 3 0x1000 2048 = .ok l ∧
    firstDiff l (manifestFields (wManifest wMagic) ((wManifest wMagic).grove 0)) = some f := by
  have h0 : ((wManifest wMagic).bytesAt ((wManifest wMagic).grove 0).key (wLeaf.at_ 0x1000) 2048 ++ [])[0x140]? = some 0 := by
    rw [List.append_nil, bytesAt_get _ _ _ _ _ (by decide)]
    exact congrArg some (show (wManifest wMagic).byteAt ((wManifest wMagic).grove 0).key (wLeaf.at_ 0x1000 + 0x140) = 0 by decide +kernel)
  exact ⟨_, _, readVa_page (wManifest_walk _ (.inr rfl)) (by decide +kernel) (by decide) (by decide), Option.eq_some_of_isSome
    (List.find?_isSome.mpr ⟨_, shape_field _ _ (by decide +kernel), by rw [Bool.and_eq_true]; exact ⟨rfl, decide_eq_true (drop_ne _ h0)⟩⟩)⟩
theorem witness_tinv_ready : tinvReady w0 7 0 0 4096 = true := rfl
theorem witness_tinv :
    ((wr [(1, 2 ^ 48 - 1), (2, 1)]).me.reg 1).toNat + ((wr [(1, 2 ^ 48 - 1), (2, 1)]).me.reg 2).toNat = 2 ^ 48 ∧
    ((wr [(1, 2 ^ 48 - 1), (2, 2)]).me.reg 1).toNat + ((wr [(1, 2 ^ 48 - 1), (2, 2)]).me.reg 2).toNat = 2 ^ 48 + 1 ∧ ((wr []).me.reg 2).toNat = 0 ∧
    ({ w0 with tinvs := [(7, 0, 0, 4096)] } : State).tinvs.find? (fun v => v.1 = 7) = some (7, 0, 0, 4096) ∧
    7 ∈ ((wBound .load true 1 none).grove 0).slices ∧ (genStream (wBound .load true 1 none) 7 0).isSome = true := by decide +kernel

/-! ## Witnesses: embers, splices, stages, freezes -/

/-- A grove at cluster 1 as `g` says, seen from grove 0; its die's regions free, or all taken. -/
def wOther (g : Grove) (full : Bool) (l : List (Nat × Nat)) : State :=
  { wr l with groves := [(0, wGrove), (1, { g with live := true, cx := 1 })], cores := [(0, { grove := some 0 }), (1, { grove := some 1 })],
              dies := if full then [(0, { holder := (List.range 256).map (fun r => (r, 9)) })] else [] }
/-- A save of one cluster takes one region, which a full die has not. -/
theorem witness_save_room :
    (saveFree (wOther {} false []) ((wOther {} false []).grove 1)).isSome = true ∧ saveFree (wOther {} true []) ((wOther {} true []).grove 1) = none := by decide +kernel
theorem witness_ember :
    handleGrove (wOther {} false []) 2 = some 1 ∧ ((wOther {} false []).grove 1).run = .running ∧ handleGrove (wOther {} false []) 3 = none ∧
    handleGrove (wOther { run := .frozen } false []) 2 = some 1 ∧ ((wOther { run := .frozen } false []).grove 1).run ≠ .running := by decide +kernel
/-- A grove that an ember waits for, which runs or does not. -/
theorem witness_ember_waits :
    (∀ r ∈ [RunState.running, .frozen],
      (let s : State := { w0 with groves := [(0, { wGrove with run := r, emberWait := some ([1], 7, false) })] }
       handleGrove s 0 = some 0 ∧ (s.grove 0).emberWait = some ([1], 7, false) ∧ (s.grove 0).run = r)) ∧
    ((wOther {} false []).grove 1).emberWait = none := by decide +kernel
/-- A tile marked in cycle 4. -/
def wMarked (now : Nat) (f : Option Firing) : State :=
  { wt 0 with now := now, tiles := [(0, { gen := 1, ember := .marked 4, firing := f })], groves := [(0, { wGrove with run := .embering })] }
theorem witness_tile_saves :
    ((wMarked 5 none).tile 0).ember = .marked 4 ∧ stagingEmpty 5 ((wMarked 5 none).tile 0) = true ∧ unitsRun (wMarked 5 none) 0 = true ∧
    roundReady ((wMarked 5 none).tile 0) = false ∧ ((wMarked 5 (some {})).tile 0).firing.isSome = true ∧ ¬(5 ≤ 4) ∧ ((wMarked 5 none).tile 0).roundAt ≤ 5 ∧
    (5 : Nat) < ({ (wMarked 5 none).tile 0 with roundAt := 6 } : Tile).roundAt := by decide +kernel
/-- An embering grove that is quiet, since `last`. -/
def wQuiet (last : Option Nat) : State :=
  let s := { wOther { run := .embering, emberLast := last } false [] with now := 70 }
  { s with tiles := (s.grove 1).tiles.map (fun x => (x, { gen := 1, ember := .saved })) }
theorem witness_ember_close :
    (∀ l ∈ [none, some 6, some 7], ((wQuiet l).grove 1).run = .embering ∧ emberQuiet (wQuiet l) 1 = true ∧ ((wQuiet l).grove 1).emberLast = l) ∧ 6 + 64 ≤ 70 ∧ 70 < 7 + 64 ∧
    (∀ q ∈ ((wQuiet none).grove 1).threads, ((wQuiet none).thr q).status = .free) := by decide +kernel
theorem witness_no_words (l : Option Nat) : withdrawWords (wQuiet l) ((wQuiet l).grove 1) = wQuiet l := rfl
/-- A save whose handle g1 names. -/
def wSave (w key : Nat) : State := { wr [(1, 5), (2, w)] with saves := [{ handle := 5, grove := { live := true, key := key }, threads := [(0, {})] }] }
theorem witness_rekindle :
    ((wSave (2 ^ 63) 0).saves.find? (fun v => v.handle.toNat = 5)).isSome = true ∧ ((wSave (2 ^ 63) 0).saves.find? (fun v => v.handle.toNat = 6)).isNone = true ∧
    (∀ v ∈ (wSave (2 ^ 63) 0).saves, rekindleFault wGrove (2 ^ 63) v = none ∧ (rekindlePlace (wSave (2 ^ 63) 0) (2 ^ 63) v).isSome = true ∧ rekindlePlace (wSave 0 0) 0 v = none) ∧
    (∀ v ∈ (wSave (2 ^ 63) 7).saves, rekindleFault wGrove (2 ^ 63) v = some 0x2CE) ∧ freeGrove (wSave 0 0) = some 1 ∧ (placeFault false (2 ^ 63)).isNone = true := by decide +kernel
theorem witness_rekindle_traps : CanTrap (wSave (2 ^ 63) 0) 0x800 := ⟨⟨0, rfl, rfl⟩, rfl, rfl⟩
/-- The threads of the save come back elsewhere than the issuing thread. -/
theorem witness_rekindle_moves : ∀ v ∈ (wSave (2 ^ 63) 0).saves, ∀ o, rekindlePlace (wSave (2 ^ 63) 0) (2 ^ 63) v = some o →
    ∀ k ∈ v.threads, (⟨v.grove, rekindledGrove (wSave (2 ^ 63) 0) v o (rekindleRegions (wSave (2 ^ 63) 0) v o.1) false, 1⟩ : Move).thread k.1 ≠ 0 := by
  intro v hv o ho k hk
  have e : v = { handle := 5, grove := { live := true, key := 0 }, threads := [(0, {})] } := List.mem_singleton.mp hv
  subst e
  have h1 : rekindlePlace (wSave (2 ^ 63) 0) (2 ^ 63) { handle := 5, grove := { live := true, key := 0 }, threads := [(0, {})] } = some (0, 1, 0) := by decide +kernel
  rw [h1] at ho
  have e2 : o = (0, 1, 0) := (Option.some.inj ho).symm
  subst e2
  have e3 : k = (0, {}) := List.mem_singleton.mp hk
  subst e3
  decide +kernel
/-- A node's token withheld since cycle 0, of a stream with the id 4. -/
theorem witness_drain_nodes :
    (let s : State := { wOther { tdrain := 1 } false [] with now := 2401, slices := [(15, { nodes := #v[{ withheld := some ({ sid := 4 }, 0) }, {}, {}, {}] })] }
     drainedStream s (s.grove 1) = some 4) := by decide +kernel
/-- A stream of the grove's first slice paused in cycle 0, with a drain limit of 2,400 cycles. -/
def wDrain (now : Nat) (full : Bool) (reqs : List MemReq) : State :=
  { wOther { tdrain := 1 } full [] with
    now := now, reqs := reqs,
    slices := [(15, { engines := Vector.replicate 2 { gens := #v[some { kind := .store, paused := some (0x200, 0) }, none, none, none] } })] }
theorem witness_drain :
    (drainedStream (wDrain 2400 false []) ((wDrain 2400 false []).grove 1)).isNone = true ∧ (drainedStream (wDrain 2401 false []) ((wDrain 2401 false []).grove 1)).isSome = true ∧
    (saveFree (wDrain 2401 false []) ((wDrain 2401 false []).grove 1)).isSome = true ∧ saveFree (wDrain 2401 true []) ((wDrain 2401 true []).grove 1) = none ∧
    groveLanded (wDrain 2401 true []) 1 ((wDrain 2401 true []).grove 1).threads = true ∧
    groveLanded (wDrain 2401 true [{ src := 8, pieces := [(0, 8, 0)] }]) 1 ((wDrain 2401 true []).grove 1).threads = false ∧
    (let s : State := { wDrain 2401 true [] with mgmt := { evSize := 6, evBase := 0x40000 } }
     Memory.wf s.mem = true ∧ s.mgmt.ringReady = true ∧ s.mgmt.evHead - s.mgmt.evTail < 2 ^ s.mgmt.evSize.toNat) := by decide +kernel
theorem witness_freeze :
    mayFreeze wGrove = true ∧ mayFreeze { wGrove with run := .frozen } = false ∧ wGrove.clusters ≠ [] ∧
    (∀ u ∈ [false, true], (let s := wState { wGrove with run := .frozen, unfixed := u } wThread
      (s.grove 0).live = true ∧ (s.grove 0).run = .frozen ∧ (s.grove 0).unfixed = u ∧ (s.grove 0).succ = none ∧ ∀ c ∈ (s.grove 0).clusters, (s.coreOf c).redWait = [])) := by decide +kernel
theorem witness_no_reduction : (∀ c, (({ w0 with cores := [] } : State).coreOf c).redWait = []) ∧ (({ w0 with cores := [] } : State).grove 0).live = true ∧
    (({ w0 with cores := [] } : State).grove 1).live = false := ⟨fun _ => rfl, rfl, rfl⟩
/-- A splicing grove whose tile at site 0 awaits its successor's frames. -/
def wSplicing (eok : Bool) (binds : List (Nat × Nat)) : State :=
  { wState { wGrove with run := .splicing, succ := some ({}, 7) } wThread with
    tiles := [(0, { gen := 1, eok := eok, next := some {}, cfg := { ins := #v[some {}, none, none, none] } }), (1, { gen := 1, box := some ([], 0), cfg := { binds := binds } })] }
theorem witness_splice_passes :
    (∀ e ∈ [false, true], (wSplicing e []).groveOfSite 0 = some 0 ∧ ((wSplicing e []).grove 0).succ = some ({}, 7) ∧ ((wSplicing e []).coreOf (siteCluster 0)).next = false ∧
      ((wSplicing e []).tile 0).next = some {} ∧ ((wSplicing e []).tile 0).eok = e ∧ (((wSplicing e []).tile 0).cfg.ins[0]).isSome = true) ∧
    siteIsSlice 1 = false ∧ ((wSplicing true []).tile 1).next = none ∧ ((wSplicing true []).tile 1).box = some ([], 0) ∧ ((wSplicing true []).tile 1).cfg.binds = [] := by decide +kernel
/-- A grove of two stages, with the queue object of the second at VA 0x1000: one element, at its threshold, or none. -/
def wStageGrove (n : Nat) (quiet : Option Nat) (items : List Item) : State :=
  { wd [] 0 (if n = 0 then [] else [(0x20008, BitVec.ofNat 8 n)]) with
    now := 5000, tiles := if items = [] then [] else [(0, { ins := #v[{ items := items }, {}, {}, {}] })],
    groves := [(0, { wGrove with troot := 0x10000, stages := [{ qva := 0x1800 }, { qva := 0x1000, thr := 1 }], quietAt := quiet })] }
theorem witness_sequencer :
    (∀ q ∈ [none, some 904, some 905], quiescent (wStageGrove 0 q []) ((wStageGrove 0 q []).grove 0) { qva := 0x1800 } = true ∧
      nextStage (wStageGrove 0 q []) ((wStageGrove 0 q []).grove 0) = none) ∧
    (¬(5000 < 904 + 4096) ∧ 5000 < 905 + 4096) ∧ nextStage (wStageGrove 1 none []) ((wStageGrove 1 none []).grove 0) = some 1 ∧
    quiescent (wStageGrove 0 none [.marker 2]) ((wStageGrove 0 none [.marker 2]).grove 0) { qva := 0x1800 } = false := by decide +kernel

/-! ## Witnesses: the host, migrations, reset, Huash -/

/-- A ready part with what the management registers hold. -/
def wHost (busy : Bool) (carg : List Nat) (job : Option Nat) : State :=
  { wTwoGroves [] [] with mgmt := { ready := true, busy := busy, job := job, cmd := 8, carg := Vector.ofFn (fun i => BitVec.ofNat 64 (carg.getD i 0)) } }
theorem witness_commands :
    (wHost false [] none).mgmt.ready = true ∧ (wHost false [] none).mgmt.busy = false ∧ (wHost true [] none).mgmt.busy = true ∧ w0.mgmt.ready = false ∧
    (∀ l ∈ [[0x018000000000 - 4096, 1023, 2], [4097, 1024, 0], [31, 0, 0], [32, 0, 0], [3, 119, 0], [4, 120, 0], [2, 0, 1], [128, 0, 0], [129, 0, 0], [0x018000000000, 0, 0], [0x10000, 2 ^ 48, 0]],
      (List.range 3).all (fun i => decide (((wHost false l none).mgmt.carg.toList[i]?).map (·.toNat) = l[i]?)) = true) ∧
    Memory.wf (wHost false [] none).mem = true := by decide +kernel
theorem witness_quote : regionOf (wHost false [0x800000000000] none).dev 0x800000000000 = .host ∧ capOf (wHost false [] none) ((wHost false [] none).bytesAt 0 0x800000000000 96) = none := by
  decide +kernel
/-- A capability of owner 1 that ends in cycle 9, under the key whose signatures `wImage` explains. -/
theorem witness_attach :
    (let s : State := { wHost false [0x800000000000] none with
        mgmt := { (wHost false [0x800000000000] none).mgmt with keys := Vector.replicate 32 (some { owner := 1, key := 1 }) },
        mem := wCells 0x800000000000 (bytesOf 96 (2 ^ 256 + 9 * 2 ^ 64 + 1)) }
     Memory.wf s.mem = true ∧ regionOf s.dev 0x800000000000 = .host ∧ (s.mgmt.carg[0]).toNat = 0x800000000000 ∧ capOf s (s.bytesAt 0 0x800000000000 96) = some (1, 9)) := by
  decide +kernel
theorem witness_releases :
    (∀ h ∈ [1, 2], ((wHost false [h] none).grove (h - 1)).live = true ∧ ((wHost false [h] none).grove (h - 1)).run ≠ .embering) ∧ ((wHost false [] none).grove 127).live = false ∧
    (wHost true [] (some 1)).mgmt.job = some 1 ∧ groveLanded (wHost true [] (some 1)) 1 ((wHost true [] (some 1)).grove 1).threads = true ∧
    groveLanded { wHost true [] (some 1) with reqs := [{ src := 8, pieces := [(0, 8, 0)] }] } 1 ((wHost true [] (some 1)).grove 1).threads = false ∧
    (wHost true [] none).mgmt.cmd ≠ 2 := by decide +kernel
/-- An image where the host's load command finds it, with a place and without one. -/
def wHostLoad (die : Nat) : State :=
  { wImage [] false true 1 with mgmt := { ready := true, keys := (Vector.replicate 32 none).set 0 (some { key := 1 }), carg := #v[0x20000, 0, BitVec.ofNat 64 die, 0, 0, 0] } }
theorem witness_host_load :
    (match loadGrove (wHostLoad (2 ^ 63)) (paFetch (wHostLoad (2 ^ 63)) 0 0x20000) (loadWord (wHostLoad (2 ^ 63))) 0 0 true with
     | .grove _ gid => decide (gid = 1)
     | _ => false) = true ∧
    (match loadGrove (wHostLoad 0) (paFetch (wHostLoad 0) 0 0x20000) (loadWord (wHostLoad 0)) 0 0 true with
     | .nowhere => true
     | _ => false) = true ∧ placeFault true (loadWord (wHostLoad (2 ^ 63))) = none ∧ regionOf (wHostLoad 0).dev 0x20000 = .lpddr := by decide +kernel
/-- A host window of 256 MiB from host address 0 on device address 0, under key 5. -/
def wWindow : State :=
  { wHost false [] none with mgmt := { (wHost false [] none).mgmt with hwin := (Vector.replicate 16 (0, 0)).set 0 (BitVec.ofNat 64 (1 + 5 * 2 ^ 18), BitVec.ofNat 64 (2 ^ 31)) } }
/-- An access that an earlier source's request at its point holds, and one that nothing holds. -/
theorem witness_host_waits :
    hostWaits wWindow 0 8 = false ∧
    hostWaits { wWindow with now := 1, reqs := [{ id := 7, kind := .load 8 false, pieces := [(0, 8, 0)], points := [pointOf 0 0] }] } 0 8 = true := by decide +kernel
theorem witness_window :
    (windowAt wWindow.mgmt 0).isSome = true ∧ (windowAt wWindow.mgmt (2 ^ 28 - 1)).isSome = true ∧ windowAt wWindow.mgmt (2 ^ 28) = none ∧ wWindow.mgmt.ringReady = false := by decide +kernel
/-- A page asked to be moved, at VA 0x1000: its leaf, which way, the requests that wait, its floor. -/
def wMigrate (leaf : List Host.Cell) (dir : Nat) (migs : List Migration) (floor : Tab Nat) : State :=
  { w0 with mem := [(0x10000, 0x11), (0x10007, 0x80), (0x11000, 0x12), (0x11007, 0x80), (0x12000, 0x13), (0x12007, 0x80)] ++ leaf, migs := migs, now := 9,
            floors := floor, groves := [(0, wGrove)], nextId := 9,
            mgmt := { ready := true, carg := #v[0x10000, 0x1000, BitVec.ofNat 64 dir, 0, 0, 0] } }
/-- The leaf of a page in device memory, settled or pinned. -/
def wLeafCells (pinned : Bool) : List Host.Cell := (0x13008, 0x20) :: (if pinned then [(0x1300C, 0x20)] else []) ++ [(0x1300F, 0xC8)]
/-- Asked to the host or to the device, of a page that is there or not, pinned or not, its floor over or not. -/
theorem witness_migrate :
    (∀ pinned ∈ [false, true], ∀ dir ∈ [0, 1], ∀ floor ∈ [[], [((0x13008, 9) : Nat × Nat)], [(0x13008, 10)]],
      (let s := wMigrate (wLeafCells pinned) dir [] floor
       s.mgmt.ready = true ∧ s.mgmt.busy = false ∧ findLeaf s 0x1000 4 0x10000 = some (0x13008, 1, 4096) ∧ decide ((s.mgmt.carg[2]).toNat = dir) = true ∧
       pteRmt (ownNum s 0x13008 8) = false ∧ decide (pteMig (ownNum s 0x13008 8) = 2) = pinned ∧ inHost s (ptePa s.dev (ownNum s 0x13008 8)) = false ∧
       (tabFind s.floors 0x13008).all (fun f => decide (f ≤ s.now)) = decide (floor ≠ [(0x13008, 10)]) ∧ Memory.wf s.mem = true)) ∧
    (0x10000 : Nat) % 4096 = 0 ∧ ((wMigrate [] 0 [] []).grove 0).live = true ∧ ((wMigrate [] 0 [] []).grove 1).live = false := by decide +kernel
/-- Its request, the host's or a device's, waits since the cycle before, or is under way. -/
theorem witness_migration_waits :
    (∀ byHost ∈ [false, true], ∀ toHost ∈ [false, true], ∀ active ∈ [false, true],
      (let m : Migration := { id := 3, root := 0x10000, va := 0x1000, toHost := toHost, byHost := byHost, since := 8, active := active }
       let s := wMigrate (wLeafCells false) 0 [m] []
       s.migs.find? (fun q => q.id = m.id) = some m ∧ (active = true → s.migs.find? (fun q => q.id = m.id && q.active) = some m) ∧ m.since < s.now ∧
       findLeaf s m.va 4 m.root = some (0x13008, 1, 4096) ∧ s.migs.takeWhile (fun q => q.id ≠ m.id) = [] ∧ (8 : Nat) < s.now)) := by decide +kernel
theorem witness_links :
    (∀ b ∈ [none, some 2400000, some 2399999],
     (let s : State := { w0 with linkDown := [(3, (0, b))], devTable := [(1, [3])], now := 2400000 }
      tabFind s.linkDown 3 = some (0, b) ∧ s.devTable.any (fun k => k.2.contains 3) = true ∧ 0 + 2400000 ≤ s.now ∧ ¬(0 + 2400000 ≤ ({ s with now := 2399999 } : State).now) ∧
      b.all (fun r => decide (0 + 2400000 ≤ r)) = decide (b ≠ some 2399999) ∧ linkIsDown s 3 = decide (b = none))) ∧
    linkIsDown w0 17 = false ∧ siteIsSlice 0 = false := by decide +kernel
/-- A session of a ready part on grove 0: a tile of it, its thread, a stale slot. -/
def wSession (run was : RunState) (now : Nat) (breaks : List (Nat × BreakOn × Nat)) : State :=
  { wt 0 with groves := [(0, { wGrove with run := run, was := was })], mgmt := { ready := true }, now := now, huash := { breaks := breaks } }
theorem witness_huash :
    (let s := wSession .running .running 3 []
     s.mgmt.ready = true ∧ selSite s 0 = some 0 ∧ selThread s 0 = some 0 ∧ privPath s = false ∧ ((s.tile 0).slots[0]).gen ≠ (s.tile 0).gen ∧
     actorsOf (s.tile 0) = [(0, wActor)] ∧ (s.tile 0).cfg.actors[0] = some wActor ∧ (traceSite s (.actor 0 0)).isSome = true ∧ breakHit s 0 (.cycle 4, 0) = none ∧
     (s.grove 0).threads[0]? = some 0 ∧ w0.mgmt.ready = false) := by decide +kernel
/-- A breakpoint on cycle 4 in that cycle and before it; a halted grove, which ran or was frozen, goes on. -/
theorem witness_breakpoint :
    (breakHit (wSession .running .running 4 [(0, .cycle 4, 0)]) 0 (.cycle 4, 0)).isSome = true ∧ breakHit (wSession .running .running 3 [(0, .cycle 4, 0)]) 0 (.cycle 4, 0) = none ∧
    ((wSession .running .running 4 [(0, .cycle 4, 0)]).grove 0).live = true ∧ (0, BreakOn.cycle 4) ∉ (wSession .running .running 4 [(0, .cycle 4, 0)]).huash.hot ∧
    (breakHit (wSession .embering .running 4 []) 0 (.ember none, 0)).isSome = false ∧
    (∀ w ∈ [RunState.running, .splicing, .frozen], ((wSession .halted w 4 []).grove 0).run = .halted ∧ ((wSession .halted w 4 []).grove 0).was = w ∧ (wSession .halted w 4 []).huash.sel = 0 ∧
      (wSession .halted w 4 []).mgmt.ready = true ∧ 0 ∈ ((wSession .halted w 4 []).grove 0).tiles ∧ (wSession .halted w 4 []).groveOfSite 0 = some 0) := by decide +kernel

/-! ## Witnesses: steps, encodings -/

theorem witness_steps :
    (∀ p ∈ [(0x04320000, Agent.core 0), (0xFFFFFFFF, .core 0)],
     (let s := State.reset.withFetchWord 32 p.1
      let s0 : State := { s with agenda := [] }
      s.agenda = [{ dt := 0, who := p.2 }] ∧ (s0.coreOf 0).issuedAt ≠ some s0.now ∧ pickThread s0 0 = some 0 ∧ (s0.thr 0).pc < 0x10000 ∧ (s0.coreOf 0).badCode.contains ((s0.thr 0).pc / 4) = false)) ∧
    (let s1 := State.reset.withFetchWord 32 0x04320000
     let s := { s1 with cores := [(0, { s1.coreOf 0 with badCode := [0] })] }
     let s0 : State := { s with agenda := [] }
     s.agenda = [{ dt := 0, who := .core 0 }] ∧ (s0.coreOf 0).issuedAt ≠ some s0.now ∧ pickThread s0 0 = some 0 ∧ (s0.coreOf 0).badCode.contains ((s0.thr 0).pc / 4) = true) ∧
    (let s := State.reset.withFetchWord 64 0x5900000000000000
     let s0 : State := { s with agenda := [] }
     s.agenda = [{ dt := 0, who := .tile 0 }] ∧ (s0.tile 0).firing.isSome = true ∧ ((s0.tile 0).firing.map (fun f => decide (f.busyTo ≤ s0.now ∧ f.pc < 512) && !atBrk s0 0 (s0.tile 0) f)) = some true) ∧
    (Instr.telemetry).isEvent = true := by decide +kernel
/-- Nothing is owed before the cycle ends; a tile owes the turn of its running firing; a breakpoint on the cycle is due. -/
theorem witness_owed :
    ((owed w0).isNone = true ∧ w0.groves.find? (fun k => (breakDue w0 k.1).isSome) = none) ∧ owed (wt 0) = some (.tile 0) ∧
    (let s : State := { wSession .running .running 4 [(0, .cycle 4, 0)] with tiles := [] }
     (owed s).isNone = true ∧ (s.groves.find? (fun k => (breakDue s k.1).isSome)).map (·.1) = some 0) := by decide +kernel
theorem witness_forced : forced w0 = none := rfl
/-- R194, R199: an uncorrectable code word that issues traps with 0x3C1, with epc at the word. -/
theorem test_uncorrectable_code_word :
    (let s1 := State.reset.withFetchWord 32 0x04320000
     let s := { s1 with cores := [(0, { s1.coreOf 0 with badCode := [0] })], groves := s1.groves.map (fun k => (k.1, { k.2 with tvec := some 0x40 })) }
     match step s with
     | .next t => decide ((t.thr 0).cause = 0x3C1 ∧ (t.thr 0).epc = 0 ∧ (t.thr 0).pc = 0x40)
     | _ => false) = true := by decide +kernel
theorem witness_invariant : Inv State.reset ∧ goesOn State.reset := ⟨rfl, ⟨_, rfl⟩⟩

/-! ## Witnesses: engines, the network, slice nodes, store ports -/

/-- A stream in generator 0 of the first slice, whose output 0 goes west; node 0 takes what arrives at input 1. -/
def wGen (st : Stream) (now : Nat) (exact : Bool) : State :=
  { wd [] 0 [] with
    now := now, groves := [(0, { wGrove with troot := 0x10000, h := 1, exact := exact, image := { exact := exact } })],
    tiles := [(6, { gen := 1, cfg := { binds := [(0x44, 16)] }, slots := Vector.replicate 8 { gen := 1, claim := some 0 } })],
    slices := [(7, { cfg := { binds := [(48, 0x40)] }, engines := (Vector.replicate 2 {}).set 0 { gens := #v[some st, none, none, none] } })] }
/-- A pattern of eight words of 4 bytes from VA 0x1000, one token. -/
def wPat : Pattern := { base := 0x1000, e := [8, 1, 1, 1, 1], s := [4, 0, 0, 0, 0] }
def wExt : List Extent := [{ va := 0x1000, len := 4096, pa := 0x20000, leaf := wLeaf.leaf }]
def wLoad : Stream := { kind := .load, pat := wPat, w := 4, toks := 1, op := 7, branches := [(0, 5)] }
/-- The thread of a tinv has a store to the tables of a set that it meets still to be performed. -/
theorem witness_tinv_waits :
    (let st : Stream := { wLoad with ext := wExt }
     tinvReady { wGen st 5 false with ops := [{ id := 7 }], reqs := [{ id := 3, kind := .store 8 5, pieces := [(0, 8, 0x10000)], points := [pointOf 0 0x10000] }] } 7 0 0 0x2000 = false) := by
  decide +kernel
/-- What an engine reads next has no set, an extent, a prepared set, or a page that faults. -/
theorem witness_engine_reads :
    (genStream (wGen wLoad 5 false) 7 0 = some wLoad ∧ (∃ g, nextGroup (wGen wLoad 5 false) wLoad = some g ∧ allCovered wLoad.ext g = false ∧ allCovered wLoad.nextExt g = false ∧ g ≠ []) ∧
      tinvHolds (wGen wLoad 5 false) wLoad = false ∧ wLoad.cut = none) ∧
    (let st := { wLoad with ext := wExt }
     mayIssue (wGen st 5 false) 7 0 st = true ∧ (∃ kp, aheadParts (wGen st 5 false) st 0 = some kp ∧ (lineGroups kp.2)[st.part]?.map (allCovered st.ext) = some true ∧
       okIs (partsPa (wGen st 5 false) st kp.1 ((lineGroups kp.2).headD [])) (fun _ => true) = true)) ∧
    (let st := { wLoad with nextExt := wExt }
     mayIssue (wGen st 5 false) 7 0 st = true ∧ (∃ kp, aheadParts (wGen st 5 false) st 0 = some kp ∧ (lineGroups kp.2)[st.part]?.map (allCovered st.ext) = some false ∧
       (lineGroups kp.2)[st.part]?.map (allCovered st.nextExt) = some true)) ∧
    (let st := { wLoad with ext := [{ va := 0x1000, len := 4096, fault := some 0x200 }] }
     (∃ kp, aheadParts (wGen st 5 false) st 0 = some kp ∧ okIs (partsPa (wGen st 5 false) st kp.1 ((lineGroups kp.2).headD [])) (fun _ => true) = false)) ∧
    32 ≤ tabGet ({ wGen wLoad 5 false with permits := [(14, 32)] } : State).permits (7 * 2 + 0) 0 ∧
    (64 ≤ (wGen wLoad 64 false).now - (engineOf (wGen wLoad 64 false) 7 0).lastIssue ∧ (wGen wLoad 63 false).now - (engineOf (wGen wLoad 63 false) 7 0).lastIssue < 64) :=
  ⟨⟨by decide +kernel, ⟨_, rfl, by decide +kernel, by decide +kernel, by decide +kernel⟩, by decide +kernel, rfl⟩, ⟨by decide +kernel, ⟨_, rfl, by decide +kernel, by decide +kernel⟩⟩,
   ⟨by decide +kernel, ⟨_, rfl, by decide +kernel, by decide +kernel⟩⟩, ⟨_, rfl, by decide +kernel⟩, by decide +kernel, by decide +kernel, by decide +kernel⟩
/-- A walk that goes on past the page of its set, for which the loader prepares the next one; a tinv that meets the set; a window of 256 places. -/
def wGoesOn : Stream := { wLoad with pat := { wPat with base := 0x1FE0, e := [16, 1, 1, 1, 1] }, toks := 2, ext := wExt }
theorem witness_engine_waits :
    (∃ g, nextGroup (wGen wGoesOn 5 false) wGoesOn = some g ∧ allCovered wGoesOn.ext g = true ∧ g ≠ []) ∧ wGoesOn.nextExt = [] ∧ extentsEnd wGoesOn.ext ≤ wGoesOn.lastVa ∧
    (∀ y ∈ wGoesOn.ext, y.fault = none) ∧ tinvHolds { wGen wGoesOn 5 false with tinvs := [(3, 0, 0, 0x2000)] } wGoesOn = true ∧
    (let st := { wLoad with win := List.replicate 256 {} }
     st.gen = none ∧ st.part = 0 ∧ 256 ≤ windowUsed (wGen st 5 false) 7 0 false) :=
  ⟨⟨_, rfl, by decide +kernel, by decide +kernel⟩, rfl, by decide +kernel, by decide +kernel, by decide +kernel, by decide +kernel⟩
def wResp : Packet := { id := 9, type := 1, op := 7, gen := 0, olen := 1, dclu := cluCode (siteCluster 7), dep := epOf 7 1, val := 5 }
theorem witness_responses :
    ({ wGen { wLoad with win := [{ left := 1 }] } 5 false with packets := [wResp] } : State).packets.find? (fun q => q.id = 9) = some wResp ∧
    siteOfEp (cluDecode wResp.dclu) wResp.dep = 7 ∧ genStream (wGen { wLoad with win := [{ left := 1 }] } 5 false) 7 0 = some { wLoad with win := [{ left := 1 }] } := by decide +kernel
/-- What the engine does with each head of the window. -/
theorem witness_emits :
    (∀ p ∈ [({ wLoad with win := [{ st := .data false }] }, false, some (EmitAct.data { st := .data false })), ({ wLoad with win := [{ st := .gone 2 }] }, false, some (.ash 2)),
        ({ wLoad with win := [{ st := .data false }], inRound := 1 }, true, some .marker), ({ wLoad with emit := 1, issue := 1 }, false, some .eor),
        ({ wLoad with win := [{ st := .fault 0x200 0x1000 }] }, false, some (.pause 0x200 0x1000)), ({ wLoad with win := [{}] }, false, none),
        ({ wLoad with win := [{ st := .data false }], branches := [(0, 1)] }, false, some (.data { st := .data false }))],
      (match emitAct (wGen p.1 5 p.2.1) 7 (engineOf (wGen p.1 5 p.2.1) 7 0) p.1, p.2.2 with
       | some (.data r), some (.data q) => decide (r = q)
       | some (.ash a), some (.ash b) => decide (a = b)
       | some .marker, some .marker => true
       | some .eor, some .eor => true
       | some (.pause c v), some (.pause d w) => decide (c = d ∧ v = w)
       | none, none => true
       | _, _ => false) = true) ∧
    servedGen (wGen { wLoad with win := [{ st := .data false }] } 5 false) 7 0 = some 0 ∧ ((wLoad.branches.map (·.1)).Nodup) ∧
    (let st : Stream := { wLoad with kind := .cut, cut := some { queue := [{ entry := true }] } }
     (match emitAct (wGen st 5 false) 7 (engineOf (wGen st 5 false) 7 0) st with
      | some (.cutTok c) => c.entry
      | _ => false) = true) := by decide +kernel
/-- A stream bound earlier has the circuit output. -/
theorem witness_port_taken :
    (let s : State := { wGen wLoad 5 false with slices := [(7, { engines := (Vector.replicate 2 {}).set 0 { gens := #v[some wLoad, some { wLoad with op := 6 }, none, none] } })] }
     portTaken s 7 wLoad = true ∧ portTaken s 7 { wLoad with op := 6 } = false) := by decide +kernel
theorem witness_windows_hold :
    (let st : Stream := { wLoad with win := [{ st := .data false }], branches := [(0, 5)] }
     let s := { wGen st 5 false with slices := [(7, { engines := (Vector.replicate 2 {}).set 0 { gens := #v[some st, none, none, none], sent := (Vector.replicate 8 0).set 0 5 } })] }
     markerDue (s.grove 0).exact st = false ∧ (5 : Int) ≤ windowCount (engineOf s 7 0) s.now 0) := by decide +kernel
theorem witness_reports :
    (let p : Packet := { id := 9, type := 7, dclu := cluCode (siteCluster 7), dep := epOf 7 1, addr := 0, val := 3 }
     ({ wGen wLoad 5 false with packets := [p] } : State).packets.find? (fun q => q.id = 9) = some p ∧ p.at_ = .delivered ∧ (p.dep % 8 = 1) ∧ ∀ f ∈ (engineOf (wGen wLoad 5 false) 7 0).fresh, f.1 ≠ 1) := by
  decide +kernel
/-- A token due at the fill sink of the tile beside the slice. -/
def wFill (kind sid : Nat) : State :=
  { wGen wLoad 5 false with
    flights := [{ sink := sinkNo 6 0x44, tok := { kind := kind }, due := 5, op := 7, slot := 2 }],
    tiles := [(6, { gen := 1, slots := Vector.replicate 8 { gen := 1, sid := sid, pending := 32 } })] }
theorem witness_fills :
    (∀ k ∈ [0, 4, 7], ∀ sid ∈ [7, 8], (takeFlight (wFill k sid) (sinkNo 6 0x44)).isSome = true ∧ ((wFill k sid).tile 6).slots.toList[2]? = some { gen := 1, sid := sid, pending := 32 } ∧
      (∀ sl ∈ ((wFill k sid).tile 6).slots.toList, sl.follow = none) ∧ endDue 5 ((wFill k sid).tile 6) = false) := by decide +kernel
/-- Of its stream's slots one has a follow-on to come. -/
theorem witness_fill_follows :
    (let sl : Slot := { gen := 1, sid := 7, pending := 32, follow := some (.azero 0, 0) }
     let s : State := { wFill 4 7 with tiles := [(6, { gen := 1, slots := (Vector.replicate 8 {}).set 2 sl })] }
     (takeFlight s (sinkNo 6 0x44)).isSome = true ∧ endDue 5 (s.tile 6) = false ∧ (s.tile 6).slots.toList[2]? = some sl ∧ sl.pending ≠ 0 ∧
       ∀ (j : Nat), j < 8 → j ≠ 2 → ((s.tile 6).slots.toList[j]?).map (·.follow) = some none) := by decide +kernel
theorem witness_cuts :
    cutFrom [(0, 3, 1), (1, 4, 1)] 16 4 0 = some { lo := 3, hi := 16, n := 2 } ∧ cutFrom [(0, 3, 1)] 16 4 4 = none ∧
    (∀ c, cutFrom [(0, 3, 1), (1, 3, 1), (2, 3, 1), (3, 3, 1), (4, 3, 1), (5, 4, 1)] 16 4 0 = some c → c.n = 5 ∧ c.hi = c.lo + 1) := by
  refine ⟨by decide +kernel, by decide +kernel, ?_⟩
  intro c h
  have e : cutFrom [(0, 3, 1), (1, 3, 1), (2, 3, 1), (3, 3, 1), (4, 3, 1), (5, 4, 1)] 16 4 0 = some { lo := 3, hi := 4, n := 5 } := by decide +kernel
  rw [e] at h
  rw [← Option.some.inj h]
  decide
def wCutter (elems : List (Nat × Nat × Nat)) : Cutter := { k := 16, bud := 4, bbase := 0x1000, bpitch := 32, vfmt := 30, pairs := [(0, 1), (2, 3)], loaded := true, any := decide (elems ≠ []), elems := elems }
def wCutting (elems : List (Nat × Nat × Nat)) (exact : Bool) (use : Nat) : State :=
  { wGen { kind := .cut, node := 6, op := 7, cut := some (wCutter elems) } 5 exact with
    mem := wTables 30 [], tiles := [(6, { gen := 1, slots := Vector.replicate 8 { gen := 1, claim := some 0, use := use } })] }
theorem witness_cutters :
    (∀ u ∈ [0, 1], (genStream (wCutting [(0, 3, 1)] false u) 7 0).map (·.cut) = some (some (wCutter [(0, 3, 1)])) ∧ ((((wCutting [(0, 3, 1)] false u).tile 6).slots[0]).use = u)) ∧
    (cutFrom [(0, 3, 1)] 16 4 0).isSome = true ∧ okIs ((wCutting [(0, 3, 1)] false 0).walkG ((wCutting [(0, 3, 1)] false 0).grove 0) (0x1000 + 3 * 32)) (fun e =>
      (cutPageFault ((wCutting [(0, 3, 1)] false 0).grove 0) (wCutter [(0, 3, 1)]) 3 (pageFormat e).1 (pageFormat e).2).isNone) = true ∧
    enginesRun (wCutting [] true 0) { kind := .cut } = true ∧ endDue 5 ((wCutting [] true 0).tile 6) = false ∧
    endDue 5 ({ (wCutting [] true 0).tile 6 with ending := [{ endAt := some 5, cmds := [{}] }] } : Tile) = true := by decide +kernel
/-- The page of a B row in the stream's set. -/
theorem witness_row_formats :
    (let g := (wCutting [] false 0).grove 0
     let e : Extent := { va := 0x1000, len := 4096, pa := 0x20000, leaf := wLeaf.leaf + 2 ^ 41 * 30 }
     extentAt [e] 0x1060 = some e ∧ extentAt [] 0x1060 = none ∧ e.fault = none ∧ pteFmt e.leaf.toNat = 30 ∧
     (cutPageFault g (wCutter [(0, 3, 1)]) 3 (pteFmt e.leaf.toNat) (pteGeo e.leaf.toNat)).isNone = true) := by decide +kernel
/-- A panel whose first row has one position byte: of column 20, past K, or of 255, after which the row ends. -/
def wPanel (byte : Nat) : Cutter :=
  { wCutter [] with pos := 0x1000, vals := 0x2000,
                    tabs := [(0, 2 ^ 32 * 2 ^ 64 + 2 ^ 64 + 2 ^ 32 * 2 ^ 128 + 2 ^ 128 + 2 ^ 32 * 2 ^ 192 + 2 ^ 192)] ++
                            ((List.range 4).map (fun i => (1 + i, (List.range 4).foldl (fun a j => a + (2 ^ 32 + 1) * 2 ^ (64 * j)) 0))) ++ [(2 ^ 60 + 0x80, byte)] }
def wPanelled (byte : Nat) (exact : Bool) : State :=
  { wCutting [] exact 1 with slices := [(7, { engines := (Vector.replicate 2 {}).set 0 { gens := #v[some { kind := .cut, node := 6, op := 7, cut := some (wPanel byte) }, none, none, none] } })] }
theorem witness_panels :
    (∀ e ∈ [false, true], (genStream (wPanelled 20 e) 7 0).map (·.cut) = some (some (wPanel 20)) ∧ ((wPanelled 20 e).grove 0).exact = e ∧
      enginesRun (wPanelled 20 e) { kind := .cut } = true ∧ (((wPanelled 20 e).tile 6).slots[0]).use = 1) ∧ (wPanel 20).any = false ∧ (wPanel 20).elems = [] ∧
    okIs ((wPanel 20).decode (codeWidth ((wPanelled 20 true).grove 0) 30) 16) (fun l => decide (∃ q ∈ l, (wPanel 20).k ≤ q.2.1)) = true ∧
    okIs ((wPanel 255).decode (codeWidth ((wPanelled 255 true).grove 0) 30) 16) (fun _ => true) = false := by decide +kernel
/-- A packet from cluster 0 to cluster 1, at a place. -/
def wPkt (a : PktAt) : Packet :=
  ({ id := 9, type := 4, vl := 1, pr := true, dclu := cluCode 1, sclu := cluCode 0, dep := epOf (siteAt 0 15 0) 3, sep := epOf 7 3, len := 1, at_ := a } : Packet).sealed
def wNet (p : Packet) (rest : List Packet) : State := { w0 with packets := p :: rest }
/-- Packets of 7 flits in the first router's east output, on a lane. -/
def wFull (n vl : Nat) : List Packet := (List.range n).map (fun i => { id := 20 + i, type := 6, vl := vl, len := 6, at_ := .router 0 1 })
/-- It goes on; loses its payload; waits for room, for its turn, for its cycle, for a link, behind another; its check or its form is bad; it has no route. -/
theorem witness_headers :
    (let s := wNet (wPkt (.input 0 4)) []
     let p := wPkt (.input 0 4)
     s.packet 9 = some p ∧ firstInLane s p = true ∧ p.due ≤ s.now ∧ p.hchk = p.check ∧ malformed p = false ∧ routeAlg s p = some 0 ∧ nextPlace s p 0 = some (.router 0 1) ∧
       roomAt s p (.router 0 1) = true ∧ hasTurn s p = true ∧ prunedAt s p (.router 0 1) = false ∧ leavesDie s p 0 0 = false) ∧
    (let s := wNet (wPkt (.input 0 4)) (wFull 4 1)
     prunedAt s (wPkt (.input 0 4)) (.router 0 1) = true ∧ roomAt s (wPkt (.input 0 4)) (.router 0 1) = true ∧ hasTurn s (wPkt (.input 0 4)) = true) ∧
    (let p := ({ wPkt (.input 0 4) with vl := 2, pr := false } : Packet).sealed
     roomAt (wNet p (wFull 5 2)) p (.router 0 1) = false) ∧
    (let s := { wNet (wPkt (.router 0 1)) [] with links := [(1, (1, 1, 1))] }
     hasTurn s (wPkt (.router 0 1)) = false ∧ s.now < (linkAt s (.router 0 1)).1) ∧
    (let q : Packet := { id := 8, type := 4, vl := 0, dclu := cluCode 1, at_ := .router 0 1 }
     let s := wNet (wPkt (.router 0 1)) [q]
     (wPkt (.router 0 1)).lane ≠ 0 ∧ q.lane = 0 ∧ readyToMove s q = true ∧ hasTurn s (wPkt (.router 0 1)) = false) ∧
    w0.now < ({ wPkt (.input 0 4) with due := 3 } : Packet).due ∧
    firstInLane { w0 with packets := [{ wPkt (.input 0 4) with id := 8 }, wPkt (.input 0 4)] } (wPkt (.input 0 4)) = false ∧
    (let p := { wPkt (.input 0 4) with hchk := (wPkt (.input 0 4)).check + 1 }
     p.hchk ≠ p.check ∧ firstInLane (wNet p []) p = true) ∧
    (let p := ({ wPkt (.input 0 4) with rsv := 1 } : Packet).sealed
     p.hchk = p.check ∧ malformed p = true ∧ firstInLane (wNet p []) p = true) ∧
    (let p := ({ wPkt (.input 0 4) with type := 6, cls := 3 } : Packet).sealed
     p.hchk = p.check ∧ malformed p = false ∧ routeAlg (wNet p []) p = none ∧ firstInLane (wNet p []) p = true) ∧
    (let p := ({ wPkt .hub with ddev := 5 } : Packet).sealed
     p.hchk = p.check ∧ routeAlg (wNet p []) p = some 0 ∧ nextPlace (wNet p []) p 0 = none) := by decide +kernel
/-- At its end: a packet of a unit, a request, an answer. -/
theorem witness_headers_end :
    (∀ t ∈ [0, 1, 2, 3, 4], ∀ q ∈ [none, some 7],
     (let p := ({ wPkt (.router 1 4) with type := t, vl := 2, pr := false, req := q } : Packet).sealed
      let s := { wNet p [] with reqs := [{ id := 7, kind := .load 8 false, pieces := [(0, 8, 0)], arr := none, ans := 0 }] }
      s.packet 9 = some p ∧ firstInLane s p = true ∧ p.due ≤ s.now ∧ p.hchk = p.check ∧ malformed p = false ∧ routeAlg s p = some 0 ∧ nextPlace s p 0 = some .delivered ∧
        roomAt s p .delivered = true ∧ hasTurn s p = true ∧ p.ddev = s.dev ∧ (s.reqs.find? (fun r => r.id = 7)).isSome = true)) := by decide +kernel
theorem witness_pruned :
    (∀ t ∈ [1, 4], ∀ e ∈ [false, true], (let p : Packet := { wResp with type := t, ex := e, pruned := true }
      ({ wGen { wLoad with win := [{}] } 5 false with packets := [p] } : State).packet 9 = some p ∧ p.at_ = .delivered ∧ nodeOfEp (epOf 7 3) < 4)) ∧
    (let st : Stream := { wLoad with kind := .fill, win := [{ left := 1 }] }
     genStream (wGen st 5 false) 7 0 = some st ∧ st.op = wResp.op ∧ st.gen = none ∧ st.cut = none ∧ ({ left := 1 } : RoTok).st = .asked) ∧
    (let p : Packet := { wResp with pruned := true, at_ := .backoff 5, sclu := cluCode 0 }
     tabGet (wGen wLoad 5 false).permits (reKey p) 0 < reLimit p ∧ p.at_ = .backoff 5 ∧ 5 ≤ (wGen wLoad 5 false).now ∧
       reLimit p ≤ tabGet ({ wGen wLoad 5 false with permits := [(reKey p, reLimit p)] } : State).permits (reKey p) 0) ∧
    (let p : Packet := { id := 9, type := 5, sclu := cluCode (siteCluster 7), sep := epOf 7 1, hub := true, op := 7, gen := 0 }
     siteOfEp (cluDecode p.sclu) p.sep = 7 ∧ (genStream (wGen wLoad 5 false) 7 0).map (·.op) = some 7) := by decide +kernel
/-- A re-request at the node of the slice that holds the packet, or does not. -/
def wAgain (sent : List Packet) : State :=
  { w0 with packets := [{ id := 9, type := 5, flow := 4, seq := 2, dclu := cluCode 0, dep := epOf 7 3, sclu := cluCode 1, sep := epOf (siteAt 0 15 0) 3 }],
            slices := [(7, { nodes := (Vector.replicate 4 {}).set 0 { sent := sent } })] }
theorem witness_again :
    (∀ l ∈ [[], [({ type := 4, flow := 4, seq := 2, dclu := cluCode 1, dep := epOf (siteAt 0 15 0) 3, sclu := cluCode 0 } : Packet)]],
     ((wAgain l).packet 9).map (fun p => decide (p.type = 5 ∧ p.at_ = .delivered ∧ p.hub = false ∧ siteOfEp (cluDecode p.dclu) p.dep = 7) &&
       ((sliceNode (wAgain l) 7 (nodeOfEp p.dep)).sent.find? (fun q => q.flow = p.flow && q.seq = p.seq && q.dclu = p.sclu && q.dep = p.sep && q.pairs = p.pairs)).isSome) = some (decide (l ≠ []))) := by
  decide +kernel
/-- A slice node of kind `kind` that takes circuit input 1, with a token due there. -/
def wNode (kind : Nat) (st : Option Stream) (tok : Tok) (nd : Node) (exact : Bool) : State :=
  { wGen wLoad 5 exact with
    flights := [{ sink := sinkNo 7 0x41, tok := tok, due := 5 }],
    slices := [(7, { cfg := { binds := [(48, 0x40)], nodes := (Vector.replicate 4 {}).set 0 { kind := kind, inp := some 1, out := some 0, chunks := 2 } },
                     nodes := (Vector.replicate 4 {}).set 0 nd, engines := (Vector.replicate 2 {}).set 0 { gens := #v[st, none, none, none] } })] }
theorem witness_nodes :
    (∀ v ∈ [0, 0x400000], (nodeToken (wNode 1 (some { kind := .scatter }) { pay := BitVec.ofNat 256 v } {} true) 7 0).isSome = true ∧
      nodeStream (wNode 1 (some { kind := .scatter }) { pay := BitVec.ofNat 256 v } {} true) 7 0 .scatter = some (.gen 7 0, { kind := .scatter })) ∧
    (∀ q ∈ pairsOf 0 0 0 0 0, offSlice q.off < ((wNode 1 none {} {} true).grove 0).slices.length) ∧ (∃ q ∈ pairsOf 0x400000 0 0 0 0, ((wNode 1 none {} {} true).grove 0).slices.length ≤ offSlice q.off) ∧
    (sliceNode (wNode 4 none {} { rows := List.replicate 7 {} } false) 7 0).rows.length = 7 ∧ (sliceNode (wNode 4 none {} { rows := List.replicate 6 {} } false) 7 0).rows.length < 7 ∧
    (partAt (climb 2 13 0 0 0 []) (rootLevel 2) 0).isNone = true ∧ (partAt (climb 1 13 0 0 0 []) (rootLevel 1) 0).isSome = true ∧
    (nodeToken (wNode 6 none { pay := BitVec.ofNat 256 (2 ^ 248 + 65) } {} false) 7 0).isSome = true ∧ bytesOf 1 (2 ^ 248 + 65) = [65] ∧ field (2 ^ 248 + 65) 248 5 = 1 ∧
    flag (2 ^ 248 + 65) 255 = false := by decide +kernel
/-- A gather node with an offsets token: in range or not; its eight reads on their way, answered, faulted. -/
def wGathering (v : Nat) (asked : Bool) (reqs : List MemReq) : State :=
  { wNode 2 (some { kind := .gather }) {} { rows := [{ pay := BitVec.ofNat 256 v }], asked := asked } false with reqs := reqs }
def wWordRead (ans : Nat) (fault : Option Cause) : MemReq := { id := 3, kind := .gatherRead 7 0 7 0 0, pieces := if ans = 0 then [(0, 4, 0)] else [], ans := ans, fault := fault }
theorem witness_gathers :
    (∀ v ∈ [0, 0x400000], ∀ a ∈ [false, true], nodeStream (wGathering v a []) 7 0 .gather = some (.gen 7 0, { kind := .gather }) ∧
      sliceNode (wGathering v a []) 7 0 = { rows := [{ pay := BitVec.ofNat 256 v }], asked := a } ∧ enginesRun (wGathering v a []) { kind := .gather } = true) ∧
    offOut (streamGrove (wGathering 0 false []) { kind := .gather }) 0 = false ∧ offOut (streamGrove (wGathering 0 false []) { kind := .gather }) 0x400000 = true ∧
    (∀ p ∈ [(0, none), (2, none), (2, some (0x1C0 : Cause))], (wGathering 0 true [wWordRead p.1 p.2]).reqs.filter (isGather 7 0) = [wWordRead p.1 p.2]) := by decide +kernel
/-- A partial seen before; an end-of-run with a partial seen, before the root, after it; the end of a sample that was cut; a marker. -/
theorem witness_nodes_stop :
    (∀ p ∈ [(({ kind := 6 } : Tok), ({ seen := [(0, 0)] } : Node)), ({ kind := 4 }, { seen := [(0, 0)] }), ({ kind := 4 }, {}), ({ kind := 4 }, { formed := true })],
      (nodeToken (wNode 5 none p.1 p.2 false) 7 0).map (fun q => decide (q.1.tok = p.1)) = some true ∧ sliceNode (wNode 5 none p.1 p.2 false) 7 0 = p.2 ∧
      (nodeCfg (wNode 5 none p.1 p.2 false) 7 0).kind = 5) ∧
    (∀ p ∈ [(({ pay := BitVec.ofNat 256 (2 ^ 255) } : Tok), ({ cutOff := true } : Node)), ({ kind := 2 }, {}), ({ kind := 4 }, {}), ({ kind := 5 }, {})],
      (nodeToken (wNode 6 none p.1 p.2 false) 7 0).map (fun q => decide (q.1.tok = p.1)) = some true ∧ sliceNode (wNode 6 none p.1 p.2 false) 7 0 = p.2 ∧
      ((wNode 6 none p.1 p.2 false).slice 7).strict = false ∧ p.2.stale = false ∧ p.2.outIds = []) ∧ flag (2 ^ 255) 255 = true := by decide +kernel
/-- The stream that a node's token came from. -/
theorem witness_feed :
    (let st : Stream := { kind := .load, op := 7 }
     let s := wNode 5 (some st) { kind := 4 } {} false
     feedOf s 7 { op := 7 } = some (.gen 7 0, st)) := by decide +kernel
theorem witness_scatter_applies :
    (let p : Packet := { id := 9, type := 4, dclu := cluCode (siteCluster 7), dep := epOf 7 3, pairs := [{ off := 4, val := 1 }] }
     (∀ e ∈ [false, true], (siteGrove (wNode 1 none {} {} e) 7).exact = e) ∧ ({ wNode 1 none {} {} false with packets := [p] } : State).packet 9 = some p ∧
     siteOfEp (cluDecode p.dclu) p.dep = 7 ∧ nodeOfEp p.dep = 0 ∧ okIs (((wNode 1 none {} {} false).slice 7).read 4 4) (fun m => decide (m = 0)) = true) := by decide +kernel
/-- What a trie holds is open (R65): one of the two clauses has its premise met at this state. -/
theorem witness_trie (b : Byte) :
    Config.trieStep (seenStore ((wNode 6 none {} {} false).slice 7)) 0 b = none ∨ ∃ ch, Config.trieStep (seenStore ((wNode 6 none {} {} false).slice 7)) 0 b = some ch := by
  cases Config.trieStep (seenStore ((wNode 6 none {} {} false).slice 7)) 0 b with
  | none => exact .inl rfl
  | some ch => exact .inr ⟨ch, rfl⟩
/-- A store stream at circuit input 0, with a token due there. -/
def wStore : Stream := { kind := .store, pat := wPat, w := 4, toks := 1, op := 7 }
def wStoring (st : Stream) (tok : Tok) (exact : Bool) : State := { wGen st 5 exact with flights := [{ sink := sinkNo 7 0x40, tok := tok, due := 5 }] }
/-- A page at VA 0x1000 without W. -/
def wBlocked : List Extent := [{ va := 0x1000, len := 4096, fault := some 0x202 }]
theorem witness_store_ports :
    (∀ k ∈ [0, 1, 2, 4, 5, 7], ∀ e ∈ [false, true], portStream (wStoring wStore { kind := k } e) 7 0 = some (0, wStore) ∧
      (takeFlight (wStoring wStore { kind := k } e) (sinkNo 7 0x40)).isSome = true ∧ genStream (wStoring wStore { kind := k } e) 7 0 = some wStore ∧
      ((wStoring wStore { kind := k } e).grove 0).exact = e ∧ tinvHolds (wStoring wStore { kind := k } e) wStore = false ∧ wStore.unsent (wStoring wStore { kind := k } e) = []) ∧
    wStore.wpos < wStore.toks ∧ wStore.inRound < wStore.round ∧ tabGet (wStoring wStore {} false).permits (7 * 2 + 0) 0 < 32 ∧
    wStore.inRound + (ashOf 0).cnt ≤ wStore.round ∧ wStore.round < wStore.inRound + (ashOf (Ash.bits { cnt := 2 })).cnt ∧
    (∀ e ∈ [false, true], (let s := wStoring wStore {} e
      okIs (writePieces s (wStore.extentsFor s (wStore.storeParts s 0)) (wStore.storeParts s 0)) (fun l => decide (l ≠ [])) = true)) ∧
    (let st := { wStore with ext := wBlocked }
     let s := wStoring st {} false
     okIs (writePieces s (st.extentsFor s (st.storeParts s 0)) (st.storeParts s 0)) (fun _ => true) = false) ∧
    wStore.toks ≤ ({ wStore with wpos := 1 } : Stream).wpos ∧ wStore.round ≤ ({ wStore with inRound := 1 } : Stream).inRound := by decide +kernel
/-- A later token of a record lost while the port was paused; a token's input takes its place in the channel. -/
theorem witness_store_lost :
    (let st := { wStore with lostNow := true }
     (takeInput (wStoring st { first := false } false) 7 0).map (·.1.tok.first) = some false ∧ st.lostNow = true ∧
     (∀ k ∈ [0, 1, 2, 4, 5, 7], (takeInput (wStoring wStore { kind := k } false) 7 0).map (·.1.tok.kind) = some k) ∧ wStore.lostNow = false) := by decide +kernel
/-- A round of one held token; its page in order, or not. -/
theorem witness_commits :
    (∀ x ∈ [wExt, wBlocked],
     (let st : Stream := { wStore with rounds := 1, held := [{ round := 1 }], ext := x }
      let s := wStoring st {} true
      exactPorts s 7 = [(0, st)] ∧ st.commitBase ≤ st.rdone ∧ st.commitBase < st.rounds ∧ inputSaved s 7 (some st.cp) = false ∧ st.headHeld = false ∧ st.rounds = (s.slice 7).committed + 1 ∧ scatterOpen s 7 0 = false ∧ (s.slice 7).commit = none ∧
      tinvHolds s st = false ∧ writeUnderWay s st.op 0 = false ∧ commitOpen s 7 = false ∧ tabGet s.permits (7 * 2 + 0) 0 < 32 ∧
      okIs (writePieces s (st.extentsFor s (st.storeParts s 0)) (st.storeParts s 0)) (fun l => decide (l ≠ [])) = decide (x = wExt))) := by decide +kernel
/-- A port's write at its node: of bytes, or of a word that is full; then its acknowledgement, of a commit or of none. -/
def wWrite (exact : Bool) (pieces reads : List (Nat × Nat × Nat)) : MemReq :=
  { id := 3, kind := .portWrite 7 0 exact false 5 0, va := 0x1000, pieces := pieces, reads := reads, edge := 7 }
def wWriting (r : MemReq) (more : List MemReq) (commit : Option (Option Nat × Nat)) : State :=
  let s := wGen { wStore with closing := true } 5 true
  { s with reqs := r :: more, full := [0x20000 / 8], slices := s.slices.map (fun k => (k.1, { k.2 with commit := commit })) }
theorem witness_port_writes :
    (∀ l ∈ [[], [((0, 8, 0x20000) : Nat × Nat × Nat)]],
     (let r := wWrite false [(0, 8, 0x20000)] l
      let s := wWriting r [] none
      Memory.wf s.mem = true ∧ s.reqs.find? (fun q => q.id = r.id) = some r ∧ (r.nextPoint s).map (mayPerform s r) = some true ∧ r.parked = false ∧ s.isFull 0x20000 = true ∧
      (l = [] ∨ l = r.pieces))) ∧
    (∀ c ∈ [none, some (none, 1)], ∀ more ∈ [[], [{ wWrite true [(0, 8, 0x20000)] [] with id := 4 }]],
     (let r := wWrite true [] []
      let s := wWriting r more c
      r.pieces = [] ∧ r.ans = 2 ∧ (s.slice 7).commit = c ∧ commitOpen (dropReq s r.id) 7 = decide (more ≠ []) ∧ exactPorts s 7 = [(0, { wStore with closing := true })] ∧
      ({ wStore with closing := true } : Stream).ofRound 1 = [] ∧ ({ wStore with closing := true } : Stream).commitBase < 1)) ∧
    (let s := wGen { wStore with closing := true } 5 true
     unacked s 7 = false ∧ genStream s 7 0 = some { wStore with closing := true }) ∧ unacked (wWriting (wWrite true [] []) [] none) 7 = true := by decide +kernel

/-! ## Decoding of words written from the encodings -/

/-- Words written from the control encodings (R236-R239, R323) decode to their instructions. -/
theorem test_decode_control_0 : ∀ p ∈ ([(0x0238F800, .add 3 17 30),
      (0x0238F801, .sub 3 17 30),
      (0x0238F802, .and 3 17 30),
      (0x0238F803, .or 3 17 30),
      (0x0238F804, .xor 3 17 30),
      (0x0238F805, .sll 3 17 30),
      (0x0238F806, .srl 3 17 30),
      (0x0238F807, .sra 3 17 30),
      (0x0238F808, .slt 3 17 30),
      (0x0238F809, .sltu 3 17 30),
      (0x0238F80A, .mul 3 17 30),
      (0x0238F80B, .mulh 3 17 30),
      (0x0238F80C, .mulhu 3 17 30),
      (0x0238F80D, .div 3 17 30),
      (0x0238F80E, .divu 3 17 30),
      (0x0238F80F, .rem 3 17 30),
      (0x0238F810, .remu 3 17 30),
      (0x0238F811, .addc 3 17 30),
      (0x0238F812, .subc 3 17 30),
      (0x0238F813, .min 3 17 30),
      (0x0238F814, .max 3 17 30),
      (0x0238F815, .minu 3 17 30),
      (0x0238F816, .maxu 3 17 30),
      (0x0C388019, .slli 3 17 25)] : List (Nat × Instr)),
    decodeTableWord 32 p.1 = some p.2 := by decide +kernel

/-- Words written from the control encodings (R236-R239, R323) decode to their instructions. -/
theorem test_decode_control_1 : ∀ p ∈ ([(0x0C388119, .srli 3 17 25),
      (0x0C388219, .srai 3 17 25),
      (0x0438DA3C, .addi 3 17 23100),
      (0x0638DA3C, .andi 3 17 23100),
      (0x0838DA3C, .ori 3 17 23100),
      (0x0A38DA3C, .xori 3 17 23100),
      (0x0E38DA3C, .slti 3 17 23100),
      (0x1038DA3C, .sltiu 3 17 23100),
      (0x12305A3C, .li 3 23100),
      (0x2038DA3C, .ldB 3 17 23100),
      (0x2238DA3C, .ldBu 3 17 23100),
      (0x2438DA3C, .ldH 3 17 23100),
      (0x2638DA3C, .ldHu 3 17 23100),
      (0x2838DA3C, .ldW 3 17 23100),
      (0x2A38DA3C, .ldWu 3 17 23100),
      (0x2C38DA3C, .ldD 3 17 23100),
      (0x3198DA3C, .stB 25 17 23100),
      (0x3398DA3C, .stH 25 17 23100),
      (0x3598DA3C, .stW 25 17 23100),
      (0x3798DA3C, .stD 25 17 23100),
      (0x3838DA3C, .ldf 3 17 23100),
      (0x3A38DA3C, .ldt 3 17 23100),
      (0x3D98DA3C, .stf 25 17 23100),
      (0x3F98DA3C, .stfo 25 17 23100)] : List (Nat × Instr)),
    decodeTableWord 32 p.1 = some p.2 := by decide +kernel

/-- Words written from the control encodings (R236-R239, R323) decode to their instructions. -/
theorem test_decode_control_2 : ∀ p ∈ ([(0x4038FB00, .amoAdd 3 17 30 .d),
      (0x4038FB01, .amoMin 3 17 30 .d),
      (0x4038FB02, .amoMax 3 17 30 .d),
      (0x4038FB03, .amoSwap 3 17 30 .d),
      (0x4038FB04, .amoCas 3 17 30 .d),
      (0x511F5A7B, .beq 17 30 .fall 6779),
      (0x531F5A7B, .bne 17 30 .fall 6779),
      (0x551F5A7B, .blt 17 30 .fall 6779),
      (0x571F5A7B, .bge 17 30 .fall 6779),
      (0x591F5A7B, .bltu 17 30 .fall 6779),
      (0x5B1F5A7B, .bgeu 17 30 .fall 6779),
      (0x5C315A7B, .jal 3 88699),
      (0x5E388000, .jr 3 17),
      (0x603002C7, .sysr 3 711),
      (0x620882C7, .sysw 17 711),
      (0x6400001E, .trap 30),
      (0x66000000, .eret),
      (0x68000000, .halt),
      (0x6A000000, .idle),
      (0x6C000004, .fence .domain),
      (0x6E4CF920, .wait 4 25 30 9),
      (0x7008F800, .barInit 17 30),
      (0x72388000, .arrive 3 17),
      (0x7408F800, .await 17 30)] : List (Nat × Instr)),
    decodeTableWord 32 p.1 = some p.2 := by decide +kernel

/-- Words written from the control encodings (R236-R239, R323) decode to their instructions. -/
theorem test_decode_control_3 : ∀ p ∈ ([(0x76088000, .gjoin 17),
      (0x78088000, .gleave 17),
      (0x7A388000, .gsize 3 17),
      (0x8038F800, .sbind 3 17 30),
      (0x8238F800, .sfill 3 17 30),
      (0x8438F800, .sstore 3 17 30),
      (0x8638F800, .sgather 3 17 30),
      (0x88307800, .sscatter 3 30),
      (0x8A38F800, .scut 3 17 30),
      (0x8C088000, .shalo 17),
      (0x8E088000, .smove 17),
      (0x9008F800, .swin 17 30),
      (0x92088000, .sclose 17),
      (0x94088000, .sresume 17),
      (0x94088001, .sresumeT 17),
      (0x96088000, .sflush 17),
      (0xA038F800, .gload 3 17 30),
      (0xA208F800, .gsplice 17 30),
      (0xA438F803, .gstage 3 17 30 3),
      (0xA6088000, .grelease 17),
      (0xA808F800, .setMode 17 30),
      (0xAA08F800, .setRound 17 30),
      (0xAC388000, .ember 3 17),
      (0xAE38F800, .rekindle 3 17 30)] : List (Nat × Instr)),
    decodeTableWord 32 p.1 = some p.2 := by decide +kernel

/-- Words written from the control encodings (R236-R239, R323) decode to their instructions. -/
theorem test_decode_control_4 : ∀ p ∈ ([(0xB008F804, .nsend 17 30 4),
      (0xB2088000, .maskc 17),
      (0xB4088000, .unmaskc 17),
      (0xB638F800, .nred 3 17 30),
      (0xB8388000, .leaveReq 3 17),
      (0xBA088000, .leaveRet 17),
      (0xBC08F800, .mfsnap 17 30),
      (0xBE38F800, .mfcmp 3 17 30),
      (0xC008F800, .tinv 17 30),
      (0xFCE00000, .markGive 7),
      (0xFDE00000, .markTake 7),
      (0xFE000000, .prefixWord),
      (0xFAFFFFFF, .unassignedControlOpcode)] : List (Nat × Instr)),
    decodeTableWord 32 p.1 = some p.2 := by decide +kernel

/-- Words written from the tile word layout and the lane groups (R231-R234, R251-R264) decode to their instructions. -/
theorem test_decode_lane_0 : ∀ p ∈ ([(0x0109C0A0201FFFFD, .tileAdd { sa := .byp 1, sb := .imm, omsk := 5, sat := true, imm := 0x1FFFFD }),
      (0x0244C04420000000, .tileSub { sa := .port 0, sb := .sv 3, omsk := 2, lt := .n32, sat := true }),
      (0x032B807060000000, .tileMul { sa := .byp 5, sb := .ctr 2, omsk := 3, lt := .i16x2, keep := true, sat := true }),
      (0x04B8809400000000, .tileMulh { sa := .sv 7, sb := .byp 2, omsk := 4, lt := .n16x2 }),
      (0x05C0C0A040000000, .tileMin { sa := .lane, sb := .byp 3, omsk := 5, keep := true }),
      (0x06C840C400000000, .tileMax { sa := .weight, sb := .byp 1, omsk := 6, lt := .n32 }),
      (0x075800F060000000, .abs { sa := .port 3, omsk := 7, lt := .i16x2, keep := true, sat := true }),
      (0x0880010020000000, .neg { sa := .sv 0, omsk := 8, sat := true }),
      (0x0D0881B460000000, .shl { sa := .byp 1, sb := .byp 2, omsk := 13, lt := .n16x2, keep := true, sat := true }),
      (0x0E1341C400000000, .shr { sa := .byp 2, sb := .ctr 1, omsk := 14, lt := .n32 }),
      (0x0F1041F040000000, .sar { sa := .byp 2, sb := .byp 1, omsk := 15, lt := .i16x2, keep := true }),
      (0x1249804000000000, .ceq { sa := .port 1, sb := .zero, omsk := 2 }),
      (0x1309007440000000, .cne { sa := .byp 1, sb := .byp 4, omsk := 3, lt := .n16x2, keep := true }),
      (0x1444808400000000, .clt { sa := .port 0, sb := .sv 2, omsk := 4, lt := .n32 }),
      (0x152140B040000000, .cle { sa := .byp 4, sb := .byp 5, omsk := 5, lt := .i16x2, keep := true }),
      (0x0908802000000000, .tileAnd { sa := .byp 1, sb := .byp 2, omsk := 1 }),
      (0x0A50804000000000, .tileOr { sa := .port 2, sb := .byp 2, omsk := 2 }),
      (0x0B1C406000000000, .tileXor { sa := .byp 3, sb := .sv 1, omsk := 3 }),
      (0x0CA8008000000000, .notLane { sa := .sv 5, omsk := 4 }),
      (0x1020000000000000, .popc { sa := .byp 4 }),
      (0x1148002000000000, .clz { sa := .port 1, omsk := 1 }),
      (0x169040C000000000, .sel { sa := .sv 2, sb := .byp 1, omsk := 6 }),
      (0x330BC06000000000, .bcast { sa := .byp 1, sb := .ctr 3, omsk := 3 }),
      (0x3406008000000000, .perm { sb := .lane, omsk := 4 })] : List (Nat × Instr)),
    decodeTableWord 64 p.1 = some p.2 := by decide +kernel

/-- Words written from the tile word layout and the lane groups (R231-R234, R251-R264) decode to their instructions. -/
theorem test_decode_lane_1 : ∀ p ∈ ([(0x350900A000000000, .lrot { sa := .byp 1, sb := .byp 4, omsk := 5 }),
      (0x3A30004000000000, .draw { sa := .zero, omsk := 2 }),
      (0x2002000A80000000, .fadd { sb := .port 0, lt := .f32, rnd := .rsr }),
      (0x2108806C80000000, .fsub { sa := .byp 1, sb := .byp 2, omsk := 3, lt := .bf16x2, rnd := .rtz }),
      (0x22A040C900000000, .fmul { sa := .sv 4, sb := .byp 1, omsk := 6, lt := .f32, rnd := .rup }),
      (0x2308872D80000000, .fma { sa := .byp 1, sb := .byp 2, sc := .byp 3, omsk := 9, lt := .bf16x2, rnd := .rdn }),
      (0x240A418800000000, .fmin { sa := .byp 1, sb := .port 1, omsk := 12, lt := .f32 }),
      (0x251581EC00000000, .fmax { sa := .byp 2, sb := .sv 6, omsk := 15, lt := .bf16x2 }),
      (0x2608004800000000, .fabs { sa := .byp 1, omsk := 2, lt := .f32 }),
      (0x271000AC00000000, .fneg { sa := .byp 2, omsk := 5, lt := .bf16x2 }),
      (0x2818010A00000000, .frcp { sa := .byp 3, omsk := 8, lt := .f32, rnd := .rna }),
      (0x2920016E80000000, .frsq { sa := .byp 4, omsk := 11, lt := .bf16x2, rnd := .rsr }),
      (0x2A2801C880000000, .fexp2 { sa := .byp 5, omsk := 14, lt := .f32, rnd := .rtz }),
      (0x2B58002D00000000, .flog2 { sa := .port 3, omsk := 1, lt := .bf16x2, rnd := .rup }),
      (0x3608004A80000000, .radd { sa := .byp 1, omsk := 2, lt := .f32, rnd := .rsr }),
      (0x371000A400000000, .rmax { sa := .byp 2, omsk := 5, lt := .n32 }),
      (0x3818010800000000, .rmin { sa := .byp 3, omsk := 8, lt := .f32 }),
      (0x4D4240E800000000, .treeadd { sa := .port 0, sb := .port 1, omsk := 7, lt := .f32 }),
      (0x3008800C80400000, .cvt { sa := .byp 1, sb := .byp 2, lt := .bf16x2, rnd := .rtz, xa := 2 }),
      (0x300800081DC00000, .cvt { sa := .byp 1, lt := .f32, fmtx := 29, xa := 6 }),
      (0x3100400803000002, .pkn { sb := .byp 1, lt := .f32, fmtx := 3, imm := 0x2 }),
      (0x3200000803000002, .upn { lt := .f32, fmtx := 3, imm := 0x2 })] : List (Nat × Instr)),
    decodeTableWord 64 p.1 = some p.2 := by decide +kernel

/-- Words of the record, store, branch and matrix layouts (R263, R267, R278, R281-R289) decode to their instructions. -/
theorem test_decode_tile_0 : ∀ p ∈ ([(0x39000120C0490FDB, .constLane 9 0xC0490FDB),
      (0x4009C0C0001FFFFF, .emit (.byp 1) .imm 6 0x1FFFFF),
      (0x4088810000200000, .emitP (.sv 1) (.byp 2) 8 0),
      (0x4100004040600000, .wgt 3 { omsk := 2, keep := true }),
      (0x4238000000400300, .setw 2 .imm 0x300),
      (0x4320018000000000, .ash (.byp 4) 12),
      (0x4400000000200000, .kind 1 {}),
      (0x4500002000000000, .wcr { omsk := 1 }),
      (0x4600000040000000, .wcc { keep := true }),
      (0x4778006000000000, .svr (.ctr 3) { omsk := 3 }),
      (0x4808000000A000A5, .svw (.byp 1) 5 0xA5),
      (0x493000001861FFE0, .tld .zero { mask := 0xC3, off := 0x1FFE0 } {}),
      (0x4A0380001FE00400, .tst (.byp 0) (.ctr 2) { mask := 0xFF, off := 0x400 }),
      (0x4BC0008010200044, .tldx .lane { mask := 0x81, off := 0x44 } { omsk := 4 }),
      (0x4C00580000E00002, .tmove { src := .byp 0, dst := .byp 1, len := .ctr 0, dir := 3, notify := true, cin := 2 }),
      (0x5038000000200001, .ctok 1 .imm 1),
      (0x51000000000001A5, .br 0x1A5),
      (0x520000000000080C, .bc 0 true 12),
      (0x5300000000000B01, .bany 5 0x101),
      (0x5400000000000407, .ball 2 7),
      (0x5500000000000803, .loop 0 1 3),
      (0x5600000000000000, .endFiring),
      (0x570000000000BEEF, .tileTrap 0xBEEF),
      (0x5800000000001234, .brk 0x1234)] : List (Nat × Instr)),
    decodeTableWord 64 p.1 = some p.2 := by decide +kernel

/-- Words of the record, store, branch and matrix layouts (R263, R267, R278, R281-R289) decode to their instructions. -/
theorem test_decode_tile_1 : ∀ p ∈ ([(0x5900000000000000, .nop),
      (0x6000000003000000, .claim 3),
      (0x6100000006000000, .releaseSlot 6),
      (0x6200000000200100, .mma { acc := 0, x := 0, y := 1, kl := 0, kh := 256 }),
      (0x63000000007F8028, .mmaC { acc := 0, xh := 0, klh := 0, len := 255, j := 5 }),
      (0x6400000000200000, .mmas 0 0 1),
      (0x6500000008000000, .azero 1),
      (0x6600000010001000, .aload 2 0x1000),
      (0x6700006008000000, .drain 1 3),
      (0x6700000004000000, .drainSteer 0),
      (0x680000000A000000, .steer 1 1),
      (0x6900000002000000, .cutb 2 {}),
      (0x6A00000000000001, .mstat 1 {}),
      (0x6B00000000240000, .mwait { slots := 1, accs := 2, limit := 0, out := {} }),
      (0x00000000FFFFFFFF, .unassignedTileOpcode)] : List (Nat × Instr)),
    decodeTableWord 64 p.1 = some p.2 := by decide +kernel

/-- The cause of a refused word. -/
def causeOf (e : Except Cause Instr) : Option Cause :=
  match e with
  | .ok _ => none
  | .error c => some c
/-- Words that break a rule of the encodings give its cause (R235, R239, R240, R259, R260, R284, R285, R289). -/
theorem test_decode_control_refused : ∀ p ∈ ([(0x02000017, 0x061), (0x0C000300, 0x061), (0x40000100, 0x061), (0x6C000006, 0x061), (0x50006000, 0x061), (0x5E000400, 0x063),
      (0x64100000, 0x063), (0xFE000001, 0x063), (0xFC000001, 0x063), (0x94000002, 0x063)] : List (Nat × Cause)),
    causeOf (decodeControl (BitVec.ofNat 32 p.1)) = some p.2 := by decide +kernel
theorem test_decode_tile_refused : ∀ p ∈ ([(0x01D0000000000000, 0x042), (0x0100001C00000000, 0x043), (0x0100000800000000, 0x043), (0x2000000B00000000, 0x044), (0x2000000800000000 + 2 ^ 29, 0x045),
      (0x0400000020000000, 0x045), (0x0700400000000000, 0x045), (0x3100000800000000, 0x046), (0x310000081E000000, 0x046), (0x5300000000000C00, 0x045),
      (0x5500000000000201, 0x045), (0x3900020000000000, 0x045), (0x3000001800000000, 0x043), (0x6700002004000000, 0x045)] : List (Nat × Cause)),
    causeOf (decodeTile (BitVec.ofNat 64 p.1)) = some p.2 := by decide +kernel

/-! ## Ill-formed terms, one for each check -/

/-- Each check of `laneWf`: a lane type, a rounding, SAT, a source past the arity, FMTX and XA where unused, an immediate that nothing reads, FMTX 0 and 30 where
named, a cvt pair, an immediate bit past cvt's and upn's own. -/
theorem test_lane_ill_formed : ∀ i ∈ ([.tileAdd { lt := .f32 }, .tileAnd { lt := .n32 }, .treeadd {}, .tileAdd { rnd := .rtz }, .fmin { lt := .f32, rnd := .rup }, .tileMulh { sat := true },
      .fadd { lt := .f32, sat := true }, .cvt { lt := .f32, sat := true }, .abs { sb := .byp 1 }, .tileAdd { sc := .zero }, .cvt { lt := .f32, sb := .byp 1 }, .tileAdd { fmtx := 1 }, .tileAdd { xa := 1 },
      .tileAdd { imm := 1 }, .pkn { lt := .f32 }, .pkn { lt := .f32, fmtx := 30 }, .cvt { lt := .fmt, xa := 1, fmtx := 1 }, .cvt { lt := .f32, xa := 7 }, .cvt { lt := .f32, xa := 3, imm := 2 },
      .upn { lt := .f32, fmtx := 1, imm := 64 }] : List Instr), i.wf = false := by decide +kernel
/-- Each check of `otherWf`. -/
theorem test_tile_ill_formed : ∀ i ∈ ([.emit .zero .zero 0 0, .emit .zero .zero 1 1, .emitP .zero .zero 0 0, .emitP .zero .zero 1 1, .setw 0 .zero 1, .ash .zero 0, .ctok 0 .zero 1,
      .tmove ⟨.zero, .zero, .zero, 0, false, 1, 0⟩, .tmove ⟨.zero, .zero, .zero, 0, true, 1, 1⟩, .loop 2 1 0, .telemetry, .go] : List Instr), i.wf = false := by decide +kernel
/-- The same shapes with the fault mended. -/
theorem test_well_formed : ∀ i ∈ ([.tileAdd { lt := .n32 }, .treeadd { lt := .f32 }, .fadd { lt := .f32, rnd := .rtz }, .cvt { sat := true, xa := 2 }, .abs { sa := .imm, imm := 1 }, .tileAdd { sb := .imm, imm := 1 },
      .pkn { lt := .f32, fmtx := 29, imm := 63 }, .cvt { lt := .f32, xa := 3, imm := 1 }, .emit .zero .imm 1 1, .setw 0 .imm 1, .ash .zero 1, .tmove ⟨.zero, .zero, .zero, 0, true, 1, 0⟩, .loop 1 2 0,
      .aload 0 32, .add 1 2 3] : List Instr), i.wf = true := by decide +kernel


/-! ## One step each, with results from the spec's rules and worked cases -/

/-- What a control instruction leaves in g3, from values in registers. -/
def ranTo (i : Instr) (l : List (Nat × Nat)) (p : Thread → Bool) : Bool := nextIs (exec i (wr l)) (fun t => p t.me)
def g3Is (n : Nat) (th : Thread) : Bool := decide ((th.reg 3).toNat = n)

/-- The corners of R306: a shift amount past 63, division by zero, the most negative number by -1, a carry. -/
theorem test_alu_corners :
    ranTo (.add 3 1 2) [(1, 2 ^ 64 - 1), (2, 2)] (g3Is 1) ∧ ranTo (.sub 3 1 2) [(1, 1), (2, 2)] (g3Is (2 ^ 64 - 1)) ∧ ranTo (.sll 3 1 2) [(1, 3), (2, 65)] (g3Is 6) ∧
    ranTo (.srl 3 1 2) [(1, 2 ^ 63), (2, 127)] (g3Is 1) ∧ ranTo (.sra 3 1 2) [(1, 2 ^ 63), (2, 63)] (g3Is (2 ^ 64 - 1)) ∧ ranTo (.slt 3 1 2) [(1, 2 ^ 63), (2, 0)] (g3Is 1) ∧
    ranTo (.sltu 3 1 2) [(1, 2 ^ 63), (2, 0)] (g3Is 0) ∧ ranTo (.mulh 3 1 2) [(1, 2 ^ 64 - 1), (2, 2)] (g3Is (2 ^ 64 - 1)) ∧ ranTo (.mulhu 3 1 2) [(1, 2 ^ 64 - 1), (2, 2)] (g3Is 1) ∧
    ranTo (.div 3 1 2) [(1, 2 ^ 64 - 7), (2, 2)] (g3Is (2 ^ 64 - 3)) ∧ ranTo (.div 3 1 2) [(1, 7)] (g3Is (2 ^ 64 - 1)) ∧ ranTo (.div 3 1 2) [(1, 2 ^ 63), (2, 2 ^ 64 - 1)] (g3Is (2 ^ 63)) ∧
    ranTo (.rem 3 1 2) [(1, 2 ^ 64 - 7), (2, 2)] (g3Is (2 ^ 64 - 1)) ∧ ranTo (.rem 3 1 2) [(1, 2 ^ 63), (2, 2 ^ 64 - 1)] (g3Is 0) ∧ ranTo (.rem 3 1 2) [(1, 7)] (g3Is 7) ∧
    ranTo (.divu 3 1 2) [(1, 7)] (g3Is (2 ^ 64 - 1)) ∧ ranTo (.remu 3 1 2) [(1, 7)] (g3Is 7) ∧ ranTo (.addc 3 1 2) [(1, 2 ^ 64 - 1), (2, 1)] (g3Is 1) ∧
    ranTo (.subc 3 1 2) [(1, 1), (2, 1)] (g3Is 0) ∧ ranTo (.min 3 1 2) [(1, 2 ^ 63), (2, 1)] (g3Is (2 ^ 63)) ∧ ranTo (.maxu 3 1 2) [(1, 2 ^ 63), (2, 1)] (g3Is (2 ^ 63)) := by decide +kernel
/-- Immediates extend by sign or by zero (R307). -/
theorem test_immediates : ranTo (.addi 3 1 0x7FFF) [(1, 5)] (g3Is 4) ∧ ranTo (.andi 3 1 0x7FFF) [(1, 2 ^ 64 - 1)] (g3Is 0x7FFF) ∧ ranTo (.slti 3 1 0x7FFF) [(1, 0)] (g3Is 0) ∧
    ranTo (.sltiu 3 1 0x7FFF) [(1, 0)] (g3Is 1) ∧ ranTo (.li 3 0x4000) [] (g3Is (2 ^ 64 - 0x4000)) ∧ ranTo (.srai 3 1 63) [(1, 2 ^ 63)] (g3Is (2 ^ 64 - 1)) ∧
    ranTo (.add 0 1 1) [(1, 5)] (fun th => decide (th.reg 0 = 0)) := by decide +kernel
/-- jr reads its source before it writes the link (R315); a taken branch goes by words (R314). -/
theorem test_jumps : ranTo (.jr 1 1) [(1, 0x40)] (fun th => decide (th.pc = 0x40 ∧ th.reg 1 = 4)) ∧ ranTo (.jal 1 0x10) [] (fun th => decide (th.pc = 0x40 ∧ th.reg 1 = 4)) ∧
    ranTo (.blt 1 2 .none 3) [(1, 2 ^ 63)] (fun th => decide (th.pc = 12)) ∧ ranTo (.bltu 1 2 .none 3) [(1, 2 ^ 63)] (fun th => decide (th.pc = 4)) := by decide +kernel
/-- trap enters the grove's handler with cause 0x0E1 and its code (R319, R322). -/
theorem test_trap : ranTo (.trap 0x155) [] (fun th => decide (th.pc = 0x800 ∧ th.trapActive = true ∧ th.epc = 0 ∧ th.cause = 0x0E1 ∧ th.tval = 0x155)) := by decide +kernel

/-- A tile whose firing has values in b1, b2 and b3. -/
def wByp (a b c : Vec) : State := { w0 with tiles := [(0, { wTile 0 with firing := some { wFiring 0 with byp := #v[a, b, c, 0, 0, 0] } })] }
def firingIs (i : Instr) (a b c : Vec) (p : Firing → Bool) : Bool :=
  nextIs (exec i (wByp a b c)) (fun t => match (onTile t).firing with | some f => p f | none => false)
/-- The lane of b1 that an instruction leaves. -/
def laneZero (n : Nat) (f : Firing) : Bool := decide ((laneAt f.byp[0] 0).toNat = n)
def b12 (lt : LaneType) (sat : Bool) : Lane := { sa := .byp 0, sb := .byp 1, lt := lt, sat := sat }
/-- The table of R251, the pairs of R252 and the corner of R254. -/
theorem test_integer_lanes :
    firingIs (.tileAdd (b12 .i32 false)) (splat 0x7FFFFFFF) (splat 1) 0 (laneZero 0x80000000) ∧ firingIs (.tileAdd (b12 .i32 true)) (splat 0x7FFFFFFF) (splat 1) 0 (laneZero 0x7FFFFFFF) ∧
    firingIs (.tileSub (b12 .n32 false)) (splat 3) (splat 5) 0 (laneZero 0xFFFFFFFE) ∧ firingIs (.tileSub (b12 .n32 true)) (splat 3) (splat 5) 0 (laneZero 0) ∧
    firingIs (.tileMul (b12 .i32 true)) (splat 0x10000) (splat 0x10000) 0 (laneZero 0x7FFFFFFF) ∧ firingIs (.abs { lt := .i32 }) (splat 0x80000000) 0 0 (laneZero 0x80000000) ∧
    firingIs (.abs { sat := true }) (splat 0x80000000) 0 0 (laneZero 0x7FFFFFFF) ∧ firingIs (.neg { lt := .n32 }) (splat 5) 0 0 (laneZero 0xFFFFFFFB) ∧
    firingIs (.tileMulh (b12 .i32 false)) (splat 0xFFFFFFFF) (splat 0xFFFFFFFF) 0 (laneZero 0) ∧ firingIs (.tileMulh (b12 .n32 false)) (splat 0xFFFFFFFF) (splat 0xFFFFFFFF) 0 (laneZero 0xFFFFFFFE) ∧
    firingIs (.shl (b12 .i32 true)) (splat 0xC0000000) (splat 2) 0 (laneZero 0x80000000) ∧ firingIs (.shl (b12 .i32 false)) (splat 0xC0000000) (splat 34) 0 (laneZero 0) ∧
    firingIs (.sar (b12 .i16x2 false)) (splat 0x80004000) (splat 0x00010001) 0 (laneZero 0xC0002000) ∧ firingIs (.clt (b12 .i16x2 false)) (splat 0x80000001) 0 0 (laneZero 0xFFFF0000) := by decide +kernel
/-- `sel b2, sv2, b1` of R254: where the mask holds A, elsewhere B; and the bypass file shifts by one. -/
theorem test_select : firingIs (.sel { sa := .byp 1, sb := .byp 2, sc := .byp 0 }) (splat 0xFFFF0000) (splat 0x11111111) (splat 0x22222222)
    (fun f => decide (f.byp[0] = splat 0x11112222 ∧ f.byp[1] = splat 0xFFFF0000)) := by decide +kernel
/-- The worked case of R262: 2^24, 1, 1, 1 sum to 0x4B80_0001 by the tree, in every lane. -/
theorem test_tree_sum : firingIs (.radd { lt := .f32 }) (ofLanes (fun l => if l = 0 then 0x4B800000 else if l < 4 then 0x3F800000 else 0)) 0 0
    (fun f => decide (f.byp[0] = splat 0x4B800001)) := by decide +kernel
/-- Special operands of R257 and R258. -/
theorem test_special_operands : firingIs (.fma { sa := .byp 0, sb := .byp 1, sc := .byp 2, lt := .f32 }) (splat 0x7F800000) (splat 0) (splat 0x3F800000) (laneZero 0x7FC00000) ∧
    firingIs (.fmin (b12 .f32 false)) (splat 0) (splat 0x80000000) 0 (laneZero 0x80000000) ∧ firingIs (.frcp { lt := .f32 }) (splat 0x80000000) 0 0 (laneZero 0xFF800000) ∧
    firingIs (.frsq { lt := .f32 }) (splat 0x40800000) 0 0 (laneZero 0x3F000000) ∧ firingIs (.fexp2 { lt := .f32 }) (splat 0x40400000) 0 0 (laneZero 0x41000000) ∧
    firingIs (.flog2 { lt := .f32 }) (splat 0x41000000) 0 0 (laneZero 0x40400000) := by decide +kernel
/-- The lane moves of R261: lrot by 1 moves lane 1 to lane 0 and lane 0 to lane 7. -/
theorem test_lane_moves : firingIs (.lrot (b12 .i32 false)) (ofLanes (fun l => BitVec.ofNat 32 (l + 10))) (splat 1) 0
      (fun f => decide ((laneAt f.byp[0] 0).toNat = 11 ∧ (laneAt f.byp[0] 7).toNat = 10)) ∧
    firingIs (.bcast (b12 .i32 false)) (ofLanes (fun l => BitVec.ofNat 32 (l + 10))) (splat 13) 0 (laneZero 15) := by decide +kernel
/-- The worked pack and unpack of R260 with the descriptor of R35. -/
theorem test_pack :
    (laneAt (pknVec 0x2880C400 { sa := .byp 0, sb := .byp 1, lt := .f32, fmtx := 3, imm := 2 } (fun _ _ => 0)
      [ofLanes (fun l => [0x3F400000, 0x3FA00000, 0x40200000, 0xC0E00000, 0x40A00000, 0x7FC00000, 0x80000000, 0x3E99999A].getD l 0), splat 7]) 2).toNat = 0x1806F422 ∧
    upnVec 0x2880C400 { lt := .f32, fmtx := 3, imm := 2 } (fun _ _ => 0) [BitVec.ofNat 256 (0x1806F422 * 2 ^ 64)] =
      ofLanes (fun l => [0x3F800000, 0x3F800000, 0x40000000, 0xC0C00000, 0x40800000, 0, 0x80000000, 0x3F000000].getD l 0) := by decide +kernel
/-- loop counts k0 down, reloads it at 0 and goes on to k1 (R285). -/
theorem test_loop : firingIs (.loop 0 1 9) 0 0 0 (fun f => decide (f.k = #v[2, 1, 0, 0] ∧ f.pc = 9)) ∧
    nextIs (exec (.loop 0 1 9) { w0 with tiles := [(0, { wTile 0 with firing := some { wFiring 0 with k := #v[1, 5, 0, 0] } })] })
      (fun t => match (onTile t).firing with | some f => decide (f.k = #v[3, 4, 0, 0] ∧ f.pc = 9) | none => false) := by decide +kernel
/-- const fills every lane (R263); svw stages one lane of a vector (R277). -/
theorem test_const_svw : firingIs (.constLane 0 0xC0490FDB) 0 0 0 (fun f => decide (f.byp[0] = splat 0xC0490FDB)) ∧
    firingIs (.svw (.byp 0) 2 0x80) (splat 6) 0 0 (fun f => decide (f.writes.length = 1)) := by decide +kernel

end Sys2Proof.Machine
end

section
/-! PROOF. O56: whose turn a step takes, and what each turn runs. A core's turn is cut in three: the thread R152 picks is one of the core's own; settling the others changes
nothing but when they count as ready; and the picked thread, in focus, runs what its word decodes to. -/

namespace Sys2Proof.Machine

/-! ## The thread that is picked (R152) -/

theorem div_of_mem_readyThreads {s : State} {c t : Nat} (h : t ∈ readyThreads s c) : t / 8 = c := by
  obtain ⟨n, hn, rfl⟩ := List.mem_map.mp (List.mem_filter.mp h).1
  have := List.mem_range.mp hn
  omega

/-- The pick is always empty or a ready thread: so it stays while the fold goes through them. -/
theorem pickThread_mem {s : State} {c q : Nat} (h : pickThread s c = some q) : q ∈ readyThreads s c := by
  refine List.foldlRecOn (motive := fun best : Option Nat => ∀ b, best = some b → b ∈ readyThreads s c) (readyThreads s c) _ (by simp) ?_ q h
  intro best ih t ht b hb
  cases best with
  | none => simp_all
  | some b0 =>
    simp only at hb
    split at hb
    · simp_all
    · exact ih b hb

theorem pickThread_div {s : State} {c q : Nat} (h : pickThread s c = some q) : q / 8 = c := div_of_mem_readyThreads (pickThread_mem h)

/-! ## The threads that are not picked (R151, R152) -/

/-- `t` is `s` but for when threads other than `q` count as ready. -/
structure SettledBut (s : State) (q : Nat) (t : State) : Prop where
  rest : t = { s with threads := t.threads }
  picked : t.thr q = s.thr q
  others : ∀ p, t.thr p = { s.thr p with status := (t.thr p).status, since := (t.thr p).since }

theorem SettledBut.refl (s : State) (q : Nat) : SettledBut s q s := ⟨rfl, rfl, fun _ => rfl⟩

theorem SettledBut.setThr {s t : State} {q p : Nat} (h : SettledBut s q t) (hp : p ≠ q) (st : TState) (n : Nat) :
    SettledBut s q (t.setThr p { t.thr p with status := st, since := n }) where
  rest := by rw [h.rest]; rfl
  picked := by rw [State.setThr_thr_ne _ _ _ _ hp.symm, h.picked]
  others r := by
    by_cases hr : r = p
    · subst hr; rw [State.setThr_thr, h.others r]
    · rw [State.setThr_thr_ne _ _ _ _ hr]; exact h.others r

theorem SettledBut.settleThread {s t : State} {q p : Nat} (h : SettledBut s q t) (hp : p ≠ q) (s0 : State) : SettledBut s q (settleThread s0 t p) := by
  simp only [Machine.settleThread]
  split
  · exact h
  · split
    · split
      · exact h
      · exact h.setThr hp .ready s0.now
    · exact h.setThr hp (.waiting .again) (t.thr p).since

theorem settledBut_settleThreads (s : State) (c q : Nat) : SettledBut s q (settleThreads s c (some q)) := by
  refine List.foldlRecOn _ _ (SettledBut.refl s q) (fun t ht p hp => ht.settleThread ?_ s)
  rintro rfl
  simp at hp

/-! ## The thread in focus (R155) -/

theorem ripen_pc (th : Thread) (now : Nat) : (th.ripen now).pc = th.pc :=
  List.foldlRecOn (motive := fun h : Thread => h.pc = th.pc) _ _ rfl (fun _ ih _ _ => ih)

/-- A thread in focus, the gives of what has retired in its FIFOs: where its instruction or its trap starts from. -/
def inFocus (s : State) (q : Nat) : State := { s.setThr q ((s.thr q).ripen s.now) with focus := q }

theorem inFocus_thr (s : State) (q : Nat) : (inFocus s q).thr q = (s.thr q).ripen s.now := State.setThr_thr s q _

theorem inFocus_thr_ne (s : State) {q p : Nat} (h : p ≠ q) : (inFocus s q).thr p = s.thr p := State.setThr_thr_ne s q _ p h

theorem inFocus_coreOf (s : State) (q c : Nat) : (inFocus s q).coreOf c = s.coreOf c := rfl

/-! ## A core's turn (R8, R152) -/

/-- The state in which a core's picked thread issues. -/
def turnStart (s : State) (c q : Nat) : State :=
  let s1 := settleThreads s c (some q)
  let s2 := s1.setThr q { s1.thr q with status := .ready, since := s.now + 1 }
  s2.setCore c { s2.coreOf c with issuedAt := some s.now }

theorem coreTurn_picked {s : State} {c q : Nat} (h : (s.coreOf c).issuedAt ≠ some s.now) (hq : pickThread s c = some q) :
    coreTurn s c = runThread (turnStart s c q) q := by
  simp only [coreTurn, if_neg h, hq, turnStart]

theorem turnStart_rest (s : State) (c q : Nat) : turnStart s c q = { s with threads := (turnStart s c q).threads, cores := (turnStart s c q).cores } := by
  simp only [turnStart]
  rw [(settledBut_settleThreads s c q).rest]
  rfl

theorem inFocus_turnStart_rest (s : State) (c q : Nat) : inFocus (turnStart s c q) q =
    { s with focus := q, threads := (inFocus (turnStart s c q) q).threads, cores := (inFocus (turnStart s c q) q).cores } :=
  congrArg (fun t : State => { t with focus := q, threads := (inFocus (turnStart s c q) q).threads }) (turnStart_rest s c q)

theorem turnStart_now (s : State) (c q : Nat) : (turnStart s c q).now = s.now := by rw [turnStart_rest]

theorem turnStart_thr (s : State) (c q : Nat) : (turnStart s c q).thr q = { s.thr q with status := .ready, since := s.now + 1 } := by
  rw [← (settledBut_settleThreads s c q).picked]
  exact State.setThr_thr _ q _

theorem turnStart_thr_ne (s : State) (c : Nat) {q p : Nat} (h : p ≠ q) : (turnStart s c q).thr p = (settleThreads s c (some q)).thr p :=
  State.setThr_thr_ne _ q _ p h

theorem turnStart_others (s : State) (c : Nat) {q p : Nat} (h : p ≠ q) :
    (turnStart s c q).thr p = { s.thr p with status := ((turnStart s c q).thr p).status, since := ((turnStart s c q).thr p).since } := by
  rw [turnStart_thr_ne s c h]
  exact (settledBut_settleThreads s c q).others p

theorem settleThreads_coreOf (s : State) (c q d : Nat) : (settleThreads s c (some q)).coreOf d = s.coreOf d := by
  rw [(settledBut_settleThreads s c q).rest]
  rfl

theorem turnStart_coreOf (s : State) (c q : Nat) : (turnStart s c q).coreOf c = { s.coreOf c with issuedAt := some s.now } := by
  rw [← settleThreads_coreOf s c q c]
  exact State.setCore_coreOf _ c _

theorem turnStart_coreOf_ne (s : State) {c d : Nat} (q : Nat) (h : d ≠ c) : (turnStart s c q).coreOf d = s.coreOf d := by
  rw [← settleThreads_coreOf s c q d]
  exact State.setCore_coreOf_ne _ c _ d h

theorem turnStart_codeWord (s : State) (c q pc : Nat) : codeWord (turnStart s c q) c pc = codeWord s c pc := by
  simp only [codeWord, turnStart_coreOf]

/-! ## What a core's turn runs (R194, R236, R240) -/

section
variable {s : State} {c q : Nat} (hi : (s.coreOf c).issuedAt ≠ some s.now) (hq : pickThread s c = some q)
include hi hq

theorem coreTurn_past (h : 0x10000 ≤ (s.thr q).pc) : coreTurn s c = .next (trapMe (inFocus (turnStart s c q) q) 0x064 0) := by
  simp only [coreTurn_picked hi hq, runThread, ripen_pc, turnStart_thr, if_pos h, inFocus]

variable (hpc : (s.thr q).pc < 0x10000)
include hpc

theorem coreTurn_uncorrectable (h : (s.coreOf c).badCode.contains ((s.thr q).pc / 4) = true) :
    coreTurn s c = .next (trapMe (inFocus (turnStart s c q) q) 0x3C1 0) := by
  simp only [coreTurn_picked hi hq, runThread, ripen_pc, turnStart_thr, if_neg (Nat.not_le.mpr hpc), pickThread_div hq, turnStart_coreOf, if_pos h, inFocus]

variable (hw : (s.coreOf c).badCode.contains ((s.thr q).pc / 4) = false)
include hw

theorem coreTurn_decoded {i : Instr} (h : decodeControl (codeWord s c (s.thr q).pc) = .ok i) : coreTurn s c = exec i (inFocus (turnStart s c q) q) := by
  simp only [coreTurn_picked hi hq, runThread, ripen_pc, turnStart_thr, if_neg (Nat.not_le.mpr hpc), pickThread_div hq, turnStart_coreOf, hw,
    turnStart_codeWord, h, inFocus, Bool.false_eq_true, if_false]

theorem coreTurn_undecoded {e : Cause} (h : decodeControl (codeWord s c (s.thr q).pc) = .error e) :
    coreTurn s c = .next (trapMe (inFocus (turnStart s c q) q) e 0) := by
  simp only [coreTurn_picked hi hq, runThread, ripen_pc, turnStart_thr, if_neg (Nat.not_le.mpr hpc), pickThread_div hq, turnStart_coreOf, hw,
    turnStart_codeWord, h, inFocus, Bool.false_eq_true, if_false]

end

/-! ## A tile's turn (R114, R116, R235) -/

section
variable {s : State} {x : Nat} {f : Firing} (hf : (s.tile x).firing = some f) (hb : f.busyTo ≤ s.now) (hk : atBrk s x (s.tile x) f = false)
include hf hb hk

theorem tileTurn_past (h : 512 ≤ f.pc) : tileTurn s x = .next (firingFault s x (s.tile x) f 0x041 0 0) := by
  simp [tileTurn, hf, hk, Nat.not_lt.mpr hb, h]

theorem tileTurn_decoded (hpc : f.pc < 512) {i : Instr} (h : decodeTile (tileWord (s.tile x) f.pc) = .ok i) : tileTurn s x = exec i { s with site := x } := by
  simp [tileTurn, hf, hk, Nat.not_lt.mpr hb, Nat.not_le.mpr hpc, h]

theorem tileTurn_undecoded (hpc : f.pc < 512) {e : Cause} (h : decodeTile (tileWord (s.tile x) f.pc) = .error e) :
    tileTurn s x = .next (firingFault s x (s.tile x) f e 0 0) := by
  simp [tileTurn, hf, hk, Nat.not_lt.mpr hb, Nat.not_le.mpr hpc, h]

end

/-! ## The turn of an agent -/

theorem turn_core {s : State} {c : Nat} (h : c < 480) : turn s (.core c) = coreTurn s c := if_neg (Nat.not_le.mpr h)

theorem turn_no_core {s : State} {c : Nat} (h : 480 ≤ c) : turn s (.core c) = .fault .noSuchAgent := if_pos h

theorem turn_event {s : State} {i : Instr} (h : i.isEvent = true) : turn s (.event i) = exec i s := if_pos h

/-! ## The schedule (log entry 1) -/

section
variable {s : State} {who : Agent} {rest : List Turn} {n : Nat}

theorem step_listed_now (h : s.agenda = { dt := 0, who := who } :: rest) : step s = turn { s with agenda := rest } who := by
  simp only [step, h]

theorem step_listed_next (hf : forced s = none) (h : s.agenda = { dt := 1, who := who } :: rest) : step s = turn (advance { s with agenda := rest }) who := by
  simp only [step, h, hf]

theorem step_listed_later (hf : forced s = none) (h : s.agenda = { dt := n + 2, who := who } :: rest) :
    step s = .next (advance { s with agenda := { dt := n + 1, who := who } :: rest }) := by
  simp only [step, h, hf]

theorem step_unlisted (hf : forced s = none) (h : s.agenda = []) : step s = turn (advance s) (defaultAgent (advance s)) := by
  simp only [step, h, hf]

theorem step_forced {r : Res} (hf : forced s = some r) (h : s.agenda = [] ∨ s.agenda = { dt := n + 1, who := who } :: rest) : step s = r := by
  rcases h with h | h <;> simp only [step, h, hf]

end

theorem forced_owed {s : State} {a : Agent} (h : owed s = some a) : forced s = some (turn s a) := by simp [forced, h]

theorem forced_breakpoint {s : State} {k : Nat × Grove} (h : owed s = none) (hk : s.groves.find? (fun k => (breakDue s k.1).isSome) = some k) :
    forced s = some (execBreakpointHalt k.1 s) := by simp [forced, h, hk]

/-- Settles O56: each turn runs what its agent's word or event says, and each case of the schedule is a turn. -/
theorem stepRunsTheDecodedInstruction : Obligations.StepRunsTheDecodedInstruction := by
  unfold Obligations.StepRunsTheDecodedInstruction
  intro acts
  have acts_turn (a : Agent) (s0 : State) : acts a s0 (turn s0 a) := by
    refine ⟨?_, ?_, ?_, ?_⟩
    · rintro c q rfl hc hi hq
      rw [turn_core hc]
      refine ⟨inFocus (turnStart s0 c q) q, pickThread_div hq, rfl, inFocus_turnStart_rest s0 c q, ?_, ?_, fun p hp => ?_, fun d hd => ?_,
        fun h hw i hd => coreTurn_decoded hi hq h hw hd, fun h hw => coreTurn_uncorrectable hi hq h (eq_true_of_ne_false hw),
        fun h hw e hd => coreTurn_undecoded hi hq h hw hd, coreTurn_past hi hq⟩
      · rw [inFocus_thr, turnStart_thr, turnStart_now]
      · rw [inFocus_coreOf, turnStart_coreOf]
      · rw [inFocus_thr_ne _ hp]
        exact turnStart_others s0 c hp
      · rw [inFocus_coreOf, turnStart_coreOf_ne s0 q hd]
    · rintro x f rfl hf hb hk
      exact ⟨fun h _ => tileTurn_decoded hf hb hk h, fun h _ => tileTurn_undecoded hf hb hk h, tileTurn_past hf hb hk⟩
    · rintro c rfl hc
      exact turn_no_core hc
    · rintro i rfl hi
      exact turn_event hi
  intro s n who rest
  refine ⟨fun h => ?_, fun hf => ⟨fun h => ?_, step_listed_later hf, fun h => ?_⟩, fun h => ⟨fun a ha => ?_, fun hn k hk => ?_⟩⟩
  · rw [step_listed_now h]
    exact acts_turn _ _
  · rw [step_listed_next hf h]
    exact acts_turn _ _
  · rw [step_unlisted hf h]
    exact acts_turn _ _
  · rw [step_forced (forced_owed ha) h]
    exact acts_turn _ _
  · exact step_forced (forced_breakpoint hn hk) h

end Sys2Proof.Machine
end

section
/-! PROOF. O33: how packets travel. What each of the four events does is said once, an equation for each of its cases: a header's arrival (which may
go on whole, as a pruned header, or to its end), the receipt of a pruned header, and the two halves of a re-request. The one thing to see is that a
header's own link never changes whether it is pruned: no place that sends over a link leads straight to a queue that prunes. -/

namespace Sys2Proof.Machine

/-! ## Packets -/

theorem packet_id {s : State} {pkt : Nat} {p : Packet} (h : s.packet pkt = some p) : p.id = pkt := by
  simpa using List.find?_some h

/-- A state with the memory of another reads as it does. -/
theorem sameMemory_of_eq {s t : State} (hm : t.mem = s.mem) (hk : t.blockKey = s.blockKey) (hf : t.full = s.full) : SameMemory s t := by
  obtain ⟨hb, hu⟩ : t.byteAt = s.byteAt ∧ t.isFull = s.isFull := by
    constructor
    · unfold State.byteAt; simp only [hm, hk]
    · unfold State.isFull; simp only [hf]
  exact ⟨fun _ _ => by rw [hb], fun _ => by rw [hu]⟩

theorem send_packets (s : State) (p : Packet) :
    (s.send p).packets = s.packets ++ [{ p with id := s.nextId, at_ := .router (cluDecode p.sclu) 6, due := s.now, hchk := p.check }] := by
  generalize hc : p.check = c
  rw [State.send, Packet.sealed, hc]

theorem addTrim_trims (s : State) (k n q : Nat) :
    tabGet (addTrim s k n).trims q 0 = if q = k then min 0xFFFF (tabGet s.trims q 0 + n) else tabGet s.trims q 0 := by
  by_cases hq : q = k
  · subst hq; simp [addTrim]
  · simp [addTrim, hq, tabGet_put_ne _ _ _ _ _ hq]

theorem addTrim_trims_self (s : State) (k n : Nat) : tabGet (addTrim s k n).trims k 0 = min 0xFFFF (tabGet s.trims k 0 + n) := by
  rw [addTrim_trims, if_pos rfl]

/-! ## What a header's arrival does (R70-R72, R74, R76) -/

theorem exec_routerHeaderArrival (pkt : Nat) (s : State) : exec (.routerHeaderArrival pkt) s = execRouterHeaderArrival pkt s := rfl

section
variable {s : State} {pkt : Nat} {p : Packet} (h : s.packet pkt = some p)
include h

theorem headerArrival_early (hw : firstInLane s p = false ∨ s.now < p.due) : exec (.routerHeaderArrival pkt) s = .next s := by
  have hw : (!firstInLane s p || decide (s.now < p.due)) = true := by simpa using hw
  simp [exec_routerHeaderArrival, execRouterHeaderArrival, h, hw]

variable (hf : firstInLane s p = true) (hd : p.due ≤ s.now)
include hf hd

theorem headerArrival_badCheck (hc : p.hchk ≠ p.check) :
    exec (.routerHeaderArrival pkt) s = .next ((s.dropPacket pkt).logEvent 0x3C0 p.grove 0 0) := by
  simp [exec_routerHeaderArrival, execRouterHeaderArrival, h, hf, Nat.not_lt.mpr hd, hc]

variable (hc : p.hchk = p.check)
include hc

theorem headerArrival_malformed (hm : malformed p = true) :
    exec (.routerHeaderArrival pkt) s = .next ((s.dropPacket pkt).logEvent 0x283 p.grove 0 0) := by
  simp [exec_routerHeaderArrival, execRouterHeaderArrival, h, hf, Nat.not_lt.mpr hd, hc, hm]

variable (hm : malformed p = false)
include hm

theorem headerArrival_noRoute (hr : routeAlg s p = none) : exec (.routerHeaderArrival pkt) s = .next (discardMessage s p 0x280) := by
  simp [exec_routerHeaderArrival, execRouterHeaderArrival, h, hf, Nat.not_lt.mpr hd, hc, hm, hr]

variable {alg : Nat} (hr : routeAlg s p = some alg)
include hr

theorem headerArrival_noPlace (hn : nextPlace s p alg = none) : exec (.routerHeaderArrival pkt) s = .next s := by
  simp [exec_routerHeaderArrival, execRouterHeaderArrival, h, hf, Nat.not_lt.mpr hd, hc, hm, hr, hn]

variable {a : PktAt} (hn : nextPlace s p alg = some a)
include hn

theorem headerArrival_waits (hw : roomAt s p a = false ∨ hasTurn s p = false) : exec (.routerHeaderArrival pkt) s = .next s := by
  have hw : (roomAt s p a && hasTurn s p) = false := Bool.and_eq_false_iff.mpr hw
  simp [exec_routerHeaderArrival, execRouterHeaderArrival, h, hf, Nat.not_lt.mpr hd, hc, hm, hr, hn, hw]

theorem headerArrival_goes (hroom : roomAt s p a = true) (hturn : hasTurn s p = true) : exec (.routerHeaderArrival pkt) s = .next (goTo s p a) := by
  simp [exec_routerHeaderArrival, execRouterHeaderArrival, h, hf, Nat.not_lt.mpr hd, hc, hm, hr, hn, hroom, hturn]

end

/-! ## The link a header leaves by (R70, R72) -/

theorem useLink_rest (s : State) (p : Packet) : useLink s p = { s with links := (useLink s p).links } := by
  unfold useLink; split <;> rfl

theorem useLink_dev (s : State) (p : Packet) : (useLink s p).dev = s.dev := by rw [useLink_rest]; rfl

theorem useLink_now (s : State) (p : Packet) : (useLink s p).now = s.now := by rw [useLink_rest]

theorem useLink_unsent (s : State) {p : Packet} (h : sendsOn p.at_ = false) : useLink s p = s := by simp [useLink, h]

/-- A link that sends is busy for a cycle a flit, with the packet's lane; only lanes 1 to 3 move the turn on. -/
theorem linkAt_useLink {s t : State} {p : Packet} (ht : t.links = (useLink s p).links) :
    (sendsOn p.at_ = true → linkAt t p.at_ = (s.now + 1 + p.len, p.lane, if p.lane = 0 then (linkAt s p.at_).2.2 else p.lane)) ∧
      (sendsOn p.at_ = false → t.links = s.links) := by
  refine ⟨fun h => ?_, fun h => by rw [ht, useLink_unsent s h]⟩
  simp [linkAt, ht, useLink, h]

/-- What comes by a link comes to a buffer or to its end: the queues that prune stand behind buffers. -/
theorem queueAt_of_sendsOn {s : State} {p : Packet} {alg : Nat} {a : PktAt} (hn : nextPlace s p alg = some a) (hs : sendsOn p.at_ = true) :
    queueAt a = false := by
  cases hp : p.at_ with
  | router r d =>
    rcases d with _ | _ | _ | _ | _ | _ | _ | d <;> simp only [nextPlace, hp, Option.some.injEq] at hn <;> subst hn
    case succ.succ.succ.succ.succ.zero => split <;> rfl
    all_goals rfl
  | hearth die cx => simp only [nextPlace, hp, Option.some.injEq] at hn; subst hn; rfl
  | link n => simp only [nextPlace, hp, Option.some.injEq] at hn; subst hn; rfl
  | _ => simp [hp, sendsOn] at hs

/-- So what a place finds on its lane 1 does not hang on the link that the header came by. -/
theorem prunedAt_useLink {s : State} {p q : Packet} {alg : Nat} {a : PktAt} (hn : nextPlace s p alg = some a) :
    prunedAt (useLink s p) q a = prunedAt s q a := by
  cases hs : sendsOn p.at_ with
  | false => rw [useLink_unsent s hs]
  | true => simp [prunedAt, queueAt_of_sendsOn hn hs]

theorem leavesAt_useLink (s : State) (p q : Packet) (a : PktAt) : leavesAt (useLink s p) q a = leavesAt s q a := by
  rw [useLink_rest]; rfl

theorem prunedAt_iff (s : State) (p : Packet) (a : PktAt) :
    prunedAt s p a = true ↔ p.pr = true ∧ p.pruned = false ∧ 27 < laneFlits s a 1 ∧ ((∃ r d, a = .router r d ∧ d ≠ 6) ∨ (∃ c x, a = .hearth c x) ∨ ∃ d, a = .link d) := by
  cases a <;> simp [prunedAt, queueAt, and_assoc, and_comm]

theorem roomAt_of_queueAt {s : State} {p : Packet} {a : PktAt} (hq : queueAt a = true) (hp : prunedAt s p a = false) :
    roomAt s p a = true ↔ laneFlits s a p.lane + 1 + p.len ≤ 36 := by
  cases a <;> simp_all [roomAt, queueAt]

/-! ## A header goes to its next place -/

/-- A header goes on whole: it stands last at its new place. -/
theorem goTo_kept {s : State} {p : Packet} {alg : Nat} {a : PktAt} (hn : nextPlace s p alg = some a) (ha : a ≠ .delivered) (hp : prunedAt s p a = false) :
    goTo s p a = (useLink s p).movePacket { p with at_ := a, due := leavesAt s p a, down := p.down || decide (a = .hub) } := by
  have hp1 := hp
  rw [← prunedAt_useLink hn] at hp1
  cases a with
  | delivered => exact absurd rfl ha
  | hub =>
    have hl : leavesAt s { p with down := true } .hub = leavesAt s p .hub := rfl
    simp [goTo, arrivePacket, prunedAt, queueAt, leavesAt_useLink, hl]
  | _ => simp [goTo, arrivePacket, hp1, leavesAt_useLink]

/-- The header that a packet leaves of itself at a place where it is pruned. -/
def headerLeft (s : State) (p : Packet) (a : PktAt) : Packet :=
  { ({ p with pruned := true, len := 0, vl := 0 } : Packet).sealed with at_ := a, due := leavesAt s p a, pay := [], val := 0 }

theorem headerLeft_lane (s : State) (p : Packet) (a : PktAt) : (headerLeft s p a).lane = 0 := rfl

/-- Its check is right: where it stands and what it carried are no part of a header. -/
theorem headerLeft_hchk (s : State) (p : Packet) (a : PktAt) : (headerLeft s p a).hchk = (headerLeft s p a).check := by
  have hh : (headerLeft s p a).header = ({ p with pruned := true, len := 0, vl := 0 } : Packet).header := by
    simp only [headerLeft, Packet.sealed, Packet.header]
  rw [Packet.check, hh]
  simp only [headerLeft, Packet.sealed, Packet.check]

theorem headerLeft_eq (s : State) (p : Packet) (a : PktAt) : headerLeft s p a =
    { p with at_ := a, due := leavesAt s p a, pruned := true, len := 0, vl := 0, pay := [], val := 0, hchk := (headerLeft s p a).hchk } := by
  simp only [headerLeft, Packet.sealed]

theorem goTo_pruned {s : State} {p : Packet} {alg : Nat} {a : PktAt} (hn : nextPlace s p alg = some a) (hp : prunedAt s p a = true) :
    goTo s p a = addTrim (s.movePacket (headerLeft s p a)) (placeKey a) 1 := by
  obtain ⟨-, -, -, hq⟩ := (prunedAt_iff s p a).mp hp
  have hqa : queueAt a = true := by simp only [prunedAt, Bool.and_eq_true] at hp; exact hp.1.2
  have hu : useLink s p = s := useLink_unsent s (Bool.eq_false_iff.mpr fun hs => by simp [queueAt_of_sendsOn hn hs] at hqa)
  rcases hq with ⟨r, d, rfl, -⟩ | ⟨c, x, rfl⟩ | ⟨n, rfl⟩ <;> simp [goTo, hu, arrivePacket, hp, headerLeft]

theorem goTo_unit {s : State} {p : Packet} (hq : p.req = none) (hd : p.ddev = s.dev) :
    goTo s p .delivered = (useLink s p).movePacket { p with at_ := .delivered, due := s.now } := by
  simp [goTo, handOver, hq, hd, useLink_dev, useLink_now]

theorem goTo_node {s : State} {p : Packet} {id : Nat} (hq : p.req = some id) (ht : p.type = 0 ∨ p.type = 2) :
    goTo s p .delivered = requestHere ((useLink s p).dropPacket p.id) id := by
  simp [goTo, handOver, hq, ht]

theorem goTo_answered {s : State} {p : Packet} {r : MemReq} (hq : p.req = some r.id) (h0 : p.type ≠ 0) (h2 : p.type ≠ 2)
    (hr : s.reqs.find? (fun q => q.id = r.id) = some r) (hk : ∀ n, r.kind ≠ .nsend n) :
    goTo s p .delivered = putBack ((useLink s p).dropPacket p.id) { r with ans := 2 } := by
  have hreqs : ((useLink s p).dropPacket p.id).reqs = s.reqs := by rw [useLink_rest]; rfl
  simp only [goTo, handOver, hq, h0, h2, decide_false, Bool.or_false, Bool.false_eq_true, if_false, answerHere, hreqs, hr]

/-! ## Turns and routes (R72, R74) -/

theorem hasTurn_of_busy {s : State} {p : Packet} (hs : sendsOn p.at_ = true)
    (hb : s.now < (linkAt s p.at_).1 ∨ p.lane ≠ 0 ∧ ∃ q ∈ s.packets, q.at_ = p.at_ ∧ q.lane = 0 ∧ readyToMove s q = true) : hasTurn s p = false := by
  rcases hb with hb | ⟨hl, q, hq, ha, hz, hm⟩
  · simp only [hasTurn, hs, if_true, decide_eq_false (Nat.not_le.mpr hb), Bool.false_and]
  · have hready : (s.packets.any fun q => q.at_ = p.at_ && q.lane = 0 && readyToMove s q) = true := by
      rw [List.any_eq_true]; exact ⟨q, hq, by simp [ha, hz, hm]⟩
    simp [hasTurn, hs, servedLane, hready, Ne.symm hl]

theorem nextPlace_input_xy {s : State} {p : Packet} {r side : Nat} (ha : p.at_ = .input r side) (hl : leavesDie s p r 0 = false) :
    nextPlace s p 0 = some (.router r
      (if cxOf r < cxOf (cluDecode p.dclu) then 1 else if cxOf (cluDecode p.dclu) < cxOf r then 3
       else if cyOf r < cyOf (cluDecode p.dclu) then 2 else if cyOf (cluDecode p.dclu) < cyOf r then 0 else 4)) := by
  simp only [nextPlace, ha, outputAt, hl, Bool.false_eq_true, if_false, routeDir, stepX, stepY]
  by_cases hx : cxOf r < cxOf (cluDecode p.dclu)
  · simp only [hx, if_true, Option.some_or, Option.getD_some]
  by_cases hx' : cxOf (cluDecode p.dclu) < cxOf r
  · simp only [hx, hx', if_true, if_false, Option.some_or, Option.getD_some]
  by_cases hy : cyOf r < cyOf (cluDecode p.dclu)
  · simp only [hx, hx', hy, if_true, if_false, Option.none_or, Option.getD_some]
  by_cases hy' : cyOf (cluDecode p.dclu) < cyOf r
  · simp only [hx, hx', hy, hy', if_true, if_false, Option.none_or, Option.getD_some]
  · simp only [hx, hx', hy, hy', if_false, Option.none_or, Option.getD_none]

/-! ## What the receipt of a pruned header does (R77) -/

theorem exec_prunedHeaderReceipt (pkt : Nat) (s : State) : exec (.prunedHeaderReceipt pkt) s = execPrunedHeaderReceipt pkt s := rfl

section
variable {s : State} {pkt : Nat} {p : Packet} (h : s.packet pkt = some p) (hp : p.pruned = true) (ha : p.at_ = .delivered)
include h hp ha

theorem prunedReceipt_read (ht : p.type = 1) : exec (.prunedHeaderReceipt pkt) s = .next (prunedRead s p) := by
  simp [exec_prunedHeaderReceipt, execPrunedHeaderReceipt, h, hp, ha, ht]

theorem prunedReceipt_scatter (ht : p.type = 4) : exec (.prunedHeaderReceipt pkt) s = .next (prunedScatter s p) := by
  simp [exec_prunedHeaderReceipt, execPrunedHeaderReceipt, h, hp, ha, ht]

end

section
variable {s : State} {p : Packet} {st : Stream} (hg : genStream s (siteOfEp (cluDecode p.dclu) p.dep) p.gen = some st) (hop : st.op = p.op) (hn : st.gen = none)
include hg hop hn

/-- An exact flow's pruned response: its tokens are holes, and it waits to be asked for again. -/
theorem prunedRead_exact (he : p.ex = true) :
    prunedRead s p = (setGen (addTrim s (flowKey st.grove st.sid) 1) (siteOfEp (cluDecode p.dclu) p.dep) p.gen
      (some (markHoles s.now { st with prunes := st.prunes + 1 } p))).movePacket { p with at_ := .backoff (s.now + backoffAfter st.prunes) } := by
  simp [prunedRead, hg, hop, hn, he]

/-- A lossy load's or gather's: the records it touched are lost. -/
theorem prunedRead_lossy (he : p.ex = false) (hk : st.kind = .load ∨ st.kind = .gather) :
    prunedRead s p = (setGen (addTrim s (flowKey st.grove st.sid) 1) (siteOfEp (cluDecode p.dclu) p.dep) p.gen
      (some (loseRecords { st with prunes := st.prunes + 1 } p))).dropPacket p.id := by
  rcases hk with hk | hk <;> simp [prunedRead, hg, hop, hn, he, hk]

/-- A lossy fill's: its tokens are zeros. -/
theorem prunedRead_fill (he : p.ex = false) (hf : st.kind = .fill) (hc : st.cut = none) :
    prunedRead s p = (setGen (addTrim s (flowKey st.grove st.sid) 1) (siteOfEp (cluDecode p.dclu) p.dep) p.gen
      (some { st with prunes := st.prunes + 1, win := zeroWindow p st.win })).dropPacket p.id := by
  simp [prunedRead, hg, hop, hn, he, hf, settle, hc]

end

/-- An exact flow's pruned write waits to be asked for again. -/
theorem prunedScatter_exact {s : State} {p : Packet} (he : p.ex = true) :
    prunedScatter s p = (addTrim s (flowKey p.grove p.flow) 1).movePacket
      { p with at_ := .backoff (s.now + backoffAfter (tabGet s.trims (flowKey p.grove p.flow) 0)) } := by
  simp [prunedScatter, he]

theorem sliceNode_setNode (s : State) {x n : Nat} (v : Node) (h : n < 4) : sliceNode (setNode s x n v) x n = v := by
  simp [sliceNode, setNode, at_, h]

/-- A lossy flow's pruned write is lost at its node, in the node's ash. -/
theorem prunedScatter_lossy {s : State} {p : Packet} (he : p.ex = false) : ∃ v : Node,
    v.ash.cnt = min 0xFFFFFFFF ((sliceNode s (siteOfEp (cluDecode p.dclu) p.dep) (nodeOfEp p.dep)).ash.cnt + p.recs) ∧
    prunedScatter s p = (setNode (addTrim s (flowKey p.grove p.flow) 1) (siteOfEp (cluDecode p.dclu) p.dep) (nodeOfEp p.dep) v).dropPacket p.id := by
  simp only [prunedScatter, he, Bool.false_eq_true, if_false]
  exact ⟨_, Nat.min_comm _ _, rfl⟩

/-! ## Windows after a prune (R77) -/

theorem markHoles_win (now : Nat) (st : Stream) (p : Packet) {j : Nat} {r : RoTok} (hj : st.win[j]? = some r) :
    (markHoles now st p).win[j]? = some (if p.tok0 ≤ r.idx ∧ r.idx < p.tok0 + p.olen then { r with st := .hole now none } else r) := by
  simp [markHoles, hj]

/-- A token of a window, when the records from token `lo` up to token `hi` are lost. -/
def RoTok.lostIn (lo hi grp : Nat) (r : RoTok) : RoTok :=
  match r.st with
  | .gone _ => r
  | _ => if lo ≤ r.idx && decide (r.idx < hi) then { r with st := .gone grp } else r

theorem RoTok.lostIn_idx (lo hi grp : Nat) (r : RoTok) : (r.lostIn lo hi grp).idx = r.idx := by
  unfold RoTok.lostIn
  split
  · rfl
  · split <;> rfl

theorem RoTok.lostIn_st {lo hi : Nat} {r : RoTok} (grp : Nat) (hlo : lo ≤ r.idx) (hhi : r.idx < hi) : ∃ g, (r.lostIn lo hi grp).st = .gone g := by
  unfold RoTok.lostIn
  split
  · next g h => exact ⟨g, h⟩
  · exact ⟨grp, by simp [hlo, hhi]⟩

/-- One response fewer is to come for a token that the response carried. -/
def RoTok.answered (p : Packet) (r : RoTok) : RoTok :=
  if p.tok0 ≤ r.idx && decide (r.idx < p.tok0 + p.olen) then { r with left := r.left - 1 } else r

theorem RoTok.answered_idx (p : Packet) (r : RoTok) : (r.answered p).idx = r.idx := by unfold RoTok.answered; split <;> rfl

theorem loseRecords_win (st : Stream) (p : Packet) : (loseRecords st p).win = st.win.map (fun r =>
    (r.answered p).lostIn (p.tok0 / st.pat.rl * st.pat.rl) ((p.tok0 + p.olen + st.pat.rl - 1) / st.pat.rl * st.pat.rl) p.id) := rfl

theorem loseRecords_gone {st : Stream} {p : Packet} {j : Nat} {r : RoTok} (hj : st.win[j]? = some r) :
    ∃ r1, (loseRecords st p).win[j]? = some r1 ∧ r1.idx = r.idx ∧
      (p.tok0 / st.pat.rl ≤ r.idx / st.pat.rl → r.idx < (p.tok0 + p.olen + st.pat.rl - 1) / st.pat.rl * st.pat.rl → ∃ grp, r1.st = .gone grp) := by
  rw [loseRecords_win, List.getElem?_map, hj]
  refine ⟨_, rfl, by rw [RoTok.lostIn_idx, RoTok.answered_idx], fun hlo hhi => RoTok.lostIn_st _ ?_ ?_⟩ <;> rw [RoTok.answered_idx]
  · exact Nat.le_trans (Nat.mul_le_mul_right _ hlo) (Nat.div_mul_le_self _ _)
  · exact hhi

theorem take_zero {r : RoTok} (h : r.st = .asked ∨ ∃ c a, r.st = .hole c a) :
    ({ r with got := 0, bad := false, zero := true } : RoTok).take 0 false =
      { r with got := 0, bad := false, zero := true, left := r.left - 1, st := if r.left ≤ 1 then .data false else .asked } := by
  rcases h with h | ⟨c, a, h⟩ <;> by_cases hl : r.left ≤ 1 <;> simp [RoTok.take, h, hl, Nat.sub_eq_zero_iff_le]

theorem zeroWindow_taken {p : Packet} {win : List RoTok} {j : Nat} {r : RoTok} (hj : win[j]? = some r) (hlo : p.tok0 ≤ r.idx) (hhi : r.idx < p.tok0 + p.olen)
    (hr : r.st = .asked ∨ ∃ c a, r.st = .hole c a) : (zeroWindow p win)[j]? =
      some { r with got := 0, bad := false, zero := true, left := r.left - 1, st := if r.left ≤ 1 then .data false else .asked } := by
  simp [zeroWindow, hj, hlo, hhi, take_zero hr]

/-! ## Asking again (R75, R77) -/

theorem exec_reRequest (pkt : Nat) (s : State) : exec (.reRequest pkt) s = execReRequest pkt s := rfl

theorem exec_reRequestReceipt (pkt : Nat) (s : State) : exec (.reRequestReceipt pkt) s = execReRequestReceipt pkt s := rfl

/-- The re-request for a pruned packet: back to its source, on lane 2. -/
def askAgain (p : Packet) : Packet :=
  { p with down := false, type := 5, vl := 2, pr := false, pruned := false, len := 0, hub := p.type = 1, dclu := p.sclu, dep := p.sep, sclu := p.dclu, sep := p.dep, cls := 0 }

section
variable {s : State} {pkt due : Nat} {p : Packet} (h : s.packet pkt = some p) (ha : p.at_ = .backoff due)
include h ha

theorem reRequest_waits (hw : s.now < due ∨ reLimit p ≤ tabGet s.permits (reKey p) 0) : exec (.reRequest pkt) s = .next s := by
  simp only [exec_reRequest, execReRequest, h, ha]
  rw [if_pos (by rcases hw with hw | hw <;> simp [hw])]

theorem reRequest_leaves (hp : p.pruned = true) (hd : due ≤ s.now) (hl : tabGet s.permits (reKey p) 0 < reLimit p) :
    exec (.reRequest pkt) s = .next (({ (noteAgain s p).dropPacket pkt with
      permits := tabPut s.permits (reKey p) (tabGet s.permits (reKey p) 0 + 1) } : State).send (askAgain p)) := by
  simp only [exec_reRequest, execReRequest, h, ha]
  rw [if_neg (by simp [hp, hd, hl])]
  rfl

end

theorem noteAgain_rest (s : State) (p : Packet) : noteAgain s p = { s with slices := (noteAgain s p).slices } := by
  unfold noteAgain; dsimp only
  split
  · rfl
  · split <;> rfl

theorem noteAgain_of_type_ne {s : State} {p : Packet} (h : p.type ≠ 1) : noteAgain s p = s := by simp [noteAgain, h]

/-- A hole whose re-request leaves now. -/
def RoTok.askedAgain (now : Nat) (p : Packet) (r : RoTok) : RoTok :=
  match r.st with
  | .hole c _ => if p.tok0 ≤ r.idx ∧ r.idx < p.tok0 + p.olen then { r with st := .hole c (some now) } else r
  | _ => r

theorem RoTok.askedAgain_hole {now : Nat} {p : Packet} {r : RoTok} {c : Nat} {a : Option Nat} (hr : r.st = .hole c a) (hlo : p.tok0 ≤ r.idx)
    (hhi : r.idx < p.tok0 + p.olen) : r.askedAgain now p = { r with st := .hole c (some now) } := by
  simp [RoTok.askedAgain, hr, hlo, hhi]

theorem noteAgain_read {s : State} {p : Packet} {st : Stream} (ht : p.type = 1) (hg : genStream s (siteOfEp (cluDecode p.dclu) p.dep) p.gen = some st)
    (hop : st.op = p.op) :
    noteAgain s p = setGen s (siteOfEp (cluDecode p.dclu) p.dep) p.gen (some { st with win := st.win.map (RoTok.askedAgain s.now p) }) := by
  simp only [noteAgain, ht, if_true, hg, hop, ne_eq, not_true_eq_false, if_false]
  rfl

section
variable {s : State} {pkt : Nat} {p : Packet} (h : s.packet pkt = some p) (ht : p.type = 5) (ha : p.at_ = .delivered)
include h ht ha

theorem reRequestReceipt_read (hh : p.hub = true) : exec (.reRequestReceipt pkt) s = .next (readAgain (s.dropPacket pkt) p) := by
  simp [exec_reRequestReceipt, execReRequestReceipt, h, ht, ha, hh]

theorem reRequestReceipt_scatter (hh : p.hub = false) : exec (.reRequestReceipt pkt) s = .next (scatterAgain (s.dropPacket pkt) p) := by
  simp [exec_reRequestReceipt, execReRequestReceipt, h, ht, ha, hh]

end

/-- A permit returned is free again, or sends the request that waited for it: then one packet more may be on its way. -/
theorem returnPermit_spec (s : State) (k : Nat) : ∃ q l n m,
    returnPermit s k = { s with reqs := q, packets := s.packets ++ l, nextId := n, permits := m } ∧
      ((∀ r ∈ s.reqs, r.sent = true) → l = [] ∧ n = s.nextId ∧ tabGet m k 0 = tabGet s.permits k 0 - 1) := by
  unfold returnPermit
  split
  · next r hr =>
    have hwaits : ¬∀ r ∈ s.reqs, r.sent = true := fun hs => by
      have hu := List.find?_some hr
      simp [MemReq.unsent, hs r (List.mem_of_find?_eq_some hr)] at hu
    dsimp only
    split
    · exact ⟨_, [], _, _, by rw [List.append_nil], fun hs => absurd hs hwaits⟩
    · exact ⟨_, _, _, _, rfl, fun hs => absurd hs hwaits⟩
  · exact ⟨_, [], _, _, by rw [List.append_nil], fun _ => ⟨rfl, rfl, tabGet_put _ _ _ _⟩⟩

theorem sliceNode_returnPermit (s : State) (k x n : Nat) : sliceNode (returnPermit s k) x n = sliceNode s x n := by
  obtain ⟨q, l, m, w, e, -⟩ := returnPermit_spec s k
  rw [e]
  rfl

theorem readAgain_bound {s : State} {p : Packet} {st : Stream} (hg : genStream s (siteOfEp (cluDecode p.sclu) p.sep) p.gen = some st) (hop : st.op = p.op) :
    readAgain (s.dropPacket p.id) p = { s.dropPacket p.id with
      reqs := s.reqs ++ [{ id := s.nextId, src := st.thread, kind := .engineRead (siteOfEp (cluDecode p.sclu) p.sep) p.gen, va := p.addr, key := (streamGrove s st).key,
                           pieces := p.reads, edge := st.op, joint := p.joint, tok0 := p.tok0, flits := p.olen, reads := p.reads, arr := some s.now, ans := 0 }]
      nextId := s.nextId + 1 } := by
  have hg' : genStream (s.dropPacket p.id) (siteOfEp (cluDecode p.sclu) p.sep) p.gen = some st := hg
  simp only [readAgain, hg', hop, ne_eq, not_true_eq_false, if_false]
  rfl

/-- What a source leaves that no longer holds a packet: the hole stays open, and a record goes to the grove. -/
def State.leaveHole (s : State) (p : Packet) : State :=
  ({ s with packets := s.packets ++ [{ p with at_ := .hole }] } : State).sendRecord p.grove
    { cause := 0x282, src := 1, clu := cluCode (siteCluster (siteOfEp (cluDecode p.dclu) p.dep)), ep := p.dep, sid := p.flow, seq := p.seq }

theorem leaveHole_eq (s : State) (p : Packet) : ∃ (pk : Packet) (r : FaultRec),
    s.leaveHole p = { s with packets := s.packets ++ [{ p with at_ := .hole }, pk], nextId := s.nextId + 1 } ∧
      pk.type = 6 ∧ pk.cls = 15 ∧ pk.pay = [r.bits] ∧ r.cause = 0x282 ∧ r.sid = p.flow ∧ r.seq = p.seq := by
  obtain ⟨pk, e, htype, hcls, -, -, hpay, -⟩ := sendRecord_eq { s with packets := s.packets ++ [{ p with at_ := .hole }] } p.grove
    { cause := 0x282, src := 1, clu := cluCode (siteCluster (siteOfEp (cluDecode p.dclu) p.dep)), ep := p.dep, sid := p.flow, seq := p.seq }
  exact ⟨pk, _, by rw [State.leaveHole, e]; simp, htype, hcls, hpay, rfl, rfl, rfl⟩

/-- The packet that a re-request asks for, if its source still holds it (R77). -/
def heldFor (s : State) (p : Packet) : Option Packet :=
  (sliceNode s (siteOfEp (cluDecode p.dclu) p.dep) (nodeOfEp p.dep)).sent.find?
    (fun q => q.flow = p.flow && q.seq = p.seq && q.dclu = p.sclu && q.dep = p.sep && q.pairs = p.pairs)

theorem scatterAgain_held {s : State} {p q : Packet} (hq : heldFor s p = some q) :
    scatterAgain s p = (returnPermit s (slicePermit (cluDecode p.sclu) (siteOfEp (cluDecode p.dclu) p.dep)).1).send q := by
  rw [heldFor] at hq
  simp only [scatterAgain, sliceNode_returnPermit, hq]

theorem scatterAgain_lost {s : State} {p : Packet} (hq : heldFor s p = none) :
    scatterAgain s p = (returnPermit s (slicePermit (cluDecode p.sclu) (siteOfEp (cluDecode p.dclu) p.dep)).1).leaveHole p := by
  rw [heldFor] at hq
  simp only [scatterAgain, sliceNode_returnPermit, hq]
  rfl

/-! ## The statement -/

/-- Settles O33: each event's case equation is the next state that the statement asks for. -/
theorem packetsTravel : Obligations.PacketsTravel := by
  unfold Obligations.PacketsTravel
  constructor
  · intro s pkt p h
    obtain rfl := packet_id h
    dsimp only
    refine ⟨fun hw => runs_next (headerArrival_early h hw) rfl, fun hf hd => ⟨fun hc => runs_next (headerArrival_badCheck h hf hd hc) rfl,
      fun hc hm => runs_next (headerArrival_malformed h hf hd hc hm) rfl, fun hc hm => ⟨fun alg a hr hn => ⟨fun hroom hturn => ?_, fun hw => ?_⟩,
        fun alg hr hn => ?_, fun hr => ?_⟩⟩,
      prunedAt_iff s p, fun a => roomAt_of_queueAt, hasTurn_of_busy, fun r d => rfl, rfl, fun ht => ?_, fun r side ha hl => nextPlace_input_xy ha hl⟩
    · have hgo := headerArrival_goes h hf hd hc hm hr hn hroom hturn
      refine ⟨fun ha hp => ?_, fun hp => ?_, ?_, ?_, ?_⟩
      -- it goes on whole
      · rw [goTo_kept hn ha hp, useLink_rest] at hgo
        exact runs_next hgo ⟨rfl, linkAt_useLink rfl, rfl⟩
      -- it is pruned
      · rw [goTo_pruned hn hp] at hgo
        exact runs_next hgo ⟨rfl, ⟨_, rfl, headerLeft_hchk s p a, headerLeft_lane s p a, headerLeft_eq s p a⟩, addTrim_trims _ _ 1⟩
      -- it is at its end: a unit's packet, a request, an answer
      · rintro rfl hq hdev
        rw [goTo_unit hq hdev, useLink_rest] at hgo
        exact runs_next hgo ⟨rfl, linkAt_useLink rfl, rfl⟩
      · rintro id rfl hq ht
        rw [goTo_node hq ht, useLink_rest] at hgo
        exact runs_next hgo ⟨rfl, linkAt_useLink rfl⟩
      · rintro r rfl hq h0 h2 hfind hk
        rw [goTo_answered hq h0 h2 hfind hk, useLink_rest] at hgo
        exact runs_next hgo ⟨rfl, linkAt_useLink rfl, rfl⟩
    · exact runs_next (headerArrival_waits h hf hd hc hm hr hn hw) rfl
    · exact runs_next (headerArrival_noPlace h hf hd hc hm hr hn) rfl
    · exact runs_next (headerArrival_noRoute h hf hd hc hm hr)
        ⟨sameMemory_of_eq rfl rfl rfl, rfl, rfl, _, _, rfl, rfl, rfl, rfl, rfl, rfl, rfl, rfl, rfl, rfl, rfl⟩
    · exact if_pos (by simpa using ht)
  · intro s pkt p h
    obtain rfl := packet_id h
    dsimp only
    refine ⟨fun hp ha ht hgen st hg hop hn => ⟨fun he => ?_, fun he hk => ?_, fun he hf hc => ?_⟩, fun hp ha ht => ⟨fun he => ?_, fun he hnode => ?_⟩,
      fun due ha hp => ⟨fun hd hl => ?_, fun hw => runs_next (reRequest_waits h ha hw) rfl⟩, fun ht ha => ⟨fun hh st hg hop => ?_, fun hh => ?_⟩⟩
    -- a pruned read response: an exact flow's, a lossy load's or gather's, a lossy fill's
    · have hrun := prunedReceipt_read h hp ha ht
      rw [prunedRead_exact hg hop hn he] at hrun
      exact runs_next hrun ⟨⟨addTrim_trims_self s _ 1, sameMemory_of_eq rfl rfl rfl, rfl, rfl⟩, rfl, _, genStream_setGen _ _ _ _ hgen, rfl, by simp [markHoles],
        fun j r hj => markHoles_win _ _ p hj⟩
    · have hrun := prunedReceipt_read h hp ha ht
      rw [prunedRead_lossy hg hop hn he hk] at hrun
      refine runs_next hrun ⟨⟨addTrim_trims_self s _ 1, sameMemory_of_eq rfl rfl rfl, rfl, rfl⟩, rfl, _, genStream_setGen _ _ _ _ hgen, rfl,
        by simp [loseRecords_win], fun j r hj => ?_⟩
      obtain ⟨r1, hr1, hidx, hgone⟩ := loseRecords_gone (p := p) (st := { st with prunes := st.prunes + 1 }) hj
      exact ⟨r1, hr1, hidx, fun hlo hhi _ => hgone hlo hhi⟩
    · have hrun := prunedReceipt_read h hp ha ht
      rw [prunedRead_fill hg hop hn he hf hc] at hrun
      exact runs_next hrun ⟨⟨addTrim_trims_self s _ 1, sameMemory_of_eq rfl rfl rfl, rfl, rfl⟩, rfl, _, genStream_setGen _ _ _ _ hgen, rfl,
        fun j r => zeroWindow_taken⟩
    -- a pruned scatter write: an exact flow's, a lossy one's
    · have hrun := prunedReceipt_scatter h hp ha ht
      rw [prunedScatter_exact he] at hrun
      exact runs_next hrun ⟨rfl, rfl, addTrim_trims_self s _ 1⟩
    · have hrun := prunedReceipt_scatter h hp ha ht
      obtain ⟨v, hv, e⟩ := prunedScatter_lossy (s := s) he
      rw [e] at hrun
      refine runs_next hrun ⟨rfl, sameMemory_of_eq rfl rfl rfl, rfl, ?_⟩
      rw [← hv]
      exact congrArg (fun n : Node => n.ash.cnt) (sliceNode_setNode _ _ hnode)
    -- the re-request leaves
    · refine runs_next (reRequest_leaves h ha hp hd hl) ⟨?_, ?_, ?_, tabGet_put _ _ _ _, ?_⟩
      · rw [noteAgain_rest]; rfl
      · intro ht; rw [noteAgain_of_type_ne ht]; rfl
      · intro st ht hgen hg hop
        rw [noteAgain_read ht hg hop]
        refine ⟨_, genStream_setGen _ _ _ _ hgen, rfl, fun j r c a hj hr hlo hhi => ?_⟩
        simp only [List.getElem?_map, hj, Option.map_some, RoTok.askedAgain_hole hr hlo hhi]
      · rw [noteAgain_rest]
        exact ⟨_, rfl, rfl, rfl, rfl, rfl, rfl, rfl, rfl, rfl, rfl, rfl, rfl, rfl, rfl⟩
    -- the source reads again, or sends the packet it holds, or holds none
    · have hrun := reRequestReceipt_read h ht ha hh
      rw [readAgain_bound hg hop] at hrun
      exact runs_next hrun ⟨rfl, _, rfl, rfl, rfl, rfl, rfl, rfl⟩
    · have hrun := reRequestReceipt_scatter h ht ha hh
      obtain ⟨rs, l, n, m, e, hret⟩ := returnPermit_spec (s.dropPacket p.id) (slicePermit (cluDecode p.sclu) (siteOfEp (cluDecode p.dclu) p.dep)).1
      refine ⟨fun q hq => ?_, fun hq => ?_⟩
      · rw [scatterAgain_held (s := s.dropPacket p.id) hq, e] at hrun
        exact runs_next hrun ⟨sameMemory_of_eq rfl rfl rfl, rfl, ⟨l, n, send_packets _ q, fun hs => ⟨(hret hs).1, (hret hs).2.1⟩⟩, fun hs => (hret hs).2.2⟩
      · obtain ⟨pk, r, e1, hrec⟩ := leaveHole_eq (returnPermit (s.dropPacket p.id) (slicePermit (cluDecode p.sclu) (siteOfEp (cluDecode p.dclu) p.dep)).1) p
        rw [scatterAgain_lost (s := s.dropPacket p.id) hq, e1, e] at hrun
        obtain ⟨htype, hcls, hpay, hcause, hsid, hseq⟩ := hrec
        exact runs_next hrun ⟨l, pk, r, rfl, fun hs => (hret hs).1, htype, hcls, hpay, hcause, hsid, hseq, sameMemory_of_eq rfl rfl rfl, rfl⟩

end Sys2Proof.Machine
end

section
/-! PROOF. O22: matrix commands staged by a firing, and matrix state read. What a tile instruction's answer leaves is said once for each of its ends: the firing goes on, it
faults, or it gives a result out; each instruction is then the equation of its body. -/

namespace Sys2Proof.Machine

/-! ## The ends of a tile instruction (R125, R191, R235) -/

/-- The record of the fault is the only packet more; of a tile that no grove has, there is none. -/
theorem tileFaulted_firingFault (s : State) (f : Firing) (c : Cause) (seq sband : Nat) :
    TileFaulted s f c seq sband (firingFault s s.site (onTile s) f c seq sband) := by
  unfold firingFault tileRecord
  cases hg : s.groveOfSite s.site with
  | none =>
    simp only [State.setTile_groveOfSite, hg]
    exact ⟨State.setTile_tile _ _ _, sameMemory_of_eq rfl rfl rfl, rfl, fun g h => by rw [hg] at h; cases h⟩
  | some g =>
    simp only [State.setTile_groveOfSite, hg]
    refine ⟨State.setTile_tile _ _ _, sameMemory_of_eq rfl rfl rfl, rfl, fun g' h => ?_⟩
    obtain rfl : g = g' := by rw [hg] at h; exact Option.some.inj h
    exact ⟨_, _, rfl, rfl, rfl, rfl, rfl, rfl, rfl, rfl, rfl, rfl, rfl, rfl⟩

section
variable {s : State} {f : Firing} {body body' : State → Nat → Tile → Firing → Except TStop (Tile × Firing × Nat)} (h : Fires s f)
include h

theorem tileStep_eq_of_body_eq (hb : body s s.site (onTile s) f = body' s s.site (onTile s) f) : tileStep body s = tileStep body' s := by
  have hf : (s.tile s.site).firing = some f := h
  have hbody : body s s.site (s.tile s.site) f = body' s s.site (s.tile s.site) f := hb
  simp only [tileStep, hf, hbody]

theorem runs_firingLeft {i : Instr} (he : exec i s = tileStep body s) {f1 : Firing} {n : Nat} (hb : body s s.site (onTile s) f = .ok (onTile s, f1, n)) :
    Runs i s (FiringLeft s f1 n) := by
  obtain ⟨e, -⟩ | ⟨c, q, b, e, -⟩ | ⟨t1, f1', n', e, r⟩ := tileStep_cases body s f h <;> cases hb.symm.trans e
  exact runs_next (he.trans r) rfl

theorem runs_tileFaulted {i : Instr} (he : exec i s = tileStep body s) {c : Cause} {q b : Nat} (hb : body s s.site (onTile s) f = .error (.fault c q b)) :
    Runs i s (TileFaulted s f c q b) := by
  obtain ⟨e, -⟩ | ⟨c', q', b', e, r⟩ | ⟨t1, f1, n, e, -⟩ := tileStep_cases body s f h <;> cases hb.symm.trans e
  exact runs_next (he.trans r) (tileFaulted_firingFault s f c q b)

end

/-! ## Port masks (R219, R231) -/

theorem getLsbD_one_shiftLeft_port (p q : Fin 4) : (1#4 <<< p.val).getLsbD q = true ↔ q = p := by
  revert p q; decide

theorem ownsAll_nil_of_forall {a : ActorCfg} {omsk : BitVec 4} (h : ∀ p : Fin 4, omsk.getLsbD p = true → a.ownO.getLsbD p = true) :
    ownsAll a [] omsk = true := by
  have hmask : omsk &&& ~~~a.ownO = 0 := by
    refine BitVec.eq_of_getLsbD_eq fun i hi => ?_
    have := h ⟨i, hi⟩
    cases ho : omsk.getLsbD i <;> simp_all
  simp [ownsAll, hmask]

theorem ownsAll_nil_one_port {a : ActorCfg} {p : Fin 4} (h : a.ownO.getLsbD p = true) : ownsAll a [] (1#4 <<< p.val) = true := by
  refine ownsAll_nil_of_forall fun q hq => ?_
  exact (getLsbD_one_shiftLeft_port p q).mp hq ▸ h

/-! ## The staging of each port of a mask (R124, R268) -/

/-- When no port's change faults, each port of the mask holds its change and the others what they held. -/
theorem eachPort_ok {t : Tile} {omsk : BitVec 4} {step : (rl po : Nat) → Stage → Except TStop Stage} {g : Fin 4 → Stage} {ports : List (Fin 4)} {f : Firing}
    (hn : ports.Nodup) (h : ∀ p ∈ ports, omsk.getLsbD p = true → step (outRl t p) ((actorCfg t f).po[p]) (f.stage[p]) = .ok (g p)) :
    ∃ st, eachPort t omsk step f ports = .ok { f with stage := st } ∧
      ∀ p : Fin 4, st[p] = if p ∈ ports ∧ omsk.getLsbD p = true then g p else f.stage[p] := by
  induction ports generalizing f with
  | nil => exact ⟨f.stage, rfl, fun p => by simp⟩
  | cons p rest ih =>
    obtain ⟨hp, hrest⟩ := List.nodup_cons.mp hn
    by_cases hm : omsk.getLsbD p = true
    · have hne : ∀ q : Fin 4, q ≠ p → (f.stage.set p (g p))[q] = f.stage[q] := fun q hq =>
        Vector.getElem_set_ne _ _ (fun e => hq (Fin.ext e.symm))
      obtain ⟨st, e, hst⟩ := ih (f := { f with stage := f.stage.set p (g p) }) hrest (fun q hq hqm => by
        have hqp : q ≠ p := fun e => hp (e ▸ hq)
        show step _ _ ((f.stage.set p (g p))[q]) = _
        rw [hne q hqp]
        exact h q (List.mem_cons_of_mem p hq) hqm)
      refine ⟨st, ?_, fun q => ?_⟩
      · simp only [eachPort, hm, if_true, h p List.mem_cons_self hm, e]
      · rw [hst q]
        by_cases hqp : q = p
        · subst hqp; simp [hp, hm]
        · simp [hqp, hne q hqp]
    · obtain ⟨st, e, hst⟩ := ih (f := f) hrest (fun q hq => h q (List.mem_cons_of_mem p hq))
      refine ⟨st, (if_neg hm).trans e, fun q => ?_⟩
      rw [hst q]
      by_cases hqp : q = p
      · subst hqp; rw [if_neg (fun hq => hm hq.2), if_neg (fun hq => hm hq.2)]
      · simp [hqp]

theorem eachPort_allPorts_ok {t : Tile} {omsk : BitVec 4} {step : (rl po : Nat) → Stage → Except TStop Stage} {g : Fin 4 → Stage} {f : Firing}
    (h : ∀ p : Fin 4, omsk.getLsbD p = true → step (outRl t p) ((actorCfg t f).po[p]) (f.stage[p]) = .ok (g p)) :
    ∃ st, eachPort t omsk step f allPorts = .ok { f with stage := st } ∧ ∀ p : Fin 4, st[p] = if omsk.getLsbD p = true then g p else f.stage[p] := by
  have hall : ∀ p : Fin 4, p ∈ allPorts := by decide
  obtain ⟨st, e, hst⟩ := eachPort_ok (ports := allPorts) (by decide) (fun p _ => h p)
  exact ⟨st, e, fun p => by rw [hst p]; simp [hall p]⟩

theorem eachPort_one_port {t : Tile} {p : Fin 4} {step : (rl po : Nat) → Stage → Except TStop Stage} {g : Stage} {f : Firing}
    (h : step (outRl t p) ((actorCfg t f).po[p]) (f.stage[p]) = .ok g) :
    eachPort t (1#4 <<< p.val) step f allPorts = .ok { f with stage := f.stage.set p g } := by
  obtain ⟨st, e, hst⟩ := eachPort_allPorts_ok (t := t) (omsk := 1#4 <<< p.val) (step := step) (g := fun _ => g) (f := f) (fun q hq => by
    obtain rfl := (getLsbD_one_shiftLeft_port p q).mp hq
    exact h)
  have hset : st = f.stage.set p g := by
    refine Vector.ext fun i hi => ?_
    by_cases hp : (⟨i, hi⟩ : Fin 4) = p
    · subst hp
      exact ((hst _).trans (if_pos ((getLsbD_one_shiftLeft_port _ _).mpr rfl))).trans (Vector.getElem_set_self _).symm
    · exact ((hst ⟨i, hi⟩).trans (if_neg (fun hm => hp ((getLsbD_one_shiftLeft_port _ _).mp hm)))).trans
        (Vector.getElem_set_ne _ _ (fun e => hp (Fin.ext e.symm))).symm
  rw [e, hset]

/-! ## A result given out (R115, R231, R249) -/

/-- `g1` is the staging `g` of a port of record length `rl` with one token more, which carries the result `v` (R249, R268). -/
def StagedTok (rl : Nat) (v : Vec) (g g1 : Stage) : Prop :=
  ∃ k : Tok, g1.toks = g.toks ++ [k] ∧ k.pay = v ∧ k.first = decide (g.pos = 0) ∧ k.last = decide (g.pos + 1 = rl) ∧
    (g.pos = 0 → k.kind = 0 ∧ k.weight = 1)

/-- A result's token on a port with room (R268): it opens a data record of weight 1 or goes on with the open one, and no excess ash follows. -/
theorem stageTok_room {rl po : Nat} {g : Stage} (v : Vec) (h : (g.pos = 0 ∧ g.recs < po ∧ 1 ≤ rl) ∨ (g.pos ≠ 0 ∧ g.req ≤ 65535)) :
    ∃ g1, stageTok rl po 0 1 v g = .ok g1 ∧ StagedTok rl v g g1 := by
  obtain ⟨hpos, hrecs, -⟩ | ⟨hpos, hreq⟩ := h
  · have hroom : ¬ po < g.recs + 1 := by omega
    simp [stageTok, StagedTok, hpos, hroom, weightField]
  · have hash : ¬ 65535 < g.req := by omega
    simp [stageTok, StagedTok, hpos, hash]

/-- The ports of the mask have one token more, the bypass file has moved up unless KEEP, and nothing else of the firing has changed. -/
theorem yield_room {t : Tile} {f : Firing} {out : Push} (v : Vec) (h : RoomOn t f out.omsk) :
    ∃ f2, yield t f out v = .ok f2 ∧ f2 = { f with stage := f2.stage, byp := if out.keep then f.byp else pushByp f.byp v } ∧
      (∀ p : Fin 4, out.omsk.getLsbD p = false → f2.stage[p] = f.stage[p]) ∧
      (∀ p : Fin 4, out.omsk.getLsbD p = true → StagedTok (outRl t p) v f.stage[p] f2.stage[p]) := by
  have hport : ∀ p : Fin 4, ∃ g1 : Stage, out.omsk.getLsbD p = true → stageTok (outRl t p) ((actorCfg t f).po[p]) 0 1 v (f.stage[p]) = .ok g1 ∧
      StagedTok (outRl t p) v f.stage[p] g1 := by
    intro p
    by_cases hp : out.omsk.getLsbD p = true
    · obtain ⟨g1, hg1⟩ := stageTok_room v (h p hp)
      exact ⟨g1, fun _ => hg1⟩
    · exact ⟨{}, fun hp' => absurd hp' hp⟩
  obtain ⟨g, hg⟩ := Classical.axiomOfChoice hport
  obtain ⟨st, e, hst⟩ := eachPort_allPorts_ok (t := t) (f := f) (step := fun rl po g => stageTok rl po 0 1 v g) (fun p hp => (hg p hp).1)
  refine ⟨{ f with stage := st, byp := if out.keep then f.byp else pushByp f.byp v }, ?_, rfl, fun p hp => ?_, fun p hp => ?_⟩
  · cases hk : out.keep <;> simp [yield, e, hk]
  · show st[p] = _
    exact (hst p).trans (if_neg (by rw [hp]; exact Bool.false_ne_true))
  · show StagedTok _ _ _ st[p]
    rw [hst p, if_pos hp]
    exact (hg p hp).2

/-- An instruction that yields, with its sources read and room on its ports, gives its result out. -/
theorem runs_gaveOut {i : Instr} {s : State} {sels : List Sel} {imm : BitVec 21} {out : Push} {cycles : Nat} {settle : Bool} {f1 f2 : Firing} {vs : List Vec} {v : Vec}
    {op : State → Nat → Tile → Firing → List Vec → Except TStop (Firing × Vec)} (he : exec i s = tileStep (yielding sels imm out cycles settle op) s)
    (hr : Reads s sels imm out.omsk settle f1 vs) (hop : op s s.site (onTile s) f1 vs = .ok (f2, v)) (hroom : RoomOn (onTile s) f2 out.omsk) :
    Runs i s (GaveOut s f2 out cycles v) := by
  obtain ⟨f, hf, howns, hsettle, hread⟩ := hr
  obtain ⟨f3, hy, hrest, hother, hport⟩ := yield_room v hroom
  have hwait : ((settle || sels.any selWaits) && mustSettle s.now (onTile s)) = false := by
    cases hs : settle || sels.any selWaits
    · rfl
    · exact hsettle hs
  have hb : yielding sels imm out cycles settle op s s.site (onTile s) f = .ok (onTile s, f3.step, cycles) := by
    simp [yielding, howns, hwait, hread, hop, hy]
  obtain ⟨t, hrun, ht⟩ := runs_firingLeft hf he hb
  refine ⟨t, hrun, f3.step, ht, ?_, hother, hport⟩
  rw [hrest]
  rfl

/-- An instruction without sources reads them by owning its ports. -/
theorem Reads.of_nil {s : State} {imm : BitVec 21} {omsk : BitVec 4} {settle : Bool} {f : Firing} {vs : List Vec} (h : Reads s [] imm omsk settle f vs) :
    Fires s f ∧ ownsAll (actorCfg (onTile s) f) [] omsk = true := by
  obtain ⟨f0, hf, howns, -, hread⟩ := h
  simp only [readSels, Except.ok.injEq, Prod.mk.injEq] at hread
  exact hread.1 ▸ ⟨hf, howns⟩

/-! ## Commands staged (R131) -/

theorem stageCmd_room {op : MatOp} {s : State} {x : Nat} {t : Tile} {f : Firing} (h : f.cmds.length < 8) :
    stageCmd op s x t f = .ok (t, { f with pc := f.pc + 1, cmds := f.cmds ++ [{ op := op, actor := f.actor }] }, 1) := by
  simp [stageCmd, Firing.step, Nat.not_le.mpr h]

theorem stageCmd_full {op : MatOp} {s : State} {x : Nat} {t : Tile} {f : Firing} (h : 8 ≤ f.cmds.length) : stageCmd op s x t f = .error (.fault 0x143 0 0) := by
  simp [stageCmd, tfault, h]

theorem runs_staged {i : Instr} {op : MatOp} {s : State} {f : Firing} (h : Fires s f) (hlen : f.cmds.length < 8) (he : exec i s = tileStep (stageCmd op) s) :
    Runs i s (FiringLeft s { f with pc := f.pc + 1, cmds := f.cmds ++ [{ op := op, actor := f.actor }] } 1) := runs_firingLeft h he (stageCmd_room hlen)

theorem runs_ninth {i : Instr} {op : MatOp} {s : State} {f : Firing} (h : Fires s f) (hfull : 8 ≤ f.cmds.length) (he : exec i s = tileStep (stageCmd op) s) :
    Runs i s (TileFaulted s f 0x143 0 0) := runs_tileFaulted h he (stageCmd_full hfull)

/-- A drain with room for its records on its one port (R299): they are counted there, and it is staged. -/
theorem drainForm_room {acc : Fin 4} {st : Bool} {mask : BitVec 4} {s : State} {x : Nat} {t : Tile} {f : Firing} {p : Fin 4} (hlen : f.cmds.length < 8)
    (hown : st = false → ownsAll (actorCfg t f) [] mask = true) (hp : (if st then steerPorts t else mask) = 1#4 <<< p.val)
    (hroom : f.stage[p].recs + 32 / outRl t p ≤ (actorCfg t f).po[p]) :
    drainForm acc st mask s x t f = .ok (t, { f with stage := f.stage.set p { f.stage[p] with recs := f.stage[p].recs + 32 / outRl t p }, pc := f.pc + 1,
                                                     cmds := f.cmds ++ [{ op := .drain acc st mask, actor := f.actor }] }, 1) := by
  have hforeign : (!st && !ownsAll (actorCfg t f) [] mask) = false := by
    cases st
    · simp [hown rfl]
    · rfl
  have hports := eachPort_one_port (t := t) (p := p) (f := f) (g := { f.stage[p] with recs := f.stage[p].recs + 32 / outRl t p })
    (step := fun rl po g => if po < g.recs + 32 / rl then tfault 0x0C5 else .ok { g with recs := g.recs + 32 / rl }) (if_neg (Nat.not_lt.mpr hroom))
  simp only [drainForm, hforeign, Bool.false_eq_true, if_false, Nat.not_le.mpr hlen, hp, hports]
  exact stageCmd_room hlen

/-! ## Control tokens (R284, R298) -/

theorem guarded_owned {own : ActorCfg → BitVec 4} {p : Fin 4} {body : State → Nat → Tile → Firing → Except TStop (Tile × Firing × Nat)} {s : State} {x : Nat}
    {t : Tile} {f : Firing} (h : (own (actorCfg t f)).getLsbD p = true) : guarded own p body s x t f = body s x t f := if_pos h

theorem takeCtl_held {f : Firing} {c : Fin 4} {b : Bool} (h : (f.ctl[c])[f.ci[c]]? = some b) :
    takeCtl f c = .ok ({ f with ci := f.ci.set c (f.ci[c] + 1) }, b) := by
  unfold takeCtl
  rw [h]

/-- A token read at one input leaves the next one of another where it was. -/
theorem ctl_next_set_ne {f : Firing} {a b : Fin 4} (h : a ≠ b) (n : Nat) : (f.ci.set a n)[b] = f.ci[b] :=
  Vector.getElem_set_ne _ _ (fun e => h (Fin.ext e))

/-- A steer of two inputs reads the next token of each, the first as bit 1, and is staged (R298). -/
theorem runs_steer {s : State} {f : Firing} {a b : Fin 4} {hi lo : Bool} (h : Fires s f) (hlen : f.cmds.length < 8)
    (howna : (actorCfg (onTile s) f).ownC.getLsbD a = true) (hownb : (actorCfg (onTile s) f).ownC.getLsbD b = true) (hne : a ≠ b)
    (hhi : (f.ctl[a])[f.ci[a]]? = some hi) (hlo : (f.ctl[b])[f.ci[b]]? = some lo) :
    Runs (.steer a b) s (FiringLeft s { f with ci := (f.ci.set a (f.ci[a] + 1)).set b (f.ci[b] + 1), pc := f.pc + 1,
                                               cmds := f.cmds ++ [{ op := .steer (BitVec.ofNat 2 (2 * hi.toNat + lo.toNat)), actor := f.actor }] } 1) := by
  have hlo1 : takeCtl { f with ci := f.ci.set a (f.ci[a] + 1) } b =
      .ok ({ f with ci := (f.ci.set a (f.ci[a] + 1)).set b (f.ci[b] + 1) }, lo) := by
    have := takeCtl_held (f := { f with ci := f.ci.set a (f.ci[a] + 1) }) (c := b) (b := lo) (by
      show (f.ctl[b])[(f.ci.set a (f.ci[a] + 1))[b]]? = _
      rw [ctl_next_set_ne hne]; exact hlo)
    rw [this, ctl_next_set_ne hne]
  refine runs_firingLeft h rfl ?_
  rw [guarded_owned howna, guarded_owned hownb]
  simp only [takeCtl_held hhi, hlo1]
  exact stageCmd_room hlen

/-! ## Matrix state read (R300-R303) -/

theorem toNat_mul_eq_ite (b : Bool) (k : Nat) : b.toNat * k = if b then k else 0 := by
  cases b
  · exact Nat.zero_mul k
  · exact Nat.one_mul k

/-- MS in lane 0 as mstat gives it (R140, R301). -/
theorem lanesOf_matStat_bits (m : MatStat) : lanesOf [m.bits] =
    ofLanes (fun l => if l = 0 then BitVec.ofNat 32 (m.cl % 65536 * 65536 + (if m.snan then 8 else 0) + (if m.inf then 4 else 0) +
      (if m.nan then 2 else 0) + (if m.psp then 1 else 0)) else 0) := by
  refine congrArg ofLanes (funext fun l => ?_)
  cases l with
  | zero =>
    have hpsp := toNat_mul_eq_ite m.psp 1
    rw [Nat.mul_one] at hpsp
    simp only [MatStat.bits, toNat_mul_eq_ite, hpsp, List.getD_cons_zero, if_true, Nat.reducePow]
  | succ l => simp

theorem exec_mwait (o : MwaitOp) (s : State) : exec (.mwait o) s = execMwait o s := rfl

section
variable {s : State} {f : Firing} {o : MwaitOp} (hr : Reads s [] 0 o.out.omsk false f [])
include hr

/-- An mwait that stops waiting says whether what it names is idle (R302). -/
theorem runs_mwait_done (hroom : RoomOn (onTile s) f o.out.omsk) (h : mwaitIdle (onTile s) o = true ∨ mwaitEnds s s.site (onTile s) f o = true) :
    Runs (.mwait o) s (GaveOut s { f with wait := none } o.out 1 (splat (if mwaitIdle (onTile s) o then 1 else 0))) := by
  obtain ⟨hf, howns⟩ := hr.of_nil
  have he : exec (.mwait o) s = tileStep (yielding [] 0 o.out 1 false
      (fun _ _ _ f _ => .ok ({ f with wait := none }, splat (if mwaitIdle (onTile s) o then 1 else 0)))) s := by
    refine (exec_mwait o s).trans (tileStep_eq_of_body_eq hf ?_)
    simp [howns, h]
  exact runs_gaveOut he hr rfl hroom

theorem runs_mwait_idle (hroom : RoomOn (onTile s) f o.out.omsk) (hidle : mwaitIdle (onTile s) o = true) :
    Runs (.mwait o) s (GaveOut s { f with wait := none } o.out 1 (ofLanes (fun _ => 1))) := by
  have hrun := runs_mwait_done hr hroom (.inl hidle)
  rwa [hidle] at hrun

theorem runs_mwait_givesUp (hroom : RoomOn (onTile s) f o.out.omsk) (hidle : mwaitIdle (onTile s) o = false) (hends : mwaitEnds s s.site (onTile s) f o = true) :
    Runs (.mwait o) s (GaveOut s { f with wait := none } o.out 1 (ofLanes (fun _ => 0))) := by
  have hrun := runs_mwait_done hr hroom (.inr hends)
  rwa [hidle] at hrun

/-- An mwait that goes on waiting holds issue and keeps the cycle in which it began. -/
theorem runs_mwait_waits (hidle : mwaitIdle (onTile s) o = false) (hends : mwaitEnds s s.site (onTile s) f o = false) :
    Runs (.mwait o) s (FiringLeft s { f with wait := some (f.wait.getD s.now) } 0) := by
  obtain ⟨hf, howns⟩ := hr.of_nil
  exact runs_firingLeft hf (exec_mwait o s) (by simp [howns, hidle, hends])

end

theorem mwaitEnds_of_limit {s : State} {x : Nat} {t : Tile} {f : Firing} {o : MwaitOp} {w : Nat} (hw : f.wait = some w) (hl : o.limit ≠ 0)
    (hn : w + o.limit.toNat ≤ s.now) : mwaitEnds s x t f o = true := by
  have hnz : decide (o.limit ≠ 0) = true := decide_eq_true hl
  simp only [mwaitEnds, hw, Option.getD_some, hn, hnz, decide_true, Bool.and_true, Bool.true_or]

/-- Past its limit, the expiry is the mwait's own turn (R302). -/
theorem exec_mwaitLimitExpiry {s : State} {f : Firing} {o : MwaitOp} {w : Nat} (h : Fires s f) (hdec : decodeTile (tileWord (onTile s) f.pc) = .ok (.mwait o))
    (hw : f.wait = some w) (hl : o.limit ≠ 0) (hn : w + o.limit.toNat ≤ s.now) : exec (.mwaitLimitExpiry s.site) s = exec (.mwait o) s := by
  have hf : (s.tile s.site).firing = some f := h
  show execMwaitLimitExpiry s.site s = execMwait o s
  simp only [onTile] at hdec
  simp only [execMwaitLimitExpiry, hf, hdec, hw, Option.isSome_some, Option.getD_some, Bool.true_and, ne_eq, hl, not_false_eq_true, decide_true, hn, if_true]
  cases execMwait o s <;> rfl

/-! ## The statement -/

/-- Settles O22: each instruction's body is its equation above, and its answer the end that the equation gives it. -/
theorem matrixInstructions : Obligations.MatrixInstructions := by
  unfold Obligations.MatrixInstructions
  constructor
  · intro s f n o oc acc x y off a b hi lo h
    dsimp only
    refine ⟨fun hlen => ⟨runs_staged h hlen rfl, runs_staged h hlen rfl, runs_staged h hlen rfl, runs_staged h hlen rfl, runs_staged h hlen rfl,
      runs_staged h hlen rfl, runs_staged h hlen rfl, fun hown hroom => ?_, fun p hp hroom => ?_, runs_steer h hlen⟩,
      fun hfull => ⟨runs_ninth h hfull rfl, runs_ninth h hfull rfl, runs_ninth h hfull rfl⟩⟩
    -- a drain to the port it names, and one to the port that PM0-PM3 name
    · exact runs_firingLeft h rfl (drainForm_room hlen (fun _ => ownsAll_nil_one_port hown) rfl hroom)
    · exact runs_firingLeft h rfl (drainForm_room hlen (fun hst => by cases hst) hp hroom)
  · intro s f n clr out o site
    dsimp only
    refine ⟨fun hr hroom => ⟨runs_gaveOut rfl hr rfl hroom, ?_⟩,
      fun hr hroom => ⟨runs_mwait_idle hr hroom, runs_mwait_givesUp hr hroom, runs_mwait_waits hr, ?_⟩⟩
    · rw [← lanesOf_matStat_bits]
      exact runs_gaveOut rfl hr rfl hroom
    · rintro w hdec hw hl hn hidle rfl
      obtain ⟨t, hrun, ht⟩ := runs_mwait_givesUp hr hroom hidle (mwaitEnds_of_limit hw hl hn)
      exact runs_next ((exec_mwaitLimitExpiry hr.of_nil.1 hdec hw hl hn).trans hrun) ht

end Sys2Proof.Machine
end

section
/-! PROOF. O11: how a memory node performs the next event of a request. What an event reads and writes is said of numbers in memory, once for the read and
once for the write; the three kinds of access are then one equation each, and what has been performed whole is answered because an answer leaves no
request unanswered that its list names. -/

namespace Sys2Proof.Machine

/-! ## Numbers as bytes -/

theorem ofBytes_lt (l : List Byte) : ofBytes l < 2 ^ (8 * l.length) := by
  induction l with
  | nil => simp [ofBytes]
  | cons b bs ih =>
    have hb := b.isLt
    rw [ofBytes, List.length_cons, Nat.mul_succ, Nat.pow_add]
    omega

theorem ofBytes_bytesOf (n v : Nat) : ofBytes (bytesOf n v) = v % 2 ^ (8 * n) := by
  induction n generalizing v with
  | zero => simp [bytesOf, ofBytes, Nat.mod_one]
  | succ n ih =>
    rw [bytesOf, ofBytes, ih, BitVec.toNat_ofNat, Nat.mul_succ, Nat.add_comm (8 * n), Nat.pow_add, Nat.mod_mul]

theorem bytesOf_getElem? {n i : Nat} (v : Nat) (h : i < n) : (bytesOf n v)[i]? = some (BitVec.ofNat 8 (v / 2 ^ (8 * i))) := by
  induction n generalizing v i with
  | zero => omega
  | succ n ih =>
    cases i with
    | zero => simp [bytesOf]
    | succ i => rw [bytesOf, List.getElem?_cons_succ, ih _ (by omega), Nat.div_div_eq_div_mul, Nat.mul_succ, Nat.add_comm, Nat.pow_add]

/-! ## Numbers in memory (R14, R15) -/

theorem bytesAt_congr {s t : State} {key pa n : Nat} (h : ∀ i, i < n → t.byteAt key (pa + i) = s.byteAt key (pa + i)) :
    t.bytesAt key pa n = s.bytesAt key pa n := by
  refine List.ext_getElem? (fun i => ?_)
  by_cases hi : i < n
  · rw [bytesAt_get _ _ _ _ _ hi, bytesAt_get _ _ _ _ _ hi, h i hi]
  · rw [List.getElem?_eq_none (by simpa using hi), List.getElem?_eq_none (by simpa using hi)]

theorem numAt_lt (s : State) (key pa n : Nat) : s.numAt key pa n < 2 ^ (8 * n) := by
  have h := ofBytes_lt (s.bytesAt key pa n)
  rwa [bytesAt_length] at h

theorem numAt_eq_mod {s : State} {key pa n v : Nat} (h : ∀ i, i < n → s.byteAt key (pa + i) = BitVec.ofNat 8 (v / 2 ^ (8 * i))) :
    s.numAt key pa n = v % 2 ^ (8 * n) := by
  rw [State.numAt, ← ofBytes_bytesOf]
  congr 1
  refine List.ext_getElem? (fun i => ?_)
  by_cases hi : i < n
  · rw [bytesAt_get _ _ _ _ _ hi, bytesOf_getElem? _ hi, h i hi]
  · rw [List.getElem?_eq_none (by simpa using hi), List.getElem?_eq_none (by simpa using hi)]

theorem writeNum_rest (s : State) (key pa n v : Nat) : ∃ m k, s.writeNum key pa n v = { s with mem := m, blockKey := k } :=
  writeBytes_rest _ s key pa

section
variable {s : State} (hwf : Memory.wf s.mem = true) (key pa n v : Nat)
include hwf

theorem writeNum_byteAt {i : Nat} (h : i < n) : (s.writeNum key pa n v).byteAt key (pa + i) = BitVec.ofNat 8 (v / 2 ^ (8 * i)) := by
  rw [State.writeNum, writeBytes_byteAt _ key pa hwf key _ (.inl rfl), bytesOf_length, if_pos (by omega), Nat.add_sub_cancel_left, bytesOf_getElem? v h,
    Option.getD_some]

theorem writeNum_byteAt_outside {x : Nat} (h : x < pa ∨ pa + n ≤ x) : (s.writeNum key pa n v).byteAt key x = s.byteAt key x := by
  rw [State.writeNum, writeBytes_byteAt _ key pa hwf key _ (.inl rfl), bytesOf_length, if_neg (by omega)]

end

/-! ## What an event leaves as it was -/

/-- An event at a memory node has changed no thread, no request and no presence bit. -/
structure LeftByEvent (s t : State) : Prop where
  threads : t.threads = s.threads
  reqs : t.reqs = s.reqs
  isFull : ∀ a, t.isFull a = s.isFull a

theorem noteDomain_rest (s : State) (g : Option Nat) (pa : Nat) : ∃ l, s.noteDomain g pa = { s with groves := l } := by
  unfold State.noteDomain
  split
  · exact ⟨_, rfl⟩
  · exact ⟨s.groves, rfl⟩

theorem noteDomain_byteAt (s : State) (g : Option Nat) (pa key a : Nat) : (s.noteDomain g pa).byteAt key a = s.byteAt key a := by
  obtain ⟨l, e⟩ := noteDomain_rest s g pa
  rw [e]
  rfl

theorem noteDomain_mem (s : State) (g : Option Nat) (pa : Nat) : (s.noteDomain g pa).mem = s.mem := by
  obtain ⟨l, e⟩ := noteDomain_rest s g pa
  rw [e]

theorem noteDomain_numAt (s : State) (g : Option Nat) (x key pa n : Nat) : (s.noteDomain g x).numAt key pa n = s.numAt key pa n :=
  congrArg ofBytes (bytesAt_congr (fun _ _ => noteDomain_byteAt s g x key _))

theorem noteDomain_badAt (s : State) (g : Option Nat) (x pa n : Nat) : (s.noteDomain g x).badAt pa n = s.badAt pa n := by
  obtain ⟨l, e⟩ := noteDomain_rest s g x
  rw [e]
  rfl

theorem leftByEvent_noteDomain (s : State) (g : Option Nat) (pa : Nat) : LeftByEvent s (s.noteDomain g pa) := by
  obtain ⟨l, e⟩ := noteDomain_rest s g pa
  rw [e]
  exact ⟨rfl, rfl, fun _ => rfl⟩

theorem LeftByEvent.writeNum {s t : State} (h : LeftByEvent s t) (key pa n v : Nat) : LeftByEvent s (t.writeNum key pa n v) := by
  obtain ⟨m, k, e⟩ := writeNum_rest t key pa n v
  rw [e]
  exact ⟨h.threads, h.reqs, h.isFull⟩

/-! ## Answers set out (R71, R72) -/

/-- A request that has been performed whole and has no answer yet; an engine's read is answered by its response. -/
def MemReq.awaitsAnswer (r : MemReq) : Bool :=
  r.pieces.isEmpty && r.ans = 0 && (match r.kind with
    | .engineRead _ _ => false
    | _ => true)

/-- The answer of one request set out: one round of `answerAll`. -/
def answerOne (s : State) (r : MemReq) : State :=
  let s1 := { s with reqs := s.reqs.map (fun q => if q.id = r.id then { q with ans := if r.direct then 2 else 1 } else q) }
  if r.direct then s1
  else if r.slice.isSome then s1.send (answerPacket s r)
  else { s1 with packets := s1.packets ++ [{ (answerPacket s r).sealed with id := s1.nextId, at_ := .hub, due := s1.now }], nextId := s1.nextId + 1 }

theorem answerAll_eq (s : State) : answerAll s = (s.reqs.filter MemReq.awaitsAnswer).foldl answerOne s := rfl

theorem answerOne_reqs (s : State) (r : MemReq) :
    (answerOne s r).reqs = s.reqs.map (fun q => if q.id = r.id then { q with ans := if r.direct then 2 else 1 } else q) := by
  unfold answerOne
  cases r.direct
  · cases r.slice <;> rfl
  · rfl

/-- A request that is still unanswered is none of those whose answers were set out. -/
theorem mem_foldl_answerOne {l : List MemReq} {s : State} {q : MemReq} (hq : q ∈ (l.foldl answerOne s).reqs) (hans : q.ans = 0) :
    q ∈ s.reqs ∧ ∀ r ∈ l, q.id ≠ r.id := by
  induction l generalizing s with
  | nil => exact ⟨hq, by simp⟩
  | cons r rest ih =>
    obtain ⟨hq1, hrest⟩ := ih hq
    rw [answerOne_reqs] at hq1
    obtain ⟨q0, hq0, rfl⟩ := List.mem_map.mp hq1
    by_cases hid : q0.id = r.id
    · rw [if_pos hid] at hans
      dsimp only at hans
      split at hans <;> cases hans
    · rw [if_neg hid] at hrest ⊢
      exact ⟨hq0, List.forall_mem_cons.mpr ⟨hid, hrest⟩⟩

/-- Once answers are set out, only an engine's read is performed whole and unanswered. -/
theorem engineRead_of_unanswered {s : State} {r : MemReq} (hr : r ∈ (answerAll s).reqs) (hp : r.pieces = []) (hans : r.ans = 0) :
    ∃ x g, r.kind = .engineRead x g := by
  rw [answerAll_eq] at hr
  obtain ⟨hmem, hids⟩ := mem_foldl_answerOne hr hans
  have hnot : r.awaitsAnswer = false := Bool.eq_false_iff.mpr (fun h => hids r (List.mem_filter.mpr ⟨hmem, h⟩) rfl)
  cases hk : r.kind with
  | engineRead x g => exact ⟨x, g, rfl⟩
  | _ => simp [MemReq.awaitsAnswer, hp, hans, hk] at hnot

/-! ## Atomics (R312) -/

theorem signedOf_eq_toInt {n v : Nat} (hn : 0 < n) (hv : v < 2 ^ (8 * n)) : signedOf n v = (BitVec.ofNat (8 * n) v).toInt := by
  have h2 : 2 ^ (8 * n) = 2 * 2 ^ (8 * n - 1) := by rw [← Nat.pow_succ']; congr 1; omega
  rw [BitVec.toInt_eq_toNat_cond, BitVec.toNat_ofNat, Nat.mod_eq_of_lt hv, signedOf]
  by_cases h : 2 ^ (8 * n - 1) ≤ v
  · rw [if_pos h, if_neg (by omega)]
    push_cast
    rfl
  · rw [if_neg h, if_pos (by omega)]

/-- The value an atomic leaves is its operation's, and fits the word. -/
theorem amoResult_mod {op n m b e : Nat} (hn : 0 < n) (hop : op < 5) (hm : m < 2 ^ (8 * n)) (hb : b < 2 ^ (8 * n)) :
    amoResult op n m b e % 2 ^ (8 * n) =
      (if op = 0 then (m + b) % 2 ^ (8 * n)
       else if op = 1 then (if (BitVec.ofNat (8 * n) b).toInt < (BitVec.ofNat (8 * n) m).toInt then b else m)
       else if op = 2 then (if (BitVec.ofNat (8 * n) m).toInt < (BitVec.ofNat (8 * n) b).toInt then b else m)
       else if op = 3 then b
       else if m = e then b else m) := by
  rw [← signedOf_eq_toInt hn hm, ← signedOf_eq_toInt hn hb]
  match op, hop with
  | 0, _ => exact Nat.mod_mod _ _
  | 1, _ | 2, _ | 4, _ =>
    refine Nat.mod_eq_of_lt ?_
    simp only [amoResult]
    split <;> assumption
  | 3, _ => exact Nat.mod_eq_of_lt hb

/-! ## The next event of a request: it goes back with what is left of it (R166, R167) -/

theorem performPiece_load {s : State} {r : MemReq} {size : Nat} {signed : Bool} (hk : r.kind = .load size signed) (off n pa : Nat)
    (rest : List (Nat × Nat × Nat)) : performPiece s r off n pa rest =
      putBack s { r with pieces := rest, res := r.res + s.numAt r.key pa n * 2 ^ (8 * off), bad := r.bad || s.badAt pa n } := by
  rw [performPiece, hk]

theorem performPiece_store {s : State} {r : MemReq} {size v : Nat} (hk : r.kind = .store size v) (off n pa : Nat) (rest : List (Nat × Nat × Nat)) :
    performPiece s r off n pa rest = putBack (s.writeNum r.key pa n (v / 2 ^ (8 * off))) { r with pieces := rest } := by
  rw [performPiece, hk]

theorem performPiece_amo {s : State} {r : MemReq} {op size b e : Nat} (hk : r.kind = .amo op size b e) (off n pa : Nat) (rest : List (Nat × Nat × Nat)) :
    performPiece s r off n pa rest = putBack (s.writeNum r.key pa size (amoResult op size (s.numAt r.key pa size) b e))
      { r with pieces := rest, res := s.numAt r.key pa size, bad := s.badAt pa n } := by
  rw [performPiece, hk]

/-- The request `r` stands as `r1`, and what has been performed whole is answered. -/
def PutBackAs (s : State) (r r1 : MemReq) (t : State) : Prop :=
  t.threads = s.threads ∧ ∃ t0, t = answerAll t0 ∧ t0.reqs = s.reqs.map (fun q => if q.id = r.id then r1 else q)

section
variable {s : State} {r : MemReq} {p : Point} {off n pa : Nat} {rest : List (Nat × Nat × Nat)} (hfind : s.reqs.find? (fun q => q.id = r.id) = some r)
  (hpieces : r.pieces = (off, n, pa) :: rest) (hpoint : r.nextPoint s = some p) (hparked : r.parked = false) (hmay : mayPerform s r p = true)
include hfind hpieces hpoint hparked hmay

theorem exec_memoryRequestPerform :
    exec (.memoryRequestPerform r.id) s = .next (answerAll (performPiece (s.noteDomain (r.groveOf s) pa) r off n pa rest)) := by
  show execMemoryRequestPerform r.id s = _
  simp only [execMemoryRequestPerform, hfind, hpieces, hpoint, hparked, hmay, Bool.not_true, Bool.or_self, Bool.false_eq_true, if_false, performEvent]

/-- An event that puts its request back in `s1` leaves memory as it stands in `s1`. -/
theorem runs_putBack {s1 : State} {r1 : MemReq} {P : State → Prop}
    (hperf : performPiece (s.noteDomain (r.groveOf s) pa) r off n pa rest = putBack s1 r1) (hid : r1.id = r.id) (hleft : LeftByEvent s s1)
    (hP : ∀ t, PutBackAs s r r1 t → (∀ key a, t.byteAt key a = s1.byteAt key a) → (∀ a, t.isFull a = s.isFull a) → P t) :
    Runs (.memoryRequestPerform r.id) s P := by
  refine runs_next (exec_memoryRequestPerform hfind hpieces hpoint hparked hmay) ?_
  rw [hperf]
  have hreqs : (putBack s1 r1).reqs = s.reqs.map (fun q => if q.id = r.id then r1 else q) := by rw [putBack, hleft.reqs, hid]
  obtain ⟨q, k, i, e⟩ := answerAll_rest (putBack s1 r1)
  refine hP _ ⟨?_, putBack s1 r1, rfl, hreqs⟩ ?_ ?_ <;> rw [e]
  · exact hleft.threads
  · exact fun _ _ => rfl
  · exact hleft.isFull

theorem runs_load {size : Nat} {signed : Bool} (hk : r.kind = .load size signed) : Runs (.memoryRequestPerform r.id) s (fun t => SameMemory s t ∧
    PutBackAs s r { r with pieces := rest, res := r.res + ofBytes (s.bytesAt r.key pa n) * 2 ^ (8 * off), bad := r.bad || s.badAt pa n } t) := by
  have hperf := performPiece_load (s := s.noteDomain (r.groveOf s) pa) hk off n pa rest
  rw [noteDomain_numAt, noteDomain_badAt] at hperf
  refine runs_putBack hfind hpieces hpoint hparked hmay hperf rfl (leftByEvent_noteDomain s _ pa) (fun t hback hbytes hfull => ⟨⟨?_, hfull⟩, hback⟩)
  exact fun key a => (hbytes key a).trans (noteDomain_byteAt s _ pa key a)

variable (hinv : Inv s)
include hinv

theorem runs_store {size v : Nat} (hk : r.kind = .store size v) : Runs (.memoryRequestPerform r.id) s (fun t => PutBackAs s r { r with pieces := rest } t ∧
    (∀ i, i < n → t.byteAt r.key (pa + i) = BitVec.ofNat 8 (v / 2 ^ (8 * (off + i)))) ∧
    (∀ x, x < pa ∨ pa + n ≤ x → t.byteAt r.key x = s.byteAt r.key x) ∧ ∀ x, t.isFull x = s.isFull x) := by
  have hwf : Memory.wf (s.noteDomain (r.groveOf s) pa).mem = true := by rw [noteDomain_mem]; exact hinv
  refine runs_putBack hfind hpieces hpoint hparked hmay (performPiece_store hk off n pa rest) rfl ((leftByEvent_noteDomain s _ pa).writeNum _ _ _ _)
    (fun t hback hbytes hfull => ⟨hback, fun i hi => ?_, fun x hx => ?_, hfull⟩)
  · rw [hbytes, writeNum_byteAt hwf _ _ _ _ hi, Nat.div_div_eq_div_mul, ← Nat.pow_add, ← Nat.mul_add]
  · rw [hbytes, writeNum_byteAt_outside hwf _ _ _ _ hx, noteDomain_byteAt]

theorem runs_amo {op size b e : Nat} (hk : r.kind = .amo op size b e) : Runs (.memoryRequestPerform r.id) s (fun t =>
    PutBackAs s r { r with pieces := rest, res := s.numAt r.key pa size, bad := s.badAt pa n } t ∧
    (∀ x, x < pa ∨ pa + size ≤ x → t.byteAt r.key x = s.byteAt r.key x) ∧ (∀ x, t.isFull x = s.isFull x) ∧
    t.numAt r.key pa size = amoResult op size (s.numAt r.key pa size) b e % 2 ^ (8 * size)) := by
  have hwf : Memory.wf (s.noteDomain (r.groveOf s) pa).mem = true := by rw [noteDomain_mem]; exact hinv
  have hperf := performPiece_amo (s := s.noteDomain (r.groveOf s) pa) hk off n pa rest
  rw [noteDomain_numAt, noteDomain_badAt] at hperf
  refine runs_putBack hfind hpieces hpoint hparked hmay hperf rfl ((leftByEvent_noteDomain s _ pa).writeNum _ _ _ _)
    (fun t hback hbytes hfull => ⟨hback, fun x hx => ?_, hfull, numAt_eq_mod (fun i hi => ?_)⟩)
  · rw [hbytes, writeNum_byteAt_outside hwf _ _ _ _ hx, noteDomain_byteAt]
  · rw [hbytes, writeNum_byteAt hwf _ _ _ _ hi]

end

/-- Settles O11: a load, a store and an atomic are each one event on one number in memory, and the requests performed whole are the ones answered. -/
theorem requestsArePerformed : Obligations.RequestsArePerformed := by
  unfold Obligations.RequestsArePerformed
  refine ⟨?_, fun s => ⟨answerAll_rest s, fun r => engineRead_of_unanswered⟩⟩
  intro s r p off n pa rest hinv hfind hpieces hpoint hparked hmay
  refine ⟨fun size signed hk => runs_load hfind hpieces hpoint hparked hmay hk, fun size v hk => runs_store hfind hpieces hpoint hparked hmay hinv hk,
    fun op size b e hk hsize hop => ?_⟩
  obtain ⟨t, hrun, hback, hbytes, hfull, hnum⟩ := runs_amo hfind hpieces hpoint hparked hmay hinv hk
  have hpos : 0 < size := by omega
  exact runs_next hrun ⟨hback, hbytes, hfull, fun hb => hnum.trans (amoResult_mod hpos hop (numAt_lt s r.key pa size) hb)⟩

end Sys2Proof.Machine
end

section
/-! PROOF. O28: how a stream command binds. The command's three answers (it waits, it traps, it binds) are one equation each; what binding does is read off the
thread, the queue and the engine one by one, and the slots of a fill off the fold that sets them up, which no change of the queue or the engines
redirects, since circuits are traced through configurations alone. The checks of the stream word and the taking of a queued command follow. -/

namespace Sys2Proof.Machine

/-! ## The issuing thread's counters and its retirement (R154, R155) -/

theorem ctr_addCtr (th : Thread) (c k : Ctr) (n : Nat) : (th.addCtr c n).ctr k = th.ctr k + if k = c then n else 0 := by
  cases c <;> cases k <;> rfl

theorem reg_addCtr (th : Thread) (c : Ctr) (n : Nat) (r : Reg) : (th.addCtr c n).reg r = th.reg r := by cases c <;> rfl

theorem RetiredAt.addCtr {a b : Thread} {pc : Nat} (h : RetiredAt a b pc) (c : Ctr) (n : Nat) : RetiredAt a (b.addCtr c n) pc := by cases c <;> exact h

theorem SameSystem.addCtr {a b : Thread} (h : SameSystem a b) (c : Ctr) (n : Nat) : SameSystem a (b.addCtr c n) := by cases c <;> exact h

theorem SameCounters.ctr_eq {a b : Thread} (h : SameCounters a b) (k : Ctr) : b.ctr k = a.ctr k := by
  obtain ⟨hld, hst, hcp, hmx⟩ := h
  cases k <;> assumption

/-- Everything retiring an instruction does whose give waits for the end of an operation: the same as of one that completes as it retires. -/
theorem retire_spec (th : Thread) (pc : Nat) :
    (∀ r, (th.retire pc).1.reg r = th.reg r) ∧ RetiredAt th (th.retire pc).1 pc ∧ SameSystem th (th.retire pc).1 ∧ SameCounters th (th.retire pc).1 := by
  unfold Thread.retire
  rcases h : th.mark with _ | ⟨_ | _, f⟩ <;>
    exact ⟨fun _ => rfl, by simp [h, RetiredAt, Thread.ranTo, Thread.endGroup], ⟨rfl, rfl, rfl, rfl, rfl, rfl, rfl, rfl, rfl, rfl, rfl⟩, rfl, rfl, rfl, rfl⟩

/-! ## Engines and circuits -/

theorem engineOf_setEngine (s : State) (x : Nat) {e : Nat} (v : Engine) (h : e < 2) : engineOf (setEngine s x e v) x e = v := by
  simp [engineOf, setEngine, at_, h]

theorem setEngine_cfg (s : State) (x e : Nat) (v : Engine) (y : Nat) : ((setEngine s x e v).slice y).cfg = (s.slice y).cfg := by
  by_cases h : y = x
  · subst h; simp [setEngine]
  · rw [setEngine, State.setSlice_slice_ne _ _ _ _ h]

theorem traceFrom_congr {s t : State} (h : ∀ x, cfgOf t x = cfgOf s x) (fuel x src lat : Nat) : traceFrom t fuel x src lat = traceFrom s fuel x src lat := by
  induction fuel generalizing x src lat with
  | zero => rfl
  | succ fuel ih => simp only [traceFrom, h, ih]

/-- A circuit's sinks are fixed by the configurations of the sites (R11, R68). -/
theorem cpSinks_congr {s t : State} (h : ∀ x, cfgOf t x = cfgOf s x) (x cp : Nat) : cpSinks t x cp = cpSinks s x cp := traceFrom_congr h _ _ _ _

/-! ## The slots of a fill (R56, R89) -/

/-- The slot of one sink set up: one round of `setupFill`. -/
def slotSetUp (st : Stream) (g : Grove) (s : State) (q : Nat × Nat × Nat) : State :=
  s.setTile q.1 { s.tile q.1 with
    slots := at_ (s.tile q.1).slots st.slot (fun old => slotBegin g (s.tile q.1) old st (fillBytes g st.pat st.fmt st.geo)) }

theorem setupFill_eq {s : State} {st : Stream} {x : Nat} (h : sidSlice (streamGrove s st) st.sid = some x) :
    setupFill s st = (cpSinks s x st.cp).foldl (slotSetUp st (streamGrove s st)) s := by
  simp only [setupFill, h]
  rfl

/-- Setting slots up changes the tiles and nothing else. -/
theorem setupFill_rest (s : State) (st : Stream) : ∃ l, setupFill s st = { s with tiles := l } := by
  cases h : sidSlice (streamGrove s st) st.sid with
  | none => exact ⟨s.tiles, by simp only [setupFill, h]⟩
  | some x =>
    rw [setupFill_eq h]
    refine List.foldlRecOn (motive := fun t : State => ∃ l, t = { s with tiles := l }) _ _ ⟨s.tiles, rfl⟩ ?_
    rintro t ⟨l, rfl⟩ q -
    exact ⟨_, rfl⟩

/-- The slot a fill goes to awaits its bytes under its number, stamped by the generation `gen`. -/
def SlotAwaits (st : Stream) (g : Grove) (gen : Nat) (t : Tile) : Prop :=
  ∃ sl, t.slots[st.slot]? = some sl ∧ sl.pending = fillBytes g st.pat st.fmt st.geo ∧ sl.sid = st.op ∧ sl.gen = gen

theorem slotSetUp_gen (st : Stream) (g : Grove) (s : State) (q : Nat × Nat × Nat) (y : Nat) : ((slotSetUp st g s q).tile y).gen = (s.tile y).gen := by
  by_cases h : y = q.1
  · subst h; simp [slotSetUp]
  · rw [slotSetUp, State.setTile_tile_ne _ _ _ _ h]

theorem slotSetUp_self {st : Stream} (hslot : st.slot < 8) (g : Grove) (s : State) (q : Nat × Nat × Nat) :
    SlotAwaits st g (s.tile q.1).gen ((slotSetUp st g s q).tile q.1) := by
  refine ⟨slotBegin g (s.tile q.1) (s.tile q.1).slots[st.slot] st (fillBytes g st.pat st.fmt st.geo), ?_, rfl, rfl, rfl⟩
  rw [slotSetUp, State.setTile_tile, Vector.getElem?_eq_getElem hslot, at_get, if_pos rfl]

theorem foldl_slotSetUp_of_notMem {st : Stream} {g : Grove} {l : List (Nat × Nat × Nat)} {y : Nat} (h : ∀ q ∈ l, y ≠ q.1) (s : State) :
    (l.foldl (slotSetUp st g) s).tile y = s.tile y := by
  refine List.foldlRecOn (motive := fun t : State => t.tile y = s.tile y) _ _ rfl (fun t ht q hq => ?_)
  rw [slotSetUp, State.setTile_tile_ne _ _ _ _ (h q hq), ht]

theorem foldl_slotSetUp_awaits {st : Stream} (hslot : st.slot < 8) (g : Grove) {l : List (Nat × Nat × Nat)} {y : Nat} (h : ∃ q ∈ l, y = q.1) (s : State) :
    SlotAwaits st g (s.tile y).gen ((l.foldl (slotSetUp st g) s).tile y) := by
  induction l generalizing s with
  | nil => simp at h
  | cons q rest ih =>
    rw [List.foldl_cons]
    by_cases hrest : ∃ q ∈ rest, y = q.1
    · rw [← slotSetUp_gen st g s q y]
      exact ih hrest _
    · obtain rfl : y = q.1 := by
        obtain ⟨p, hp, e⟩ := h
        rcases List.mem_cons.mp hp with rfl | hp
        · exact e
        · exact absurd ⟨p, hp, e⟩ hrest
      rw [foldl_slotSetUp_of_notMem (fun p hp e => hrest ⟨p, hp, e⟩)]
      exact slotSetUp_self hslot g s q

/-- The tile of each sink of a fill's circuit awaits its bytes. -/
theorem setupFill_awaits {s : State} {st : Stream} {x y id lat : Nat} (hx : sidSlice (streamGrove s st) st.sid = some x) (hslot : st.slot < 8)
    (hy : (y, id, lat) ∈ cpSinks s x st.cp) : SlotAwaits st (streamGrove s st) (s.tile y).gen ((setupFill s st).tile y) := by
  rw [setupFill_eq hx]
  exact foldl_slotSetUp_awaits hslot _ ⟨_, hy, rfl⟩ s

/-! ## Binding (R324) -/

/-- The engine a stream of an id binds on (R325). -/
def Stream.engine (st : Stream) : Nat := st.sid / 256 % 2

theorem Stream.engine_lt (st : Stream) : st.engine < 2 := Nat.mod_lt _ (by decide)

/-- The issuing thread once its command of stream `st` with `n` follow-ons is bound. -/
def boundThread (s : State) (d : Reg) (st : Stream) (n : Nat) : Thread :=
  (((s.me.setReg d (BitVec.ofNat 64 st.sid) (s.now + 1)).retire s.me.next).1.addCtr (streamCtr st.kind) 1).addCtr .mx n

/-- What starting an operation and queueing a command leave as it was. -/
structure QueueKept (s t : State) : Prop where
  slices : t.slices = s.slices
  tiles : t.tiles = s.tiles
  groves : t.groves = s.groves
  mem : t.mem = s.mem
  blockKey : t.blockKey = s.blockKey
  full : t.full = s.full

theorem QueueKept.setMe {s t : State} (h : QueueKept s t) (th : Thread) : QueueKept s (t.setMe th) :=
  ⟨h.slices, h.tiles, h.groves, h.mem, h.blockKey, h.full⟩

theorem QueueKept.setCore {s t : State} (h : QueueKept s t) (c : Nat) (v : Core) : QueueKept s (t.setCore c v) :=
  ⟨h.slices, h.tiles, h.groves, h.mem, h.blockKey, h.full⟩

theorem QueueKept.startOp {s t : State} (h : QueueKept s t) (c : Ctr) (k : Nat) : QueueKept s (startOp t c k none) :=
  ⟨h.slices, h.tiles, h.groves, h.mem, h.blockKey, h.full⟩

theorem startOp_me (s : State) (c : Ctr) (k : Nat) : (startOp s c k none).me = (s.me.retire s.me.next).1.addCtr c k := State.setMe_me s _

theorem startOp_focus (s : State) (c : Ctr) (k : Nat) : (startOp s c k none).focus = s.focus := rfl

theorem startOp_coreOf (s : State) (c : Ctr) (k p : Nat) : (startOp s c k none).coreOf p = s.coreOf p := rfl

theorem startOp_thr_ne (s : State) (c : Ctr) (k : Nat) {p : Nat} (h : p ≠ s.focus) : (startOp s c k none).thr p = s.thr p := State.setMe_thr_ne s _ p h

/-- A command put in the queue of core `c` and counted by its thread, which goes on. -/
def queueCommand (s : State) (c : Nat) (d : Reg) (st : Stream) (n : Nat) (q : Queued) : State :=
  let s2 := startOp (s.setMe (s.me.setReg d (BitVec.ofNat 64 st.sid) (s.now + 1))) (streamCtr st.kind) 1 none
  let s3 := s2.setMe (s2.me.addCtr .mx n)
  s3.setCore c { s3.coreOf c with cmdq := (s3.coreOf c).cmdq ++ [q] }

section
variable (s : State) (c : Nat) (d : Reg) (st : Stream) (n : Nat) (q : Queued)

theorem queueCommand_me : (queueCommand s c d st n q).me = boundThread s d st n := by
  rw [queueCommand, State.setCore_me, State.setMe_me, startOp_me, State.setMe_me, next_setReg, boundThread]

theorem queueCommand_thr_ne {p : Nat} (h : p ≠ s.focus) : (queueCommand s c d st n q).thr p = s.thr p := by
  rw [queueCommand, State.setCore_thr, State.setMe_thr_ne, startOp_thr_ne, State.setMe_thr_ne _ _ _ h]
  · rwa [State.setMe_focus]
  · rwa [startOp_focus, State.setMe_focus]

theorem queueCommand_coreOf : (queueCommand s c d st n q).coreOf c = { s.coreOf c with cmdq := (s.coreOf c).cmdq ++ [q] } := by
  rw [queueCommand, State.setCore_coreOf, State.setMe_coreOf, startOp_coreOf, State.setMe_coreOf]

theorem queueKept_queueCommand : QueueKept s (queueCommand s c d st n q) :=
  ((((QueueKept.mk rfl rfl rfl rfl rfl rfl : QueueKept s s).setMe _).startOp _ _).setMe _).setCore _ _

end

/-- The engine of a stream has counted one more bind. -/
def countBind (s : State) (x : Nat) (st : Stream) : State :=
  setEngine s x st.engine { engineOf s x st.engine with binds := (engineOf s x st.engine).binds + 1 }

theorem countBind_nextId (s : State) (x : Nat) (st : Stream) : (countBind s x st).nextId = s.nextId := rfl

theorem countBind_focus (s : State) (x : Nat) (st : Stream) : (countBind s x st).focus = s.focus := rfl

theorem countBind_coreOf (s : State) (x : Nat) (st : Stream) (c : Nat) : (countBind s x st).coreOf c = s.coreOf c := rfl

theorem countBind_tiles (s : State) (x : Nat) (st : Stream) : (countBind s x st).tiles = s.tiles := rfl

theorem countBind_groves (s : State) (x : Nat) (st : Stream) : (countBind s x st).groves = s.groves := rfl

theorem countBind_thr (s : State) (x : Nat) (st : Stream) (p : Nat) : (countBind s x st).thr p = s.thr p := rfl

theorem countBind_binds (s : State) (x : Nat) (st : Stream) : (engineOf (countBind s x st) x st.engine).binds = (engineOf s x st.engine).binds + 1 := by
  rw [countBind, engineOf_setEngine _ _ _ st.engine_lt]

theorem countBind_cfgOf (s : State) (x : Nat) (st : Stream) (y : Nat) : cfgOf (countBind s x st) y = cfgOf s y := by
  simp only [cfgOf, countBind, setEngine_cfg]
  rfl

/-- A bound command before the slots of a fill are set up and the trim counter of its id is cleared. -/
def queueStream (s : State) (d : Reg) (x : Nat) (st : Stream) : State :=
  queueCommand (countBind s x st) (s.focus / 8) d st (followCount s x st) { slice := x, eng := st.engine, stream := { st with op := (countBind s x st).nextId } }

section
variable (s : State) (d : Reg) (x : Nat) (st : Stream)

theorem queueStream_me : (queueStream s d x st).me = boundThread s d st (followCount s x st) := queueCommand_me _ _ _ _ _ _

theorem queueStream_thr_ne {p : Nat} (h : p ≠ s.focus) : (queueStream s d x st).thr p = s.thr p := by
  rw [queueStream, queueCommand_thr_ne _ _ _ _ _ _ (by rwa [countBind_focus]), countBind_thr]

theorem queueStream_cmdq : ((queueStream s d x st).coreOf (s.focus / 8)).cmdq =
    (s.coreOf (s.focus / 8)).cmdq ++ [{ slice := x, eng := st.engine, stream := { st with op := s.nextId } }] := by
  rw [queueStream, queueCommand_coreOf, countBind_coreOf, countBind_nextId]

theorem queueKept_queueStream : QueueKept (countBind s x st) (queueStream s d x st) := queueKept_queueCommand _ _ _ _ _ _

theorem queueStream_binds : (engineOf (queueStream s d x st) x st.engine).binds = (engineOf s x st.engine).binds + 1 := by
  rw [← countBind_binds]
  simp only [engineOf, State.slice, (queueKept_queueStream s d x st).slices]

theorem queueStream_cfgOf (y : Nat) : cfgOf (queueStream s d x st) y = cfgOf s y := by
  rw [← countBind_cfgOf s x st]
  simp only [cfgOf, State.slice, State.tile, (queueKept_queueStream s d x st).slices, (queueKept_queueStream s d x st).tiles]

theorem queueStream_tile (y : Nat) : (queueStream s d x st).tile y = s.tile y := by
  rw [State.tile, (queueKept_queueStream s d x st).tiles, countBind_tiles, State.tile]

theorem queueStream_streamGrove (st1 : Stream) : streamGrove (queueStream s d x st) st1 = streamGrove s st1 := by
  rw [streamGrove, State.grove, (queueKept_queueStream s d x st).groves, countBind_groves, streamGrove, State.grove]

theorem queueStream_sameMemory : SameMemory s (queueStream s d x st) :=
  have h := queueKept_queueStream s d x st
  sameMemory_of_eq h.mem h.blockKey h.full

theorem bindStream_of_gen (h : st.gen.isSome = true) : bindStream s d x st = queueStream s d x st := if_pos h

theorem bindStream_of_no_gen (h : st.gen = none) : ∃ l, bindStream s d x st =
    (if st.kind = .fill then setupFill { queueStream s d x st with trims := l } { st with op := s.nextId } else { queueStream s d x st with trims := l }) := by
  rw [← countBind_nextId s x st]
  exact ⟨_, if_neg (by simp [h])⟩

/-- Beyond the queue, binding changes trim counters and tiles only: what does not look at them holds as it holds of the queue. -/
theorem bindStream_of_queueStream {P : State → Prop} (htrims : ∀ t l, P t → P { t with trims := l }) (htiles : ∀ t l, P t → P { t with tiles := l })
    (h : P (queueStream s d x st)) : P (bindStream s d x st) := by
  cases hg : st.gen with
  | some g =>
    rw [bindStream_of_gen s d x st (by simp [hg])]
    exact h
  | none =>
    obtain ⟨l, e⟩ := bindStream_of_no_gen s d x st hg
    rw [e]
    split
    · obtain ⟨m, e1⟩ := setupFill_rest { queueStream s d x st with trims := l } { st with op := s.nextId }
      rw [e1]
      exact htiles _ m (htrims _ l h)
    · exact htrims _ l h

theorem bindStream_me : (bindStream s d x st).me = boundThread s d st (followCount s x st) :=
  bindStream_of_queueStream s d x st (P := fun t => t.me = _) (fun _ _ h => h) (fun _ _ h => h) (queueStream_me s d x st)

theorem bindStream_thr_ne {p : Nat} (h : p ≠ s.focus) : (bindStream s d x st).thr p = s.thr p :=
  bindStream_of_queueStream s d x st (P := fun t => t.thr p = _) (fun _ _ h => h) (fun _ _ h => h) (queueStream_thr_ne s d x st h)

theorem bindStream_cmdq : ((bindStream s d x st).coreOf (s.focus / 8)).cmdq =
    (s.coreOf (s.focus / 8)).cmdq ++ [{ slice := x, eng := st.engine, stream := { st with op := s.nextId } }] :=
  bindStream_of_queueStream s d x st (P := fun t => (t.coreOf (s.focus / 8)).cmdq = _) (fun _ _ h => h) (fun _ _ h => h) (queueStream_cmdq s d x st)

theorem bindStream_binds : (engineOf (bindStream s d x st) x st.engine).binds = (engineOf s x st.engine).binds + 1 :=
  bindStream_of_queueStream s d x st (P := fun t => (engineOf t x st.engine).binds = _) (fun _ _ h => h) (fun _ _ h => h) (queueStream_binds s d x st)

theorem bindStream_sameMemory : SameMemory s (bindStream s d x st) :=
  bindStream_of_queueStream s d x st (P := SameMemory s) (fun _ _ h => h) (fun _ _ h => h) (queueStream_sameMemory s d x st)

variable {s x st}

/-- A fill that no open generation holds back has its slots waiting at once. -/
theorem bindStream_awaits (hk : st.kind = .fill) (hg : st.gen = none) (hx : sidSlice (streamGrove s st) st.sid = some x) (hslot : st.slot < 8)
    {y id lat : Nat} (hy : (y, id, lat) ∈ cpSinks s x st.cp) :
    SlotAwaits { st with op := s.nextId } (streamGrove s st) (s.tile y).gen ((bindStream s d x st).tile y) := by
  obtain ⟨l, e⟩ := bindStream_of_no_gen s d x st hg
  have hcfg := queueStream_cfgOf s d x st
  have htile := queueStream_tile s d x st y
  have hgrove := queueStream_streamGrove s d x st st
  generalize queueStream s d x st = t at e hcfg htile hgrove
  rw [e, if_pos hk, ← hgrove, ← htile]
  refine setupFill_awaits (s := { t with trims := l }) (x := x) (id := id) (lat := lat) ?_ hslot ?_
  · rw [← hgrove] at hx
    exact hx
  · rw [← cpSinks_congr hcfg] at hy
    rwa [cpSinks_congr (t := { t with trims := l }) (s := t) (fun _ => rfl)]

variable (s st)

theorem boundThread_reg (n : Nat) : (boundThread s d st n).reg d = if d = 0 then 0 else BitVec.ofNat 64 st.sid := by
  rw [boundThread, reg_addCtr, reg_addCtr, (retire_spec _ _).1, reg_setReg]

theorem boundThread_otherRegs (n : Nat) : OtherRegs s.me (boundThread s d st n) d := fun r hr => by
  rw [boundThread, reg_addCtr, reg_addCtr, (retire_spec _ _).1, reg_setReg_ne _ _ _ _ _ hr]

theorem boundThread_ctr (n : Nat) (k : Ctr) :
    (boundThread s d st n).ctr k = s.me.ctr k + (if k = streamCtr st.kind then 1 else 0) + if k = .mx then n else 0 := by
  obtain ⟨-, -, -, hretire⟩ := retire_spec (s.me.setReg d (BitVec.ofNat 64 st.sid) (s.now + 1)) s.me.next
  obtain ⟨-, hset, -⟩ := setReg_system s.me d (BitVec.ofNat 64 st.sid) (s.now + 1)
  rw [boundThread, ctr_addCtr, ctr_addCtr, hretire.ctr_eq, hset.ctr_eq]

theorem boundThread_retired (n : Nat) : RetiredAt s.me (boundThread s d st n) s.me.next := by
  obtain ⟨-, hretire, -, -⟩ := retire_spec (s.me.setReg d (BitVec.ofNat 64 st.sid) (s.now + 1)) s.me.next
  refine RetiredAt.addCtr (RetiredAt.addCtr ?_ _ _) _ _
  simpa only [RetiredAt, Thread.setReg_mark, Thread.setReg_fifos, Thread.setReg_gives] using hretire

theorem boundThread_sameSystem (n : Nat) : SameSystem s.me (boundThread s d st n) := by
  obtain ⟨-, -, hretire, -⟩ := retire_spec (s.me.setReg d (BitVec.ofNat 64 st.sid) (s.now + 1)) s.me.next
  refine SameSystem.addCtr (SameSystem.addCtr ?_ _ _) _ _
  simpa only [SameSystem, Thread.setReg_cause, Thread.setReg_epc, Thread.setReg_tval, Thread.setReg_trapActive, Thread.setReg_role, Thread.setReg_gen,
    Thread.setReg_strict, Thread.setReg_specs, Thread.setReg_frsrc, Thread.setReg_frec, Thread.setReg_fences] using hretire

theorem streamCtr_ne_mx (k : StreamKind) : streamCtr k ≠ .mx := by cases k <;> decide

end

/-! ## The answers of a stream command (R324, R326) -/

section
variable {i : Instr} {k : StreamKind} {d : Reg} {va sw : State → Nat} {srcs : List Reg} {s : State} (he : exec i s = .next (streamForm k d va sw srcs s))
  (hissue : Issues s { srcs := srcs, dst := some d, spec := k = .load || k = .fill || k = .gather }) (hread : recordRead s k (va s) (sw s) = true)
  (hroom : HasRoom s (streamCtr k)) (hlen : (s.coreOf (s.focus / 8)).cmdq.length < 1024)
include he hissue hread hroom hlen

theorem exec_streamForm_faults {c : Cause} {bad : Nat} (hcheck : bindCheck s k (va s) (sw s) = .error (c, bad)) :
    exec i s = .next (trapMe s c (BitVec.ofNat 64 bad)) := by
  have hroom : ctrFull s.me (streamCtr k) 1 = false := hroom
  rw [he, streamForm, issue_eq _ _ _ hissue]
  simp [hread, hroom, Nat.not_le.mpr hlen, hcheck]

variable {x : Nat} {st : Stream} (hcheck : bindCheck s k (va s) (sw s) = .ok (x, st))
include hcheck

theorem exec_streamForm_waits (hahead : bindsAhead s st = true) : exec i s = .next (stall s) := by
  have hroom : ctrFull s.me (streamCtr k) 1 = false := hroom
  rw [he, streamForm, issue_eq _ _ _ hissue]
  simp [hread, hroom, Nat.not_le.mpr hlen, hcheck, hahead]

theorem exec_streamForm_binds (hmx : ctrFull s.me .mx (followCount s x st) = false) (hahead : bindsAhead s st = false) : exec i s = .next (bindStream s d x st) := by
  have hroom : ctrFull s.me (streamCtr k) 1 = false := hroom
  rw [he, streamForm, issue_eq _ _ _ hissue]
  simp [hread, hroom, Nat.not_le.mpr hlen, hcheck, hmx, hahead]

end

/-! ## The stream word (R325, R326) -/

theorem exists_testBit_of_field {v lo len : Nat} (h : v / 2 ^ lo % 2 ^ len ≠ 0) : ∃ i, i < len ∧ v.testBit (lo + i) = true := by
  obtain ⟨i, hi⟩ := Nat.exists_testBit_of_ne_zero h
  rw [Nat.testBit_mod_two_pow, Nat.testBit_div_two_pow, Bool.and_eq_true, decide_eq_true_eq, Nat.add_comm] at hi
  exact ⟨i, hi⟩

/-- A set bit that a command does not use makes its stream word ill-formed. -/
theorem swordBits_of_testBit {k : StreamKind} {v i : Nat} (hi : i < 64) (hv : v.testBit i = true) (hmask : (swordMask k).testBit i = false) :
    swordBits k v = true := by
  have hbit : BitVec.ofNat 64 v &&& ~~~BitVec.ofNat 64 (swordMask k) ≠ 0 := fun h => by
    have hget : (BitVec.ofNat 64 v &&& ~~~BitVec.ofNat 64 (swordMask k)).getLsbD i = false := by rw [h]; exact BitVec.getLsbD_zero
    rw [BitVec.getLsbD_and, BitVec.getLsbD_not, BitVec.getLsbD_ofNat, BitVec.getLsbD_ofNat, hv, hmask, decide_eq_true hi] at hget
    exact absurd hget (by decide)
  simp only [swordBits, decide_eq_true hbit, Bool.true_or]

theorem swordMask_high (k : StreamKind) : ∀ i, i < 2 → (swordMask k).testBit (28 + i) = false := by cases k <;> decide

theorem swordMask_middle {k : StreamKind} (hcut : k ≠ .cut) (hscatter : k ≠ .scatter) : ∀ i, i < 7 → (swordMask k).testBit (16 + i) = false := by
  cases k with
  | cut => exact absurd rfl hcut
  | scatter => exact absurd rfl hscatter
  | _ => decide

theorem swordBits_of_high {k : StreamKind} {v : Nat} (h : v / 2 ^ 28 % 4 ≠ 0) : swordBits k v = true := by
  obtain ⟨i, hi, hv⟩ := exists_testBit_of_field (lo := 28) (len := 2) h
  exact swordBits_of_testBit (by omega) hv (swordMask_high k i hi)

theorem swordBits_of_middle {k : StreamKind} {v : Nat} (hcut : k ≠ .cut) (hscatter : k ≠ .scatter) (h : v / 2 ^ 16 % 128 ≠ 0) : swordBits k v = true := by
  obtain ⟨i, hi, hv⟩ := exists_testBit_of_field (lo := 16) (len := 7) h
  exact swordBits_of_testBit (by omega) hv (swordMask_middle hcut hscatter i hi)

theorem swordOf_sl (v : Nat) : (swordOf v).sl = v % 128 := by simp [swordOf, field]

theorem swordOf_ls {v : Nat} (h : v / 2 ^ 10 % 2 = 1) : (swordOf v).ls = true := by
  show v.testBit 10 = true
  rw [Nat.testBit_eq_decide_div_mod_eq, decide_eq_true h]

theorem swordOf_node (v : Nat) : (swordOf v).node = v / 2 ^ 11 % 4 := rfl

/-- A result was given, so the guard before it has not refused. -/
theorem ok_of_ite_error {ε α : Type} {c : Prop} [Decidable c] {e : ε} {r : Except ε α} {a : α} (h : (if c then .error e else r) = Except.ok a) : r = .ok a := by
  split at h
  · cases h
  · exact h

section
variable {s : State} {g : Grove} {k : StreamKind} {v : Nat}

theorem swordCheck_of_no_slice (h : g.slices.length ≤ v % 128) : swordCheck s g k v = .error (0x251, 0) := by
  have hsl : g.sliceAt (swordOf v).sl = none := by rw [swordOf_sl, Grove.sliceAt, List.getElem?_eq_none h]
  simp only [swordCheck, hsl]

theorem swordCheck_slice {y : Nat} (h : swordCheck s g k v = .ok y) : g.slices[v % 128]? = some y := by
  rw [← swordOf_sl, ← Grove.sliceAt]
  cases hsl : g.sliceAt (swordOf v).sl with
  | none => simp [swordCheck, hsl] at h
  | some x =>
    simp only [swordCheck, hsl] at h
    cases ok_of_ite_error (ok_of_ite_error h)
    rfl

variable {x : Nat} (hx : g.slices[v % 128]? = some x)
include hx

/-- The faults of a stream word that its slice does not decide alone: a bit not used, LS in an exact grove, a node of another kind. -/
theorem swordCheck_of_fault (h : swordBits k v = true ∨ ((swordOf v).ls = true ∧ g.exact = true) ∨
    ∃ n, nodeNeed k = some n ∧ (((s.slice x).cfg.nodes)[v / 2 ^ 11 % 4]?.map (·.kind)) ≠ some n) : swordCheck s g k v = .error (0x251, 0) := by
  have hsl : g.sliceAt (swordOf v).sl = some x := by rw [swordOf_sl]; exact hx
  have hnode : ∀ n, (((s.slice x).cfg.nodes)[v / 2 ^ 11 % 4]?.map (·.kind)) ≠ some n →
      ((s.slice x).cfg.nodes.toList[(swordOf v).node]?.getD {}).kind ≠ n := fun n hn => by
    have hlt : v / 2 ^ 11 % 4 < 4 := Nat.mod_lt _ (by decide)
    rw [swordOf_node, Vector.getElem?_toList]
    rw [Vector.getElem?_eq_getElem hlt] at hn ⊢
    exact fun e => hn (congrArg some e)
  simp only [swordCheck, hsl]
  refine if_pos ?_
  rcases h with hbits | ⟨hls, hexact⟩ | ⟨n, hneed, hn⟩
  · simp [hbits]
  · simp [hls, hexact]
  · rw [hneed, Option.any_some, decide_eq_true (hnode n hn), Bool.or_true, Bool.true_or, Bool.true_or]

end

/-! ## The checks of a stream command (R326, R327) -/

/-- What the checks of a command give: a stream of its kind and its thread, under the next id of its engine. -/
def BindsAs (s : State) (k : StreamKind) (x : Nat) (w : SWord) (st : Stream) : Prop := st.kind = k ∧ st.thread = s.focus ∧ st.sid = nextSid s x w

theorem bindsAs_of_patternBind {s : State} {g : Grove} {k : StreamKind} {x : Nat} {w : SWord} {va : Nat} {st : Stream}
    (h : patternBind s g k x w va = .ok st) : BindsAs s k x w st := by
  unfold patternBind at h
  split at h
  · cases h
  split at h
  · cases h
  dsimp only at h
  -- the guards of a fill, a store and a gather; the other kinds have none
  split at h
  · have h := ok_of_ite_error h
    split at h <;> cases h
    exact ⟨rfl, rfl, rfl⟩
  · cases ok_of_ite_error (ok_of_ite_error h)
    exact ⟨rfl, rfl, rfl⟩
  · cases ok_of_ite_error h
    exact ⟨rfl, rfl, rfl⟩
  · cases h
    exact ⟨rfl, rfl, rfl⟩

theorem bindsAs_of_cutBind {s : State} {g : Grove} {x : Nat} {w : SWord} {sw va : Nat} {st : Stream}
    (h : cutBind s g x w sw va = .ok st) : BindsAs s .cut x w st := by
  unfold cutBind at h
  split at h
  · cases h
  -- past the record's own checks, the format of the values' page, and the slots
  have h := ok_of_ite_error (ok_of_ite_error h)
  split at h
  · cases h
  have h := ok_of_ite_error (ok_of_ite_error (ok_of_ite_error h))
  split at h <;> cases h
  exact ⟨rfl, rfl, rfl⟩

/-- All checks of a command are passed only on the slice its word names, with the stream they give. -/
theorem bindsAs_of_bindCheck {s : State} {k : StreamKind} {va sw y : Nat} {st : Stream} (h : bindCheck s k va sw = .ok (y, st)) :
    (myGrove s).slices[sw % 128]? = some y ∧ BindsAs s k y (swordOf sw) st := by
  cases hw : swordCheck s (myGrove s) k sw with
  | error e => simp [bindCheck, hw] at h
  | ok x =>
    simp only [bindCheck, hw] at h
    split at h
    · cases h
    · next st1 hst =>
      cases h
      refine ⟨swordCheck_slice hw, ?_⟩
      split at hst
      · exact bindsAs_of_cutBind hst
      · cases hst
        exact ⟨rfl, rfl, rfl⟩
      · exact bindsAs_of_patternBind hst

theorem bindCheck_of_swordCheck {s : State} {k : StreamKind} {sw : Nat} {e : Cause × Nat} (h : swordCheck s (myGrove s) k sw = .error e) (va : Nat) :
    bindCheck s k va sw = .error e := by
  simp only [bindCheck, h]

theorem nextSid_swordOf (s : State) (x sw : Nat) :
    nextSid s x (swordOf sw) = sw % 128 * 512 + sw / 128 % 2 * 256 + (engineOf s x (swordOf sw).eng).binds % 256 := by
  rw [nextSid, swordOf_sl]
  rfl

/-! ## The command queue (R47, R142, R145) -/

theorem waitsFor_comm (p q : Queued) : waitsFor p q = waitsFor q p := by
  rw [Bool.eq_iff_iff]
  simp only [waitsFor, Bool.and_eq_true, Bool.or_eq_true, decide_eq_true_eq]
  constructor <;> rintro ⟨⟨⟨hslice, hp⟩, hq⟩, hwant⟩ <;> exact ⟨⟨⟨hslice.symm, hq⟩, hp⟩, hwant.imp Eq.symm And.symm⟩

/-- A queued command, with its place, that may take its generator now. -/
def mayDequeue (s : State) (l : List Queued) (p : Queued × Nat) : Bool := mayBind s p.1 && !((l.take p.2).any (waitsFor · p.1))

theorem mayDequeue_of_mayBind_false {s : State} {l : List Queued} {p : Queued × Nat} (h : mayBind s p.1 = false) : mayDequeue s l p = false := by
  rw [mayDequeue, h, Bool.false_and]

/-- What no command of a list may do, none does at its place. -/
theorem find?_mayDequeue_eq_none {s : State} {l m : List Queued} (h : ∀ q ∈ m, mayBind s q = false) (n : Nat) : (m.zipIdx n).find? (mayDequeue s l) = none := by
  refine List.find?_eq_none.mpr (fun p hp => ?_)
  rw [mayDequeue_of_mayBind_false (h p.1 (List.fst_mem_of_mem_zipIdx hp))]
  decide

theorem find?_mayDequeue {s : State} {front rest : List Queued} {q : Queued} (hfront : ∀ f ∈ front, mayBind s f = false) (hq : mayBind s q = true)
    (hwait : ∀ f ∈ front, waitsFor q f = false) :
    (front ++ q :: rest).zipIdx.find? (mayDequeue s (front ++ q :: rest)) = some (q, front.length) := by
  have hleave : mayDequeue s (front ++ q :: rest) (q, front.length) = true := by
    have hnone : front.any (waitsFor · q) = false := List.any_eq_false.mpr (fun f hf => by rw [waitsFor_comm, hwait f hf]; decide)
    rw [mayDequeue, hq, List.take_left', hnone]
    · rfl
    · rfl
  rw [List.zipIdx_append, List.find?_append, find?_mayDequeue_eq_none hfront, Nat.zero_add, List.zipIdx_cons, List.find?_cons_of_pos hleave]
  rfl

theorem freeGen_spec {s : State} {x e k : Nat} (h : freeGen s x e = some k) (he : e < 2) : k < 8 ∧ k / 4 = e ∧ genStream s x k = none := by
  have hfree := List.find?_some h
  obtain ⟨i, hi, rfl⟩ := List.mem_map.mp (List.mem_of_find?_eq_some h)
  have hi := List.mem_range.mp hi
  exact ⟨by omega, by omega, by simpa using hfree⟩

section
variable {s : State} {cluster g : Nat} (hg : (s.coreOf cluster).grove = some g) (hrun : (s.grove g).run ≠ .embering)
include hg hrun

theorem dequeue_none (h : (s.coreOf cluster).cmdq.zipIdx.find? (mayDequeue s (s.coreOf cluster).cmdq) = none) :
    exec (.streamCommandDequeue cluster) s = .next s := by
  show execStreamCommandDequeue cluster s = _
  unfold mayDequeue at h
  simp [execStreamCommandDequeue, hg, hrun, h]

theorem dequeue_first {q : Queued} {i k : Nat} (h : (s.coreOf cluster).cmdq.zipIdx.find? (mayDequeue s (s.coreOf cluster).cmdq) = some (q, i))
    (hk : freeGen s q.slice q.eng = some k) : exec (.streamCommandDequeue cluster) s =
      .next (setGen (s.setCore cluster { s.coreOf cluster with cmdq := (s.coreOf cluster).cmdq.eraseIdx i }) q.slice k (some (q.stream.atBind s q.slice))) := by
  show execStreamCommandDequeue cluster s = _
  unfold mayDequeue at h
  simp [execStreamCommandDequeue, hg, hrun, h, hk]

end

theorem genStream_setCore (s : State) (c : Nat) (v : Core) (x k : Nat) : genStream (s.setCore c v) x k = genStream s x k := rfl

/-! ## The statement -/

/-- Settles O28: each command is `streamForm` of its kind, whose answers are its three equations; the word's checks and the queue's choice are theirs. -/
theorem streamsBind : Obligations.StreamsBind := by
  unfold Obligations.StreamsBind
  refine ⟨?_, ?_, ?_⟩
  · intro s d a b vec c va sw form
    have hform (i : Instr) (k : StreamKind) (vf : State → Nat) (srcs : List Reg) (he : exec i s = .next (streamForm k d vf (regAt b) srcs s))
        (hissue : Issues s { srcs := srcs, dst := some d, spec := k = .load || k = .fill || k = .gather }) : form i k (vf s) (streamCtr k) := by
      intro hread hroom hlen
      refine ⟨fun x st hcheck hmx => ⟨fun hahead => ?_, fun hahead => ?_⟩, fun k' bad hcheck htrap => ?_⟩
      · exact runs_next (exec_streamForm_waits he hissue hread hroom hlen hcheck hahead) (stalled_stall s)
      · obtain ⟨-, hkind, -, -⟩ := bindsAs_of_bindCheck hcheck
        refine runs_next (exec_streamForm_binds he hissue hread hroom hlen hcheck hmx hahead) ?_
        rw [bindStream_me, ← hkind]
        refine ⟨bindStream_cmdq s d x st, boundThread_reg s d st _, boundThread_otherRegs s d st _, ?_, ?_, fun k1 hctr hmx1 => ?_,
          boundThread_retired s d st _, boundThread_sameSystem s d st _, fun q => bindStream_thr_ne s d x st, bindStream_sameMemory s d x st,
          bindStream_binds s d x st, fun y id lat hfill hgen hx hslot hy => bindStream_awaits d hfill hgen hx hslot hy⟩
        · have hcount := boundThread_ctr s d st (followCount s x st) .mx
          rw [if_neg (streamCtr_ne_mx st.kind).symm, if_pos rfl] at hcount
          exact hcount
        · rw [boundThread_ctr, if_pos rfl, if_neg (streamCtr_ne_mx st.kind)]
        · rw [boundThread_ctr, if_neg hctr, if_neg hmx1, Nat.add_zero]
      · exact runs_next (exec_streamForm_faults he hissue hread hroom hlen hcheck) (trapped_trapMe s k' _ vec htrap)
    exact ⟨fun h => ⟨hform _ .load (regAt a) _ rfl h, hform _ .fill (regAt a) _ rfl h, hform _ .gather (regAt a) _ rfl h⟩,
      fun h => ⟨hform _ .store (regAt a) _ rfl h, hform _ .cut (regAt a) _ rfl h⟩, fun h => hform _ .scatter (fun _ => 0) _ rfl h⟩
  · intro s k va sw g w
    refine ⟨fun h => bindCheck_of_swordCheck (swordCheck_of_no_slice h) va, fun x hx => ?_⟩
    have hfault {k : StreamKind} (h) : bindCheck s k va sw = .error (0x251, 0) := bindCheck_of_swordCheck (swordCheck_of_fault hx h) va
    refine ⟨fun hcut hscatter h => hfault (.inl (swordBits_of_middle hcut hscatter h)), fun h => hfault (.inl (swordBits_of_high h)),
      fun hexact h => hfault (.inr (.inl ⟨swordOf_ls h, hexact⟩)), fun hk h => ?_, fun hk h => ?_, fun y st h => ?_⟩
    · subst hk
      exact hfault (.inr (.inr ⟨2, rfl, h⟩))
    · subst hk
      exact hfault (.inr (.inr ⟨1, rfl, h⟩))
    · obtain ⟨hy, hkind, hthread, hsid⟩ := bindsAs_of_bindCheck h
      obtain rfl : y = x := Option.some.inj (hy.symm.trans hx)
      exact ⟨rfl, hkind, hthread, hsid.trans (nextSid_swordOf s y sw)⟩
  · intro s cluster front q rest k g hq hg hrun hfront
    refine ⟨fun hbind hwait hfree heng => ?_, fun hnone => ?_⟩
    · obtain ⟨hk, hke, hnone⟩ := freeGen_spec hfree heng
      have hfirst : (s.coreOf cluster).cmdq.zipIdx.find? (mayDequeue s (s.coreOf cluster).cmdq) = some (q, front.length) := by
        rw [hq]
        exact find?_mayDequeue hfront hbind hwait
      refine runs_next (dequeue_first hg hrun hfirst hfree) ⟨?_, genStream_setGen _ _ _ _ hk, hnone, hke, rfl, sameMemory_of_eq rfl rfl rfl, fun x j hne => ?_⟩
      · show ((s.setCore cluster _).coreOf cluster).cmdq = _
        rw [State.setCore_coreOf, hq, List.eraseIdx_append_of_length_le (Nat.le_refl _), Nat.sub_self, List.eraseIdx_cons_zero]
      · rw [genStream_setGen_ne _ _ _ _ _ _ hne, genStream_setCore]
    · refine runs_next (dequeue_none hg hrun ?_) rfl
      rw [hq]
      exact find?_mayDequeue_eq_none (fun p hp => (List.mem_append.mp hp).elim (hfront p) (hnone p)) 0

end Sys2Proof.Machine
end
